-- ==== Sys2Proof/Word.lean ====
section
/-!
DEFINITION. The word types of the model and the two containers every other file uses: `Lanes` (one value for each
of the eight lanes of a group, R11) and `FMap` (plain data by numeric key, in one sorted form).
-/
namespace Sys2Proof

abbrev Byte := BitVec 8
abbrev W32 := BitVec 32
abbrev W64 := BitVec 64

/-- One value for each lane position 0 to 7 of a group (R11). -/
structure Lanes (α : Type) where
  l0 : α
  l1 : α
  l2 : α
  l3 : α
  l4 : α
  l5 : α
  l6 : α
  l7 : α
  deriving DecidableEq, Repr

namespace Lanes

def get {α : Type} (v : Lanes α) (i : Fin 8) : α :=
  match i with
  | 0 => v.l0
  | 1 => v.l1
  | 2 => v.l2
  | 3 => v.l3
  | 4 => v.l4
  | 5 => v.l5
  | 6 => v.l6
  | 7 => v.l7

def ofFn {α : Type} (f : Fin 8 → α) : Lanes α :=
  ⟨f 0, f 1, f 2, f 3, f 4, f 5, f 6, f 7⟩

def splat {α : Type} (x : α) : Lanes α := ofFn fun _ => x

def set {α : Type} (v : Lanes α) (i : Fin 8) (x : α) : Lanes α :=
  ofFn fun j => if j = i then x else v.get j

def map {α β : Type} (f : α → β) (v : Lanes α) : Lanes β := ofFn fun i => f (v.get i)

def toList {α : Type} (v : Lanes α) : List α :=
  [v.l0, v.l1, v.l2, v.l3, v.l4, v.l5, v.l6, v.l7]

end Lanes

/-- The lane positions in ascending order, the order of R48. -/
def laneList : List (Fin 8) := [0, 1, 2, 3, 4, 5, 6, 7]

/-- A set of lanes. -/
abbrev Mask := Lanes Bool

namespace Mask

def none : Mask := Lanes.splat false
def full : Mask := Lanes.splat true
def inter (a b : Mask) : Mask := Lanes.ofFn fun i => a.get i && b.get i
def union (a b : Mask) : Mask := Lanes.ofFn fun i => a.get i || b.get i
def diff (a b : Mask) : Mask := Lanes.ofFn fun i => a.get i && !b.get i
def lanes (a : Mask) : List (Fin 8) := laneList.filter fun i => a.get i
def any (a : Mask) : Bool := laneList.any fun i => a.get i
def subset (a b : Mask) : Bool := laneList.all fun i => !a.get i || b.get i
def count (a : Mask) : Nat := a.lanes.length

/-- The mask as a byte: bit n for lane n (R182). -/
def toByte (a : Mask) : Byte :=
  BitVec.ofNat 8 ((laneList.map fun i => if a.get i then 2 ^ i.val else 0).sum)

def ofByte (b : Byte) : Mask := Lanes.ofFn fun i => b.getLsbD i.val

end Mask

/-- Plain data by numeric key: a list sorted by key with no key twice. -/
abbrev FMap (α : Type) := List (Nat × α)

namespace FMap

def find? {α : Type} : FMap α → Nat → Option α
  | [], _ => .none
  | (k, v) :: m, j => if j = k then some v else find? m j

def insert {α : Type} : FMap α → Nat → α → FMap α
  | [], j, x => [(j, x)]
  | (k, v) :: m, j, x =>
    if j < k then (j, x) :: (k, v) :: m
    else if j = k then (j, x) :: m
    else (k, v) :: insert m j x

def erase {α : Type} : FMap α → Nat → FMap α
  | [], _ => []
  | (k, v) :: m, j => if j = k then erase m j else (k, v) :: erase m j

/-- Reading with a default for the keys that the list does not name. -/
def getD {α : Type} (m : FMap α) (d : α) (k : Nat) : α := (find? m k).getD d

/-- Writing in the canonical form of a map with default d: an entry equal to the default is not listed. -/
def put {α : Type} [DecidableEq α] (m : FMap α) (d : α) (k : Nat) (x : α) : FMap α :=
  if x = d then erase m k else insert m k x

/-- Changes the value at a key that is present. -/
def adjust {α : Type} (m : FMap α) (k : Nat) (f : α → α) : FMap α :=
  match find? m k with
  | some v => insert m k (f v)
  | .none => m

/-- The keys rise strictly. -/
def sorted {α : Type} : FMap α → Bool
  | [] => true
  | [_] => true
  | (a, _) :: (b, y) :: m => decide (a < b) && sorted ((b, y) :: m)

def vals {α : Type} (m : FMap α) : List α := List.map Prod.snd m

/-- The keys of the entries that satisfy p, ascending. -/
def keysWhere {α : Type} (m : FMap α) (p : Nat → α → Bool) : List Nat :=
  (List.filter (fun (e : Nat × α) => p e.1 e.2) m).map Prod.fst

def mapVals {α β : Type} (m : FMap α) (f : Nat → α → β) : FMap β :=
  List.map (fun (e : Nat × α) => (e.1, f e.1 e.2)) m

end FMap

end Sys2Proof
end

