-- ==== Sys2Proof/Config.lean ====
section
/-!
DEFINITION. What an implementation fixes and the manual leaves open: the free values (constants with no body, about
which nothing can be proved) and the few choices that the assumption log names.
-/
namespace Sys2Proof.Config

/-- Free bytes and words for values the manual leaves undefined; the argument is `Package.free`, which every use
advances (log entry 1). -/
opaque freeByte : Nat → Byte
opaque freeWord : Nat → W32

/-- A byte of code that a group of the launch which fetches it has written, by its address, the fetching group and the cycle
(R244; log entry 25). -/
opaque codeByte : Nat → Nat → Nat → Byte

/-- The promised completion time of a copy, an estimate that the manual does not fix (R263; log entry 11). -/
opaque freeTime : Nat → W64

/-- Which translation an access made before a covering `tlbinv` uses, of the new one and the older ones (R366; log entry
2): the argument is `Package.free`, the answer counts from the new one on, going round. -/
opaque staleTranslation : Nat → Nat

/-- Whether the request engine uses the record that its record cache holds, where memory holds another (R270; log
entry 10). -/
opaque staleRecord : Nat → Bool

/-- The result of a rounding that the enclosure of the transcendental functions does not decide (log entry 3):
a function of the operation (0 exp2, 1 log2, 2 tanh), the rounding mode and the operand's bits. -/
opaque undecidedRounding : Nat → Nat → Nat → W32

/-- The bytes of the attestation report and identity key that rest on secrets and images outside the manual (R370;
log entry 4): field number, byte index, and the bytes signed or hashed. -/
opaque attested : Nat → Nat → List Byte → Byte

/-- The die temperature, package power and core event counts that the manual does not model (R373, R323; log entry 5). -/
opaque telemetry : Nat → Nat → W64

/-- The package-wide hash that chooses the home slice of a line, over the dies that are not lost, which the manual does
not give (R101, R393; log entry 9). -/
opaque sliceHash : BitVec 4 → Nat → Nat

/-- The slices of the dies that are not lost: 12 on each die, 48 in all (R1). -/
def slices (lost : BitVec 4) : List Nat := (List.range 48).filter fun n => !lost.getLsbD (n / 12)

/-- The home slice of a line (R101), recomputed over the remaining slices when a die fails (R393). -/
def homeSlice (lost : BitVec 4) (line : Nat) : Nat := (slices lost).getD (sliceHash lost line % (slices lost).length) 0

/-- Whether a line of a failed die's slices held writes not yet written back (R393; log entry 13). -/
opaque lostDirty : Nat → Bool

/-- The mapping of the package's memory to CXL ports, which the manual does not give (R394; log entry 14). -/
opaque portHash : Nat → Nat

/-- The CXL port behind a line of the package's memory: one of the package's 8 (R1). -/
def cxlPort (line : Nat) : Nat := portHash line % 8

/-- The context number of the service firmware, which the manual does not give (DESIGN CHOICE, log entry 6). -/
def firmwareContext : Nat := 4095

/-- The byte that a memory address reads which nothing has written (DESIGN CHOICE, log entry 7). -/
def unwrittenByte : Byte := 0

end Sys2Proof.Config
end

