-- ==== Sys2Proof/Syntax.lean ====
section
/-!
DEFINITION. The syntax of the Lanitum L9's steps: the operand kinds of R36, R37, R51 and R52, one shape for each form
the entries share, and the one inductive `Instr` with a constructor for every row of the opcode table. Rows without an
encoding (the events of the table) take the choice of agent or place as their arguments.
-/
namespace Sys2Proof

/-! ## Modifiers (R36, R60) -/

/-- Integer types, numbers 0 to 7 (R126). -/
inductive IType where
  | i8 | i16 | i32 | i64 | n8 | n16 | n32 | n64
  deriving DecidableEq, Repr

/-- Float types of class 1, numbers 0 to 4. -/
inductive FType where
  | f32 | f16 | bf16 | f16x2 | bf16x2
  deriving DecidableEq, Repr

/-- Element types of class 3, numbers 0 to 10. -/
inductive LType where
  | int (t : IType)
  | f32 | f16 | bf16
  deriving DecidableEq, Repr

/-- Block formats (bfmt), numbers 0 to 5. -/
inductive BFmt where
  | w4 | w3 | e4m3 | e5m2 | bf16 | f16
  deriving DecidableEq, Repr

/-- Rounding modes, numbers 0 to 4 (R128). -/
inductive Rnd where
  | rne | rtz | rup | rdn | rna
  deriving DecidableEq, Repr

/-- Conditions, numbers 0 to 5. -/
inductive Cond where
  | eq | ne | lt | le | gt | ge
  deriving DecidableEq, Repr

/-- Scopes, numbers 0 to 5, each containing every narrower one (R228). -/
inductive Scope where
  | grp | core | die | pkg | pod | sys
  deriving DecidableEq, Repr

/-- Orders, numbers 0 to 3 (R230). -/
inductive Order where
  | plain | acq | rel | acqrel
  deriving DecidableEq, Repr

/-- Access widths, numbers 0 to 5: 1 to 32 bytes per lane. -/
inductive Width where
  | w1 | w2 | w4 | w8 | w16 | w32
  deriving DecidableEq, Repr

/-- Reduction operations of class 3, numbers 0 to 7. -/
inductive Lop where
  | add | min | max | and | or | xor | argmax | argmin
  deriving DecidableEq, Repr

/-- The atomic types of R117: the operand type, and whether the target is local memory. -/
inductive AKind where
  | i32 | n32 | i64 | n64 | f32 | f16x2 | bf16x2
  deriving DecidableEq, Repr

/-- Item classes (R337). -/
inductive ICls where
  | u | o | a
  deriving DecidableEq, Repr

/-- Matrix alignments (R193). -/
inductive Align where
  | a8 | a12 | a16
  deriving DecidableEq, Repr

/-- Kinds of `mxmul` (R188). -/
inductive MxKind where
  | e4m3 | bf16 | acc
  deriving DecidableEq, Repr

/-- Conversions of `mxrd` (R188). -/
inductive MxConv where
  | f32 | bf16 | f16
  deriving DecidableEq, Repr

/-- Collective kinds (R279). -/
inductive CKind where
  | allred | allgat | redsc | bcast | samp
  deriving DecidableEq, Repr

/-! ## Operands -/

/-- A vector register that is read, with its wait bit (R25, R54). -/
structure VSrc where
  r : BitVec 10
  x : Bool
  deriving DecidableEq, Repr

/-- A vector register that is written at issue, with the T bit (R22). -/
structure VDst where
  r : BitVec 10
  t : Bool
  deriving DecidableEq, Repr

/-- A uniform operand in the layout of R52: a scalar register, or the nine bits that name a vector register or an even
pair. -/
inductive Uni where
  | s (r : BitVec 5)
  | v (r : BitVec 9) (x : Bool)
  deriving DecidableEq, Repr

/-- A destination in the layout of R52. -/
inductive UDst where
  | s (r : BitVec 5)
  | v (r : BitVec 9) (t : Bool)
  deriving DecidableEq, Repr

/-- A vector b operand or an immediate b (R56). -/
inductive BOp where
  | reg (v : VSrc)
  | imm (i : W32)
  deriving DecidableEq, Repr

/-- A scalar b operand or an immediate b. -/
inductive SOp where
  | reg (r : BitVec 5)
  | imm (i : W32)
  deriving DecidableEq, Repr

/-- The memory operand of R39; its base is the uniform layout, and an absent offset is imm[24] = 1. -/
structure MemRef where
  base : Uni
  off : Option VSrc
  disp : BitVec 24
  deriving DecidableEq, Repr

/-- The mask word of R61. -/
structure MaskWord where
  det : Bool
  held : Bool
  ferry : Bool
  copies : Bool
  pred : BitVec 7
  jmask : BitVec 16
  banks : BitVec 8
  regions : BitVec 16
  chunks : W32
  deriving DecidableEq, Repr

/-- Guard, hint and safe point, which every instruction has (R49, R55, R58, R59). -/
structure Hdr where
  gn : Bool
  gp : BitVec 3
  hint : BitVec 2
  sp : Option MaskWord
  deriving DecidableEq, Repr

/-! ## Shapes: the forms that the entries share -/

structure IBin where
  h : Hdr
  ty : IType
  sat : Bool
  d : VDst
  a : VSrc
  b : BOp
  deriving DecidableEq, Repr

structure IUn where
  h : Hdr
  ty : IType
  sat : Bool
  d : VDst
  a : VSrc
  deriving DecidableEq, Repr

structure ITri where
  h : Hdr
  ty : IType
  sat : Bool
  d : VDst
  a : VSrc
  b : VSrc
  c : VSrc
  deriving DecidableEq, Repr

structure LeaF where
  h : Hdr
  ty : IType
  sat : Bool
  d : VDst
  a : VSrc
  b : VSrc
  k : BitVec 3
  deriving DecidableEq, Repr

structure ICmpF where
  h : Hdr
  ty : IType
  cond : Cond
  p : BitVec 3
  a : VSrc
  b : BOp
  deriving DecidableEq, Repr

structure SelF where
  h : Hdr
  ty : IType
  p : BitVec 3
  d : VDst
  a : VSrc
  b : BOp
  deriving DecidableEq, Repr

structure MoviF where
  h : Hdr
  ty : IType
  d : VDst
  imm : W32
  deriving DecidableEq, Repr

structure CvtiF where
  h : Hdr
  ty : IType
  src : IType
  sat : Bool
  d : VDst
  a : VSrc
  deriving DecidableEq, Repr

structure RngF where
  h : Hdr
  d : VDst
  a : VSrc
  b : BitVec 5
  n : Byte
  deriving DecidableEq, Repr

/-- The operand options of class 1 (R157). -/
structure FOpt where
  na : Bool
  nb : Bool
  aa : Bool
  ab : Bool
  satf : Bool
  deriving DecidableEq, Repr

structure FBin where
  h : Hdr
  ty : FType
  rnd : Rnd
  o : FOpt
  d : VDst
  a : VSrc
  b : BOp
  deriving DecidableEq, Repr

structure FTri where
  h : Hdr
  ty : FType
  rnd : Rnd
  o : FOpt
  d : VDst
  a : VSrc
  b : VSrc
  c : VSrc
  deriving DecidableEq, Repr

structure FUn where
  h : Hdr
  ty : FType
  rnd : Rnd
  o : FOpt
  d : VDst
  a : VSrc
  deriving DecidableEq, Repr

structure FCmpF where
  h : Hdr
  ty : FType
  cond : Cond
  o : FOpt
  p : BitVec 3
  a : VSrc
  b : BOp
  deriving DecidableEq, Repr

/-- `cvtf`: the target type stands in mod, the source type in imm (R164). -/
structure CvtfF where
  h : Hdr
  ty : FType
  src : FType
  rnd : Rnd
  o : FOpt
  d : VDst
  a : VSrc
  deriving DecidableEq, Repr

/-- `cvtif` and `cvtfi`: the float type stands in mod, the integer type in imm (R164). -/
structure CvtiiF where
  h : Hdr
  ty : FType
  it : IType
  rnd : Rnd
  o : FOpt
  d : VDst
  a : VSrc
  deriving DecidableEq, Repr

structure ScencF where
  h : Hdr
  bf : BFmt
  rnd : Rnd
  d : VDst
  a : VSrc
  deriving DecidableEq, Repr

structure DA where
  h : Hdr
  d : VDst
  a : VSrc
  deriving DecidableEq, Repr

structure BlkmkF where
  h : Hdr
  bf : BFmt
  d : VDst
  a : VSrc
  b : Uni
  deriving DecidableEq, Repr

structure QntF where
  h : Hdr
  bf : BFmt
  rnd : Rnd
  d : VDst
  a : VSrc
  b : BOp
  deriving DecidableEq, Repr

structure BlkAmaxF where
  h : Hdr
  rnd : Rnd
  d : VDst
  a : VSrc
  deriving DecidableEq, Repr

/-- The exchanges: b is absent (`qswh`, `qswv`, `qswd`), an immediate, or a vector register (R172). -/
structure ExchF where
  h : Hdr
  ty : LType
  ind : BitVec 3
  d : VDst
  a : VSrc
  b : Option BOp
  deriving DecidableEq, Repr

structure BallotF where
  h : Hdr
  d : VDst
  p : BitVec 3
  deriving DecidableEq, Repr

structure VoteF where
  h : Hdr
  d : BitVec 3
  p : BitVec 3
  deriving DecidableEq, Repr

structure RedF where
  h : Hdr
  ty : LType
  lop : Lop
  excl : Bool
  d : VDst
  a : VSrc
  deriving DecidableEq, Repr

structure MatchF where
  h : Hdr
  ty : LType
  d : VDst
  a : VSrc
  deriving DecidableEq, Repr

structure PredF where
  h : Hdr
  d : BitVec 3
  deriving DecidableEq, Repr

structure VDstF where
  h : Hdr
  d : VDst
  deriving DecidableEq, Repr

structure UnifF where
  h : Hdr
  ty : LType
  d : BitVec 3
  a : VSrc
  deriving DecidableEq, Repr

structure SBin where
  h : Hdr
  ty : IType
  sat : Bool
  d : BitVec 5
  a : BitVec 5
  b : SOp
  deriving DecidableEq, Repr

structure SUn where
  h : Hdr
  ty : IType
  sat : Bool
  d : BitVec 5
  a : BitVec 5
  deriving DecidableEq, Repr

structure ScmpF where
  h : Hdr
  ty : IType
  cond : Cond
  p : BitVec 3
  a : BitVec 5
  b : SOp
  deriving DecidableEq, Repr

structure SmoviF where
  h : Hdr
  ty : IType
  d : BitVec 5
  imm : W32
  deriving DecidableEq, Repr

structure RdsF where
  h : Hdr
  d : UDst
  sr : BitVec 5
  deriving DecidableEq, Repr

structure SMemF where
  h : Hdr
  ty : IType
  d : BitVec 5
  base : BitVec 5
  disp : BitVec 24
  deriving DecidableEq, Repr

/-- An instruction with no operand of its own. -/
structure Bare where
  h : Hdr
  deriving DecidableEq, Repr

structure BraF where
  h : Hdr
  disp : W32
  deriving DecidableEq, Repr

structure BrxF where
  h : Hdr
  a : VSrc
  deriving DecidableEq, Repr

structure CallF where
  h : Hdr
  d : VDst
  disp : W32
  deriving DecidableEq, Repr

/-- `switch` with the case word that follows it: ncase + 1 cases (R63, R79). -/
structure SwitchF where
  h : Hdr
  a : VSrc
  disp : W32
  ncase : BitVec 3
  stride : BitVec 4
  cases : Lanes (BitVec 10)
  deriving DecidableEq, Repr

structure JoinF where
  h : Hdr
  j : BitVec 4
  disp : W32
  deriving DecidableEq, Repr

structure WaitjF where
  h : Hdr
  j : BitVec 4
  deriving DecidableEq, Repr

/-- `jrd` (s written) and `jwr` (s read). -/
structure JsF where
  h : Hdr
  j : BitVec 4
  s : BitVec 5
  deriving DecidableEq, Repr

structure UniF where
  h : Hdr
  a : Uni
  deriving DecidableEq, Repr

structure TrapF where
  h : Hdr
  n : BitVec 16
  deriving DecidableEq, Repr

/-- Class 6 with vector data: d is the destination of a load, or the data of a store with its wait bit. -/
structure MemF where
  h : Hdr
  hd : BitVec 4
  scope : Scope
  ord : Order
  width : Width
  d : VSrc
  mem : MemRef
  hint : BitVec 2
  deriving DecidableEq, Repr

/-- Class 6 without vector data: `prf`, `pin` (p written) and `unpin`. -/
structure LineF where
  h : Hdr
  hd : BitVec 4
  scope : Scope
  p : BitVec 3
  mem : MemRef
  hint : BitVec 2
  deriving DecidableEq, Repr

structure AtomF where
  h : Hdr
  hd : BitVec 4
  scope : Scope
  ord : Order
  loc : Bool
  ty : AKind
  d : VSrc
  mem : MemRef
  hint : BitVec 2
  deriving DecidableEq, Repr

/-- `refinc` and `refdec` (R121): header base and index register. -/
structure RefF where
  h : Hdr
  hd : BitVec 4
  scope : Scope
  ord : Order
  d : BitVec 10
  base : Uni
  idx : VSrc
  hint : BitVec 2
  deriving DecidableEq, Repr

structure FenceF where
  h : Hdr
  scope : Scope
  deriving DecidableEq, Repr

structure HpairF where
  h : Hdr
  hd : BitVec 4
  hs : BitVec 4
  deriving DecidableEq, Repr

structure HjoinF where
  h : Hdr
  scope : Scope
  hd : BitVec 4
  ha : BitVec 4
  deriving DecidableEq, Repr

structure HexpF where
  h : Hdr
  scope : Scope
  d : UDst
  ha : BitVec 4
  deriving DecidableEq, Repr

/-- An instruction with one handle and one R52 operand: `himp`, `frec`, `pub`, `collw`, `launch`. -/
structure HuniF where
  h : Hdr
  hd : BitVec 4
  a : Uni
  deriving DecidableEq, Repr

structure HwaitF where
  h : Hdr
  scope : Scope
  ha : BitVec 4
  deriving DecidableEq, Repr

structure BarF where
  h : Hdr
  n : BitVec 4
  deriving DecidableEq, Repr

/-- `bara` (s written), `barw` (s read), `pmrd` (s written). -/
structure BarSF where
  h : Hdr
  n : BitVec 4
  s : BitVec 5
  deriving DecidableEq, Repr

structure CpykF where
  h : Hdr
  hd : BitVec 4
  scope : Scope
  d : BitVec 10
  a : VSrc
  deriving DecidableEq, Repr

structure ArrxF where
  h : Hdr
  d : BitVec 5
  a : Uni
  b : SOp
  deriving DecidableEq, Repr

/-- `bwait`; prom is the promise operand of `.prom`. -/
structure BwaitF where
  h : Hdr
  hd : BitVec 4
  a : Uni
  b : SOp
  prom : Option Uni
  deriving DecidableEq, Repr

structure ChainF where
  h : Hdr
  hd : BitVec 4
  scope : Scope
  a : Uni
  c : BitVec 2
  deriving DecidableEq, Repr

structure ChstF where
  h : Hdr
  d : BitVec 5
  c : BitVec 2
  deriving DecidableEq, Repr

structure MxldF where
  h : Hdr
  banks : Byte
  gran : BitVec 2
  a : Uni
  glob : Bool
  deriving DecidableEq, Repr

structure MxkvF where
  h : Hdr
  bank : BitVec 3
  a : Uni
  deriving DecidableEq, Repr

/-- The A operand of `mxmul`: a local address, or a source region for `.acc`. -/
inductive MxSrc where
  | mem (a : Uni)
  | region (r : BitVec 4)
  deriving DecidableEq, Repr

structure MxmulF where
  h : Hdr
  d : BitVec 4
  src : MxSrc
  banks : Byte
  align : Align
  gran : BitVec 2
  rows : BitVec 4
  kind : MxKind
  deriving DecidableEq, Repr

structure MxzF where
  h : Hdr
  d : BitVec 4
  deriving DecidableEq, Repr

/-- `mxrd`: n is the field n − 1. -/
structure MxrdF where
  h : Hdr
  d : BitVec 10
  a : BitVec 4
  e0 : BitVec 12
  n : BitVec 4
  conv : MxConv
  deriving DecidableEq, Repr

structure MxwrF where
  h : Hdr
  d : BitVec 4
  a : VSrc
  e0 : BitVec 12
  n : BitVec 4
  deriving DecidableEq, Repr

structure MxsvF where
  h : Hdr
  banks : Byte
  gran : BitVec 2
  a : Uni
  regions : BitVec 16
  deriving DecidableEq, Repr

/-- One scalar destination: `mxq`, `nacq`, `frys`, `halt`. -/
structure SdstF where
  h : Hdr
  d : BitVec 5
  deriving DecidableEq, Repr

structure LwaitF where
  h : Hdr
  hd : BitVec 4
  a : Uni
  b : SOp
  deriving DecidableEq, Repr

structure RelabelF where
  h : Hdr
  cls : ICls
  a : VSrc
  deriving DecidableEq, Repr

structure ItemidF where
  h : Hdr
  d : BitVec 10
  deriving DecidableEq, Repr

structure IenqF where
  h : Hdr
  hd : BitVec 4
  d : VSrc
  mem : MemRef
  deriving DecidableEq, Repr

/-- `xacq`; tryP is the predicate of `.try`. -/
structure XacqF where
  h : Hdr
  tryP : Option (BitVec 3)
  k : BitVec 4
  deriving DecidableEq, Repr

structure XrelF where
  h : Hdr
  k : BitVec 4
  deriving DecidableEq, Repr

/-- `fset`, `fclr`: the register whose full bit changes. -/
structure FbitF where
  h : Hdr
  d : BitVec 10
  deriving DecidableEq, Repr

structure FtestF where
  h : Hdr
  p : BitVec 3
  a : BitVec 10
  deriving DecidableEq, Repr

/-- `nlook`: two scalar registers. -/
structure SpairF where
  h : Hdr
  d : BitVec 5
  a : BitVec 5
  deriving DecidableEq, Repr

structure FryF where
  h : Hdr
  hd : BitVec 4
  target : BitVec 10
  a : Uni
  b : VSrc
  deriving DecidableEq, Repr

structure RdccF where
  h : Hdr
  d : UDst
  deriving DecidableEq, Repr

structure TrmkF where
  h : Hdr
  n : BitVec 4
  deriving DecidableEq, Repr

/-- `sysrd` (s written) and `syswr` (s read). -/
structure SysF where
  h : Hdr
  reg : BitVec 12
  s : BitVec 5
  deriving DecidableEq, Repr

structure SsrcF where
  h : Hdr
  a : BitVec 5
  deriving DecidableEq, Repr

structure CollF where
  h : Hdr
  hd : BitVec 4
  kind : CKind
  a : Uni
  deriving DecidableEq, Repr

structure McstF where
  h : Hdr
  hd : BitVec 4
  set : BitVec 5
  base : Uni
  disp : BitVec 24
  d : VSrc
  deriving DecidableEq, Repr

/-! ## Data that events carry -/

/-- A ferry store on its way (R295): where it comes from, the name, the target register, the lanes and the data. -/
structure Delivery where
  src : Nat
  core : Nat
  slot : Nat
  gen : Nat
  seq : Nat
  /-- of one from another package, the number of what its chain last sent here before it, 0 for none in the generation -/
  prev : Nat
  sender : Nat
  handle : Nat
  name : W64
  target : Nat
  data : Lanes W32
  m : Mask
  domain : Nat
  deriving DecidableEq, Repr

/-- A delivery that arrives: one sent by a group of this package, by its number, or one from another package. -/
inductive DeliveryRef where
  | own (id : Nat)
  | remote (d : Delivery)
  deriving DecidableEq, Repr

/-- What a packet of another package asks of this one (R288, R289). -/
inductive PacketOp where
  | read (width : Nat)
  | write (data : List Byte)
  | atomic (op : BitVec 6) (ty : AKind) (data : W64) (cmp : W64)
  | token (t : W64)
  /-- `refinc` or `refdec` of a counter here: the physical address of its pool's header, the page index, and the physical address
  at which the tables of the sender's context reach the free-list entry, if they do -/
  | refcount (inc : Bool) (hdr : Nat) (idx : W32) (entry : Option Nat)
  /-- `outq` (its width) or `ienq` onto the descriptor here: the entry's bytes, and the physical address at which the tables of
  the sender's context reach the entry's place, if they do -/
  | push (item : Bool) (bytes : List Byte) (entry : Option Nat)
  /-- the sender reports one of its dies lost -/
  | dieLost (die : Nat)
  deriving DecidableEq, Repr

/-- How a lane's access to another package ends: refused there, or the package unreachable; and the package (R290). -/
structure FarFailure where
  refused : Bool
  pkg : Nat
  deriving DecidableEq, Repr

/-- A packet of another package: its sender, its place in a chain, its domain, and what it asks for (R288, R289). -/
structure Packet where
  src : Nat
  core : Nat
  slot : Nat
  gen : Nat
  seq : Nat
  /-- the number of what its chain last sent here before it, 0 for none in the generation -/
  prev : Nat
  domain : Nat
  addr : Nat
  op : PacketOp
  deriving DecidableEq, Repr

/-- Where an uncorrectable error strikes, by the kinds of R392. -/
inductive ErrorSite where
  | registers (g : Nat)
  | matrix (core : Nat) (part : Nat) (region : Bool) (n : Nat)
  | localMem (key : Nat)
  | cleanCopy (pa : Nat)
  | dirtyLine (pa : Nat)
  | weightStore (key : Nat)
  | saveImage (g : Nat)
  | buffer (block : Nat)
  deriving DecidableEq, Repr

/-- Faults an engine meets while bytes move (R272). -/
inductive CopyErr where
  | page | prot | blkFmt | dataLost
  deriving DecidableEq, Repr

/-- The two views of a queue window (R305). -/
inductive QView where
  | priv | sub
  deriving DecidableEq, Repr

/-! ## The steps of the machine -/

/-- One constructor for each row of the opcode table. -/
inductive Instr where
  -- class 0, R141
  | iadd (f : IBin) | isub (f : IBin) | imul (f : IBin) | imulh (f : IBin) | imad (f : ITri)
  | idiv (f : IBin) | irem (f : IBin) | imin (f : IBin) | imax (f : IBin) | iabs (f : IUn)
  | and (f : IBin) | or (f : IBin) | xor (f : IBin) | not (f : IUn)
  | shl (f : IBin) | shr (f : IBin) | sar (f : IBin) | popc (f : IUn) | clz (f : IUn) | brev (f : IUn)
  | bfx (f : IBin) | bfi (f : ITri) | lea (f : LeaF) | icmp (f : ICmpF) | sel (f : SelF)
  | mov (f : IUn) | movi (f : MoviF) | cvti (f : CvtiF) | rng (f : RngF)
  -- class 1, R155
  | fadd (f : FBin) | fsub (f : FBin) | fmul (f : FBin) | ffma (f : FTri) | fmin (f : FBin) | fmax (f : FBin)
  | fabs (f : FUn) | fneg (f : FUn) | fcmp (f : FCmpF) | fclass (f : FUn)
  | frcp (f : FUn) | frsq (f : FUn) | fsqrt (f : FUn) | fdiv (f : FBin) | fexp2 (f : FUn) | flog2 (f : FUn)
  | ftanh (f : FUn) | fscl (f : FBin) | frnd (f : FUn) | cvtf (f : CvtfF) | cvtif (f : CvtiiF) | cvtfi (f : CvtiiF)
  -- class 2, R165
  | scenc (f : ScencF) | scdec (f : DA) | blkhd (f : DA) | blkmk (f : BlkmkF) | qnt (f : QntF) | dqnt (f : QntF)
  | amax (f : BlkAmaxF)
  -- class 3, R172
  | qswh (f : ExchF) | qswv (f : ExchF) | qswd (f : ExchF) | qbc (f : ExchF)
  | shfl (f : ExchF) | shflx (f : ExchF) | shfld (f : ExchF) | gbc (f : ExchF)
  | ballot (f : BallotF) | vany (f : VoteF) | vall (f : VoteF) | gred (f : RedF) | gscan (f : RedF)
  | vmatch (f : MatchF) | elect (f : PredF) | helper (f : PredF) | actm (f : VDstF) | unif (f : UnifF)
  -- class 4, R152 and R68
  | sadd (f : SBin) | ssub (f : SBin) | smul (f : SBin) | sand (f : SBin) | sor (f : SBin) | sxor (f : SBin)
  | sshl (f : SBin) | sshr (f : SBin) | scmp (f : ScmpF) | smov (f : SUn) | smovi (f : SmoviF) | rds (f : RdsF)
  | sld (f : SMemF) | sst (f : SMemF)
  | smin (f : SBin) | smax (f : SBin) | sabs (f : SUn) | sneg (f : SUn) | snot (f : SUn) | ssar (f : SBin)
  | spopc (f : SUn) | sclz (f : SUn) | sbrev (f : SUn) | smulh (f : SBin)
  -- class 5, R74
  | bra (f : BraF) | brx (f : BrxF) | call (f : CallF) | ret (f : BrxF) | switch (f : SwitchF)
  | join (f : JoinF) | waitj (f : WaitjF) | jrd (f : JsF) | jwr (f : JsF) | yield (f : Bare) | exit (f : Bare)
  | sleep (f : UniF) | brk (f : Bare) | trap (f : TrapF) | nop (f : Bare)
  -- class 6, R104
  | ld (f : MemF) | st (f : MemF) | ldl (f : MemF) | stl (f : MemF) | ldp (f : MemF) | stp (f : MemF) | ldw (f : MemF)
  | prf (f : LineF) | stord (f : MemF) | outq (f : MemF) | pin (f : LineF) | unpin (f : LineF)
  -- class 7, R116
  | aadd (f : AtomF) | amin (f : AtomF) | amaxAtomic (f : AtomF) | aand (f : AtomF) | aor (f : AtomF) | axor (f : AtomF)
  | axch (f : AtomF) | acas (f : AtomF) | ainc (f : AtomF) | ared (f : AtomF) | refinc (f : RefF) | refdec (f : RefF)
  -- class 8, R250 and R220
  | fence (f : FenceF) | hfork (f : HpairF) | hjoin (f : HjoinF) | hexp (f : HexpF) | himp (f : HuniF) | hwait (f : HwaitF)
  | bar (f : BarF) | bara (f : BarSF) | barw (f : BarSF) | gbar (f : Bare) | aflush (f : Bare) | frec (f : HuniF)
  -- class 9, R261
  | cpyk (f : CpykF) | arrx (f : ArrxF) | bwait (f : BwaitF) | chain (f : ChainF) | chst (f : ChstF) | pub (f : HuniF)
  -- class 10, R187
  | mxld (f : MxldF) | mxkv (f : MxkvF) | mxmul (f : MxmulF) | mxz (f : MxzF) | mxrd (f : MxrdF) | mxwr (f : MxwrF)
  | mxsv (f : MxsvF) | mxrs (f : MxsvF) | mxq (f : SdstF)
  -- class 11, R326 and R347
  | launch (f : HuniF) | lwait (f : LwaitF) | relabel (f : RelabelF) | itemid (f : ItemidF) | idone (f : Bare)
  | ienq (f : IenqF) | tkt (f : Bare) | tkrel (f : Bare)
  -- class 12, R89
  | xacq (f : XacqF) | xrel (f : XrelF) | fset (f : FbitF) | fclr (f : FbitF) | ftake (f : DA) | ftest (f : FtestF)
  -- class 13, R293
  | nacq (f : SdstF) | nrel (f : Bare) | nlook (f : SpairF) | fry (f : FryF) | frys (f : SdstF)
  -- class 14, R321 and R371
  | rdcc (f : RdccF) | pmrd (f : BarSF) | trmk (f : TrmkF) | sysrd (f : SysF) | syswr (f : SysF) | tlbinv (f : SsrcF)
  | halt (f : SdstF)
  -- class 15, R279
  | coll (f : CollF) | collw (f : HuniF) | mcst (f : McstF)
  -- events of the groups and of memory
  | quantumExpiry (g : Nat) | splitWaitEnd (g : Nat) (sp : Nat) | sleepWake (g : Nat) (sp : Nat)
  | loadDataReturn (t : Nat) (lane : Fin 8) | atomicAtHomeSlice (t : Nat) (lane : Fin 8) | atomicReturn (t : Nat) (lane : Fin 8)
  | storePerform (t : Nat) (lane : Fin 8) | outqPush (t : Nat) | ienqPush (t : Nat)
  | pinRevoked (inv : Nat) | mxCommandExecute (core : Nat) (part : Nat) | promiseMiss (g : Nat) (sp : Nat)
  | xacqGrant (core : Nat) (part : Nat) | xacqSwapOut (core : Nat) (part : Nat) | startGateApply (l : Nat)
  | liftLineSlotRetire (core : Nat) (slot : Nat)
  -- events of the engines and the fabric
  | copyRequestAccept (core : Nat) (n : Nat) | land (req : Nat) | copyFault (req : Nat) (e : CopyErr)
  | chainRecord (core : Nat) (chan : Nat)
  | collectiveCommit (tag : W64) (others : List (Nat × List Byte)) | collectiveTimeout (tag : W64) (failed : Nat)
  | ferryDelivery (d : DeliveryRef) | ferryApply (core : Nat) (n : Nat) | ferryAck (id : Nat) (cause : Nat)
  -- events of launches and items
  | queueRecordTake (q : Nat) | launchEntryTake (n : Nat) | blockPlace (l : Nat) (cores : List Nat)
  | groupRestore (g : Nat) (cores : List Nat) | parentSwapOut (g : Nat) | lwaitReread (g : Nat) (sp : Nat)
  | launchComplete (l : Nat) | watchdog (b : Nat) | launchTime (l : Nat)
  | itemTake (l : Nat) | itemGroupStart (l : Nat) (n : Nat) (core : Nat) | atomicItemAdmit (item : Nat)
  | gateReached (l : Nat) (label : W32) | streamComplete (l : Nat) | dispatcherRetry (l : Nat)
  -- events of faults, saves and trials
  | asyncFaultDelivery (g : Nat) | faultRingWrite (ctx : Nat) | pageReplay (g : Nat) | preemptTimeout (g : Nat)
  | groupSave (g : Nat) | contextRunsWrite (ctx : Nat) | mogulWindowEnd
  -- what comes from outside: other packages, the firmware, the host's commands
  | remotePacketArrival (p : Packet) | remoteAccessFailure (t : Nat) (lane : Fin 8) (refused : FarFailure)
  | backInvalidate (pa : Nat) | collectiveAbort (tag : W64) (failed : Nat) | migration (l : Nat) (lin : Nat)
  | commit | create | destroy | reachAdd | reachRemove | pubnew | getid | attest
  | trial (v : W64) | fretry (v : W64) | killLaunch (ctx : BitVec 12) | stopBlock (ctx : BitVec 12)
  | resumeBlock (ctx : BitVec 12) | killBlock (ctx : BitVec 12) | stopAtCount (ctx : BitVec 12) | fwbell (v : W64)
  | qprodWrite (q : Nat) (view : QView) (v : W64) | queueEnable (q : Nat) | queueDisable (q : Nat)
  | registerWrite (off : Nat) (width : Nat) (v : W64)
  -- errors, failures, time
  | watch (g : Nat) (n : Fin 4) | uncorrectableError (site : ErrorSite) | correctedError | dieLost (die : Nat)
  | portFailure (cxl : Bool) (port : Nat) | packageReset
  deriving DecidableEq, Repr

end Sys2Proof
end

