-- ==== Sys2Proof/WellFormed.lean ====
section
/-!
DEFINITION. Which terms of `Instr` are legal instructions: the limits of each entry that the types of the syntax do not
already state (R66). Rows of the opcode table that are events have no encoding and no limit.
-/
namespace Sys2Proof

def signedTy (t : IType) : Bool :=
  match t with
  | .i8 | .i16 | .i32 | .i64 => true
  | .n8 | .n16 | .n32 | .n64 => false

/-- gp = 7 with gn = 1 is illegal (R49). -/
def Hdr.wf (h : Hdr) : Bool := !(h.gn && h.gp == 7#3)

def noSat (h : Hdr) (sat : Bool) : Bool := h.wf && !sat

/-! ## Class 1 (R155 to R157, R164) -/

def FOpt.noB (o : FOpt) : Bool := !o.nb && !o.ab
def FOpt.none (o : FOpt) : Bool := !o.na && !o.nb && !o.aa && !o.ab && !o.satf

def packedTy (t : FType) : Bool :=
  match t with
  | .f16x2 | .bf16x2 => true
  | .f32 | .f16 | .bf16 => false

/-- An immediate of a 16-bit type stands in imm[15:0] (R156). -/
def fimm (t : FType) (b : BOp) : Bool :=
  match b, t with
  | .imm i, .f16 | .imm i, .bf16 => i.toNat < 65536
  | _, _ => true

/-- The pairs of `cvtf` (R164). -/
def cvtfPair (t s : FType) : Bool := packedTy t == packedTy s && t != s

/-! ## Class 3 (R172, R177) -/

def bNone (b : Option BOp) : Bool := b.isNone

def bImm (n : Nat) (b : Option BOp) : Bool :=
  match b with
  | some (.imm i) => i.toNat < n
  | _ => false

def bShuf (b : Option BOp) : Bool :=
  match b with
  | some (.imm i) => i.toNat < 16
  | some (.reg _) => true
  | none => false

def redPair (t : LType) (op : Lop) : Bool :=
  match op, t with
  | .and, .int _ | .or, .int _ | .xor, .int _ => true
  | .and, _ | .or, _ | .xor, _ => false
  | _, _ => true

/-! ## Class 4 and 5 -/

/-- A per-lane special register needs a vector destination (R28). -/
def perLaneSr (n : Nat) : Bool := n == 0 || n == 1 || n == 14 || n == 15 || n == 16

def rdsWf (f : RdsF) : Bool :=
  f.h.wf && decide (f.sr.toNat ≤ 22) &&
    match f.d with
    | .s _ => !perLaneSr f.sr.toNat
    | .v _ _ => true

/-- The case word of R64: distinct cases, and zero past the last. -/
def casesWf (n : Nat) (c : Lanes (BitVec 10)) : Bool :=
  let cs := c.toList
  decide ((cs.take (n + 1)).Nodup) && (cs.drop (n + 1)).all fun x => x == 0#10

def switchWf (f : SwitchF) : Bool :=
  f.h.wf && f.h.sp.isNone && f.stride != 0#4 && casesWf f.ncase.toNat f.cases

/-! ## Classes 6 and 7 (R103, R104, R116 to R118) -/

def ordLoad (o : Order) : Bool :=
  match o with
  | .plain | .acq => true
  | _ => false

def ordStore (o : Order) : Bool :=
  match o with
  | .plain | .rel => true
  | _ => false

def ordPlain (o : Order) : Bool := o == .plain

/-- `ldw` and `outq` take widths of 4 bytes and more. -/
def widthWord (w : Width) : Bool :=
  match w with
  | .w1 | .w2 => false
  | _ => true

def memWf (f : MemF) (ord : Order → Bool) (width : Width → Bool) (defHint : Bool) : Bool :=
  f.h.wf && ord f.ord && width f.width && (!defHint || f.hint == 0#2)

/-- A load does not read its destination, so it takes no wait bit there (R54). -/
def loadWf (f : MemF) (ord : Order → Bool) (width : Width → Bool) (defHint : Bool) : Bool :=
  memWf f ord width defHint && !f.d.x

def anyWidth (_ : Width) : Bool := true
def upTo16 (w : Width) : Bool := w != .w32

def intKind (k : AKind) : Bool :=
  match k with
  | .i32 | .n32 | .i64 | .n64 => true
  | .f32 | .f16x2 | .bf16x2 => false

/-! ## Class 10 (R187) -/

def bitCount8 (b : Byte) : Nat := (Mask.ofByte b).count

def mxmulWf (f : MxmulF) : Bool :=
  let rows := f.rows.toNat + 1
  f.h.wf && decide (rows * 64 * bitCount8 f.banks ≤ 4096) && f.banks != 0#8 &&
    match f.kind, f.src with
    | .acc, .region _ => decide (rows ≤ 8)
    | .acc, .mem _ => false
    | _, .mem _ => true
    | _, .region _ => false

def entryRange (e0 : BitVec 12) (n : BitVec 4) : Bool :=
  decide (e0.toNat % 8 = 0) && decide (e0.toNat + 8 * (n.toNat + 1) ≤ 4096)

/-! ## Class 14 (R373) -/

def sysregExists (n : Nat) : Bool :=
  n == 0x000 || n == 0x020 || n == 0x021 || n == 0x022 || n == 0x030 || n == 0x031 ||
    (decide (0x058 ≤ n) && decide (n ≤ 0x05F)) || n == 0x080 || n == 0x081

def immBelow (n : Nat) (b : SOp) : Bool :=
  match b with
  | .imm i => i.toNat < n
  | .reg _ => true

/-- The predicate operand of an instruction that has none is zero. -/
def lineNoP (f : LineF) : Bool := f.h.wf && f.p == 0#3

/-! ## Every instruction -/

def wf (i : Instr) : Bool :=
  match i with
  -- class 0
  | .iadd f | .isub f | .imul f | .shl f => f.h.wf
  | .imulh f | .idiv f | .irem f | .imin f | .imax f | .and f | .or f | .xor f | .shr f | .bfx f => noSat f.h f.sat
  | .sar f => noSat f.h f.sat && signedTy f.ty
  | .imad f => f.h.wf
  | .bfi f => noSat f.h f.sat
  | .iabs f => f.h.wf
  | .not f | .popc f | .clz f | .brev f | .mov f => noSat f.h f.sat
  | .lea f => f.h.wf
  | .icmp f => f.h.wf
  | .sel f => f.h.wf
  | .movi f => f.h.wf
  | .cvti f => f.h.wf
  | .rng f => f.h.wf
  -- class 1
  | .fadd f | .fsub f | .fmul f | .fdiv f => f.h.wf && fimm f.ty f.b
  | .ffma f => f.h.wf
  | .fmin f | .fmax f => f.h.wf && fimm f.ty f.b && f.rnd == .rne && !f.o.satf
  | .fabs f | .fneg f | .fclass f => f.h.wf && f.rnd == .rne && f.o.none
  | .fcmp f => f.h.wf && fimm f.ty f.b && !packedTy f.ty && !f.o.satf
  | .frcp f | .frsq f | .fsqrt f | .fexp2 f | .flog2 f => f.h.wf && f.o.noB
  | .ftanh f | .frnd f => f.h.wf && f.o.noB && !f.o.satf
  | .fscl f => f.h.wf && f.o.noB
  | .cvtf f => f.h.wf && f.o.noB && cvtfPair f.ty f.src
  | .cvtif f => f.h.wf && f.o.noB && !f.o.na && !f.o.aa && !packedTy f.ty
  | .cvtfi f => f.h.wf && f.o.noB && !f.o.satf && !packedTy f.ty
  -- class 2
  | .scenc f => f.h.wf
  | .scdec f | .blkhd f => f.h.wf
  | .blkmk f => f.h.wf
  | .qnt f | .dqnt f => f.h.wf && (match f.b with | .imm i => decide (i.toNat < 256) | .reg _ => true)
  | .amax f => f.h.wf
  -- class 3
  | .qswh f | .qswv f | .qswd f => f.h.wf && bNone f.b
  | .qbc f => f.h.wf && bImm 4 f.b
  | .gbc f => f.h.wf && bImm 8 f.b
  | .shfl f | .shflx f | .shfld f => f.h.wf && bShuf f.b
  | .ballot f => f.h.wf
  | .vany f | .vall f => f.h.wf
  | .gred f => f.h.wf && !f.excl && redPair f.ty f.lop
  | .gscan f => f.h.wf && redPair f.ty f.lop
  | .vmatch f => f.h.wf
  | .elect f | .helper f => f.h.wf
  | .actm f => f.h.wf
  | .unif f => f.h.wf
  -- class 4
  | .sadd f | .ssub f | .smul f | .sshl f => f.h.wf
  | .sand f | .sor f | .sxor f | .sshr f | .smin f | .smax f | .smulh f => noSat f.h f.sat
  | .ssar f => noSat f.h f.sat && signedTy f.ty
  | .scmp f => f.h.wf
  | .smov f | .snot f | .spopc f | .sclz f | .sbrev f => noSat f.h f.sat
  | .sabs f | .sneg f => f.h.wf
  | .smovi f => f.h.wf
  | .rds f => rdsWf f
  | .sld f | .sst f => f.h.wf
  -- class 5
  | .bra f => f.h.wf
  | .brx f | .ret f => f.h.wf
  | .call f => f.h.wf
  | .switch f => switchWf f
  | .join f => f.h.wf
  | .waitj f => f.h.wf
  | .jrd f | .jwr f => f.h.wf
  | .yield f | .exit f | .brk f | .nop f => f.h.wf
  | .sleep f => f.h.wf
  | .trap f => f.h.wf
  -- class 6
  | .ld f => loadWf f ordLoad anyWidth false
  | .st f | .stord f => memWf f ordStore anyWidth false
  | .ldl f => loadWf f ordLoad anyWidth true
  | .stl f => memWf f ordStore anyWidth true
  | .ldp f => loadWf f ordPlain upTo16 false
  | .stp f => memWf f ordPlain upTo16 false
  | .ldw f => loadWf f ordPlain widthWord true
  | .outq f => memWf f ordStore widthWord false
  | .prf f | .unpin f => lineNoP f
  | .pin f => f.h.wf
  -- class 7
  | .aadd f | .amin f | .amaxAtomic f | .axch f | .acas f => f.h.wf
  | .aand f | .aor f | .axor f => f.h.wf && intKind f.ty
  | .ainc f => f.h.wf && f.ty == .n32
  | .ared f => f.h.wf && ordStore f.ord
  | .refinc f | .refdec f => f.h.wf
  -- class 8
  | .fence f => f.h.wf
  | .hfork f => f.h.wf
  | .hjoin f => f.h.wf
  | .hexp f => f.h.wf
  | .himp f | .frec f => f.h.wf
  | .hwait f => f.h.wf
  | .bar f => f.h.wf
  | .bara f | .barw f => f.h.wf
  | .gbar f | .aflush f => f.h.wf
  -- class 9
  | .cpyk f => f.h.wf
  | .arrx f => f.h.wf && immBelow (2 ^ 31) f.b
  | .bwait f => f.h.wf && immBelow (2 ^ 31) f.b
  | .chain f => f.h.wf
  | .chst f => f.h.wf
  | .pub f => f.h.wf
  -- class 10
  | .mxld f => f.h.wf && f.banks != 0#8
  | .mxkv f => f.h.wf
  | .mxmul f => mxmulWf f
  | .mxz f => f.h.wf
  | .mxrd f => f.h.wf && entryRange f.e0 f.n
  | .mxwr f => f.h.wf && entryRange f.e0 f.n
  | .mxsv f | .mxrs f => f.h.wf && (f.banks != 0#8 || f.regions != 0#16)
  | .mxq f => f.h.wf
  -- class 11
  | .launch f => f.h.wf
  | .lwait f => f.h.wf
  | .relabel f => f.h.wf
  | .itemid f => f.h.wf
  | .idone f | .tkt f | .tkrel f => f.h.wf
  | .ienq f => f.h.wf
  -- class 12
  | .xacq f => f.h.wf && f.k != 0#4
  | .xrel f => f.h.wf && f.k != 0#4
  | .fset f | .fclr f => f.h.wf
  | .ftake f => f.h.wf
  | .ftest f => f.h.wf
  -- class 13
  | .nacq f | .frys f => f.h.wf
  | .nrel f => f.h.wf
  | .nlook f => f.h.wf
  | .fry f => f.h.wf
  -- class 14
  | .rdcc f => f.h.wf
  | .pmrd f => f.h.wf
  | .trmk f => f.h.wf
  | .sysrd f | .syswr f => f.h.wf && sysregExists f.reg.toNat
  | .tlbinv f => f.h.wf
  | .halt f => f.h.wf
  -- class 15
  | .coll f => f.h.wf
  | .collw f => f.h.wf
  | .mcst f => f.h.wf
  -- events
  | .quantumExpiry _ | .splitWaitEnd _ _ | .sleepWake _ _ | .loadDataReturn _ _ | .atomicAtHomeSlice _ _
  | .atomicReturn _ _ | .storePerform _ _ | .outqPush _ | .ienqPush _ | .remotePacketArrival _
  | .remoteAccessFailure _ _ _ | .backInvalidate _ | .pinRevoked _ | .mxCommandExecute _ _ | .xacqGrant _ _
  | .xacqSwapOut _ _ | .startGateApply _ | .copyRequestAccept _ _ | .land _ | .copyFault _ _ | .chainRecord _ _
  | .collectiveCommit _ _ | .collectiveAbort _ _ | .collectiveTimeout _ _ | .ferryDelivery _ | .ferryApply _ _
  | .ferryAck _ _ | .queueRecordTake _ | .launchEntryTake _ | .blockPlace _ _ | .groupRestore _ _ | .parentSwapOut _
  | .lwaitReread _ _ | .launchComplete _ | .watchdog _ | .launchTime _ | .itemTake _ | .itemGroupStart _ _ _
  | .atomicItemAdmit _ | .gateReached _ _ | .streamComplete _ | .dispatcherRetry _ | .asyncFaultDelivery _
  | .faultRingWrite _ | .pageReplay _ | .preemptTimeout _ | .groupSave _ | .migration _ _ | .contextRunsWrite _
  | .mogulWindowEnd | .commit | .create | .destroy | .reachAdd | .reachRemove | .pubnew | .getid | .attest | .trial _
  | .fretry _ | .killLaunch _ | .stopBlock _ | .resumeBlock _ | .killBlock _ | .stopAtCount _ | .fwbell _
  | .qprodWrite _ _ _ | .queueEnable _ | .queueDisable _ | .registerWrite _ _ _ | .watch _ _ | .uncorrectableError _
  | .correctedError | .dieLost _ | .portFailure _ _ | .packageReset | .promiseMiss _ _ | .liftLineSlotRetire _ _ =>
    true

end Sys2Proof
end

