-- ==== Sys2Proof/Decode.lean ====
section
/-!
DEFINITION. The instruction word of R49 as fields, the decoder of every class (total, rejecting by name) and the encoder
written from the same tables (R49 to R66 and the form table of each class). A word decodes when its entry's fields
parse, the result is well formed, and encoding it gives the same word back: that last test is the check that every field
the entry does not use is zero (R51, R54, R56, R60).
-/
namespace Sys2Proof

/-! ## Fields of a word (R49) -/

structure Fields where
  cls : Nat
  op : Nat
  gn : Nat
  gp : Nat
  fd : Nat
  fa : Nat
  fb : Nat
  wd : Nat
  wa : Nat
  wb : Nat
  sp : Nat
  t : Nat
  ib : Nat
  hint : Nat
  mod : Nat
  imm : Nat
  deriving DecidableEq, Repr

/-- The fields at the positions of R49. -/
def fieldsOf (w : Nat) : Fields where
  cls := w / 2 ^ 92 % 16
  op := w / 2 ^ 86 % 64
  gn := w / 2 ^ 85 % 2
  gp := w / 2 ^ 82 % 8
  fd := w / 2 ^ 72 % 1024
  fa := w / 2 ^ 62 % 1024
  fb := w / 2 ^ 52 % 1024
  wd := w / 2 ^ 51 % 2
  wa := w / 2 ^ 50 % 2
  wb := w / 2 ^ 49 % 2
  sp := w / 2 ^ 48 % 2
  t := w / 2 ^ 47 % 2
  ib := w / 2 ^ 46 % 2
  hint := w / 2 ^ 44 % 4
  mod := w / 2 ^ 32 % 4096
  imm := w % 2 ^ 32

/-- The word that holds the fields. -/
def Fields.word (f : Fields) : Nat :=
  f.cls * 2 ^ 92 + f.op * 2 ^ 86 + f.gn * 2 ^ 85 + f.gp * 2 ^ 82 + f.fd * 2 ^ 72 + f.fa * 2 ^ 62 + f.fb * 2 ^ 52
    + f.wd * 2 ^ 51 + f.wa * 2 ^ 50 + f.wb * 2 ^ 49 + f.sp * 2 ^ 48 + f.t * 2 ^ 47 + f.ib * 2 ^ 46
    + f.hint * 2 ^ 44 + f.mod * 2 ^ 32 + f.imm

/-- Why a word is no instruction (R66). Each one raises `ILL_OP`. -/
inductive DecodeError where
  | unassigned
  | dataWord
  | guard
  | reservedValue
  | reservedBits
  | limit
  | maskWord
  | caseWord
  | safePointOnSwitch
  deriving DecidableEq, Repr

def b2n (b : Bool) : Nat := if b then 1 else 0

/-! ## The mask word and the case word (R61, R63) -/

def maskWord (m : MaskWord) : Nat :=
  15 * 2 ^ 92 + 63 * 2 ^ 86 + b2n m.det * 2 ^ 82 + b2n m.held * 2 ^ 81 + b2n m.ferry * 2 ^ 80 + b2n m.copies * 2 ^ 79
    + m.pred.toNat * 2 ^ 72 + m.jmask.toNat * 2 ^ 56 + m.banks.toNat * 2 ^ 48 + m.regions.toNat * 2 ^ 32 + m.chunks.toNat

def maskOf (w : Nat) : MaskWord where
  det := w / 2 ^ 82 % 2 == 1
  held := w / 2 ^ 81 % 2 == 1
  ferry := w / 2 ^ 80 % 2 == 1
  copies := w / 2 ^ 79 % 2 == 1
  pred := BitVec.ofNat 7 (w / 2 ^ 72)
  jmask := BitVec.ofNat 16 (w / 2 ^ 56)
  banks := BitVec.ofNat 8 (w / 2 ^ 48)
  regions := BitVec.ofNat 16 (w / 2 ^ 32)
  chunks := BitVec.ofNat 32 w

def caseWord (c : Lanes (BitVec 10)) : Nat :=
  15 * 2 ^ 92 + 62 * 2 ^ 86 + c.l7.toNat * 2 ^ 76 + c.l6.toNat * 2 ^ 66 + c.l5.toNat * 2 ^ 56 + c.l4.toNat * 2 ^ 46
    + c.l3.toNat * 2 ^ 36 + c.l2.toNat * 2 ^ 26 + c.l1.toNat * 2 ^ 16 + c.l0.toNat * 2 ^ 6

def casesOf (w : Nat) : Lanes (BitVec 10) :=
  ⟨BitVec.ofNat 10 (w / 2 ^ 6), BitVec.ofNat 10 (w / 2 ^ 16), BitVec.ofNat 10 (w / 2 ^ 26), BitVec.ofNat 10 (w / 2 ^ 36),
    BitVec.ofNat 10 (w / 2 ^ 46), BitVec.ofNat 10 (w / 2 ^ 56), BitVec.ofNat 10 (w / 2 ^ 66), BitVec.ofNat 10 (w / 2 ^ 76)⟩

/-! ## Numbers of the modifiers (R36, R60) -/

def itypeNum (t : IType) : Nat :=
  match t with
  | .i8 => 0 | .i16 => 1 | .i32 => 2 | .i64 => 3 | .n8 => 4 | .n16 => 5 | .n32 => 6 | .n64 => 7

def itypeOf (n : Nat) : Option IType :=
  match n with
  | 0 => some .i8 | 1 => some .i16 | 2 => some .i32 | 3 => some .i64
  | 4 => some .n8 | 5 => some .n16 | 6 => some .n32 | 7 => some .n64
  | _ => none

def ftypeNum (t : FType) : Nat :=
  match t with
  | .f32 => 0 | .f16 => 1 | .bf16 => 2 | .f16x2 => 3 | .bf16x2 => 4

def ftypeOf (n : Nat) : Option FType :=
  match n with
  | 0 => some .f32 | 1 => some .f16 | 2 => some .bf16 | 3 => some .f16x2 | 4 => some .bf16x2
  | _ => none

def ltypeNum (t : LType) : Nat :=
  match t with
  | .int t => itypeNum t
  | .f32 => 8 | .f16 => 9 | .bf16 => 10

def ltypeOf (n : Nat) : Option LType :=
  match n with
  | 8 => some .f32 | 9 => some .f16 | 10 => some .bf16
  | n => (itypeOf n).map .int

def bfmtNo (b : BFmt) : Nat :=
  match b with
  | .w4 => 0 | .w3 => 1 | .e4m3 => 2 | .e5m2 => 3 | .bf16 => 4 | .f16 => 5

def bfmtOf (n : Nat) : Option BFmt :=
  match n with
  | 0 => some .w4 | 1 => some .w3 | 2 => some .e4m3 | 3 => some .e5m2 | 4 => some .bf16 | 5 => some .f16
  | _ => none

def rndNum (r : Rnd) : Nat :=
  match r with
  | .rne => 0 | .rtz => 1 | .rup => 2 | .rdn => 3 | .rna => 4

def rndOf (n : Nat) : Option Rnd :=
  match n with
  | 0 => some .rne | 1 => some .rtz | 2 => some .rup | 3 => some .rdn | 4 => some .rna
  | _ => none

def condNum (c : Cond) : Nat :=
  match c with
  | .eq => 0 | .ne => 1 | .lt => 2 | .le => 3 | .gt => 4 | .ge => 5

def condOf (n : Nat) : Option Cond :=
  match n with
  | 0 => some .eq | 1 => some .ne | 2 => some .lt | 3 => some .le | 4 => some .gt | 5 => some .ge
  | _ => none

def scopeNum (s : Scope) : Nat :=
  match s with
  | .grp => 0 | .core => 1 | .die => 2 | .pkg => 3 | .pod => 4 | .sys => 5

def scopeOf (n : Nat) : Option Scope :=
  match n with
  | 0 => some .grp | 1 => some .core | 2 => some .die | 3 => some .pkg | 4 => some .pod | 5 => some .sys
  | _ => none

def orderNum (o : Order) : Nat :=
  match o with
  | .plain => 0 | .acq => 1 | .rel => 2 | .acqrel => 3

def orderOf (n : Nat) : Option Order :=
  match n with
  | 0 => some .plain | 1 => some .acq | 2 => some .rel | 3 => some .acqrel
  | _ => none

def widthNum (w : Width) : Nat :=
  match w with
  | .w1 => 0 | .w2 => 1 | .w4 => 2 | .w8 => 3 | .w16 => 4 | .w32 => 5

def widthOf (n : Nat) : Option Width :=
  match n with
  | 0 => some .w1 | 1 => some .w2 | 2 => some .w4 | 3 => some .w8 | 4 => some .w16 | 5 => some .w32
  | _ => none

def lopNum (l : Lop) : Nat :=
  match l with
  | .add => 0 | .min => 1 | .max => 2 | .and => 3 | .or => 4 | .xor => 5 | .argmax => 6 | .argmin => 7

def lopOf (n : Nat) : Option Lop :=
  match n with
  | 0 => some .add | 1 => some .min | 2 => some .max | 3 => some .and | 4 => some .or | 5 => some .xor
  | 6 => some .argmax | 7 => some .argmin
  | _ => none

def akindNum (k : AKind) : Nat :=
  match k with
  | .i32 => 0 | .n32 => 1 | .i64 => 2 | .n64 => 3 | .f32 => 4 | .f16x2 => 5 | .bf16x2 => 6

def akindOf (n : Nat) : Option AKind :=
  match n with
  | 0 => some .i32 | 1 => some .n32 | 2 => some .i64 | 3 => some .n64 | 4 => some .f32 | 5 => some .f16x2
  | 6 => some .bf16x2
  | _ => none

def iclsNum (c : ICls) : Nat :=
  match c with
  | .u => 0 | .o => 1 | .a => 2

def iclsOf (n : Nat) : Option ICls :=
  match n with
  | 0 => some .u | 1 => some .o | 2 => some .a
  | _ => none

def alignNum (a : Align) : Nat :=
  match a with
  | .a8 => 0 | .a12 => 1 | .a16 => 2

def alignOf (n : Nat) : Option Align :=
  match n with
  | 0 => some .a8 | 1 => some .a12 | 2 => some .a16
  | _ => none

def mxKindNum (k : MxKind) : Nat :=
  match k with
  | .e4m3 => 0 | .bf16 => 1 | .acc => 2

def mxKindOf (n : Nat) : Option MxKind :=
  match n with
  | 0 => some .e4m3 | 1 => some .bf16 | 2 => some .acc
  | _ => none

def mxConvNum (c : MxConv) : Nat :=
  match c with
  | .f32 => 0 | .bf16 => 1 | .f16 => 2

def mxConvOf (n : Nat) : Option MxConv :=
  match n with
  | 0 => some .f32 | 1 => some .bf16 | 2 => some .f16
  | _ => none

def ckindNum (c : CKind) : Nat :=
  match c with
  | .allred => 0 | .allgat => 1 | .redsc => 2 | .bcast => 3 | .samp => 4

def ckindOf (n : Nat) : Option CKind :=
  match n with
  | 0 => some .allred | 1 => some .allgat | 2 => some .redsc | 3 => some .bcast | 4 => some .samp
  | _ => none

/-- The width field an atomic must carry (R118). -/
def akindWidth (k : AKind) : Nat :=
  match k with
  | .i64 | .n64 => 3
  | _ => 2

/-! ## Encoding -/

/-- A word of one class and op with every field of its own zero. -/
def baseW (cls op : Nat) (h : Hdr) : Fields where
  cls := cls
  op := op
  gn := b2n h.gn
  gp := h.gp.toNat
  fd := 0
  fa := 0
  fb := 0
  wd := 0
  wa := 0
  wb := 0
  sp := b2n h.sp.isSome
  t := 0
  ib := 0
  hint := h.hint.toNat
  mod := 0
  imm := 0

def Fields.fdV (f : Fields) (d : VDst) : Fields := { f with fd := d.r.toNat, t := b2n d.t }
def Fields.fdN (f : Fields) (n : Nat) : Fields := { f with fd := n }
def Fields.fdR (f : Fields) (d : VSrc) : Fields := { f with fd := d.r.toNat, wd := b2n d.x }
def Fields.faV (f : Fields) (a : VSrc) : Fields := { f with fa := a.r.toNat, wa := b2n a.x }
def Fields.faN (f : Fields) (n : Nat) : Fields := { f with fa := n }
def Fields.fbV (f : Fields) (b : VSrc) : Fields := { f with fb := b.r.toNat, wb := b2n b.x }
def Fields.fbN (f : Fields) (n : Nat) : Fields := { f with fb := n }
def Fields.setMod (f : Fields) (n : Nat) : Fields := { f with mod := n }
def Fields.setImm (f : Fields) (n : Nat) : Fields := { f with imm := n }
def Fields.withIb (f : Fields) (n : Nat) : Fields := { f with ib := 1, imm := n }

def Fields.bOp (f : Fields) (b : BOp) : Fields :=
  match b with
  | .reg v => f.fbV v
  | .imm i => f.withIb i.toNat

def Fields.sOp (f : Fields) (b : SOp) : Fields :=
  match b with
  | .reg r => f.fbN r.toNat
  | .imm i => f.withIb i.toNat

/-- The layout of R52: bit 9 selects the scalar form. -/
def uniNum (u : Uni) : Nat :=
  match u with
  | .s r => 512 + r.toNat
  | .v r _ => r.toNat

def uniWait (u : Uni) : Nat :=
  match u with
  | .s _ => 0
  | .v _ x => b2n x

def udstNum (u : UDst) : Nat :=
  match u with
  | .s r => 512 + r.toNat
  | .v r _ => r.toNat

def udstT (u : UDst) : Nat :=
  match u with
  | .s _ => 0
  | .v _ t => b2n t

def Fields.faU (f : Fields) (u : Uni) : Fields := { f with fa := uniNum u, wa := uniWait u }
def Fields.fbU (f : Fields) (u : Uni) : Fields := { f with fb := uniNum u, wb := uniWait u }
def Fields.fdU (f : Fields) (u : UDst) : Fields := { f with fd := udstNum u, t := udstT u }

/-- The memory operand of R39: base in fb, offset in fa, displacement and absence bit in imm; `hi` is imm[31:26]. -/
def Fields.memOp (f : Fields) (m : MemRef) (hi : Nat) : Fields :=
  match m.off with
  | some v => ((f.fbU m.base).faV v).setImm (hi * 2 ^ 26 + m.disp.toNat)
  | none => (f.fbU m.base).setImm (hi * 2 ^ 26 + 2 ^ 24 + m.disp.toNat)

def mod0 (ty : IType) (sat : Bool) (cond pred : Nat) : Nat := itypeNum ty * 256 + b2n sat * 128 + cond * 16 + pred * 2

def mod1 (ty : FType) (rnd : Nat) (o : FOpt) : Nat :=
  ftypeNum ty * 256 + rnd * 32 + b2n o.na * 16 + b2n o.nb * 8 + b2n o.aa * 4 + b2n o.ab * 2 + b2n o.satf

def mod2 (b : BFmt) (rnd : Nat) : Nat := bfmtNo b * 256 + rnd * 32
def mod3 (ty : LType) (lop ind : Nat) : Nat := ltypeNum ty * 256 + lop * 32 + ind * 2
def mod6 (h : Nat) (scope : Scope) (ord width : Nat) : Nat := h * 256 + scopeNum scope * 32 + ord * 8 + width
def mod8 (h1 h2 scope : Nat) : Nat := h1 * 256 + h2 * 16 + scope * 2

def encIBin (op : Nat) (f : IBin) : Fields := (((baseW 0 op f.h).setMod (mod0 f.ty f.sat 0 0)).fdV f.d).faV f.a |>.bOp f.b
def encIUn (op : Nat) (f : IUn) : Fields := (((baseW 0 op f.h).setMod (mod0 f.ty f.sat 0 0)).fdV f.d).faV f.a
def cImm (c : VSrc) : Nat := b2n c.x * 1024 + c.r.toNat
def encITri (op : Nat) (f : ITri) : Fields :=
  ((((baseW 0 op f.h).setMod (mod0 f.ty f.sat 0 0)).fdV f.d).faV f.a).fbV f.b |>.setImm (cImm f.c)
def encFBin (op : Nat) (f : FBin) : Fields := (((baseW 1 op f.h).setMod (mod1 f.ty (rndNum f.rnd) f.o)).fdV f.d).faV f.a |>.bOp f.b
def encFTri (op : Nat) (f : FTri) : Fields :=
  ((((baseW 1 op f.h).setMod (mod1 f.ty (rndNum f.rnd) f.o)).fdV f.d).faV f.a).fbV f.b |>.setImm (cImm f.c)
def encFUn (op : Nat) (f : FUn) : Fields := (((baseW 1 op f.h).setMod (mod1 f.ty (rndNum f.rnd) f.o)).fdV f.d).faV f.a
def encDA (cls op : Nat) (f : DA) : Fields := ((baseW cls op f.h).fdV f.d).faV f.a
def encQnt (op : Nat) (f : QntF) : Fields := (((baseW 2 op f.h).setMod (mod2 f.bf (rndNum f.rnd))).fdV f.d).faV f.a |>.bOp f.b
def encExch (op : Nat) (f : ExchF) : Fields :=
  let w := (((baseW 3 op f.h).setMod (mod3 f.ty 0 f.ind.toNat)).fdV f.d).faV f.a
  match f.b with
  | some b => w.bOp b
  | none => w
def encVote (op : Nat) (f : VoteF) : Fields := (((baseW 3 op f.h).setMod (mod3 (.int .i32) 0 0)).fdN f.d.toNat).faN f.p.toNat
def encRed (op : Nat) (f : RedF) : Fields :=
  ((((baseW 3 op f.h).setMod (mod3 f.ty (lopNum f.lop) 0)).fdV f.d).faV f.a).setImm (b2n f.excl)
def encPred (op : Nat) (f : PredF) : Fields := ((baseW 3 op f.h).setMod (mod3 (.int .i32) 0 0)).fdN f.d.toNat
def encSBin (op : Nat) (f : SBin) : Fields :=
  (((baseW 4 op f.h).setMod (mod0 f.ty f.sat 0 0)).fdN f.d.toNat).faN f.a.toNat |>.sOp f.b
def encSUn (op : Nat) (f : SUn) : Fields := (((baseW 4 op f.h).setMod (mod0 f.ty f.sat 0 0)).fdN f.d.toNat).faN f.a.toNat
def encSMem (op : Nat) (f : SMemF) : Fields :=
  (((baseW 4 op f.h).setMod (mod0 f.ty false 0 0)).fdN f.d.toNat).memOp ⟨.s f.base, none, f.disp⟩ 0
def encBrx (op : Nat) (f : BrxF) : Fields := (baseW 5 op f.h).faV f.a
def encMem (op : Nat) (f : MemF) : Fields :=
  (((baseW 6 op f.h).setMod (mod6 f.hd.toNat f.scope (orderNum f.ord) (widthNum f.width))).fdR f.d).memOp f.mem (f.hint.toNat * 16)
def encLine (op : Nat) (f : LineF) : Fields :=
  (((baseW 6 op f.h).setMod (mod6 f.hd.toNat f.scope 0 2)).fdN f.p.toNat).memOp f.mem (f.hint.toNat * 16)
def encAtom (op : Nat) (f : AtomF) : Fields :=
  (((baseW 7 op f.h).setMod (mod6 f.hd.toNat f.scope (orderNum f.ord) (akindWidth f.ty))).fdR f.d).memOp f.mem
    (f.hint.toNat * 16 + b2n f.loc * 8 + akindNum f.ty)
def encRef (op : Nat) (f : RefF) : Fields :=
  ((((baseW 7 op f.h).setMod (mod6 f.hd.toNat f.scope (orderNum f.ord) 2)).fdN f.d.toNat).fbU f.base).faV f.idx
    |>.setImm (f.hint.toNat * 2 ^ 30)
def encHuni (cls op : Nat) (f : HuniF) : Fields := ((baseW cls op f.h).setMod (f.hd.toNat * 256)).faU f.a
def encMxsv (op : Nat) (f : MxsvF) : Fields :=
  (((baseW 10 op f.h).setMod (f.banks.toNat * 16 + f.gran.toNat)).faU f.a).setImm f.regions.toNat
def mxSrcW (w : Fields) (s : MxSrc) : Fields :=
  match s with
  | .mem a => w.faU a
  | .region r => w.faN r.toNat

/-- The fields of an instruction's word; none for the table's events. -/
def Instr.fields (i : Instr) : Option Fields :=
  match i with
  | .iadd f => some (encIBin 0 f) | .isub f => some (encIBin 1 f) | .imul f => some (encIBin 2 f)
  | .imulh f => some (encIBin 3 f) | .imad f => some (encITri 4 f) | .idiv f => some (encIBin 5 f)
  | .irem f => some (encIBin 6 f) | .imin f => some (encIBin 7 f) | .imax f => some (encIBin 8 f)
  | .iabs f => some (encIUn 9 f) | .and f => some (encIBin 10 f) | .or f => some (encIBin 11 f)
  | .xor f => some (encIBin 12 f) | .not f => some (encIUn 13 f) | .shl f => some (encIBin 14 f)
  | .shr f => some (encIBin 15 f) | .sar f => some (encIBin 16 f) | .popc f => some (encIUn 17 f)
  | .clz f => some (encIUn 18 f) | .brev f => some (encIUn 19 f) | .bfx f => some (encIBin 20 f)
  | .bfi f => some (encITri 21 f)
  | .lea f => some (((((baseW 0 22 f.h).setMod (mod0 f.ty f.sat 0 0)).fdV f.d).faV f.a).fbV f.b |>.setImm f.k.toNat)
  | .icmp f => some (((baseW 0 23 f.h).setMod (mod0 f.ty false (condNum f.cond) f.p.toNat)).faV f.a |>.bOp f.b)
  | .sel f => some ((((baseW 0 24 f.h).setMod (mod0 f.ty false 0 f.p.toNat)).fdV f.d).faV f.a |>.bOp f.b)
  | .mov f => some (encIUn 25 f)
  | .movi f => some ((((baseW 0 26 f.h).setMod (mod0 f.ty false 0 0)).fdV f.d).withIb f.imm.toNat)
  | .cvti f => some ((((baseW 0 27 f.h).setMod (mod0 f.ty f.sat (itypeNum f.src) 0)).fdV f.d).faV f.a)
  | .rng f => some (((((baseW 0 28 f.h).setMod (mod0 .i32 false 0 0)).fdV f.d).faV f.a).fbN f.b.toNat |>.setImm f.n.toNat)
  | .fadd f => some (encFBin 0 f) | .fsub f => some (encFBin 1 f) | .fmul f => some (encFBin 2 f)
  | .ffma f => some (encFTri 3 f) | .fmin f => some (encFBin 4 f) | .fmax f => some (encFBin 5 f)
  | .fabs f => some (encFUn 6 f) | .fneg f => some (encFUn 7 f)
  | .fcmp f => some ((((baseW 1 8 f.h).setMod (mod1 f.ty (condNum f.cond) f.o)).fdN f.p.toNat).faV f.a |>.bOp f.b)
  | .fclass f => some (encFUn 9 f) | .frcp f => some (encFUn 10 f) | .frsq f => some (encFUn 11 f)
  | .fsqrt f => some (encFUn 12 f) | .fdiv f => some (encFBin 13 f) | .fexp2 f => some (encFUn 14 f)
  | .flog2 f => some (encFUn 15 f) | .ftanh f => some (encFUn 16 f) | .fscl f => some (encFBin 17 f)
  | .frnd f => some (encFUn 18 f)
  | .cvtf f => some (((((baseW 1 19 f.h).setMod (mod1 f.ty (rndNum f.rnd) f.o)).fdV f.d).faV f.a).setImm (ftypeNum f.src))
  | .cvtif f => some (((((baseW 1 20 f.h).setMod (mod1 f.ty (rndNum f.rnd) f.o)).fdV f.d).faV f.a).setImm (itypeNum f.it))
  | .cvtfi f => some (((((baseW 1 21 f.h).setMod (mod1 f.ty (rndNum f.rnd) f.o)).fdV f.d).faV f.a).setImm (itypeNum f.it))
  | .scenc f => some ((((baseW 2 0 f.h).setMod (mod2 f.bf (rndNum f.rnd))).fdV f.d).faV f.a)
  | .scdec f => some (encDA 2 1 f) | .blkhd f => some (encDA 2 2 f)
  | .blkmk f => some (((((baseW 2 3 f.h).setMod (mod2 f.bf 0)).fdV f.d).faV f.a).fbU f.b)
  | .qnt f => some (encQnt 4 f) | .dqnt f => some (encQnt 5 f)
  | .amax f => some ((((baseW 2 6 f.h).setMod (rndNum f.rnd * 32)).fdV f.d).faV f.a)
  | .qswh f => some (encExch 0 f) | .qswv f => some (encExch 1 f) | .qswd f => some (encExch 2 f)
  | .qbc f => some (encExch 3 f) | .shfl f => some (encExch 4 f) | .shflx f => some (encExch 5 f)
  | .shfld f => some (encExch 6 f) | .gbc f => some (encExch 7 f)
  | .ballot f => some ((((baseW 3 8 f.h).setMod (mod3 (.int .i32) 0 0)).fdV f.d).faN f.p.toNat)
  | .vany f => some (encVote 9 f) | .vall f => some (encVote 10 f)
  | .gred f => some (encRed 11 f) | .gscan f => some (encRed 12 f)
  | .vmatch f => some ((((baseW 3 13 f.h).setMod (mod3 f.ty 0 0)).fdV f.d).faV f.a)
  | .elect f => some (encPred 14 f) | .helper f => some (encPred 15 f)
  | .actm f => some (((baseW 3 16 f.h).setMod (mod3 (.int .i32) 0 0)).fdV f.d)
  | .unif f => some ((((baseW 3 17 f.h).setMod (mod3 f.ty 0 0)).fdN f.d.toNat).faV f.a)
  | .sadd f => some (encSBin 0 f) | .ssub f => some (encSBin 1 f) | .smul f => some (encSBin 2 f)
  | .sand f => some (encSBin 3 f) | .sor f => some (encSBin 4 f) | .sxor f => some (encSBin 5 f)
  | .sshl f => some (encSBin 6 f) | .sshr f => some (encSBin 7 f)
  | .scmp f => some (((baseW 4 8 f.h).setMod (mod0 f.ty false (condNum f.cond) f.p.toNat)).faN f.a.toNat |>.sOp f.b)
  | .smov f => some (encSUn 9 f)
  | .smovi f => some ((((baseW 4 10 f.h).setMod (mod0 f.ty false 0 0)).fdN f.d.toNat).withIb f.imm.toNat)
  | .rds f => some ((((baseW 4 11 f.h).setMod (mod0 .i32 false 0 0)).fdU f.d).faN f.sr.toNat)
  | .sld f => some (encSMem 12 f) | .sst f => some (encSMem 13 f)
  | .smin f => some (encSBin 14 f) | .smax f => some (encSBin 15 f) | .sabs f => some (encSUn 16 f)
  | .sneg f => some (encSUn 17 f) | .snot f => some (encSUn 18 f) | .ssar f => some (encSBin 19 f)
  | .spopc f => some (encSUn 20 f) | .sclz f => some (encSUn 21 f) | .sbrev f => some (encSUn 22 f)
  | .smulh f => some (encSBin 23 f)
  | .bra f => some ((baseW 5 0 f.h).setImm f.disp.toNat)
  | .brx f => some (encBrx 1 f)
  | .call f => some (((baseW 5 2 f.h).fdV f.d).setImm f.disp.toNat)
  | .ret f => some (encBrx 3 f)
  | .switch f => some ((((baseW 5 4 f.h).setMod (f.ncase.toNat * 16 + f.stride.toNat)).faV f.a).setImm f.disp.toNat)
  | .join f => some (((baseW 5 5 f.h).setMod (f.j.toNat * 256)).setImm f.disp.toNat)
  | .waitj f => some ((baseW 5 6 f.h).setMod (f.j.toNat * 256))
  | .jrd f => some (((baseW 5 7 f.h).setMod (f.j.toNat * 256)).fdN f.s.toNat)
  | .jwr f => some (((baseW 5 8 f.h).setMod (f.j.toNat * 256)).faN f.s.toNat)
  | .yield f => some (baseW 5 9 f.h) | .exit f => some (baseW 5 10 f.h)
  | .sleep f => some ((baseW 5 11 f.h).faU f.a)
  | .brk f => some (baseW 5 12 f.h)
  | .trap f => some ((baseW 5 13 f.h).withIb f.n.toNat)
  | .nop f => some (baseW 5 14 f.h)
  | .ld f => some (encMem 0 f) | .st f => some (encMem 1 f) | .ldl f => some (encMem 2 f) | .stl f => some (encMem 3 f)
  | .ldp f => some (encMem 4 f) | .stp f => some (encMem 5 f) | .ldw f => some (encMem 6 f)
  | .prf f => some (encLine 7 f) | .stord f => some (encMem 8 f) | .outq f => some (encMem 9 f)
  | .pin f => some (encLine 10 f) | .unpin f => some (encLine 11 f)
  | .aadd f => some (encAtom 0 f) | .amin f => some (encAtom 1 f) | .amaxAtomic f => some (encAtom 2 f)
  | .aand f => some (encAtom 3 f) | .aor f => some (encAtom 4 f) | .axor f => some (encAtom 5 f)
  | .axch f => some (encAtom 6 f) | .acas f => some (encAtom 7 f) | .ainc f => some (encAtom 8 f)
  | .ared f => some (encAtom 9 f) | .refinc f => some (encRef 10 f) | .refdec f => some (encRef 11 f)
  | .fence f => some ((baseW 8 0 f.h).setMod (mod8 0 0 (scopeNum f.scope)))
  | .hfork f => some ((baseW 8 1 f.h).setMod (mod8 f.hd.toNat f.hs.toNat 0))
  | .hjoin f => some ((baseW 8 2 f.h).setMod (mod8 f.hd.toNat f.ha.toNat (scopeNum f.scope)))
  | .hexp f => some (((baseW 8 3 f.h).setMod (mod8 f.ha.toNat 0 (scopeNum f.scope))).fdU f.d)
  | .himp f => some (encHuni 8 4 f)
  | .hwait f => some ((baseW 8 5 f.h).setMod (mod8 f.ha.toNat 0 (scopeNum f.scope)))
  | .bar f => some ((baseW 8 6 f.h).withIb f.n.toNat)
  | .bara f => some (((baseW 8 7 f.h).fdN f.s.toNat).withIb f.n.toNat)
  | .barw f => some (((baseW 8 8 f.h).faN f.s.toNat).withIb f.n.toNat)
  | .gbar f => some (baseW 8 9 f.h) | .aflush f => some (baseW 8 10 f.h)
  | .frec f => some (encHuni 8 11 f)
  | .cpyk f => some ((((baseW 9 0 f.h).setMod (f.hd.toNat * 256 + scopeNum f.scope * 32)).fdN f.d.toNat).faV f.a)
  | .arrx f => some ((((baseW 9 1 f.h).fdN f.d.toNat).faU f.a).sOp f.b)
  | .bwait f =>
    let w := (((baseW 9 2 f.h).setMod (f.hd.toNat * 256 + b2n f.prom.isSome)).faU f.a).sOp f.b
    match f.prom with
    | some p => some { w with fd := uniNum p, wd := uniWait p }
    | none => some w
  | .chain f => some ((((baseW 9 3 f.h).setMod (f.hd.toNat * 256 + scopeNum f.scope * 32)).faU f.a).withIb f.c.toNat)
  | .chst f => some (((baseW 9 4 f.h).fdN f.d.toNat).withIb f.c.toNat)
  | .pub f => some (encHuni 9 5 f)
  | .mxld f => some ((((baseW 10 0 f.h).setMod (f.banks.toNat * 16 + f.gran.toNat)).faU f.a).setImm (b2n f.glob))
  | .mxkv f => some (((baseW 10 1 f.h).setMod (2 ^ f.bank.toNat * 16)).faU f.a)
  | .mxmul f => some (mxSrcW ((((baseW 10 2 f.h).setMod (f.banks.toNat * 16 + alignNum f.align * 4 + f.gran.toNat)).fdN f.d.toNat).setImm
      (mxKindNum f.kind * 16 + f.rows.toNat)) f.src)
  | .mxz f => some ((baseW 10 3 f.h).fdN f.d.toNat)
  | .mxrd f => some ((((baseW 10 4 f.h).fdN f.d.toNat).faN f.a.toNat).setImm
      (mxConvNum f.conv * 65536 + f.n.toNat * 4096 + f.e0.toNat))
  | .mxwr f => some ((((baseW 10 5 f.h).fdN f.d.toNat).faV f.a).setImm (f.n.toNat * 4096 + f.e0.toNat))
  | .mxsv f => some (encMxsv 6 f) | .mxrs f => some (encMxsv 7 f)
  | .mxq f => some ((baseW 10 8 f.h).fdN f.d.toNat)
  | .launch f => some (encHuni 11 0 f)
  | .lwait f => some ((((baseW 11 1 f.h).setMod (f.hd.toNat * 256)).faU f.a).sOp f.b)
  | .relabel f => some (((baseW 11 2 f.h).setMod (iclsNum f.cls * 64)).faV f.a)
  | .itemid f => some ((baseW 11 3 f.h).fdN f.d.toNat)
  | .idone f => some (baseW 11 4 f.h)
  | .ienq f => some ((((baseW 11 5 f.h).setMod (f.hd.toNat * 256)).fdR f.d).memOp f.mem 0)
  | .tkt f => some (baseW 11 6 f.h) | .tkrel f => some (baseW 11 7 f.h)
  | .xacq f =>
    match f.tryP with
    | some p => some ((((baseW 12 0 f.h).setMod 1).fdN p.toNat).withIb f.k.toNat)
    | none => some ((baseW 12 0 f.h).withIb f.k.toNat)
  | .xrel f => some ((baseW 12 1 f.h).withIb f.k.toNat)
  | .fset f => some ((baseW 12 2 f.h).fdN f.d.toNat) | .fclr f => some ((baseW 12 3 f.h).fdN f.d.toNat)
  | .ftake f => some (encDA 12 4 f)
  | .ftest f => some (((baseW 12 5 f.h).fdN f.p.toNat).faN f.a.toNat)
  | .nacq f => some ((baseW 13 0 f.h).fdN f.d.toNat) | .nrel f => some (baseW 13 1 f.h)
  | .nlook f => some (((baseW 13 2 f.h).fdN f.d.toNat).faN f.a.toNat)
  | .fry f => some (((((baseW 13 3 f.h).setMod (f.hd.toNat * 256)).fdN f.target.toNat).faU f.a).fbV f.b)
  | .frys f => some ((baseW 13 4 f.h).fdN f.d.toNat)
  | .rdcc f => some ((baseW 14 0 f.h).fdU f.d)
  | .pmrd f => some (((baseW 14 1 f.h).fdN f.s.toNat).withIb f.n.toNat)
  | .trmk f => some ((baseW 14 2 f.h).withIb f.n.toNat)
  | .sysrd f => some (((baseW 14 3 f.h).setMod f.reg.toNat).fdN f.s.toNat)
  | .syswr f => some (((baseW 14 4 f.h).setMod f.reg.toNat).faN f.s.toNat)
  | .tlbinv f => some ((baseW 14 5 f.h).faN f.a.toNat)
  | .halt f => some ((baseW 14 6 f.h).fdN f.d.toNat)
  | .coll f => some (((baseW 15 0 f.h).setMod (f.hd.toNat * 256 + ckindNum f.kind * 32)).faU f.a)
  | .collw f => some (encHuni 15 1 f)
  | .mcst f => some (((((baseW 15 2 f.h).setMod (f.hd.toNat * 256)).fdR f.d).memOp ⟨f.base, none, f.disp⟩ 0).faN f.set.toNat)
  | .quantumExpiry _ | .splitWaitEnd _ _ | .sleepWake _ _ | .loadDataReturn _ _ | .atomicAtHomeSlice _ _
  | .atomicReturn _ _ | .storePerform _ _ | .outqPush _ | .ienqPush _ | .remotePacketArrival _
  | .remoteAccessFailure _ _ _ | .backInvalidate _ | .pinRevoked _ | .mxCommandExecute _ _ | .xacqGrant _ _
  | .xacqSwapOut _ _ | .startGateApply _ | .copyRequestAccept _ _ | .land _ | .copyFault _ _ | .chainRecord _ _
  | .collectiveCommit _ _ | .collectiveAbort _ _ | .collectiveTimeout _ _ | .ferryDelivery _ | .ferryApply _ _
  | .ferryAck _ _ | .queueRecordTake _ | .launchEntryTake _ | .blockPlace _ _ | .groupRestore _ _ | .parentSwapOut _
  | .lwaitReread _ _ | .launchComplete _ | .watchdog _ | .launchTime _ | .itemTake _ | .itemGroupStart _ _ _
  | .atomicItemAdmit _ | .gateReached _ _ | .streamComplete _ | .dispatcherRetry _ | .asyncFaultDelivery _
  | .faultRingWrite _ | .pageReplay _ | .preemptTimeout _ | .groupSave _ | .migration _ _ | .contextRunsWrite _
  | .mogulWindowEnd | .commit | .create | .destroy | .reachAdd | .reachRemove | .pubnew | .getid | .attest | .trial _
  | .fretry _ | .killLaunch _ | .stopBlock _ | .resumeBlock _ | .killBlock _ | .stopAtCount _ | .fwbell _
  | .qprodWrite _ _ _ | .queueEnable _ | .queueDisable _ | .registerWrite _ _ _ | .watch _ _ | .uncorrectableError _
  | .correctedError | .dieLost _ | .portFailure _ _ | .packageReset | .promiseMiss _ _ | .liftLineSlotRetire _ _ =>
    none

/-- The header of an instruction; an event has none. -/
def Fields.hdr (f : Fields) (m : Option MaskWord) : Hdr where
  gn := f.gn == 1
  gp := BitVec.ofNat 3 f.gp
  hint := BitVec.ofNat 2 f.hint
  sp := m

/-- Guard, hint and safe point of an instruction. -/
def Instr.hdr (i : Instr) : Option Hdr :=
  match i with
  | .iadd f => some f.h
  | .isub f => some f.h
  | .imul f => some f.h
  | .imulh f => some f.h
  | .imad f => some f.h
  | .idiv f => some f.h
  | .irem f => some f.h
  | .imin f => some f.h
  | .imax f => some f.h
  | .iabs f => some f.h
  | .and f => some f.h
  | .or f => some f.h
  | .xor f => some f.h
  | .not f => some f.h
  | .shl f => some f.h
  | .shr f => some f.h
  | .sar f => some f.h
  | .popc f => some f.h
  | .clz f => some f.h
  | .brev f => some f.h
  | .bfx f => some f.h
  | .bfi f => some f.h
  | .lea f => some f.h
  | .icmp f => some f.h
  | .sel f => some f.h
  | .mov f => some f.h
  | .movi f => some f.h
  | .cvti f => some f.h
  | .rng f => some f.h
  | .fadd f => some f.h
  | .fsub f => some f.h
  | .fmul f => some f.h
  | .ffma f => some f.h
  | .fmin f => some f.h
  | .fmax f => some f.h
  | .fabs f => some f.h
  | .fneg f => some f.h
  | .fcmp f => some f.h
  | .fclass f => some f.h
  | .frcp f => some f.h
  | .frsq f => some f.h
  | .fsqrt f => some f.h
  | .fdiv f => some f.h
  | .fexp2 f => some f.h
  | .flog2 f => some f.h
  | .ftanh f => some f.h
  | .fscl f => some f.h
  | .frnd f => some f.h
  | .cvtf f => some f.h
  | .cvtif f => some f.h
  | .cvtfi f => some f.h
  | .scenc f => some f.h
  | .scdec f => some f.h
  | .blkhd f => some f.h
  | .blkmk f => some f.h
  | .qnt f => some f.h
  | .dqnt f => some f.h
  | .amax f => some f.h
  | .qswh f => some f.h
  | .qswv f => some f.h
  | .qswd f => some f.h
  | .qbc f => some f.h
  | .shfl f => some f.h
  | .shflx f => some f.h
  | .shfld f => some f.h
  | .gbc f => some f.h
  | .ballot f => some f.h
  | .vany f => some f.h
  | .vall f => some f.h
  | .gred f => some f.h
  | .gscan f => some f.h
  | .vmatch f => some f.h
  | .elect f => some f.h
  | .helper f => some f.h
  | .actm f => some f.h
  | .unif f => some f.h
  | .sadd f => some f.h
  | .ssub f => some f.h
  | .smul f => some f.h
  | .sand f => some f.h
  | .sor f => some f.h
  | .sxor f => some f.h
  | .sshl f => some f.h
  | .sshr f => some f.h
  | .scmp f => some f.h
  | .smov f => some f.h
  | .smovi f => some f.h
  | .rds f => some f.h
  | .sld f => some f.h
  | .sst f => some f.h
  | .smin f => some f.h
  | .smax f => some f.h
  | .sabs f => some f.h
  | .sneg f => some f.h
  | .snot f => some f.h
  | .ssar f => some f.h
  | .spopc f => some f.h
  | .sclz f => some f.h
  | .sbrev f => some f.h
  | .smulh f => some f.h
  | .bra f => some f.h
  | .brx f => some f.h
  | .call f => some f.h
  | .ret f => some f.h
  | .switch f => some f.h
  | .join f => some f.h
  | .waitj f => some f.h
  | .jrd f => some f.h
  | .jwr f => some f.h
  | .yield f => some f.h
  | .exit f => some f.h
  | .sleep f => some f.h
  | .brk f => some f.h
  | .trap f => some f.h
  | .nop f => some f.h
  | .ld f => some f.h
  | .st f => some f.h
  | .ldl f => some f.h
  | .stl f => some f.h
  | .ldp f => some f.h
  | .stp f => some f.h
  | .ldw f => some f.h
  | .prf f => some f.h
  | .stord f => some f.h
  | .outq f => some f.h
  | .pin f => some f.h
  | .unpin f => some f.h
  | .aadd f => some f.h
  | .amin f => some f.h
  | .amaxAtomic f => some f.h
  | .aand f => some f.h
  | .aor f => some f.h
  | .axor f => some f.h
  | .axch f => some f.h
  | .acas f => some f.h
  | .ainc f => some f.h
  | .ared f => some f.h
  | .refinc f => some f.h
  | .refdec f => some f.h
  | .fence f => some f.h
  | .hfork f => some f.h
  | .hjoin f => some f.h
  | .hexp f => some f.h
  | .himp f => some f.h
  | .hwait f => some f.h
  | .bar f => some f.h
  | .bara f => some f.h
  | .barw f => some f.h
  | .gbar f => some f.h
  | .aflush f => some f.h
  | .frec f => some f.h
  | .cpyk f => some f.h
  | .arrx f => some f.h
  | .bwait f => some f.h
  | .chain f => some f.h
  | .chst f => some f.h
  | .pub f => some f.h
  | .mxld f => some f.h
  | .mxkv f => some f.h
  | .mxmul f => some f.h
  | .mxz f => some f.h
  | .mxrd f => some f.h
  | .mxwr f => some f.h
  | .mxsv f => some f.h
  | .mxrs f => some f.h
  | .mxq f => some f.h
  | .launch f => some f.h
  | .lwait f => some f.h
  | .relabel f => some f.h
  | .itemid f => some f.h
  | .idone f => some f.h
  | .ienq f => some f.h
  | .tkt f => some f.h
  | .tkrel f => some f.h
  | .xacq f => some f.h
  | .xrel f => some f.h
  | .fset f => some f.h
  | .fclr f => some f.h
  | .ftake f => some f.h
  | .ftest f => some f.h
  | .nacq f => some f.h
  | .nrel f => some f.h
  | .nlook f => some f.h
  | .fry f => some f.h
  | .frys f => some f.h
  | .rdcc f => some f.h
  | .pmrd f => some f.h
  | .trmk f => some f.h
  | .sysrd f => some f.h
  | .syswr f => some f.h
  | .tlbinv f => some f.h
  | .halt f => some f.h
  | .coll f => some f.h
  | .collw f => some f.h
  | .mcst f => some f.h
  | .quantumExpiry _ | .splitWaitEnd _ _ | .sleepWake _ _ | .loadDataReturn _ _ | .atomicAtHomeSlice _ _
  | .atomicReturn _ _ | .storePerform _ _ | .outqPush _ | .ienqPush _ | .remotePacketArrival _
  | .remoteAccessFailure _ _ _ | .backInvalidate _ | .pinRevoked _ | .mxCommandExecute _ _ | .xacqGrant _ _
  | .xacqSwapOut _ _ | .startGateApply _ | .copyRequestAccept _ _ | .land _ | .copyFault _ _ | .chainRecord _ _
  | .collectiveCommit _ _ | .collectiveAbort _ _ | .collectiveTimeout _ _ | .ferryDelivery _ | .ferryApply _ _
  | .ferryAck _ _ | .queueRecordTake _ | .launchEntryTake _ | .blockPlace _ _ | .groupRestore _ _
  | .parentSwapOut _ | .lwaitReread _ _ | .launchComplete _ | .watchdog _ | .launchTime _ | .itemTake _
  | .itemGroupStart _ _ _ | .atomicItemAdmit _ | .gateReached _ _ | .streamComplete _ | .dispatcherRetry _
  | .asyncFaultDelivery _ | .faultRingWrite _ | .pageReplay _ | .preemptTimeout _ | .groupSave _ | .migration _ _
  | .contextRunsWrite _ | .mogulWindowEnd | .commit | .create | .destroy | .reachAdd | .reachRemove | .pubnew
  | .getid | .attest | .trial _ | .fretry _ | .killLaunch _ | .stopBlock _ | .resumeBlock _ | .killBlock _
  | .stopAtCount _ | .fwbell _ | .qprodWrite _ _ _ | .queueEnable _ | .queueDisable _ | .registerWrite _ _ _
  | .watch _ _ | .uncorrectableError _ | .correctedError | .dieLost _ | .portFailure _ _ | .packageReset
  | .promiseMiss _ _ | .liftLineSlotRetire _ _ =>
    none

/-! ## Parsing -/

section
variable (f : Fields) (h : Hdr)

def Fields.vd : VDst := ⟨BitVec.ofNat 10 f.fd, f.t == 1⟩
def Fields.vr : VSrc := ⟨BitVec.ofNat 10 f.fd, f.wd == 1⟩
def Fields.va : VSrc := ⟨BitVec.ofNat 10 f.fa, f.wa == 1⟩
def Fields.vb : VSrc := ⟨BitVec.ofNat 10 f.fb, f.wb == 1⟩
def Fields.vc : VSrc := ⟨BitVec.ofNat 10 f.imm, f.imm / 1024 % 2 == 1⟩
def Fields.imm32 : W32 := BitVec.ofNat 32 f.imm
def Fields.bop : BOp := if f.ib = 1 then .imm f.imm32 else .reg f.vb
def Fields.sop : SOp := if f.ib = 1 then .imm f.imm32 else .reg (BitVec.ofNat 5 f.fb)

/-- The layout of R52; a scalar number beyond s31 names an absent register. -/
def uniOf (n w : Nat) : Option Uni :=
  if n < 512 then some (.v (BitVec.ofNat 9 n) (w == 1))
  else if n < 544 then some (.s (BitVec.ofNat 5 n)) else none

def udstOf (n t : Nat) : Option UDst :=
  if n < 512 then some (.v (BitVec.ofNat 9 n) (t == 1))
  else if n < 544 then some (.s (BitVec.ofNat 5 n)) else none

def Fields.mem : Option MemRef :=
  (uniOf f.fb f.wb).map fun b =>
    ⟨b, if f.imm / 2 ^ 24 % 2 = 1 then none else some f.va, BitVec.ofNat 24 f.imm⟩

def Fields.ity : Option IType := itypeOf (f.mod / 256)
def Fields.sat : Bool := f.mod / 128 % 2 == 1
def Fields.pred : BitVec 3 := BitVec.ofNat 3 (f.mod / 2)
def Fields.fty : Option FType := ftypeOf (f.mod / 256)
def Fields.rnd : Option Rnd := rndOf (f.mod / 32 % 8)
def Fields.fopt : FOpt :=
  ⟨f.mod / 16 % 2 == 1, f.mod / 8 % 2 == 1, f.mod / 4 % 2 == 1, f.mod / 2 % 2 == 1, f.mod % 2 == 1⟩
def Fields.bf : Option BFmt := bfmtOf (f.mod / 256)
def Fields.lty : Option LType := ltypeOf (f.mod / 256)
def Fields.h1 : BitVec 4 := BitVec.ofNat 4 (f.mod / 256)
def Fields.h2 : BitVec 4 := BitVec.ofNat 4 (f.mod / 16)
def Fields.d5 : BitVec 5 := BitVec.ofNat 5 f.fd
def Fields.a5 : BitVec 5 := BitVec.ofNat 5 f.fa
def Fields.d3 : BitVec 3 := BitVec.ofNat 3 f.fd
def Fields.scope6 : Option Scope := scopeOf (f.mod / 32 % 8)
def Fields.scope8 : Option Scope := scopeOf (f.mod / 2 % 8)

def decIBin (mk : IBin → Instr) : Option Instr := f.ity.map fun ty => mk ⟨h, ty, f.sat, f.vd, f.va, f.bop⟩
def decIUn (mk : IUn → Instr) : Option Instr := f.ity.map fun ty => mk ⟨h, ty, f.sat, f.vd, f.va⟩
def decITri (mk : ITri → Instr) : Option Instr := f.ity.map fun ty => mk ⟨h, ty, f.sat, f.vd, f.va, f.vb, f.vc⟩

def parse0 : Option Instr :=
  match f.op with
  | 0 => decIBin f h .iadd | 1 => decIBin f h .isub | 2 => decIBin f h .imul | 3 => decIBin f h .imulh
  | 4 => decITri f h .imad | 5 => decIBin f h .idiv | 6 => decIBin f h .irem | 7 => decIBin f h .imin
  | 8 => decIBin f h .imax | 9 => decIUn f h .iabs | 10 => decIBin f h .and | 11 => decIBin f h .or
  | 12 => decIBin f h .xor | 13 => decIUn f h .not | 14 => decIBin f h .shl | 15 => decIBin f h .shr
  | 16 => decIBin f h .sar | 17 => decIUn f h .popc | 18 => decIUn f h .clz | 19 => decIUn f h .brev
  | 20 => decIBin f h .bfx | 21 => decITri f h .bfi
  | 22 => f.ity.map fun ty => .lea ⟨h, ty, f.sat, f.vd, f.va, f.vb, BitVec.ofNat 3 f.imm⟩
  | 23 => f.ity.bind fun ty => (condOf (f.mod / 16 % 8)).map fun c => .icmp ⟨h, ty, c, f.pred, f.va, f.bop⟩
  | 24 => f.ity.map fun ty => .sel ⟨h, ty, f.pred, f.vd, f.va, f.bop⟩
  | 25 => decIUn f h .mov
  | 26 => f.ity.map fun ty => .movi ⟨h, ty, f.vd, f.imm32⟩
  | 27 => f.ity.bind fun ty => (itypeOf (f.mod / 16 % 8)).map fun s => .cvti ⟨h, ty, s, f.sat, f.vd, f.va⟩
  | 28 => some (.rng ⟨h, f.vd, f.va, BitVec.ofNat 5 f.fb, BitVec.ofNat 8 f.imm⟩)
  | _ => none

def decFBin (mk : FBin → Instr) : Option Instr :=
  f.fty.bind fun ty => f.rnd.map fun r => mk ⟨h, ty, r, f.fopt, f.vd, f.va, f.bop⟩
def decFUn (mk : FUn → Instr) : Option Instr :=
  f.fty.bind fun ty => f.rnd.map fun r => mk ⟨h, ty, r, f.fopt, f.vd, f.va⟩
def decCvti (mk : CvtiiF → Instr) : Option Instr :=
  f.fty.bind fun ty => (itypeOf f.imm).bind fun it => f.rnd.map fun r => mk ⟨h, ty, it, r, f.fopt, f.vd, f.va⟩

def parse1 : Option Instr :=
  match f.op with
  | 0 => decFBin f h .fadd | 1 => decFBin f h .fsub | 2 => decFBin f h .fmul
  | 3 => f.fty.bind fun ty => f.rnd.map fun r => .ffma ⟨h, ty, r, f.fopt, f.vd, f.va, f.vb, f.vc⟩
  | 4 => decFBin f h .fmin | 5 => decFBin f h .fmax | 6 => decFUn f h .fabs | 7 => decFUn f h .fneg
  | 8 => f.fty.bind fun ty => (condOf (f.mod / 32 % 8)).map fun c => .fcmp ⟨h, ty, c, f.fopt, f.d3, f.va, f.bop⟩
  | 9 => decFUn f h .fclass | 10 => decFUn f h .frcp | 11 => decFUn f h .frsq | 12 => decFUn f h .fsqrt
  | 13 => decFBin f h .fdiv | 14 => decFUn f h .fexp2 | 15 => decFUn f h .flog2 | 16 => decFUn f h .ftanh
  | 17 => decFBin f h .fscl | 18 => decFUn f h .frnd
  | 19 => f.fty.bind fun ty => (ftypeOf f.imm).bind fun s => f.rnd.map fun r => .cvtf ⟨h, ty, s, r, f.fopt, f.vd, f.va⟩
  | 20 => decCvti f h .cvtif | 21 => decCvti f h .cvtfi
  | _ => none

def parse2 : Option Instr :=
  match f.op with
  | 0 => f.bf.bind fun b => f.rnd.map fun r => .scenc ⟨h, b, r, f.vd, f.va⟩
  | 1 => some (.scdec ⟨h, f.vd, f.va⟩)
  | 2 => some (.blkhd ⟨h, f.vd, f.va⟩)
  | 3 => f.bf.bind fun b => (uniOf f.fb f.wb).map fun u => .blkmk ⟨h, b, f.vd, f.va, u⟩
  | 4 => f.bf.bind fun b => f.rnd.map fun r => .qnt ⟨h, b, r, f.vd, f.va, f.bop⟩
  | 5 => f.bf.bind fun b => f.rnd.map fun r => .dqnt ⟨h, b, r, f.vd, f.va, f.bop⟩
  | 6 => f.rnd.map fun r => .amax ⟨h, r, f.vd, f.va⟩
  | _ => none

/-- The exchanges: `useB` says that the entry has a b operand. -/
def decExch (useB : Bool) (mk : ExchF → Instr) : Option Instr :=
  f.lty.map fun ty => mk ⟨h, ty, f.pred, f.vd, f.va, if useB then some f.bop else none⟩
def decRed (mk : RedF → Instr) : Option Instr :=
  f.lty.bind fun ty => (lopOf (f.mod / 32 % 8)).map fun l => mk ⟨h, ty, l, f.imm % 2 == 1, f.vd, f.va⟩

def parse3 : Option Instr :=
  match f.op with
  | 0 => decExch f h false .qswh | 1 => decExch f h false .qswv | 2 => decExch f h false .qswd
  | 3 => decExch f h true .qbc | 4 => decExch f h true .shfl | 5 => decExch f h true .shflx
  | 6 => decExch f h true .shfld | 7 => decExch f h true .gbc
  | 8 => some (.ballot ⟨h, f.vd, BitVec.ofNat 3 f.fa⟩)
  | 9 => some (.vany ⟨h, f.d3, BitVec.ofNat 3 f.fa⟩) | 10 => some (.vall ⟨h, f.d3, BitVec.ofNat 3 f.fa⟩)
  | 11 => decRed f h .gred | 12 => decRed f h .gscan
  | 13 => f.lty.map fun ty => .vmatch ⟨h, ty, f.vd, f.va⟩
  | 14 => some (.elect ⟨h, f.d3⟩) | 15 => some (.helper ⟨h, f.d3⟩) | 16 => some (.actm ⟨h, f.vd⟩)
  | 17 => f.lty.map fun ty => .unif ⟨h, ty, f.d3, f.va⟩
  | _ => none

def decSBin (mk : SBin → Instr) : Option Instr := f.ity.map fun ty => mk ⟨h, ty, f.sat, f.d5, f.a5, f.sop⟩
def decSUn (mk : SUn → Instr) : Option Instr := f.ity.map fun ty => mk ⟨h, ty, f.sat, f.d5, f.a5⟩
def decSMem (mk : SMemF → Instr) : Option Instr :=
  f.ity.map fun ty => mk ⟨h, ty, f.d5, BitVec.ofNat 5 f.fb, BitVec.ofNat 24 f.imm⟩

def parse4 : Option Instr :=
  match f.op with
  | 0 => decSBin f h .sadd | 1 => decSBin f h .ssub | 2 => decSBin f h .smul | 3 => decSBin f h .sand
  | 4 => decSBin f h .sor | 5 => decSBin f h .sxor | 6 => decSBin f h .sshl | 7 => decSBin f h .sshr
  | 8 => f.ity.bind fun ty => (condOf (f.mod / 16 % 8)).map fun c => .scmp ⟨h, ty, c, f.pred, f.a5, f.sop⟩
  | 9 => decSUn f h .smov
  | 10 => f.ity.map fun ty => .smovi ⟨h, ty, f.d5, f.imm32⟩
  | 11 => (udstOf f.fd f.t).map fun d => .rds ⟨h, d, f.a5⟩
  | 12 => decSMem f h .sld | 13 => decSMem f h .sst
  | 14 => decSBin f h .smin | 15 => decSBin f h .smax | 16 => decSUn f h .sabs | 17 => decSUn f h .sneg
  | 18 => decSUn f h .snot | 19 => decSBin f h .ssar | 20 => decSUn f h .spopc | 21 => decSUn f h .sclz
  | 22 => decSUn f h .sbrev | 23 => decSBin f h .smulh
  | _ => none

/-- `aux` is the word that follows, the case word of a `switch`. -/
def parse5 (aux : Nat) : Option Instr :=
  match f.op with
  | 0 => some (.bra ⟨h, f.imm32⟩) | 1 => some (.brx ⟨h, f.va⟩) | 2 => some (.call ⟨h, f.vd, f.imm32⟩)
  | 3 => some (.ret ⟨h, f.va⟩)
  | 4 => if f.mod / 128 % 2 = 1 then none else
      some (.switch ⟨h, f.va, f.imm32, BitVec.ofNat 3 (f.mod / 16), BitVec.ofNat 4 f.mod, casesOf aux⟩)
  | 5 => some (.join ⟨h, f.h1, f.imm32⟩) | 6 => some (.waitj ⟨h, f.h1⟩)
  | 7 => some (.jrd ⟨h, f.h1, f.d5⟩) | 8 => some (.jwr ⟨h, f.h1, f.a5⟩)
  | 9 => some (.yield ⟨h⟩) | 10 => some (.exit ⟨h⟩)
  | 11 => (uniOf f.fa f.wa).map fun u => .sleep ⟨h, u⟩
  | 12 => some (.brk ⟨h⟩)
  | 13 => some (.trap ⟨h, BitVec.ofNat 16 f.imm⟩)
  | 14 => some (.nop ⟨h⟩)
  | _ => none

def decMem (mk : MemF → Instr) : Option Instr :=
  f.scope6.bind fun s => (orderOf (f.mod / 8 % 4)).bind fun o => (widthOf (f.mod % 8)).bind fun w => f.mem.map fun m =>
    mk ⟨h, f.h1, s, o, w, f.vr, m, BitVec.ofNat 2 (f.imm / 2 ^ 30)⟩
def decLine (mk : LineF → Instr) : Option Instr :=
  f.scope6.bind fun s => f.mem.map fun m => mk ⟨h, f.h1, s, f.d3, m, BitVec.ofNat 2 (f.imm / 2 ^ 30)⟩

def parse6 : Option Instr :=
  match f.op with
  | 0 => decMem f h .ld | 1 => decMem f h .st | 2 => decMem f h .ldl | 3 => decMem f h .stl | 4 => decMem f h .ldp
  | 5 => decMem f h .stp | 6 => decMem f h .ldw | 7 => decLine f h .prf | 8 => decMem f h .stord | 9 => decMem f h .outq
  | 10 => decLine f h .pin | 11 => decLine f h .unpin
  | _ => none

def decAtom (mk : AtomF → Instr) : Option Instr :=
  f.scope6.bind fun s => (orderOf (f.mod / 8 % 4)).bind fun o => (akindOf (f.imm / 2 ^ 26 % 8)).bind fun k =>
    f.mem.map fun m =>
      mk ⟨h, f.h1, s, o, f.imm / 2 ^ 29 % 2 == 1, k, f.vr, m, BitVec.ofNat 2 (f.imm / 2 ^ 30)⟩
def decRef (mk : RefF → Instr) : Option Instr :=
  f.scope6.bind fun s => (orderOf (f.mod / 8 % 4)).bind fun o => (uniOf f.fb f.wb).map fun b =>
    mk ⟨h, f.h1, s, o, BitVec.ofNat 10 f.fd, b, f.va, BitVec.ofNat 2 (f.imm / 2 ^ 30)⟩

def parse7 : Option Instr :=
  match f.op with
  | 0 => decAtom f h .aadd | 1 => decAtom f h .amin | 2 => decAtom f h .amaxAtomic | 3 => decAtom f h .aand
  | 4 => decAtom f h .aor | 5 => decAtom f h .axor | 6 => decAtom f h .axch | 7 => decAtom f h .acas
  | 8 => decAtom f h .ainc | 9 => decAtom f h .ared | 10 => decRef f h .refinc | 11 => decRef f h .refdec
  | _ => none

/-- Class 8, 9, 11 and 15 instructions with one handle and one R52 operand in fa. -/
def decHuni (mk : HuniF → Instr) : Option Instr := (uniOf f.fa f.wa).map fun u => mk ⟨h, f.h1, u⟩

def parse8 : Option Instr :=
  match f.op with
  | 0 => f.scope8.map fun s => .fence ⟨h, s⟩
  | 1 => some (.hfork ⟨h, f.h1, f.h2⟩)
  | 2 => f.scope8.map fun s => .hjoin ⟨h, s, f.h1, f.h2⟩
  | 3 => f.scope8.bind fun s => (udstOf f.fd f.t).map fun d => .hexp ⟨h, s, d, f.h1⟩
  | 4 => decHuni f h .himp
  | 5 => f.scope8.map fun s => .hwait ⟨h, s, f.h1⟩
  | 6 => some (.bar ⟨h, BitVec.ofNat 4 f.imm⟩)
  | 7 => some (.bara ⟨h, BitVec.ofNat 4 f.imm, f.d5⟩)
  | 8 => some (.barw ⟨h, BitVec.ofNat 4 f.imm, f.a5⟩)
  | 9 => some (.gbar ⟨h⟩) | 10 => some (.aflush ⟨h⟩)
  | 11 => decHuni f h .frec
  | _ => none

def parse9 : Option Instr :=
  match f.op with
  | 0 => f.scope6.map fun s => .cpyk ⟨h, f.h1, s, BitVec.ofNat 10 f.fd, f.va⟩
  | 1 => (uniOf f.fa f.wa).map fun u => .arrx ⟨h, f.d5, u, f.sop⟩
  | 2 => (uniOf f.fa f.wa).bind fun u =>
      if f.mod % 2 = 1 then (uniOf f.fd f.wd).map fun p => .bwait ⟨h, f.h1, u, f.sop, some p⟩
      else some (.bwait ⟨h, f.h1, u, f.sop, none⟩)
  | 3 => f.scope6.bind fun s => (uniOf f.fa f.wa).map fun u => .chain ⟨h, f.h1, s, u, BitVec.ofNat 2 f.imm⟩
  | 4 => some (.chst ⟨h, f.d5, BitVec.ofNat 2 f.imm⟩)
  | 5 => decHuni f h .pub
  | _ => none

def Fields.banks : Byte := BitVec.ofNat 8 (f.mod / 16)
def Fields.gran : BitVec 2 := BitVec.ofNat 2 f.mod

/-- The number of the one bit set in a mask of eight, or 0. -/
def oneBit (m : Nat) : BitVec 3 :=
  match m with
  | 2 => 1 | 4 => 2 | 8 => 3 | 16 => 4 | 32 => 5 | 64 => 6 | 128 => 7
  | _ => 0

def mxSrcOf (k : MxKind) : Option MxSrc :=
  match k with
  | .acc => some (.region (BitVec.ofNat 4 f.fa))
  | .e4m3 | .bf16 => (uniOf f.fa f.wa).map .mem

def parse10 : Option Instr :=
  match f.op with
  | 0 => (uniOf f.fa f.wa).map fun u => .mxld ⟨h, f.banks, f.gran, u, f.imm % 2 == 1⟩
  | 1 => (uniOf f.fa f.wa).map fun u => .mxkv ⟨h, oneBit (f.mod / 16), u⟩
  | 2 => (mxKindOf (f.imm / 16 % 4)).bind fun k => (alignOf (f.mod / 4 % 4)).bind fun a => (mxSrcOf f k).map fun s =>
      .mxmul ⟨h, BitVec.ofNat 4 f.fd, s, f.banks, a, f.gran, BitVec.ofNat 4 f.imm, k⟩
  | 3 => some (.mxz ⟨h, BitVec.ofNat 4 f.fd⟩)
  | 4 => (mxConvOf (f.imm / 65536 % 4)).map fun c =>
      .mxrd ⟨h, BitVec.ofNat 10 f.fd, BitVec.ofNat 4 f.fa, BitVec.ofNat 12 f.imm, BitVec.ofNat 4 (f.imm / 4096), c⟩
  | 5 => some (.mxwr ⟨h, BitVec.ofNat 4 f.fd, f.va, BitVec.ofNat 12 f.imm, BitVec.ofNat 4 (f.imm / 4096)⟩)
  | 6 => (uniOf f.fa f.wa).map fun u => .mxsv ⟨h, f.banks, f.gran, u, BitVec.ofNat 16 f.imm⟩
  | 7 => (uniOf f.fa f.wa).map fun u => .mxrs ⟨h, f.banks, f.gran, u, BitVec.ofNat 16 f.imm⟩
  | 8 => some (.mxq ⟨h, f.d5⟩)
  | _ => none

def parse11 : Option Instr :=
  match f.op with
  | 0 => decHuni f h .launch
  | 1 => (uniOf f.fa f.wa).map fun u => .lwait ⟨h, f.h1, u, f.sop⟩
  | 2 => (iclsOf (f.mod / 64 % 4)).map fun c => .relabel ⟨h, c, f.va⟩
  | 3 => some (.itemid ⟨h, BitVec.ofNat 10 f.fd⟩)
  | 4 => some (.idone ⟨h⟩)
  | 5 => f.mem.map fun m => .ienq ⟨h, f.h1, f.vr, m⟩
  | 6 => some (.tkt ⟨h⟩) | 7 => some (.tkrel ⟨h⟩)
  | _ => none

def parse12 : Option Instr :=
  match f.op with
  | 0 => some (.xacq ⟨h, if f.mod % 2 = 1 then some f.d3 else none, BitVec.ofNat 4 f.imm⟩)
  | 1 => some (.xrel ⟨h, BitVec.ofNat 4 f.imm⟩)
  | 2 => some (.fset ⟨h, BitVec.ofNat 10 f.fd⟩) | 3 => some (.fclr ⟨h, BitVec.ofNat 10 f.fd⟩)
  | 4 => some (.ftake ⟨h, f.vd, f.va⟩)
  | 5 => some (.ftest ⟨h, f.d3, BitVec.ofNat 10 f.fa⟩)
  | _ => none

def parse13 : Option Instr :=
  match f.op with
  | 0 => some (.nacq ⟨h, f.d5⟩) | 1 => some (.nrel ⟨h⟩) | 2 => some (.nlook ⟨h, f.d5, f.a5⟩)
  | 3 => (uniOf f.fa f.wa).map fun u => .fry ⟨h, f.h1, BitVec.ofNat 10 f.fd, u, f.vb⟩
  | 4 => some (.frys ⟨h, f.d5⟩)
  | _ => none

def parse14 : Option Instr :=
  match f.op with
  | 0 => (udstOf f.fd f.t).map fun d => .rdcc ⟨h, d⟩
  | 1 => some (.pmrd ⟨h, BitVec.ofNat 4 f.imm, f.d5⟩)
  | 2 => some (.trmk ⟨h, BitVec.ofNat 4 f.imm⟩)
  | 3 => some (.sysrd ⟨h, BitVec.ofNat 12 f.mod, f.d5⟩) | 4 => some (.syswr ⟨h, BitVec.ofNat 12 f.mod, f.a5⟩)
  | 5 => some (.tlbinv ⟨h, f.a5⟩) | 6 => some (.halt ⟨h, f.d5⟩)
  | _ => none

def parse15 : Option Instr :=
  match f.op with
  | 0 => (ckindOf (f.mod / 32 % 8)).bind fun k => (uniOf f.fa f.wa).map fun u => .coll ⟨h, f.h1, k, u⟩
  | 1 => decHuni f h .collw
  | 2 => (uniOf f.fb f.wb).map fun b => .mcst ⟨h, f.h1, f.a5, b, BitVec.ofNat 24 f.imm, f.vr⟩
  | _ => none

def parse (aux : Nat) : Option Instr :=
  match f.cls with
  | 0 => parse0 f h | 1 => parse1 f h | 2 => parse2 f h | 3 => parse3 f h | 4 => parse4 f h | 5 => parse5 f h aux
  | 6 => parse6 f h | 7 => parse7 f h | 8 => parse8 f h | 9 => parse9 f h | 10 => parse10 f h | 11 => parse11 f h
  | 12 => parse12 f h | 13 => parse13 f h | 14 => parse14 f h | 15 => parse15 f h
  | _ => none

end

/-- The number of assigned ops of each class, which the opcode map numbers from 0 (R65). -/
def assignedOps (cls : Nat) : Nat :=
  match cls with
  | 0 => 29 | 1 => 22 | 2 => 7 | 3 => 18 | 4 => 24 | 5 => 15 | 6 => 12 | 7 => 12 | 8 => 12 | 9 => 6 | 10 => 9 | 11 => 8
  | 12 => 6 | 13 => 5 | 14 => 7 | 15 => 3
  | _ => 0

/-- Whether a word is a `switch`, which the case word follows. -/
def Fields.isSwitch (f : Fields) : Bool := f.cls == 5 && f.op == 4

/-- The mask word that a safe point's next word holds, if it is well formed (R62). -/
def maskIn (aux : Nat) : Option MaskWord := if maskWord (maskOf aux) = aux then some (maskOf aux) else none

/-- The decoder, total on any word and its successor (R66). -/
def decode (w aux : BitVec 96) : Except DecodeError Instr :=
  let f := fieldsOf w.toNat
  let a := aux.toNat
  if f.cls = 15 ∧ (f.op = 62 ∨ f.op = 63) then .error .dataWord
  else if f.op ≥ assignedOps f.cls then .error .unassigned
  else if f.gn = 1 ∧ f.gp = 7 then .error .guard
  else if f.isSwitch && f.sp == 1 then .error .safePointOnSwitch
  else if f.isSwitch && caseWord (casesOf a) != a then .error .caseWord
  else if f.sp = 1 ∧ maskIn a = none then .error .maskWord
  else
    match parse f (f.hdr (if f.sp = 1 then maskIn a else none)) a with
    | none => .error .reservedValue
    | some i =>
      if i.fields ≠ some f then .error .reservedBits
      else if wf i then .ok i else .error .limit

/-- The word that follows an instruction's own: its case word or mask word, else zero. -/
def Instr.aux (i : Instr) : Nat :=
  match i with
  | .switch f => caseWord f.cases
  | i =>
    match i.hdr.bind Hdr.sp with
    | some m => maskWord m
    | none => 0

/-- The number of words an instruction takes (R57, R59, R63). -/
def Instr.words (i : Instr) : Nat :=
  match i with
  | .switch _ => 2
  | i => if (i.hdr.bind Hdr.sp).isSome then 2 else 1

/-- The words of an instruction: its own and, where one follows, its case word or mask word; none for an event. -/
def encode (i : Instr) : Option (BitVec 96 × BitVec 96) :=
  i.fields.map fun f => (BitVec.ofNat 96 f.word, BitVec.ofNat 96 i.aux)

/-- The bytes of a word, the least significant first (R50). -/
def wordBytes (w : BitVec 96) : List Byte := (List.range 12).map fun k => BitVec.ofNat 8 (w.toNat / 256 ^ k)

/-- A word from its bytes, the first the least significant. -/
def bytesWord (bs : List Byte) : BitVec 96 :=
  BitVec.ofNat 96 (bs.foldr (fun b acc => b.toNat + 256 * acc) 0)

/-- The first instruction of a run of bytes: 12 bytes, and 12 more for the word that follows. -/
def decodeBytes (bs : List Byte) : Except DecodeError Instr :=
  decode (bytesWord (bs.take 12)) (bytesWord ((bs.drop 12).take 12))

/-- The bytes of an instruction given as the opcode table numbers its bits, with zeros above nbits. -/
def tableBytes (nbits w : Nat) : List Byte :=
  let v := w % 2 ^ nbits
  wordBytes (BitVec.ofNat 96 v) ++ wordBytes (BitVec.ofNat 96 (v / 2 ^ 96))

/-- The instruction the decoder reads from an instruction's bits. -/
def decodeTableWord (nbits w : Nat) : Option Instr :=
  match decodeBytes (tableBytes nbits w) with
  | .ok i => some i
  | .error _ => none

end Sys2Proof
end

