-- ==== Sys2Proof/Machine/Num.lean ====
section
/-!
DEFINITION. Number formats and the one rounding function (R124 to R134). A finite value is a sign and a magnitude
n × 2^e; a magnitude that is not dyadic is given by its leading bits and a sticky bit.
-/
namespace Sys2Proof.Machine

/-! ## Formats (R124, R125) -/

inductive Fmt where
  | f32 | f16 | bf16 | e4m3 | e5m2 | e5m3
  deriving DecidableEq, Repr

def fmtMant (f : Fmt) : Nat :=
  match f with
  | .f32 => 23 | .f16 => 10 | .bf16 => 7 | .e4m3 => 3 | .e5m2 => 2 | .e5m3 => 3

def fmtExp (f : Fmt) : Nat :=
  match f with
  | .f32 => 8 | .f16 => 5 | .bf16 => 8 | .e4m3 => 4 | .e5m2 => 5 | .e5m3 => 5

def fmtBias (f : Fmt) : Nat :=
  match f with
  | .f32 => 127 | .f16 => 15 | .bf16 => 127 | .e4m3 => 7 | .e5m2 => 15 | .e5m3 => 15

/-- The largest finite magnitude as a code. -/
def fmtMax (f : Fmt) : Nat :=
  match f with
  | .f32 => 0x7F7FFFFF | .f16 => 0x7BFF | .bf16 => 0x7F7F | .e4m3 => 0x7E | .e5m2 => 0x7B | .e5m3 => 0xFE

/-- The formats whose all-ones exponent holds infinities and NaNs. -/
def fmtHasInf (f : Fmt) : Bool :=
  match f with
  | .f32 | .f16 | .bf16 | .e5m2 => true
  | .e4m3 | .e5m3 => false

def fmtWidth (f : Fmt) : Nat :=
  match f with
  | .f32 => 32 | .f16 => 16 | .bf16 => 16 | .e4m3 => 8 | .e5m2 => 8 | .e5m3 => 8

/-- The weight of the sign bit; e5m3 has none. -/
def fmtSignUnit (f : Fmt) : Nat := 2 ^ (fmtExp f + fmtMant f)

def signCode (f : Fmt) (neg : Bool) : Nat := if neg && f != .e5m3 then fmtSignUnit f else 0

/-- The code of an infinity's magnitude. -/
def infMag (f : Fmt) : Nat := (2 ^ fmtExp f - 1) * 2 ^ fmtMant f

/-- The canonical NaN, with a sign where the format has one. -/
def canonNaN (f : Fmt) (neg : Bool) : Nat :=
  match f with
  | .e4m3 => signCode f neg + 0x7F
  | .e5m3 => 0xFF
  | _ => signCode f neg + infMag f + 2 ^ (fmtMant f - 1)

/-- A decoded value; a NaN keeps its mantissa field. -/
inductive FVal where
  | nan (neg quiet : Bool) (mant : Nat)
  | inf (neg : Bool)
  | zero (neg : Bool)
  | fin (neg : Bool) (n : Nat) (e : Int)
  deriving DecidableEq, Repr

/-- The value of a code (R124, R125). -/
def decodeF (f : Fmt) (code : Nat) : FVal :=
  let neg := f != .e5m3 && (code / fmtSignUnit f) % 2 == 1
  let mag := code % fmtSignUnit f
  let m := mag % 2 ^ fmtMant f
  let ex := mag / 2 ^ fmtMant f
  if fmtHasInf f && ex == 2 ^ fmtExp f - 1 then
    if m = 0 then .inf neg else .nan neg (m / 2 ^ (fmtMant f - 1) == 1) m
  else if f = .e4m3 && mag == 0x7F then .nan neg true m
  else if f = .e5m3 && mag == 0xFF then .nan false true m
  else if mag = 0 then .zero neg
  else if ex = 0 then .fin neg m (1 - (fmtBias f : Int) - fmtMant f)
  else .fin neg (2 ^ fmtMant f + m) ((ex : Int) - fmtBias f - fmtMant f)

def isNaN (f : Fmt) (code : Nat) : Bool :=
  match decodeF f code with
  | .nan .. => true
  | _ => false

def isSNaN (f : Fmt) (code : Nat) : Bool :=
  match decodeF f code with
  | .nan _ q _ => !q
  | _ => false

/-- A NaN with its quiet bit set (R131); the NaNs of the 8-bit formats without one are quiet as they stand. -/
def quieted (f : Fmt) (code : Nat) : Nat :=
  if fmtHasInf f then code ||| 2 ^ (fmtMant f - 1) else code

/-! ## Flags (R32, R133) -/

abbrev Flags := BitVec 6

def flNX : Flags := 1
def flUF : Flags := 2
def flOF : Flags := 4
def flDZ : Flags := 8
def flNV : Flags := 16
def flIDIV0 : Flags := 32

def flagIf (c : Bool) (f : Flags) : Flags := if c then f else 0

/-! ## Rounding (R128 to R130) -/

/-- Whether the magnitude k + rem/2^shift, with a sticky part below, goes up to k + 1. -/
def roundsUp (mode : Rnd) (neg : Bool) (k rem half : Nat) (sticky : Bool) : Bool :=
  let inexact := rem != 0 || sticky
  let above := rem > half || (rem == half && sticky)
  let tie := rem == half && !sticky
  match mode with
  | .rne => above || (tie && k % 2 == 1)
  | .rtz => false
  | .rup => inexact && !neg
  | .rdn => inexact && neg
  | .rna => above || tie

/-- The magnitude an overflow is replaced by (R130). -/
def overflowMag (f : Fmt) (mode : Rnd) (satf neg : Bool) : Nat :=
  if !fmtHasInf f || satf then fmtMax f
  else
    match mode with
    | .rne | .rna => infMag f
    | .rtz => fmtMax f
    | .rup => if neg then fmtMax f else infMag f
    | .rdn => if neg then infMag f else fmtMax f

/-- round(x, fmt, mode) for a magnitude n × 2^e (n not 0), plus a part below one unit of n when `sticky` is set
(then n has more bits than the format). -/
def roundMag (f : Fmt) (mode : Rnd) (satf neg : Bool) (n : Nat) (e : Int) (sticky : Bool) : Nat × Flags :=
  let m := fmtMant f
  let emin : Int := 1 - (fmtBias f : Int)
  let ex : Int := max ((Nat.log2 n : Int) + e) emin
  let shift : Int := ex - m - e
  let (k, up, inexact) :=
    if shift ≤ 0 then (n * 2 ^ (-shift).toNat, false, sticky)
    else
      let sh := shift.toNat
      let k := n / 2 ^ sh
      let rem := n % 2 ^ sh
      (k, roundsUp mode neg k rem (2 ^ (sh - 1)) sticky, rem != 0 || sticky)
  let mag := (ex - emin).toNat * 2 ^ m + (if up then k + 1 else k)
  if mag > fmtMax f then
    (signCode f neg + overflowMag f mode satf neg, flOF ||| flNX)
  else
    (signCode f neg + mag, flagIf inexact flNX ||| flagIf (inexact && mag < 2 ^ m) flUF)

/-- Rounding of a finite value that may be zero. -/
def roundVal (f : Fmt) (mode : Rnd) (satf neg : Bool) (n : Nat) (e : Int) (sticky : Bool) : Nat × Flags :=
  if n = 0 then (signCode f neg, 0) else roundMag f mode satf neg n e sticky

/-- The quotient of two magnitudes: leading bits, exponent and sticky bit. -/
def quotMag (n : Nat) (e : Int) (n' : Nat) (e' : Int) : Nat × Int × Bool :=
  let s := 96 + Nat.log2 n'
  let a := n * 2 ^ s
  (a / n', e - e' - s, a % n' != 0)

/-- A signed dyadic number v × 2^e. -/
structure Dy where
  v : Int
  e : Int
  deriving DecidableEq, Repr

def dyAdd (a b : Dy) : Dy :=
  let e := min a.e b.e
  ⟨a.v * 2 ^ (a.e - e).toNat + b.v * 2 ^ (b.e - e).toNat, e⟩

def dyMul (a b : Dy) : Dy := ⟨a.v * b.v, a.e + b.e⟩

def dyLt (a b : Dy) : Bool :=
  let e := min a.e b.e
  decide (a.v * 2 ^ (a.e - e).toNat < b.v * 2 ^ (b.e - e).toNat)

def roundDy (f : Fmt) (mode : Rnd) (satf : Bool) (d : Dy) (zeroNeg : Bool) : Nat × Flags :=
  if d.v = 0 then (signCode f zeroNeg, 0)
  else roundMag f mode satf (decide (d.v < 0)) d.v.natAbs d.e false

/-- The finite value as a dyadic number. -/
def fvalDy (v : FVal) : Dy :=
  match v with
  | .fin neg n e => ⟨if neg then -(n : Int) else n, e⟩
  | _ => ⟨0, 0⟩

def fvalNeg (v : FVal) : Bool :=
  match v with
  | .nan neg _ _ => neg
  | .inf neg => neg
  | .zero neg => neg
  | .fin neg _ _ => neg

/-- The sign of an exact zero sum (R129). -/
def zeroSumNeg (mode : Rnd) (a b : Bool) : Bool := if a == b then a else mode == .rdn

/-- x + y of two finite values, rounded once. -/
def addFinite (f : Fmt) (mode : Rnd) (satf : Bool) (x y : FVal) : Nat × Flags :=
  roundDy f mode satf (dyAdd (fvalDy x) (fvalDy y)) (zeroSumNeg mode (fvalNeg x) (fvalNeg y))

/-! ## Square roots -/

/-- The integer square root, one bit of the result at a time from bit `fuel - 1` down. -/
def isqrtFrom (n : Nat) : Nat → Nat → Nat
  | 0, r => r
  | fuel + 1, r =>
    let r' := r + 2 ^ fuel
    isqrtFrom n fuel (if r' * r' ≤ n then r' else r)

def isqrt (n : Nat) : Nat := isqrtFrom n (Nat.log2 n / 2 + 1) 0

/-- A magnitude with an even exponent. -/
def evenExp (n : Nat) (e : Int) : Nat × Int := if e % 2 = 0 then (n, e) else (2 * n, e - 1)

def sqrtMag (n : Nat) (e : Int) : Nat × Int × Bool :=
  let (n, e) := evenExp n e
  let n' := n * 2 ^ 128
  let r := isqrt n'
  (r, e / 2 - 64, r * r != n')

def rsqrtMag (n : Nat) (e : Int) : Nat × Int × Bool :=
  let (n, e) := evenExp n e
  let s := 96 + Nat.log2 n
  let r := isqrt (2 ^ (2 * s) / n)
  (r, -(e / 2) - s, r * r * n != 2 ^ (2 * s))

/-! ## Transcendental values by enclosure

An interval (lo, hi) stands for a value between lo × 2^-prec and hi × 2^-prec. The exact values here are irrational
(the representable cases are taken out first), so a rounding on which both ends agree is the rounding of the value. -/

def prec : Nat := 352

abbrev Encl := Nat × Nat

def cdiv (a b : Nat) : Nat := (a + b - 1) / b

def enclMul (a b : Encl) : Encl := (a.1 * b.1 / 2 ^ prec, cdiv (a.2 * b.2) (2 ^ prec))
def enclDiv (a b : Encl) : Encl := (a.1 * 2 ^ prec / b.2, cdiv (a.2 * 2 ^ prec) b.1)
def enclAdd (a b : Encl) : Encl := (a.1 + b.1, a.2 + b.2)

/-- Sum of z^(2k+1)/(2k+1) from the given odd power on. -/
def atanhTerms (z2 : Encl) : Nat → Nat → Encl → Encl → Encl
  | 0, _, _, acc => (acc.1, acc.2 + 1)
  | fuel + 1, k, pow, acc =>
    atanhTerms z2 fuel (k + 2) (enclMul pow z2) (enclAdd acc (pow.1 / k, cdiv pow.2 k))

/-- atanh of z, at most 1/3. The terms left out lie below one unit after 128 of them. -/
def atanhEncl (z : Encl) : Encl := atanhTerms (enclMul z z) 128 1 z (0, 0)

/-- The natural logarithm of num/den in [1, 2): twice atanh((x-1)/(x+1)). -/
def lnEncl (num den : Nat) : Encl :=
  let z : Encl := ((num - den) * 2 ^ prec / (num + den), cdiv ((num - den) * 2 ^ prec) (num + den))
  let r := atanhEncl z
  (2 * r.1, 2 * r.2)

def ln2Encl : Encl := let r := atanhEncl (2 ^ prec / 3, 2 ^ prec / 3 + 1); (2 * r.1, 2 * r.2)

/-- Sum of t^k/k! from the given term on, for t below 1. -/
def expTerms (t : Encl) : Nat → Nat → Encl → Encl → Encl
  | 0, _, _, acc => (acc.1, acc.2 + 1)
  | fuel + 1, k, term, acc =>
    let nx := enclMul term t
    expTerms t fuel (k + 1) (nx.1 / k, cdiv nx.2 k) (enclAdd acc term)

def expEncl (t : Encl) : Encl := expTerms t 96 1 (2 ^ prec, 2 ^ prec) (0, 0)

def enclSquares : Nat → Encl → Encl
  | 0, a => a
  | k + 1, a => enclSquares k (enclMul a a)

/-- The rounding on which both ends agree; where they do not, a value the model leaves open (log entry 3). -/
def roundEncl (fn : Nat) (f : Fmt) (mode : Rnd) (satf neg : Bool) (v : Encl) (e : Int) (operand : Nat) : Nat × Flags :=
  let lo := roundVal f mode satf neg v.1 e true
  let hi := roundVal f mode satf neg (v.2 - 1) e true
  if lo = hi then lo
  else ((Config.undecidedRounding fn (fmtWidth f) operand).toNat % 2 ^ fmtWidth f, flNX)

/-- 2^x for finite x not 0. -/
def exp2Fin (f : Fmt) (mode : Rnd) (satf neg : Bool) (n : Nat) (e : Int) (operand : Nat) : Nat × Flags :=
  let big := decide ((Nat.log2 n : Int) + e ≥ 9)
  if big then
    if neg then roundMag f mode satf false (2 ^ 64) (-400) true
    else roundMag f mode satf false (2 ^ 64) 200 true
  else
    -- |x| × 2^prec, exact: every operand's last bit lies above 2^-prec
    let a := n * 2 ^ (e + prec).toNat
    let unit := 2 ^ prec
    let ip : Int := if neg then -(((a + unit - 1) / unit : Nat) : Int) else ((a / unit : Nat) : Int)
    let frac := if neg then (unit - a % unit) % unit else a % unit
    if frac = 0 then roundMag f mode satf false 1 ip false
    else roundEncl 0 f mode satf false (expEncl (enclMul (frac, frac) ln2Encl)) (ip - prec) operand

/-- log2 of a positive finite value; that of 1 is +0 in every mode (log entry 116). -/
def log2Fin (f : Fmt) (mode : Rnd) (satf : Bool) (n : Nat) (e : Int) (operand : Nat) : Nat × Flags :=
  let l := Nat.log2 n
  let ip : Int := l + e
  if n = 2 ^ l then roundVal f mode satf (decide (ip < 0)) ip.natAbs 0 false
  else
    let fr := enclDiv (lnEncl n (2 ^ l)) ln2Encl
    if ip ≥ 0 then
      let b := ip.toNat * 2 ^ prec
      roundEncl 1 f mode satf false (b + fr.1, b + fr.2) (-prec) operand
    else
      let b := ip.natAbs * 2 ^ prec
      roundEncl 1 f mode satf true (b - fr.2, b - fr.1) (-prec) operand

/-- tanh of a finite value that is not 0. -/
def tanhFin (f : Fmt) (mode : Rnd) (neg : Bool) (n : Nat) (e : Int) (operand : Nat) : Nat × Flags :=
  let top : Int := (Nat.log2 n : Int) + e
  if top < -100 then roundMag f mode false neg (n * 2 ^ 130 - 1) (e - 130) true
  else if top ≥ 6 then roundMag f mode false neg (2 ^ 100 - 1) (-100) true
  else
    -- 2|x| / 256 in units of 2^-prec, then eight squarings give e^(2|x|)
    let t := n * 2 ^ (e + prec - 7).toNat
    let y := enclSquares 8 (expEncl (t, t))
    let one := 2 ^ prec
    let lo := (y.1 - one) * one / (y.1 + one)
    let hi := cdiv ((y.2 - one) * one) (y.2 + one)
    roundEncl 2 f mode false neg (lo, hi) (-prec) operand

/-! ## Integers -/

def itypeBits (t : IType) : Nat :=
  match t with
  | .i8 | .n8 => 8 | .i16 | .n16 => 16 | .i32 | .n32 => 32 | .i64 | .n64 => 64

def itypeSigned (t : IType) : Bool :=
  match t with
  | .i8 | .i16 | .i32 | .i64 => true
  | .n8 | .n16 | .n32 | .n64 => false

/-- The low N bits read as the type (R127). -/
def readInt (t : IType) (x : Nat) : Int :=
  let n := itypeBits t
  let v := x % 2 ^ n
  if itypeSigned t && v ≥ 2 ^ (n - 1) then (v : Int) - 2 ^ n else v

def maxInt (t : IType) : Int := if itypeSigned t then 2 ^ (itypeBits t - 1) - 1 else 2 ^ itypeBits t - 1
def minInt (t : IType) : Int := if itypeSigned t then -2 ^ (itypeBits t - 1) else 0

def clampInt (t : IType) (x : Int) : Int := max (minInt t) (min (maxInt t) x)

/-- The low N bits of a result, extended under R127 to w bits. -/
def extendTo (w : Nat) (t : IType) (x : Int) : Nat :=
  (readInt t (x % 2 ^ itypeBits t).toNat % 2 ^ w).toNat

/-- The low n bits of x, sign-extended. -/
def sextNat (n : Nat) (x : Nat) : Int :=
  let v := x % 2 ^ n
  if v ≥ 2 ^ (n - 1) then (v : Int) - 2 ^ n else v

/-- A magnitude n × 2^e rounded to an integer by the mode's rule (R134), and whether it changed. -/
def roundToInt (mode : Rnd) (neg : Bool) (n : Nat) (e : Int) (sticky : Bool) : Nat × Bool :=
  if e ≥ 0 then (n * 2 ^ e.toNat, sticky)
  else
    let sh := (-e).toNat
    let k := n / 2 ^ sh
    let rem := n % 2 ^ sh
    (if roundsUp mode neg k rem (2 ^ (sh - 1)) sticky then k + 1 else k, rem != 0 || sticky)

/-! ## Conversions (R131, R132, R134) -/

/-- A NaN converted between formats (R132). -/
def convNaN (src dst : Fmt) (code : Nat) : Nat :=
  match decodeF src code with
  | .nan neg _ m =>
    match dst with
    | .e4m3 => signCode .e4m3 neg + 0x7F
    | .e5m3 => 0xFF
    | _ =>
      if fmtHasInf src then
        let ms := fmtMant src
        let md := fmtMant dst
        let m' := if md ≥ ms then m * 2 ^ (md - ms) else m / 2 ^ (ms - md)
        quieted dst (signCode dst neg + infMag dst + m')
      else canonNaN dst neg
  | _ => 0

/-- The finite value sign, n × 2^e into a format, with the domain of e5m3 (R131). -/
def intoFmt (dst : Fmt) (mode : Rnd) (satf neg : Bool) (n : Nat) (e : Int) (sticky : Bool) : Nat × Flags :=
  if dst = .e5m3 && neg && n != 0 then (0xFF, flNV) else roundVal dst mode satf neg n e sticky

/-- An infinity into a format (R131, R134). -/
def infInto (dst : Fmt) (neg : Bool) : Nat × Flags :=
  match dst with
  | .e4m3 => (signCode .e4m3 neg + 0x7F, flNV)
  | .e5m3 => (0xFF, flNV)
  | _ => (signCode dst neg + infMag dst, 0)

/-- Any floating format to any floating format (R134). -/
def convFloat (src dst : Fmt) (mode : Rnd) (satf : Bool) (code : Nat) : Nat × Flags :=
  match decodeF src code with
  | .nan _ q _ => (convNaN src dst code, flagIf (!q) flNV)
  | .inf neg => infInto dst neg
  | .zero neg => (signCode dst neg, 0)
  | .fin neg n e => intoFmt dst mode satf neg n e false

def convFromInt (dst : Fmt) (mode : Rnd) (satf : Bool) (x : Int) : Nat × Flags :=
  roundVal dst mode satf (decide (x < 0)) x.natAbs 0 false

/-- A float to an integer type: the integer and the flags. -/
def convToInt (src : Fmt) (t : IType) (mode : Rnd) (code : Nat) : Int × Flags :=
  match decodeF src code with
  | .nan .. => (0, flNV)
  | .inf neg => (if neg then minInt t else maxInt t, flNV)
  | .zero _ => (0, 0)
  | .fin neg n e =>
    let (k, inexact) := roundToInt mode neg n e false
    let x : Int := if neg then -(k : Int) else k
    if x > maxInt t then (maxInt t, flNV)
    else if x < minInt t then (minInt t, flNV)
    else (x, flagIf inexact flNX)

/-- The value of an e5m3 scale as a magnitude; `none` for 0xFF. -/
def scaleVal (s : Nat) : Option (Nat × Int) :=
  match decodeF .e5m3 s with
  | .fin _ n e => some (n, e)
  | .zero _ => some (0, 0)
  | _ => none

/-! ## Block elements (R136 to R138, R168) -/

/-- The floating format of a block format; w4 and w3 have none. -/
def bfmtFloat (b : BFmt) : Option Fmt :=
  match b with
  | .w4 | .w3 => none
  | .e4m3 => some .e4m3
  | .e5m2 => some .e5m2
  | .bf16 => some .bf16
  | .f16 => some .f16

def bfmtBits (b : BFmt) : Nat :=
  match b with
  | .w4 => 4 | .w3 => 3 | .e4m3 | .e5m2 => 8 | .bf16 | .f16 => 16

def bfmtCount (b : BFmt) : Nat :=
  match b with
  | .w4 => 120 | .w3 => 160 | .e4m3 | .e5m2 => 60 | .bf16 | .f16 => 30

def bfmtCode (b : BFmt) : Nat :=
  match b with
  | .w4 => 0x10 | .w3 => 0x11 | .e4m3 => 0x20 | .e5m2 => 0x21 | .bf16 => 0x30 | .f16 => 0x31

def bfmtNum (b : BFmt) : Nat :=
  match b with
  | .w4 => 0 | .w3 => 1 | .e4m3 => 2 | .e5m2 => 3 | .bf16 => 4 | .f16 => 5

def bfmtOfCode (c : Nat) : Option BFmt :=
  if c = 0x10 then some .w4 else if c = 0x11 then some .w3 else if c = 0x20 then some .e4m3
  else if c = 0x21 then some .e5m2 else if c = 0x30 then some .bf16 else if c = 0x31 then some .f16 else none

/-- An element's own value as a code of f32-like data: finite values, infinities and NaNs of R138, before the scale. -/
def elemVal (b : BFmt) (code : Nat) : FVal :=
  match bfmtFloat b with
  | some f => decodeF f code
  | none =>
    let w := sextNat (bfmtBits b) code
    if w = 0 then .zero false else .fin (decide (w < 0)) w.natAbs 0

/-- NV where a block element is a signalling NaN, an e5m2 one too, whatever its scale (R131, R133; log entry 117). -/
def signalFlag (b : BFmt) (code : Nat) : Flags :=
  match elemVal b code with
  | .nan _ q _ => flagIf (!q) flNV
  | _ => 0

/-- round(e × s, dst, mode) of a block element under its scale (R134, R138, R168). Under a scale of zero an element keeps its
sign (log entry 116). -/
def elemTimesScale (b : BFmt) (code s : Nat) (dst : Fmt) (mode : Rnd) : Nat × Flags :=
  match scaleVal s with
  | none => (canonNaN dst false, signalFlag b code)
  | some (sn, se) =>
    match elemVal b code with
    | .nan .. =>
      match bfmtFloat b with
      | some f => (convNaN f dst code, signalFlag b code)
      | none => (canonNaN dst false, 0)
    | .inf neg => (signCode dst neg + infMag dst, 0)
    | .zero neg => (signCode dst neg, 0)
    | .fin neg n e => roundVal dst mode false neg (n * sn) (e + se) false

/-- The weight rule of R134: x / s rounded to an integer and clamped. -/
def quantWeight (bits : Nat) (mode : Rnd) (x : FVal) (s : Nat) : Int × Flags :=
  let hi : Int := 2 ^ (bits - 1) - 1
  let lo : Int := -2 ^ (bits - 1)
  match scaleVal s, x with
  | none, _ => (0, flNV)
  | some _, .nan .. => (0, flNV)
  | some (0, _), _ => (0, flNV)
  | some _, .inf neg => (if neg then lo else hi, flNV)
  | some _, .zero _ => (0, 0)
  | some (sn, se), .fin neg n e =>
    let (q, qe, st) := quotMag n e sn se
    let (k, inexact) := roundToInt mode neg q qe st
    let v : Int := if neg then -(k : Int) else k
    if v > hi then (hi, flOF ||| flNX)
    else if v < lo then (lo, flOF ||| flNX)
    else (v, flagIf inexact flNX)

/-- `qnt`: the element bits of an f32 under a scale (R168). -/
def quantElem (b : BFmt) (mode : Rnd) (x s : Nat) : Nat × Flags :=
  match bfmtFloat b with
  | none =>
    let (q, fl) := quantWeight (bfmtBits b) mode (decodeF .f32 x) s
    ((q % 2 ^ bfmtBits b).toNat, fl)
  | some f =>
    match decodeF .f32 x, scaleVal s with
    | .nan .., _ => (convNaN .f32 f x, flNV)
    | v, none => (signCode f (fvalNeg v), flNV)
    | v, some (0, _) => (signCode f (fvalNeg v), flNV)
    | .inf neg, _ => infInto f neg
    | .zero neg, _ => (signCode f neg, 0)
    | .fin neg n e, some (sn, se) =>
      let (q, qe, st) := quotMag n e sn se
      roundVal f mode false neg q qe st

end Sys2Proof.Machine
end

