-- ==== Sys2Proof/Machine/Alu.lean ====
section
/-!
DEFINITION. The results of the integer, scalar, float and lane operations on values, apart from registers (R69, R141 to
R150, R157 to R164, R167 to R171, R178 to R181).
-/
namespace Sys2Proof.Machine

/-! ## Integers (R69, R141 to R150) -/

/-- Saturation or wrapping, then R127's extension to w bits. -/
def intOut (w : Nat) (t : IType) (sat : Bool) (res : Int) : Nat :=
  extendTo w t (if sat then clampInt t res else res)

/-- The width a vector result takes: one register, or a pair for a 64-bit type. -/
def vecBits (t : IType) : Nat := if itypeBits t = 64 then 64 else 32

/-- sext(imm, 32) as a 64-bit pattern (R144). -/
def immBits (i : W32) : Nat := (i.signExtend 64).toNat

/-- The shift count c of R141: y[5:0] mod N. -/
def shiftCount (t : IType) (y : Nat) : Nat := (y % 64) % itypeBits t

def bitAt (x i : Nat) : Nat := (x / 2 ^ i) % 2

/-- The low n bits of x. -/
def lowBits (n x : Nat) : Nat := x % 2 ^ n

def popCount : Nat → Nat → Nat
  | 0, _ => 0
  | n + 1, x => bitAt x n + popCount n x

/-- The number of leading zero bits among the low n bits. -/
def leadingZeros : Nat → Nat → Nat
  | 0, _ => 0
  | n + 1, x => if bitAt x n = 1 then 0 else 1 + leadingZeros n x

def reverseBits (n x : Nat) : Nat := ((List.range n).map fun i => bitAt x i * 2 ^ (n - 1 - i)).sum

def compareInt (c : Cond) (x y : Int) : Bool :=
  match c with
  | .eq => x == y
  | .ne => x != y
  | .lt => decide (x < y)
  | .le => decide (x ≤ y)
  | .gt => decide (x > y)
  | .ge => decide (x ≥ y)

/-- The quotient of R145. -/
def divInt (t : IType) (x y : Int) : Int :=
  if y = 0 then (if itypeSigned t then -1 else maxInt t) else Int.tdiv x y

/-- The remainder of R145. -/
def remInt (x y : Int) : Int := if y = 0 then x else Int.tmod x y

/-- The effective length of a field at p of length l in N bits (R146). -/
def fieldLen (n p l : Nat) : Nat := if p < n then min l (n - p) else 0

/-- The place p = y[7:0] and the effective length of the field, with y read as type T (R141, R144, R146). -/
def fieldOf (t : IType) (y : Nat) : Nat × Nat :=
  let p := (readInt t y % 256).toNat
  (p, fieldLen (itypeBits t) p (readInt t y / 256 % 256).toNat)

def bfxInt (t : IType) (x y : Nat) : Int :=
  let (p, l) := fieldOf t y
  let v := (lowBits (itypeBits t) x / 2 ^ p) % 2 ^ l
  if l = 0 then 0 else if itypeSigned t then sextNat l v else v

def bfiInt (t : IType) (x y z : Nat) : Int :=
  let (p, l) := fieldOf t y
  let z := lowBits (itypeBits t) z
  let hole := z / 2 ^ p % 2 ^ l
  (z - hole * 2 ^ p + (x % 2 ^ l) * 2 ^ p : Nat)

/-- The draw of R150. -/
def rngDraw (key : W64) (stream : Byte) (x0 : W32) : W32 :=
  let k := key ^^^ (stream.zeroExtend 64 * 0x0100000000000001#64)
  let klo := k.truncate 32
  let khi := (k >>> 32).truncate 32
  let x := x0 ^^^ klo
  let x := x * 0x6C8E9CF5#32
  let x := x ^^^ (x >>> 16)
  let x := x * 0xB55A4F09#32
  let x := x ^^^ (x >>> 13)
  let x := x + khi
  x ^^^ (x >>> 16)

/-! ## Floats (R157 to R164) -/

/-- The element format of a class 1 type. -/
def elemFmt (t : FType) : Fmt :=
  match t with
  | .f32 => .f32
  | .f16 | .f16x2 => .f16
  | .bf16 | .bf16x2 => .bf16

def isPacked (t : FType) : Bool :=
  match t with
  | .f16x2 | .bf16x2 => true
  | _ => false

/-- The element codes of a register. -/
def elems (t : FType) (x : Nat) : List Nat :=
  match t with
  | .f32 => [x % 2 ^ 32]
  | .f16 | .bf16 => [x % 2 ^ 16]
  | .f16x2 | .bf16x2 => [x % 2 ^ 16, x / 2 ^ 16 % 2 ^ 16]

/-- The register that holds the element results, and the union of their flags. -/
def packElems (rs : List (Nat × Flags)) : Nat × Flags :=
  match rs with
  | [a] => a
  | [a, b] => (a.1 + b.1 * 2 ^ 16, a.2 ||| b.2)
  | _ => (0, 0)

/-- Absolute value first, then negation, on the sign bit alone (R157). -/
def optSign (f : Fmt) (abs neg : Bool) (x : Nat) : Nat :=
  let x := if abs then x % fmtSignUnit f else x
  if neg then x ^^^ fmtSignUnit f else x

/-- The first NaN among the operands (R131): its quieted code, with NV if any of them is signalling. -/
def firstNaN (f : Fmt) (xs : List Nat) : Option (Nat × Flags) :=
  match xs.filter (isNaN f) with
  | [] => none
  | x :: _ => some (quieted f x, flagIf (xs.any (isSNaN f)) flNV)

def invalidRes (f : Fmt) : Nat × Flags := (canonNaN f false, flNV)
def infRes (f : Fmt) (neg : Bool) : Nat × Flags := (signCode f neg + infMag f, 0)
def zeroRes (f : Fmt) (neg : Bool) : Nat × Flags := (signCode f neg, 0)

/-- x + y of numbers that are not NaN (R129, R158, R159). -/
def addF (f : Fmt) (mode : Rnd) (satf : Bool) (x y : FVal) : Nat × Flags :=
  match x, y with
  | .inf a, .inf b => if a = b then infRes f a else invalidRes f
  | .inf a, _ => infRes f a
  | _, .inf b => infRes f b
  | _, _ => addFinite f mode satf x y

def negF (v : FVal) : FVal :=
  match v with
  | .nan s q m => .nan (!s) q m
  | .inf s => .inf (!s)
  | .zero s => .zero (!s)
  | .fin s n e => .fin (!s) n e

/-- The product as a value, exact; `none` for 0 × ∞. -/
def mulVal (x y : FVal) : Option FVal :=
  let s := fvalNeg x != fvalNeg y
  match x, y with
  | .inf _, .zero _ => none
  | .zero _, .inf _ => none
  | .inf _, _ => some (.inf s)
  | _, .inf _ => some (.inf s)
  | .fin _ n e, .fin _ n' e' => some (.fin s (n * n') (e + e'))
  | _, _ => some (.zero s)

def roundF (f : Fmt) (mode : Rnd) (satf : Bool) (v : FVal) : Nat × Flags :=
  match v with
  | .nan neg _ _ => (canonNaN f neg, 0)
  | .inf neg => infRes f neg
  | .zero neg => zeroRes f neg
  | .fin neg n e => roundVal f mode satf neg n e false

def mulF (f : Fmt) (mode : Rnd) (satf : Bool) (x y : FVal) : Nat × Flags :=
  match mulVal x y with
  | none => invalidRes f
  | some v => roundF f mode satf v

def fmaF (f : Fmt) (mode : Rnd) (satf : Bool) (x y z : FVal) : Nat × Flags :=
  match mulVal x y with
  | none => invalidRes f
  | some v => addF f mode satf v z

def divF (f : Fmt) (mode : Rnd) (satf : Bool) (x y : FVal) : Nat × Flags :=
  let s := fvalNeg x != fvalNeg y
  match x, y with
  | .inf _, .inf _ => invalidRes f
  | .zero _, .zero _ => invalidRes f
  | .inf _, _ => infRes f s
  | _, .inf _ => zeroRes f s
  | .zero _, _ => zeroRes f s
  | _, .zero _ => ((infRes f s).1, flDZ)
  | .fin _ n e, .fin _ n' e' => let (q, qe, st) := quotMag n e n' e'; roundVal f mode satf s q qe st
  | _, _ => invalidRes f

def rcpF (f : Fmt) (mode : Rnd) (satf : Bool) (x : FVal) : Nat × Flags :=
  match x with
  | .zero s => ((infRes f s).1, flDZ)
  | .inf s => zeroRes f s
  | .fin s n e => let (q, qe, st) := quotMag 1 0 n e; roundVal f mode satf s q qe st
  | .nan .. => invalidRes f

def rsqF (f : Fmt) (mode : Rnd) (satf : Bool) (x : FVal) : Nat × Flags :=
  match x with
  | .zero s => ((infRes f s).1, flDZ)
  | .inf false => zeroRes f false
  | .fin false n e => let (q, qe, st) := rsqrtMag n e; roundVal f mode satf false q qe st
  | _ => invalidRes f

def sqrtF (f : Fmt) (mode : Rnd) (satf : Bool) (x : FVal) : Nat × Flags :=
  match x with
  | .zero s => zeroRes f s
  | .inf false => infRes f false
  | .fin false n e => let (q, qe, st) := sqrtMag n e; roundVal f mode satf false q qe st
  | _ => invalidRes f

def exp2F (f : Fmt) (mode : Rnd) (satf : Bool) (code : Nat) (x : FVal) : Nat × Flags :=
  match x with
  | .zero _ => roundVal f mode satf false 1 0 false
  | .inf false => infRes f false
  | .inf true => zeroRes f false
  | .fin s n e => exp2Fin f mode satf s n e code
  | .nan .. => invalidRes f

def log2F (f : Fmt) (mode : Rnd) (satf : Bool) (code : Nat) (x : FVal) : Nat × Flags :=
  match x with
  | .zero _ => ((infRes f true).1, flDZ)
  | .inf false => infRes f false
  | .fin false n e => log2Fin f mode satf n e code
  | _ => invalidRes f

def tanhF (f : Fmt) (mode : Rnd) (code : Nat) (x : FVal) : Nat × Flags :=
  match x with
  | .zero s => zeroRes f s
  | .inf s => roundVal f mode false s 1 0 false
  | .fin s n e => tanhFin f mode s n e code
  | .nan .. => invalidRes f

/-- x × 2^n; beyond 2^±4096 every format has overflowed or underflowed, so n may be clamped there. -/
def sclF (f : Fmt) (mode : Rnd) (satf : Bool) (x : FVal) (n : Int) : Nat × Flags :=
  match x with
  | .fin s m e => roundVal f mode satf s m (e + max (-4096) (min 4096 n)) false
  | v => roundF f mode satf v

/-- `frnd`: the exact value of R155 is the integer, so a rounding to it is no inexact result. -/
def rndF (f : Fmt) (mode : Rnd) (x : FVal) : Nat × Flags :=
  match x with
  | .fin s n e =>
    roundVal f mode false s (roundToInt mode s n e false).1 0 false
  | v => roundF f mode false v

/-- An operation on decoded operands, with NaN operands decided first (R158). -/
def nanFirst (f : Fmt) (xs : List Nat) (op : Nat × Flags) : Nat × Flags :=
  match firstNaN f xs with
  | some r => r
  | none => op

/-- The order of numbers with −0 below +0, as an integer key; NaNs are decided apart. -/
def orderKey (f : Fmt) (code : Nat) : Int :=
  let mag : Int := code % fmtSignUnit f
  if code / fmtSignUnit f % 2 = 1 then -mag - 1 else mag

/-- `fmin` and `fmax` (R161). -/
def minmaxF (f : Fmt) (isMax : Bool) (x y : Nat) : Nat × Flags :=
  if isSNaN f x || isSNaN f y then
    match firstNaN f [x, y] with
    | some r => r
    | none => (x, 0)
  else if isNaN f x then (if isNaN f y then (x, 0) else (y, 0))
  else if isNaN f y then (x, 0)
  else if isMax then (if orderKey f y > orderKey f x then (y, 0) else (x, 0))
  else (if orderKey f y < orderKey f x then (y, 0) else (x, 0))

/-- `fclass` (R162). -/
def classF (f : Fmt) (code : Nat) : Nat :=
  match decodeF f code with
  | .nan _ q _ => if q then 512 else 256
  | .inf s => if s then 1 else 128
  | .zero s => if s then 8 else 16
  | .fin s _ _ =>
    let sub := code % fmtSignUnit f < 2 ^ fmtMant f
    if s then (if sub then 4 else 2) else (if sub then 32 else 64)

/-- `fcmp` (R163): the predicate and the flags. -/
def cmpF (f : Fmt) (c : Cond) (x y : Nat) : Bool × Flags :=
  let snan := isSNaN f x || isSNaN f y
  if isNaN f x || isNaN f y then
    match c with
    | .eq => (false, flagIf snan flNV)
    | .ne => (true, flagIf snan flNV)
    | _ => (false, flNV)
  else
    let key (v : Nat) : Int := if v % fmtSignUnit f = 0 then 0 else orderKey f v
    (compareInt c (key x) (key y), 0)

/-! ## Scales and blocks (R167 to R171) -/

/-- `scenc`: an f32 divided by Q and converted to e5m3 (R167). -/
def scencVal (b : BFmt) (mode : Rnd) (x : Nat) : Nat × Flags :=
  let q := match b with
    | .w4 => 7 | .w3 => 3 | .e4m3 => 448 | .e5m2 => 57344 | .bf16 | .f16 => 1
  match decodeF .f32 x with
  | .nan _ qt _ => (0xFF, flagIf (!qt) flNV)
  | .inf _ => (0xFF, flNV)
  | .zero _ => (0, 0)
  | .fin neg n e => let (k, ke, st) := quotMag n e q 0; intoFmt .e5m3 mode false neg k ke st

def scdecVal (s : Nat) : Nat := (convFloat .e5m3 .f32 .rne false (s % 256)).1

/-- The header check of R139, on the bytes of a block and the formats its reader accepts. -/
def blockFmt (bytes : List Byte) (accepts : BFmt → Bool) : Option BFmt :=
  match bfmtOfCode (bytes.getD 0 0).toNat with
  | none => none
  | some f => if accepts f && bytes.getD 62 0 == 0 && bytes.getD 63 0 == 0 then some f else none

/-- The bytes as one little-endian number. -/
def bytesVal : List Byte → Nat
  | [] => 0
  | b :: bs => b.toNat + 256 * bytesVal bs

/-- n bytes of a number, little-endian. -/
def valBytes : Nat → Nat → List Byte
  | 0, _ => []
  | n + 1, v => BitVec.ofNat 8 v :: valBytes n (v / 256)

/-- Element k of a block (R137). -/
def blockElem (f : BFmt) (bytes : List Byte) (k : Nat) : Nat :=
  bytesVal (bytes.drop 2) / 2 ^ (bfmtBits f * k) % 2 ^ bfmtBits f

/-- `amax` of a block whose header is in order (R171); every signalling NaN among its elements sets NV (R133; log entry 117). -/
def blockAmax (f : BFmt) (bytes : List Byte) (mode : Rnd) : Nat × Flags :=
  let s := (bytes.getD 1 0).toNat
  let es := (List.range (bfmtCount f)).map fun k => blockElem f bytes k
  let nv := es.foldl (fun fl c => fl ||| signalFlag f c) 0
  match scaleVal s with
  | none => (0x7FC00000, nv)
  | some (sn, se) =>
    let nanOf (c : Nat) : Bool := match elemVal f c with | .nan .. => true | _ => false
    match es.find? nanOf with
    | some c => ((elemTimesScale f c s .f32 mode).1 % 2 ^ 31, nv)
    | none =>
      let bigger (acc : FVal) (c : Nat) : FVal :=
        match acc, elemVal f c with
        | .inf _, _ => .inf false
        | _, .inf _ => .inf false
        | a, .fin _ n e => if dyLt (fvalDy a) ⟨n, e⟩ then .fin false n e else a
        | a, _ => a
      match es.foldl bigger (.zero false) with
      | .inf _ => (infMag .f32, 0)
      | .fin _ n e => roundVal .f32 mode false false (n * sn) (e + se) false
      | _ => (0, 0)

/-! ## Reductions (R178 to R181) -/

def ltypeBits (t : LType) : Nat :=
  match t with
  | .int t => itypeBits t
  | .f32 => 32
  | .f16 | .bf16 => 16

def ltypeFmt (t : LType) : Option Fmt :=
  match t with
  | .int _ => none
  | .f32 => some .f32
  | .f16 => some .f16
  | .bf16 => some .bf16

/-- A node of the tree: the element bits and the lowest index beneath it. -/
abbrev Node := Nat × Nat

/-- argmax and argmin on floats: NaN lies above every number for argmax and below for argmin; equal values and NaNs
give the lower operand. -/
def argPick (f : Fmt) (isMax : Bool) (l r : Node) : Node :=
  if isNaN f l.1 then l
  else if isNaN f r.1 then r
  else if isMax then (if orderKey f r.1 > orderKey f l.1 then r else l)
  else (if orderKey f r.1 < orderKey f l.1 then r else l)

/-- comb(l, r) of R179. -/
def comb (t : LType) (op : Lop) (l r : Node) : Node × Flags :=
  match t, ltypeFmt t with
  | .int it, _ =>
    let x := readInt it l.1
    let y := readInt it r.1
    let out (v : Int) : Node × Flags := (((v % 2 ^ itypeBits it).toNat, l.2), 0)
    match op with
    | .add => out (x + y)
    | .min => out (if y < x then y else x)
    | .max => out (if y > x then y else x)
    | .and => out (l.1 &&& r.1 : Nat)
    | .or => out (l.1 ||| r.1 : Nat)
    | .xor => out (l.1 ^^^ r.1 : Nat)
    | .argmax => (if y > x then r else l, 0)
    | .argmin => (if y < x then r else l, 0)
  | _, some f =>
    match op with
    | .argmax => (argPick f true l r, 0)
    | .argmin => (argPick f false l r, 0)
    | _ =>
      match firstNaN f [l.1, r.1] with
      | some (c, fl) => ((c, l.2), fl)
      | none =>
        match op with
        | .add => let (c, fl) := addF f .rne false (decodeF f l.1) (decodeF f r.1); ((c, l.2), fl)
        | .min => ((if orderKey f r.1 < orderKey f l.1 then r.1 else l.1, l.2), 0)
        | _ => ((if orderKey f r.1 > orderKey f l.1 then r.1 else l.1, l.2), 0)
  | _, none => (l, 0)

def combOpt (t : LType) (op : Lop) (l r : Option Node) : Option Node × Flags :=
  match l, r with
  | some a, some b => let (n, fl) := comb t op a b; (some n, fl)
  | some a, none => (some a, 0)
  | none, b => (b, 0)

/-- A combination of two results with the flags of all the nodes beneath. -/
def combFl (t : LType) (op : Lop) (l r : Option Node × Flags) : Option Node × Flags :=
  let c := combOpt t op l.1 r.1
  (c.1, c.2 ||| l.2 ||| r.2)

/-- The inclusive prefixes of R181, each with the flags of the tree nodes it uses; the last is the root of R178. -/
def prefixes (t : LType) (op : Lop) (e : Lanes (Option Node)) : Lanes (Option Node × Flags) :=
  let leaf (x : Option Node) : Option Node × Flags := (x, 0)
  let n01 := combFl t op (leaf e.l0) (leaf e.l1)
  let n23 := combFl t op (leaf e.l2) (leaf e.l3)
  let n45 := combFl t op (leaf e.l4) (leaf e.l5)
  let n67 := combFl t op (leaf e.l6) (leaf e.l7)
  let n03 := combFl t op n01 n23
  let n47 := combFl t op n45 n67
  let p5 := combFl t op n03 n45
  ⟨leaf e.l0, n01, combFl t op n01 (leaf e.l2), n03, combFl t op n03 (leaf e.l4), p5,
    combFl t op p5 (leaf e.l6), combFl t op n03 n47⟩

/-- The result with no contributing lane (R180). -/
def emptyRed (t : LType) (op : Lop) : Nat :=
  let ones := 2 ^ ltypeBits t - 1
  match op, t with
  | .add, _ | .or, _ | .xor, _ => 0
  | .and, _ => ones
  | .min, .int it => (maxInt it).toNat
  | .max, .int it => (minInt it % 2 ^ itypeBits it).toNat
  | .min, _ => match ltypeFmt t with
    | some f => infMag f
    | none => 0
  | .max, _ => match ltypeFmt t with
    | some f => signCode f true + infMag f
    | none => 0
  | .argmax, _ | .argmin, _ => 0xFFFFFFFF

def isArg (op : Lop) : Bool :=
  match op with
  | .argmax | .argmin => true
  | _ => false

/-- The value a reduction node is written as: its index for argmax and argmin, else the value under R127. -/
def redOut (t : LType) (op : Lop) (n : Option Node) : Nat :=
  match n with
  | none => match t, isArg op with
    | .int it, false => extendTo (vecBits it) it (emptyRed t op)
    | _, _ => emptyRed t op
  | some (v, i) =>
    if isArg op then i
    else match t with
      | .int it => extendTo (vecBits it) it v
      | _ => v

end Sys2Proof.Machine
end

