-- ==== Sys2Proof/Machine/State.lean ====
section
/-!
DEFINITION. The state of one package: every piece of state the manual gives it, as plain data, and the state after
reset. The rest of the pod stands in it only as the memory of other packages (physical addresses name the package,
R96) and as what arrives from there, which the events carry.
-/
namespace Sys2Proof.Machine

/-- Memory by key: a sorted list of the bytes that differ from the byte an unlisted key reads as. Global memory lies at
its 56-bit physical address, the weight store of die d at 2^57 + d × 2^32, and the portion of rank r of the block with
number u at 2^58 + (16 u + r) × 2^20. -/
abbrev Memory := List Host.Cell

/-- The canonical form: keys strictly rising, and no byte equal to what an unlisted key reads as. -/
def Memory.wf (m : Memory) : Bool := FMap.sorted m && m.all fun c => c.2 != Config.unwrittenByte

/-- A code address (R16). -/
abbrev PC := BitVec 57

/-! ## Fault records (R377 to R379) -/

/-- The 29 codes of R379, by their numbers. -/
inductive Code where
  | illOp | regAlign | regRange | nonUnif | emptyRead | transientLost | mxMask | tileOverlap | blkFmt | copyAddr
  | promiseMiss | page | stackLimit | prot | pinRevoked | watchdog | launchTime | detRet | detBroken | ferryNak
  | collAbort | dataLost | dieLost | idiv0 | trap | brk | watch | stop | killed
  deriving DecidableEq, Repr

inductive FClass where
  | p | a | r | s | f | n
  deriving DecidableEq, Repr

/-- A fault record; the model writes it as the 64 bytes of R377. -/
structure Rec where
  code : Code
  cls : FClass
  hmode : Bool
  block : Bool
  ctx : Nat
  gidx : Nat
  lanes : Byte
  core : Nat
  lnch : W64
  pc : W64
  addr : W64
  bx : W32
  byy : W32
  bz : W32
  info : W32
  phases : List Byte
  deriving DecidableEq, Repr

/-! ## Matrix units (R184 to R202) -/

/-- A bank: its form, and the bytes of its image of R189 but for the codes of its blocks. -/
structure Bank where
  w3 : Bool
  img : FMap Byte
  deriving DecidableEq, Repr

inductive MxOp where
  | load (imgs : List (Nat × Bank))
  | keys (bank : Nat) (blocks : List Byte)
  | mul (d : Nat) (src : Option Nat) (blocks : List Byte) (bf16 : Bool) (rows : Nat) (align : Align) (banks : List Nat)
  | zero (d : Nat)
  | read (r : Nat) (a : Nat) (e0 : Nat) (n : Nat) (conv : MxConv) (m : Mask)
  | write (d : Nat) (e0 : Nat) (vals : List W32)
  | save (banks regions : List Nat) (txn : Nat)
  | restore (banks : List (Nat × Bank)) (regions : List (Nat × List W32))
  deriving DecidableEq, Repr

/-- A command of a group: its operation, its split granule, the rows or the banks and regions done (R201), and its
instruction word and the address read at issue, as an image records them (R404). -/
structure MxCmd where
  g : Nat
  op : MxOp
  gran : Nat
  done : Nat
  word : List Byte
  addr : W64
  deriving DecidableEq, Repr

/-- A matrix unit: banks and regions by their physical numbers, the queue, and the banks and regions of ended groups
whose commands have not completed (R202). -/
structure MxUnit where
  banks : FMap Bank
  regions : FMap (FMap W32)
  queue : List MxCmd
  ghosts : List (Nat × List Nat × List Nat)
  deriving DecidableEq, Repr

/-! ## Groups (R11 to R32, R70 to R72, R89 to R92, R380 to R382, R396 to R403) -/

inductive LaneSt where
  | live | helper | exited | inactive
  deriving DecidableEq, Repr

structure Lane where
  st : LaneSt
  pc : PC
  mr : PC
  pred : BitVec 7
  /-- the item the lane runs, by its number in `items` -/
  item : Option Nat
  dseq : Nat
  /-- instructions issued as an active lane since group start (R395) -/
  issued : Nat
  /-- cycles of the watchdog wait in progress (R318) -/
  wd : Nat
  deriving DecidableEq, Repr

/-- A vector register: values, full bits, transient marks, and producers pending (R17, R23, R24, R26). -/
structure VReg where
  val : Lanes W32
  full : Mask
  mark : Mask
  pend : Mask
  deriving DecidableEq, Repr

/-- What a kick, a launch or a delivery releases: the accesses of its chain that must perform first, and the tokens the
chain waits for (R237, R254). -/
structure Release where
  txns : List Nat
  tokens : List W64
  deriving DecidableEq, Repr

/-- What a blocked split waits for (R70). The kinds that R403 gives WAITK 0 issue the instruction afresh. -/
inductive Wait where
  | full (rs : List (Nat × Byte))
  | idle (rs : List (Nat × Byte))
  | txnRoom | mxRoom | liftRoom | launchRoom
  | engineRoom (n : Nat)
  | resultRoom (items : List Nat)
  | sleep (t : W64)
  | txn (t : Nat)
  | xacqTurn
  | xacq
  | barRoom (n : Nat)
  | bar (n : Nat) (v : Nat)
  | barw (n : Nat) (v : Nat)
  | arrivals (key : Nat)
  | bwait (key : Nat) (v : Nat) (prom : Option W64) (loc : W64)
  | chanIdle (core : Nat) (c : Nat)
  | lwait (p : W64) (t : W64)
  | admission (item : Nat)
  | turn (item : Nat)
  | chainIdle (h : Nat)
  | performed (r : Release)
  | returned (ts : List Nat)
  | member (block : Nat)
  | refresh (domains : List Nat)
  | region (die lo hi : Nat)
  | collw (p : W64)
  | pub (obj : Nat) (h : Nat)
  | halt
  /-- `tlbinv` of a context's range: accesses that used a dropped entry, pins on the old lines, and the cycle at which
  those are revoked -/
  | inval (ts : List Nat) (ctx va len : Nat) (pins : List Nat) (until_ : W64)
  | flowRoom (labels : List W32)
  deriving DecidableEq, Repr

inductive SCond where
  | ready
  | blocked (w : Wait)
  | held (j : BitVec 4)
  deriving DecidableEq, Repr

structure Split where
  lanes : Mask
  cond : SCond
  /-- instructions issued since the split became current (R72) -/
  quant : Nat
  /-- cycles the split has been blocked -/
  age : Nat
  /-- whether the end of the wait completes the instruction, and the word at which the split then continues -/
  finish : Bool
  nxt : PC
  /-- the lanes for which an instruction that a save found partly performed is still to be done (R403, WAITK 4) -/
  only : Option Mask
  deriving DecidableEq, Repr

/-! ## Memory transactions (R106 to R121, R245 to R249) -/

/-- One lane's part of a transaction. `keys` are the bytes it reaches (none when the lane's access is suppressed or
reads zero); `phase` is 0 before its access performs, 1 when an atomic has performed at its home, 2 when it is finished. -/
structure LaneOp where
  va : W64
  keys : List Nat
  data : List Byte
  cmp : List Byte
  old : List Byte
  phase : Nat
  deriving DecidableEq, Repr

inductive TKind where
  | load (d : Nat) (n : Nat) (width : Nat)
  | store
  | atom (op : BitVec 6) (k : AKind) (d : Nat) (n : Nat) (ret : Bool)
  | ref (inc : Bool) (d : Nat) (hdr : Lanes W64) (was : Mask)
  | sload (d : Nat) (t : IType) (act : Mask)
  | sstore
  | outq (width : Nat)
  | ienq
  | ferry (id : Nat)
  | mx
  /-- the reads of a matrix instruction's issue part at another package: its address, and the banks and regions to load -/
  | mread (a : Nat) (banks regions : List Nat) (cmd : MxCmd)
  /-- the read of a launch record, or of `lwait`'s counter, at another package: its address, the target, and the active lanes -/
  | lrec (a : W64) (m : Mask)
  | lcnt (p t : W64) (m : Mask)
  /-- `frec`: the entries it drops from the core's record cache, by the keys of the operation -/
  | frec (keys : List Nat)
  deriving DecidableEq, Repr

structure Txn where
  g : Nat
  lnch : Nat
  core : Nat
  part : Nat
  ctx : Nat
  h : Nat
  scope : Scope
  ord : Order
  kind : TKind
  /-- chain predecessors, accesses a join or fence orders before it, accesses to the same bytes, tokens, and accesses of
  others that it follows; for a read, the scope of a fence or join that makes it an acquire (R247) -/
  preds : List Nat
  jpreds : List (Nat × Scope)
  same : List Nat
  imports : List W64
  awaits : List Nat
  facq : Option Scope
  ops : Lanes (Option LaneOp)
  /-- the DET block whose staged store it is (R213) -/
  staged : Option Nat
  /-- the header or descriptor has been judged (R113, R121, R351) -/
  judged : Bool
  /-- a push waits on a `PAGE` of its entry address (R113) -/
  paused : Option W64
  /-- lanes that were helpers at issue, whose access raises nothing (R15) -/
  quiet : Mask
  pc : PC
  deriving DecidableEq, Repr

/-! ## Chains (R245 to R248) -/

/-- An access that stands before another: the lane's part of it, or all of it where another lane's is meant too. -/
structure Behind where
  txn : Nat
  whole : Bool
  deriving DecidableEq, Repr

/-- An access of a lane that has performed before accesses `txns` which stand before it (R236, R239, R246): it stands in
their place for later accesses until they have performed. Of a release it has the scope, and the bytes of its release
sequence that it still holds; it then joins no agent but one that its scope and the reader's both reach. -/
structure Note where
  id : Nat
  txn : Txn
  lane : Fin 8
  keys : List Nat
  scope : Option Scope
  txns : List Behind
  deriving DecidableEq, Repr

/-- A release that a read has met without synchronising, and the core on which it read (R228, R247). -/
structure Seen where
  note : Note
  core : Nat
  deriving DecidableEq, Repr

/-- One handle (R245): the accesses of its chain that have not performed, those a join or fence ordered before its later
accesses with its scope, tokens its later accesses wait for, accesses of others that they follow (R237), releases that its
reads have met without synchronising (R247), and its lift-line slot (R248). -/
structure Chain where
  hist : List Nat
  jord : List (Nat × Scope)
  imports : List W64
  awaits : List Nat
  seen : List Seen
  slot : Option Nat
  seq : Nat
  deriving DecidableEq, Repr

/-- A result held in the bypass (R23). -/
structure BypassReg where
  r : Nat
  m : Mask
  v : Lanes W32
  deriving DecidableEq, Repr

/-- An outstanding `xacq` (R91): units, its place in the order of requests, and the cycles it has waited. -/
structure XReq where
  k : Nat
  seq : Nat
  age : Nat
  deriving DecidableEq, Repr

/-- Handler mode (R381): the lanes of the handler split, and the two targets of a return transfer. -/
structure Handler where
  lanes : Mask
  pc : PC
  next : PC
  /-- an instruction set aside, to resume at `pc` -/
  aside : Option Split
  deriving DecidableEq, Repr

inductive SaveKind where
  | preempt | migrate | xacqSwap | parentSwap | stop
  deriving DecidableEq, Repr

/-- A request to save the group, its age in cycles (R397), and whether a safe point has passed at which its save could not be
started (R400). -/
structure SaveReq where
  kind : SaveKind
  age : Nat
  forced : Bool
  missed : Bool
  deriving DecidableEq, Repr

/-- Where a group stands: running on its slot; halted at its boundary while its save completes, with the mask word of a
named save; or saved. -/
inductive GStat where
  | resident
  | saving (mask : Option MaskWord)
  | saved
  deriving DecidableEq, Repr

structure Group where
  ctx : Nat
  lnch : Nat
  blk : Nat
  gidx : Nat
  core : Nat
  part : Nat
  slot : Nat
  frame : Nat
  base : Nat
  ext : Nat
  lanes : Lanes Lane
  regs : FMap VReg
  sregs : FMap W64
  jmasks : FMap (Byte × PC)
  /-- the ring, from the current split on (R71, R72) -/
  splits : List Split
  bypass : List (List BypassReg)
  fpst : BitVec 6
  chains : FMap Chain
  /-- launches appended and still holding an entry of the pending-launch queue (R328) -/
  plq : List Nat
  xreq : Option XReq
  banks : List Nat
  regions : List Nat
  stat : GStat
  saveReq : Option SaveReq
  /-- the save in hand is of this kind, which the image records -/
  saveKind : SaveKind
  /-- the address of the `PAGE` that suspends the group (R385) -/
  susp : Option W64
  /-- a retry condition has held for that access (R385) -/
  replay : Bool
  handler : Option Handler
  /-- the resume mark (R380) -/
  resume : Option PC
  pendA : List Rec
  frysLast : Nat
  frysNaks : W32
  inflight : Nat
  name : Option Nat
  pmc : FMap W64
  /-- arrivals at the barriers 0 to 15, the flush points (16) and the gang barrier (17) -/
  arr : FMap Nat
  /-- cycles ready since the group last issued (R315) -/
  w : Nat
  debt : Nat
  /-- the watchpoints to skip once, with the instruction that is to issue, and the `brk` that has stopped the block -/
  skipWatch : List (Nat × PC)
  pastBrk : Option PC
  /-- private memory base (R98) and the bytes of its range -/
  privBase : W64
  /-- the bulk run of the saved image, and the order number of the save (R314) -/
  bulk : Option (Nat × Nat)
  saveSeq : Nat
  /-- commands of the matrix unit that the save has stopped (R201) -/
  mxHeld : List MxCmd
  deriving DecidableEq, Repr

/-! ## Blocks, DET and launches (R17, R209 to R225, R257 to R259, R303 to R319) -/

structure DetEntry where
  addr : W64
  seq : Nat
  gidx : Nat
  lane : Nat
  kind : Nat
  width : Nat
  atype : Nat
  epoch : Nat
  data : List Byte
  /-- the bytes it reaches, from the check at issue (R213) -/
  keys : List Nat
  /-- of a buffered atomic, what its handle waited for at issue: tokens and accesses of others (R233, R254) -/
  imports : List W64
  awaits : List Nat
  deriving DecidableEq, Repr

/-- A block's DET state: its spill slot and the entries not applied, what its own staged stores have written as the block
sees it (R214), and its epochs. -/
structure Det where
  slot : Nat
  entries : List DetEntry
  own : FMap Byte
  opened : Nat
  sealed : Nat
  applied : Nat
  ended : Bool
  void : Bool
  paused : Option W64
  deriving DecidableEq, Repr

/-- A copy request handed to the request engine of a core. -/
structure Req where
  core : Nat
  g : Nat
  blk : Nat
  ctx : Nat
  /-- the 64 bytes of the record, its local address, and the shape record read at acceptance -/
  rec_ : List Byte
  loc : W64
  lane : Nat
  scope : Scope
  preds : Release
  accepted : Bool
  shape : List Byte
  done : Nat
  /-- the promised completion time, until it stands in this register pair (R24, R263) -/
  promise : Option (Nat × W64)
  paused : Option W64
  deriving DecidableEq, Repr

inductive BStat where
  | begun | ended | killed
  deriving DecidableEq, Repr

/-- Accesses that the arrivals of one phase release: the barrier (a gang's number for `gbar`) and the phase. -/
structure Debt where
  bar : Nat
  phase : Nat
  txns : List Nat
  deriving DecidableEq, Repr

structure Block where
  ctx : Nat
  lnch : Nat
  lin : Nat
  cores : List Nat
  gpr : Nat
  groups : List Nat
  /-- completed phases of the barriers 0 to 15 and the flush points (16) -/
  phases : FMap Nat
  /-- accesses that arrivals released and that have not performed, and those of groups that have ended -/
  debts : List Debt
  endDebts : List Nat
  localSize : Nat
  stat : BStat
  stopped : Option Code
  /-- the group that handles a watchdog stop -/
  lead : Option Nat
  usedWs : Bool
  /-- the block has been saved whole: the block section of its image (R405) -/
  section_ : Option (Nat × Nat)
  /-- the copy requests written to that section -/
  heldReqs : List Req
  /-- the local memory has been freed by the kill -/
  noLocal : Bool
  det : Option Det
  kill : Option Rec
  /-- the block moves to other cores, and its groups that are still to be saved for that (R409) -/
  migrating : Bool
  toMove : List Nat
  deriving DecidableEq, Repr

inductive LSrc where
  | queue | group (g : Nat)
  deriving DecidableEq, Repr

inductive LStat where
  | appended | parked | ready | running | done | killed
  deriving DecidableEq, Repr

/-- A launch: the copy of its record (R307) and its progress. -/
structure Launch where
  ctx : Nat
  rec_ : List Byte
  /-- where the record stood -/
  addr : W64
  src : LSrc
  stat : LStat
  /-- the die on which a launch made by `launch` is placed, and the issuing group's launch (R328, R332) -/
  die : Option Nat
  parentLnch : Nat
  readySeq : Nat
  next : Nat
  blocks : List Nat
  blocksDone : Nat
  killRecs : List Rec
  placed : Bool
  cycles : Nat
  waited : Nat
  marks : FMap W64
  /-- the start gate's turn (R222) -/
  turn : Nat
  broken : Bool
  /-- accesses of `gbar`: completed phases of each gang -/
  gphases : FMap Nat
  gdebts : List Debt
  /-- bytes that groups of the launch have written, as ranges: a fetch of them is undefined (R244) -/
  wrote : List (Nat × Nat)
  /-- the item dispatcher (R413): it takes nothing since a descriptor or entry that it cannot use, whose notice has gone to
  the host; what the host has been told of: 1 the descriptor, 2 an entry, 0 nothing that still stands; the line of the descriptor,
  and whether it is to be read again; a page it waits on; ready items in order -/
  dispNoted : Bool
  dispTold : Nat
  dispLine : List Nat
  dispDue : Bool
  dispPage : Option W64
  readyItems : List Nat
  /-- a DONE increment that waits on a `PAGE` (R317) -/
  donePage : Option W64
  fatal : Bool
  deriving DecidableEq, Repr

/-! ## Items (R335 to R351) -/

structure Held where
  /-- 0 `stord`, 1 `outq` -/
  kind : Nat
  label : W32
  seq : W32
  addr : W64
  keys : List Nat
  width : Nat
  h : Nat
  scope : Scope
  ord : Order
  data : List Byte
  core : Nat
  ctx : Nat
  /-- the tokens and the accesses of others that its handle waited for at issue (R254, R237) -/
  imports : List W64
  awaits : List Nat
  /-- the save area's run holds it, and no result buffer (R408) -/
  run : Bool
  paused : Option W64
  deriving DecidableEq, Repr

structure Item where
  lnch : Nat
  label : W32
  cls : ICls
  seq : W32
  args : List W64
  /-- it has passed, or executed `tkrel` before its gate (R350) -/
  passed : Bool
  admitted : Bool
  busy : Bool
  held : List Held
  lane : Option (Nat × Nat)
  deriving DecidableEq, Repr

/-- The part of an access that a lane of a group waits for or releases: all of it, where it is another group's or
group-wide. -/
structure LanePart where
  txn : Nat
  g : Nat
  lane : Fin 8
  deriving DecidableEq, Repr

/-- An item's place in a flow: its number there, whether it has passed, and the accesses its pass releases (R343). -/
structure Place where
  item : Nat
  seq : W32
  passed : Bool
  debts : List LanePart
  deriving DecidableEq, Repr

/-- One flow of a launch: NEXT, the places of the items in flight in arrival order, those of items that have left it while
accesses they released are open, and the holder of the busy bit; the same accesses of items that left before the flow took
its entry anew (R338). -/
structure Flow where
  lnch : Nat
  label : W32
  next : W32
  places : List Place
  debts : List LanePart
  busy : Option (Nat × W32)
  /-- the save area's run holds the entry, and not the flow table (R406) -/
  saved : Bool
  deriving DecidableEq, Repr

/-! ## Contexts, translation, queues, tasks (R352 to R375, R305 to R310, R383, R389) -/

inductive CtxSt where
  | free | live | draining
  deriving DecidableEq, Repr

structure WatchPt where
  cfg : W64
  lo : W64
  hi : W64
  deriving DecidableEq, Repr

structure Ctx where
  st : CtxSt
  /-- the 256 bytes of the descriptor (R356) -/
  desc : List Byte
  /-- dies on which the context is scheduled -/
  sched : BitVec 4
  /-- records that wait to be written to the fault ring, oldest first, and drops not yet added to FDROP (R383) -/
  pending : List Rec
  drops : Nat
  /-- save-area pool: runs in use (first page, pages), and the runs of R406 with their record counts -/
  runs : List (Nat × Nat)
  flowRun : Option (Nat × Nat)
  heldRun : Option (Nat × Nat)
  chanRun : Option (Nat × Nat)
  /-- the context waits to be descheduled: its runs are still to be written -/
  runsDue : Bool
  pmev : FMap W64
  /-- private ranges in use: base and length -/
  priv : List (W64 × Nat)
  frames : List Nat
  notedPages : List W64
  deriving DecidableEq, Repr

/-- Registers of a group that has ended, or given up by `xrel`, to which writes are still outstanding (R20, R27). -/
structure Leftover where
  core : Nat
  part : Nat
  regs : Nat
  g : Nat
  /-- the accesses, and the copy requests whose promise is due -/
  txns : List Nat
  deriving DecidableEq, Repr

structure Reach where
  domain : Nat
  target : Nat
  base : Nat
  len : Nat
  write : Bool
  deriving DecidableEq, Repr

/-- A TLB entry (R365): the page's leaf as a walk read it. -/
structure Tlb where
  ctx : Nat
  asid : Nat
  va : Nat
  size : Nat
  pa : Nat
  flags : Byte
  deriving DecidableEq, Repr

structure Pin where
  ctx : Nat
  line : Nat
  count : Nat
  /-- the pins, oldest first: order number, launch and group -/
  owners : List (Nat × Nat × Nat)
  deriving DecidableEq, Repr

structure Queue where
  base : W64
  cap : W64
  prod : W64
  cons : W64
  ctx : W64
  en : Bool
  err : Bool
  paused : Option W64
  deriving DecidableEq, Repr

structure Task where
  count : W32
  under : Bool
  parked : List Nat
  deriving DecidableEq, Repr

structure Region where
  ctx : Nat
  lnch : Nat
  /-- die and byte range of a sealed weight-store region (R369) -/
  die : Nat
  lo : Nat
  hi : Nat
  deriving DecidableEq, Repr

/-! ## Engines, channels, collectives, names (R261 to R302) -/

inductive ChSt where
  | idle | walking | stopped | paused
  deriving DecidableEq, Repr

/-- The transfer record that a channel has accepted: its bytes and its shape record as they were read (R270), where its
destination begins and the publishable buffer whose shadow that is (R277), and whether it is done and waits only to be
published (R275). -/
structure Hand where
  rec_ : List Byte
  shape : List Byte
  dst : Nat
  obj : Option Nat
  closed : Bool
  deriving DecidableEq, Repr

structure Chan where
  st : ChSt
  cur : W64
  next : W64
  ctx : Nat
  lnch : Nat
  preds : Release
  /-- the page the walk is paused on, the record in hand, and its bytes done -/
  page : Option W64
  hand : Option Hand
  done : Nat
  deriving DecidableEq, Repr

/-- A collective instance of this package: its record and member set as `coll` read them, the address of the record, the
buffer object of DST and the backing that its output goes to (R277, R282); whether it has committed and waits to publish,
and the STATUS and FAILED still to be written (R283). -/
structure Coll where
  ctx : Nat
  lnch : Nat
  kind : CKind
  place : W64
  bytes : List Byte
  nmem : Nat
  self : Nat
  obj : Nat
  shadow : Nat
  committed : Bool
  ending : Option (Nat × Nat)
  /-- cycles since the kick -/
  age : Nat
  preds : Release
  page : Option W64
  deriving DecidableEq, Repr

structure Pub where
  pbase : Nat
  len : Nat
  back0 : Nat
  back1 : Nat
  /-- the physical address of the object, whose PSTATE names the visible backing -/
  obj : Nat
  deriving DecidableEq, Repr

structure NameEnt where
  gen : Nat
  g : Option Nat
  ctx : Nat
  domain : Nat
  moving : Bool
  deriving DecidableEq, Repr

/-- A delivery sent by a group of this package. -/
structure Sent where
  d : Delivery
  txn : Nat
  preds : Release
  arrived : Bool
  acked : Option Nat
  deriving DecidableEq, Repr

/-- A delivery at this package: waiting in a core's inbound buffer, or with a saved group, or at the name table while the group
moves (R296). -/
structure Inbound where
  d : Delivery
  own : Option Nat
  g : Nat
  core : Option Nat
  atTable : Bool
  seqNo : Nat
  deriving DecidableEq, Repr

structure LiftSlot where
  gen : Nat
  seq : Nat
  owner : Option (Nat × Nat)
  /-- accesses of the slot's generation that have not performed: number and transaction; and accesses that an export of a
  number released besides (R253) -/
  pend : List (Nat × Nat)
  extra : List (Nat × Nat)
  expAge : Option Nat
  deriving DecidableEq, Repr

/-- A mogul trial (R325). -/
structure Trial where
  desc : Nat
  lnch : Nat
  lo : W64
  hi : W64
  win : Nat
  slow : Nat
  mark : Nat
  second : Bool
  left : Nat
  m0 : W64
  m1 : W64
  deriving DecidableEq, Repr

/-- An armed stop (R395): the lane of a group, and the instructions it still issues. -/
structure Armed where
  ctx : Nat
  lnch : Nat
  lin : Nat
  gidx : Nat
  lane : Nat
  count : W64
  deriving DecidableEq, Repr

/-- Negotiation registers (R4 to R6); the offered word is constant. -/
structure Negotiation where
  accepted : BitVec 256
  done : Bool
  err : Bool
  deriving DecidableEq, Repr

/-- What has come from another package and waits in the reorder buffer of its slot (R288). -/
inductive FarArrival where
  | packet (x : Packet)
  | delivery (d : Delivery)
  deriving DecidableEq, Repr

/-- Accesses that used a TLB entry which an invalidation has dropped: the entry, and the accesses (R366). -/
structure Dropped where
  entry : Tlb
  txns : List Nat
  deriving DecidableEq, Repr

/-- Everything of the package but its memory and the negotiation registers. -/
structure Package where
  no : Nat
  cycle : W64
  /-- the model's counters: free values used, and the numbers given to what is created -/
  free : Nat
  fresh : Nat
  diesLost : BitVec 4
  portsDown : List (Bool × Nat)
  ctxs : FMap Ctx
  reach : List Reach
  tlb : List Tlb
  dropped : List Dropped
  pins : List Pin
  groups : FMap Group
  blocks : FMap Block
  launches : FMap Launch
  txns : FMap Txn
  leftovers : List Leftover
  queues : FMap Queue
  tasks : FMap Task
  seals : List Region
  mx : FMap MxUnit
  reqs : FMap Req
  chans : FMap Chan
  /-- chain walks of descheduled contexts, with core and channel (R406, R407) -/
  heldWalks : List (Nat × Nat × Chan)
  /-- shape records in each core's record cache: core, context × 2^64 + virtual address, and the bytes (R270) -/
  recCache : List (Nat × Nat × List Byte)
  colls : FMap Coll
  pubs : List Pub
  names : FMap NameEnt
  /-- name slots freed, the longest unused first (R292) -/
  freedNames : List Nat
  sent : FMap Sent
  inbound : FMap Inbound
  lift : FMap LiftSlot
  /-- tokens of other packages whose packages have reported them satisfied (R254) -/
  tokensMet : List Nat
  /-- dies of other packages that their packages have reported lost: package and die -/
  farLost : List (Nat × Nat)
  /-- the last packet applied of each chain of another package, by its package, core and slot: generation and number (R288) -/
  applied : FMap (Nat × Nat)
  /-- the reorder buffers, in the order of arrival -/
  reorder : List FarArrival
  items : FMap Item
  flows : List Flow
  trial : Option Trial
  armed : List Armed
  evword : BitVec 5
  ctxsel : BitVec 12
  tasksel : BitVec 16
  mbcmd : W64
  mbarg : W64
  mbresult : Nat
  mbseq : W32
  flnch : W64
  fblock : W64
  fcount : W64
  wpsel : W64
  /-- the watchpoints: number n of context c at 4c + n (R389) -/
  wps : FMap WatchPt
  /-- weight-store ranges granted so far, the latest first: context, die, first byte and one past the last (R360) -/
  wsHeld : List (Nat × Nat × Nat × Nat)
  /-- keys of units that fail at each read until a write covers them (R392) -/
  badUnits : List Nat
  /-- byte barriers that lost data has ended, and the kind of place it was lost in (R268, R379) -/
  lostKinds : FMap Nat
  /-- releases whose earlier accesses have not all performed -/
  notes : List Note
  /-- MSI writes sent to interrupt files, the newest first: address and data (R368) -/
  msis : List (W64 × W32)
  /-- the group whose instruction issues -/
  cur : Nat
  /-- the groups chosen in this cycle, with their partitions (R315) -/
  chosen : List (Nat × Nat)
  deriving DecidableEq, Repr

/-- What happens next: a group issues its next instruction, an event of the table happens, or time passes. -/
inductive Move where
  | issue (g : Nat)
  | event (i : Instr)
  | elapse (n : Nat)
  deriving DecidableEq, Repr

/-- The machine. `agenda` is the model's own: the order in which the agents move, where the manual leaves it open. -/
structure State where
  mem : Memory
  neg : Negotiation
  pk : Package
  agenda : List Move
  deriving DecidableEq, Repr

/-- Reasons a step stops. No meaning of the model stops a step: every fault of the manual is a record delivered by the
machine, which goes on. -/
inductive Fault where
  /-- Raised by no one; kept so that the type has a value. Safe. -/
  | none
  deriving DecidableEq, Repr

/-- Reasons an instruction has no meaning. -/
inductive Refusal where
  /-- Raised by an arm of `exec` whose instruction has no meaning yet. Safe. -/
  | notModelled (mnemonic : String)
  deriving DecidableEq, Repr

/-! ## Reset -/

def Negotiation.reset : Negotiation := ⟨0, false, false⟩

/-- The 256 bytes of the service firmware's descriptor: SYSREG, TLBINV and HALT set (R356, chapter Isolation, Firmware
and attestation); the manual gives no other field, and they are zero but for MODE 10 of ATP (log entry 8). -/
def firmwareDesc : List Byte :=
  [0, 0, 0, 0, 0, 0, 0, 0xA0] ++ [0, 0] ++ [0x38, 0] ++ List.replicate 244 0

def firmwareCtx : Ctx where
  st := .live
  desc := firmwareDesc
  sched := 0xF
  pending := []
  drops := 0
  runs := []
  flowRun := none
  heldRun := none
  chanRun := none
  runsDue := false
  pmev := []
  priv := []
  frames := []
  notedPages := []

def Package.reset : Package where
  no := 0
  cycle := 0
  free := 0
  fresh := 1
  diesLost := 0
  portsDown := []
  ctxs := [(Config.firmwareContext, firmwareCtx)]
  reach := []
  tlb := []
  dropped := []
  pins := []
  groups := []
  blocks := []
  launches := []
  txns := []
  leftovers := []
  queues := []
  tasks := []
  seals := []
  mx := []
  reqs := []
  chans := []
  heldWalks := []
  recCache := []
  colls := []
  pubs := []
  names := []
  freedNames := []
  sent := []
  inbound := []
  lift := []
  tokensMet := []
  farLost := []
  applied := []
  reorder := []
  items := []
  flows := []
  trial := none
  armed := []
  evword := 0
  ctxsel := 0
  tasksel := 0
  mbcmd := 0
  mbarg := 0
  mbresult := 0
  mbseq := 0
  flnch := 0
  fblock := 0
  fcount := 0
  wpsel := 0
  wps := []
  wsHeld := []
  badUnits := []
  lostKinds := []
  notes := []
  msis := []
  cur := 0
  chosen := []

/-- The machine right after package reset. -/
def State.reset : State where
  mem := []
  neg := Negotiation.reset
  pk := Package.reset
  agenda := []

end Sys2Proof.Machine
end

