-- ==== Sys2Proof/Machine/Mem.lean ====
section
/-!
DEFINITION. Memory and the working copy of the machine on which one step computes its effect: the bytes it has written so
far, the newest first, over the memory at the start of the step, and the package. `State.run` is the one way a step
changes memory.
-/
namespace Sys2Proof.Machine

/-! ## Memory -/

/-- The byte at a key. -/
def Mem.byte (m : Memory) (k : Nat) : Byte := FMap.getD m Config.unwrittenByte k

/-- A write of one byte, in the canonical form. -/
def Mem.write (m : Memory) (k : Nat) (b : Byte) : Memory := FMap.put m Config.unwrittenByte k b

/-- Writes in order, the first first. -/
def Mem.writes (m : Memory) (l : List Host.Cell) : Memory := l.foldl (fun m c => Mem.write m c.1 c.2) m

/-! ## Keys -/

def isGlobalKey (k : Nat) : Bool := k < 2 ^ 56
def wsKey (die off : Nat) : Nat := 2 ^ 57 + die * 2 ^ 32 + off
def localKey (blk rank off : Nat) : Nat := 2 ^ 58 + (16 * blk + rank) * 2 ^ 20 + off
/-- The block whose local memory a key belongs to. -/
def localKeyBlock (k : Nat) : Option Nat := if k ≥ 2 ^ 58 then some ((k - 2 ^ 58) / 2 ^ 24) else none

/-- The package a physical address names (R96). -/
def paPackage (pa : Nat) : Nat := pa / 2 ^ 44 % 2 ^ 12

/-- The device control space of each package (R354). -/
def inControlSpace (pa : Nat) : Bool := pa % 2 ^ 44 ≥ 0x0FFFFFC00000

/-- The n keys from k. -/
def keysFrom (k n : Nat) : List Nat := (List.range n).map (k + ·)

/-- Watchpoint n of a context number (R389). -/
def Package.watchPt (p : Package) (c n : Nat) : WatchPt := FMap.getD p.wps ⟨0, 0, 0⟩ (4 * c + n)

/-! ## The working copy -/

structure Work where
  base : Memory
  wr : List Host.Cell
  pk : Package
  deriving DecidableEq, Repr

def Work.start (s : State) : Work := ⟨s.mem, [], s.pk⟩

/-- The machine after the effect has been computed. -/
def State.finish (s : State) (w : Work) : State := { s with mem := Mem.writes s.mem w.wr.reverse, pk := w.pk }

/-- One step's effect, from the machine as it stands. -/
def State.run (s : State) (f : Work → Work) : State := s.finish (f (Work.start s))

/-- Two lists of keys have one in common. -/
def overlap (a b : List Nat) : Bool := a.any fun k => b.contains k

/-- A write by another agent takes its bytes out of what a DET block sees of its own stores, but for bytes that stores of the
block are still to reach (R214, R231). -/
def Det.overwrite (d : Det) (ks : List Nat) : Det :=
  let due (k : Nat) : Bool := d.entries.any fun e => e.kind == 0 && e.keys.contains k
  { d with own := d.own.filter fun e => !ks.contains e.1 || due e.1 }

namespace Work

/-- The byte a key holds. -/
def raw (w : Work) (k : Nat) : Byte :=
  match w.wr.find? (fun c => c.1 == k) with
  | some c => c.2
  | none => Mem.byte w.base k

/-- The backing of a publishable buffer that is visible: bit 0 of PSTATE (R277). -/
def backing (w : Work) (b : Pub) : Nat := if (w.raw (b.obj + 32)).getLsbD 0 then b.back1 else b.back0
def shadow (w : Work) (b : Pub) : Nat := if (w.raw (b.obj + 32)).getLsbD 0 then b.back0 else b.back1

/-- Where the byte of a key lies: an address of a publishable buffer's range reaches the visible backing (R277). -/
def home (w : Work) (k : Nat) : Nat :=
  match w.pk.pubs.find? fun b => b.pbase ≤ k && k < b.pbase + b.len with
  | some b => w.backing b + (k - b.pbase)
  | none => k

def byte (w : Work) (k : Nat) : Byte := w.raw (w.home k)

def bytes (w : Work) (ks : List Nat) : List Byte := ks.map w.byte

def puts (w : Work) (ks : List Nat) (bs : List Byte) : Work :=
  { w with wr := ((ks.zip bs).map fun c => (w.home c.1, c.2)).reverse ++ w.wr }

/-- The n bytes from a key, as a little-endian number. -/
def num (w : Work) (k n : Nat) : Nat := bytesVal (w.bytes (keysFrom k n))

def mapPk (w : Work) (f : Package → Package) : Work := { w with pk := f w.pk }

/-! ## Writes (R214, R231, R236, R413) -/

/-- Written bytes are no longer what a DET block sees of its own stores. -/
def overwriteOwn (w : Work) (ks : List Nat) : Work :=
  let mine (d : Det) : Bool := d.own.any fun e => ks.contains e.1
  if w.pk.blocks.any fun e => e.2.det.any mine then
    w.mapPk fun p => { p with blocks := p.blocks.mapVals fun _ b => { b with det := b.det.map fun d => d.overwrite ks } }
  else w

/-- An item dispatcher reads its descriptor again when the line is written (R413). -/
def noteLine (w : Work) (ks : List Nat) : Work :=
  let waits (l : Launch) : Bool := l.dispNoted && overlap l.dispLine ks
  if w.pk.launches.any fun e => waits e.2 then
    w.mapPk fun p => { p with launches := p.launches.mapVals fun _ l => if waits l then { l with dispDue := true } else l }
  else w

/-- A write that is no read-modify-write ends the release sequences of its bytes (R236). -/
def endSequences (w : Work) (ks : List Nat) : Work :=
  if w.pk.notes.isEmpty then w
  else w.mapPk fun p => { p with notes := p.notes.map fun n => { n with keys := n.keys.filter fun k => !ks.contains k } }

/-- Units that a write covers whole are good again (R392). -/
def mendUnits (w : Work) (ks : List Nat) : Work :=
  if w.pk.badUnits.isEmpty then w
  else
    let hs := ks.map w.home
    w.mapPk fun p => { p with
      badUnits := p.badUnits.filter fun u => !((List.range 8).all fun i => hs.contains (u / 8 * 8 + i)) }

/-- Bytes reach their home. -/
def place (w : Work) (ks : List Nat) (bs : List Byte) : Work := (((w.mendUnits ks).overwriteOwn ks).noteLine ks).puts ks bs

/-- A plain write. -/
def write (w : Work) (ks : List Nat) (bs : List Byte) : Work := (w.endSequences ks).place ks bs

def putNum (w : Work) (k n v : Nat) : Work := w.write (keysFrom k n) (valBytes n v)

/-! ## Free values and fresh numbers -/

/-- A free value of the manual's undefined ones (log entry 1), and the counter advanced. -/
def freeByte (w : Work) : Byte × Work := (Config.freeByte w.pk.free, w.mapPk fun p => { p with free := p.free + 1 })
def freeWord (w : Work) : W32 × Work := (Config.freeWord w.pk.free, w.mapPk fun p => { p with free := p.free + 1 })

/-- A number never used before. -/
def newId (w : Work) : Nat × Work := (w.pk.fresh, w.mapPk fun p => { p with fresh := p.fresh + 1 })

/-! ## Access to the package's tables -/

def group? (w : Work) (g : Nat) : Option Group := w.pk.groups.find? g
def block? (w : Work) (b : Nat) : Option Block := w.pk.blocks.find? b
def launch? (w : Work) (l : Nat) : Option Launch := w.pk.launches.find? l
def txn? (w : Work) (t : Nat) : Option Txn := w.pk.txns.find? t
def ctx? (w : Work) (c : Nat) : Option Ctx := w.pk.ctxs.find? c

def setGroup (w : Work) (g : Nat) (x : Group) : Work := w.mapPk fun p => { p with groups := p.groups.insert g x }
def setBlock (w : Work) (b : Nat) (x : Block) : Work := w.mapPk fun p => { p with blocks := p.blocks.insert b x }
def setLaunch (w : Work) (l : Nat) (x : Launch) : Work := w.mapPk fun p => { p with launches := p.launches.insert l x }
def setTxn (w : Work) (t : Nat) (x : Txn) : Work := w.mapPk fun p => { p with txns := p.txns.insert t x }
def setCtx (w : Work) (c : Nat) (x : Ctx) : Work := w.mapPk fun p => { p with ctxs := p.ctxs.insert c x }

def updGroup (w : Work) (g : Nat) (f : Group → Group) : Work :=
  w.mapPk fun p => { p with groups := p.groups.adjust g f }
def updBlock (w : Work) (b : Nat) (f : Block → Block) : Work :=
  w.mapPk fun p => { p with blocks := p.blocks.adjust b f }
def updLaunch (w : Work) (l : Nat) (f : Launch → Launch) : Work :=
  w.mapPk fun p => { p with launches := p.launches.adjust l f }
def updTxn (w : Work) (t : Nat) (f : Txn → Txn) : Work := w.mapPk fun p => { p with txns := p.txns.adjust t f }
def updCtx (w : Work) (c : Nat) (f : Ctx → Ctx) : Work := w.mapPk fun p => { p with ctxs := p.ctxs.adjust c f }
def updItem (w : Work) (n : Nat) (f : Item → Item) : Work := w.mapPk fun p => { p with items := p.items.adjust n f }

def dropTxn (w : Work) (t : Nat) : Work := w.mapPk fun p => { p with txns := p.txns.erase t }
def dropGroup (w : Work) (g : Nat) : Work := w.mapPk fun p => { p with groups := p.groups.erase g }

/-- An effect when a table has the entry, and nothing when it has not. -/
def onGroup (w : Work) (g : Nat) (f : Group → Work → Work) : Work :=
  match w.group? g with
  | some x => f x w
  | none => w
def onBlock (w : Work) (b : Nat) (f : Block → Work → Work) : Work :=
  match w.block? b with
  | some x => f x w
  | none => w
def onLaunch (w : Work) (l : Nat) (f : Launch → Work → Work) : Work :=
  match w.launch? l with
  | some x => f x w
  | none => w
def onTxn (w : Work) (t : Nat) (f : Txn → Work → Work) : Work :=
  match w.txn? t with
  | some x => f x w
  | none => w
def onCtx (w : Work) (c : Nat) (f : Ctx → Work → Work) : Work :=
  match w.ctx? c with
  | some x => f x w
  | none => w

/-- Effects one after another over a list. -/
def each {α : Type} (w : Work) (l : List α) (f : α → Work → Work) : Work := l.foldl (fun w x => f x w) w

end Work

/-! ## Lists in an order -/

/-- Puts an element before the first that it precedes. -/
def insertBy {α : Type} (le : α → α → Bool) (x : α) : List α → List α
  | [] => [x]
  | y :: ys => if le x y then x :: y :: ys else y :: insertBy le x ys

/-- The elements in ascending order; equal ones keep their order. -/
def sortBy {α : Type} (le : α → α → Bool) (l : List α) : List α := l.foldr (insertBy le) []

/-! ## Records in memory: fields of a list of bytes -/

/-- The field of n bytes at offset o. -/
def fld (bs : List Byte) (o n : Nat) : Nat := bytesVal ((bs.drop o).take n)

/-- The bytes with a field replaced. -/
def setFld (bs : List Byte) (o n v : Nat) : List Byte := bs.take o ++ valBytes n v ++ bs.drop (o + n)

def allZero (bs : List Byte) : Bool := bs.all fun b => b == 0#8

/-- n is a power of two (or not), for n up to 2^32. -/
def isPow2 (n : Nat) : Bool := (List.range 33).any fun i => n == 2 ^ i

/-! ## Fields of a context descriptor (R356) -/

namespace Ctx

def f (c : Ctx) (o n : Nat) : Nat := fld c.desc o n
def rootPpn (c : Ctx) : Nat := c.f 0 8 % 2 ^ 44
def asid (c : Ctx) : Nat := c.f 0 8 / 2 ^ 44 % 2 ^ 16
def domain (c : Ctx) : Nat := c.f 8 2
def opt (c : Ctx) (i : Nat) : Bool := bitAt (c.f 10 2) i == 1
def detOk (c : Ctx) : Bool := c.opt 0
def idiv0T (c : Ctx) : Bool := c.opt 1
def nakT (c : Ctx) : Bool := c.opt 2
def sysregOk (c : Ctx) : Bool := c.opt 3
def tlbinvOk (c : Ctx) : Bool := c.opt 4
def haltOk (c : Ctx) : Bool := c.opt 5
/-- Promise grace period: 0 selects 1,024. -/
def grace (c : Ctx) : Nat := if c.f 12 4 = 0 then 1024 else c.f 12 4
/-- Watchdog budget: 0 selects 2^32. -/
def wdog (c : Ctx) : Nat := if c.f 16 8 = 0 then 2 ^ 32 else c.f 16 8
/-- Launch time limit: 0 none, all ones 2^40. -/
def ltime (c : Ctx) : Option Nat :=
  let v := c.f 24 8
  if v = 0 then none else if v = 2 ^ 64 - 1 then some (2 ^ 40) else some v
def tvec (c : Ctx) : Nat := c.f 32 8
def save (c : Ctx) : Nat := c.f 40 8
def saveLen (c : Ctx) : Nat := c.f 48 8
def priv0 (c : Ctx) : Nat := c.f 56 8
def privLen (c : Ctx) : Nat := c.f 64 8
def spBase (c : Ctx) : Nat := c.f 72 8
def spSlot (c : Ctx) : Nat := c.f 80 4
def spCount (c : Ctx) : Nat := c.f 84 4
def coreQuota (c : Ctx) : Nat := c.f 88 2
def regQuota (c : Ctx) : Nat := c.f 90 2
def queueQuota (c : Ctx) : Nat := c.f 92 2
def taskLo (c : Ctx) : Nat := c.f 96 4
def taskN (c : Ctx) : Nat := c.f 100 4
def hmsi (c : Ctx) : Nat := c.f 104 8
def hmsid (c : Ctx) : Nat := c.f 112 4
def fring (c : Ctx) : Nat := c.f 120 8
def tring (c : Ctx) : Nat := c.f 128 8
def tren (c : Ctx) : Nat := c.f 136 4
/-- Weight-store region n, if valid: die, first byte and one past the last (R363). -/
def wsr (c : Ctx) (n : Nat) : Option (Nat × Nat × Nat) :=
  let v := c.f (144 + 8 * n) 8
  if bitAt v 63 = 0 then none
  else
    let base := v % 2 ^ 16 * 2 ^ 21
    some (v / 2 ^ 32 % 4, base, base + v / 2 ^ 16 % 2 ^ 16 * 2 ^ 21)
def wsrs (c : Ctx) : List (Nat × Nat × Nat) := (List.range 8).filterMap c.wsr

end Ctx

end Sys2Proof.Machine
end

