-- ==== Sys2Proof/Machine/Translate.lean ====
section
/-!
DEFINITION. Translation and the checks of an address in each space: the walk of R362 and R364, the TLB of R365 and R366,
the reach table of R361, and the address rules of R96 to R100 as steps 2 to 6 of R108.
-/
namespace Sys2Proof.Machine

/-! ## The walk (R362, R364) -/

/-- Kinds of access that permissions tell apart; a pin reads, of lines of this package only (R114). -/
inductive Acc where
  | fetch | load | store | pin
  deriving DecidableEq, Repr

/-- A leaf: physical base, log2 of the page size, and the low byte and PBMT of its PTE. -/
structure Leaf where
  pa : Nat
  size : Nat
  flags : Byte
  pbmt : Nat
  deriving DecidableEq, Repr

/-- The page a leaf PTE at a level maps for the address, by the forms of R362 and R364. -/
def leafPage (pte level va : Nat) : Option (Nat × Nat) :=
  let ppn := pte / 2 ^ 10 % 2 ^ 44
  let n := bitAt pte 63
  match level with
  | 0 =>
    if n = 0 then some (ppn * 2 ^ 12, 12)
    else if ppn % 16 = 8 then some (ppn / 16 * 2 ^ 16, 16) else none
  | 1 => if n = 0 ∧ ppn % 2 ^ 9 = 0 then some (ppn * 2 ^ 12, 21) else none
  | 2 =>
    if n = 0 then (if ppn % 2 ^ 18 = 0 then some (ppn * 2 ^ 12, 30) else none)
    else if ppn % 2 ^ 17 = 1 ∧ bitAt va 29 = bitAt ppn 17 then some (ppn / 2 ^ 17 * 2 ^ 29, 29) else none
  | _ => none

/-- The walk from a table: the first argument counts the levels left. Reserved encodings find no leaf. -/
def walkFrom (w : Work) (va : Nat) : Nat → Nat → Option Leaf
  | 0, _ => none
  | level + 1, ppn =>
    let pte := w.num (ppn * 2 ^ 12 + va / 2 ^ (12 + 9 * level) % 2 ^ 9 * 8) 8
    let b := bitAt pte
    let pbmt := pte / 2 ^ 61 % 4
    if b 0 = 0 ∨ (b 1 = 0 ∧ b 2 = 1) ∨ pte / 2 ^ 54 % 2 ^ 7 ≠ 0 ∨ pbmt = 3 then none
    else if b 1 = 0 ∧ b 3 = 0 then
      if b 4 = 1 ∨ b 6 = 1 ∨ b 7 = 1 ∨ pbmt ≠ 0 ∨ b 63 = 1 then none
      else walkFrom w va level (pte / 2 ^ 10 % 2 ^ 44)
    else (leafPage pte level va).map fun (pa, size) => ⟨pa, size, BitVec.ofNat 8 pte, pbmt⟩

def walk (w : Work) (c : Ctx) (va : Nat) : Option Leaf := walkFrom w va 5 c.rootPpn

/-- Bits [63:57] all equal bit 56 (R96). -/
def canonical (va : Nat) : Bool := va / 2 ^ 56 == 0 || va / 2 ^ 56 == 255

/-! ## Reach (R361) -/

/-- Whether an entry admits the n bytes from a physical address. -/
def Reach.admits (e : Reach) (pa n : Nat) (write : Bool) : Bool :=
  e.base ≤ pa && pa + n ≤ e.base + e.len && (!write || e.write)

/-- Whether accesses of a domain may leave for a physical address on another package, or it lies on this one. -/
def mayLeave (p : Package) (domain pa n : Nat) (write : Bool) : Bool :=
  paPackage pa == p.no ||
    p.reach.any fun e => e.domain == domain && e.target == paPackage pa && e.admits pa n write

/-- A package lies within a domain of this package (R361). -/
def inDomain (p : Package) (domain pkg : Nat) : Bool :=
  pkg == p.no || p.reach.any fun e => e.domain == domain && e.target == pkg

/-! ## Translation of one address -/

/-- What translation answers, by the steps of R108: no valid leaf (4), refused (5), A or D clear (6). -/
inductive Xl where
  | ok (pa : Nat)
  | noLeaf
  | refused
  | noAD
  deriving DecidableEq, Repr

/-- The permission checks of a leaf, for n bytes (R362). -/
def leafCheck (p : Package) (c : Ctx) (a : Acc) (l : Leaf) (va n : Nat) : Xl :=
  let b (i : Nat) : Bool := l.flags.getLsbD i
  let pa := l.pa + va % 2 ^ l.size
  let perm := match a with
    | .fetch => b 3
    | .load => b 1
    | .store => b 1 && b 2
    | .pin => b 1 && paPackage pa == p.no
  if !b 4 || l.pbmt != 0 || !perm || inControlSpace pa || !mayLeave p c.domain pa n (a == .store) then .refused
  else if !b 6 || (a == .store && !b 7) then .noAD
  else .ok pa

/-- The TLB entries of the context and ASID that cover the address. -/
def tlbFind (p : Package) (cn : Nat) (c : Ctx) (va : Nat) : List Tlb :=
  p.tlb.filter fun e => e.ctx == cn && e.asid == c.asid && va / 2 ^ e.size == e.va / 2 ^ e.size

def Tlb.leaf (e : Tlb) : Leaf := ⟨e.pa, e.size, e.flags, 0⟩

/-- The TLBs with the page of a walk. The list holds what the TLBs of the cores and of the dies hold between them: an older
entry for the address stays with the cores that have it until a `tlbinv` drops it (R365, R366). -/
def tlbFill (p : Package) (cn : Nat) (c : Ctx) (va : Nat) (l : Leaf) : Package :=
  let e : Tlb := ⟨cn, c.asid, va / 2 ^ l.size * 2 ^ l.size, l.size, l.pa, l.flags⟩
  if p.tlb.contains e then p else { p with tlb := e :: p.tlb }

/-- Translation of n bytes at a canonical address. Where entries of the TLBs and the tables as they stand disagree, the
access may use any of them (R366): a free choice (log entry 2). -/
def xlate (w : Work) (cn : Nat) (a : Acc) (va n : Nat) : Xl × Work :=
  match w.ctx? cn with
  | none => (.noLeaf, w)
  | some c =>
    let va57 := va % 2 ^ 57
    let fresh := walk w c va57
    let old := ((tlbFind w.pk cn c va57).map Tlb.leaf).filter fun l => some l != fresh
    let k := if old.isEmpty then 0 else Config.staleTranslation w.pk.free % (old.length + 1)
    let w := if old.isEmpty then w else w.mapPk fun p => { p with free := p.free + 1 }
    match (if k = 0 then fresh else old[k - 1]?) with
    | none => (.noLeaf, w)
    | some l =>
      let r := leafCheck w.pk c a l va57 n
      match r with
      | .ok _ => (r, if k = 0 then w.mapPk fun p => tlbFill p cn c va57 l else w)
      | _ => (r, w)

/-! ## Checks of an access (R96 to R100, R108) -/

/-- The check of one lane's access: the keys it reaches; a failed step of R108 with its code and address; or a wait for
a gang member that has not started (R97), or whose local memory stands in its save image (log entry 72). -/
inductive Chk where
  | ok (keys : List Nat)
  | bad (step : Nat) (code : Code) (addr : Nat)
  | member (lin : Nat)
  deriving DecidableEq, Repr

def xlChk (x : Xl) (va n : Nat) : Chk :=
  match x with
  | .ok pa => .ok (keysFrom pa n)
  | .noLeaf => .bad 4 .page va
  | .refused => .bad 5 .prot va
  | .noAD => .bad 6 .page va

/-- A global access of n bytes, aligned to al. -/
def chkGlobal (w : Work) (cn : Nat) (a : Acc) (va n al : Nat) : Chk × Work :=
  if !canonical va || va % al ≠ 0 then (.bad 2 .prot va, w)
  else
    let (x, w) := xlate w cn a va n
    (xlChk x va n, w)

/-- The global address of byte i of a lane's private memory (R98). -/
def privAddr (base : W64) (lane i : Nat) : Nat := base.toNat + i / 4 * 32 + lane * 4 + i % 4

/-- The chunks of a private access: consecutive bytes that lie together. -/
def privChunks (base : W64) (lane i n : Nat) : List (Nat × Nat) :=
  if n ≤ 4 then [(privAddr base lane i, n)] else (List.range (n / 4)).map fun k => (privAddr base lane (i + 4 * k), 4)

/-- The earlier of two failures, or the keys of both. -/
def Chk.andThen (a b : Chk) : Chk :=
  match a, b with
  | .ok k, .ok k' => .ok (k ++ k')
  | .ok _, b => b
  | .bad s c x, .bad s' c' x' => if s' < s then .bad s' c' x' else .bad s c x
  | a, _ => a

def chkPrivate (w : Work) (cn : Nat) (a : Acc) (base : W64) (limit lane i n : Nat) : Chk × Work :=
  if i % n ≠ 0 then (.bad 2 .prot i, w)
  else if i + n > 4 * limit then (.bad 3 .stackLimit i, w)
  else
    (privChunks base lane i n).foldl
      (fun (r : Chk × Work) (c : Nat × Nat) =>
        let (x, w) := xlate r.2 cn a c.1 c.2
        (r.1.andThen (xlChk x c.1 c.2), w))
      (.ok [], w)

/-- The block of a launch with a linear index. -/
def blockAt (p : Package) (l : Launch) (lin : Nat) : Option (Nat × Block) :=
  l.blocks.findSome? fun u =>
    match p.blocks.find? u with
    | some b => if b.lin = lin then some (u, b) else none
    | none => none

/-- The number of blocks in a gang of the launch (record byte 24, R307). -/
def Launch.gangSize (l : Launch) : Nat := max 1 (fld l.rec_ 24 1)

/-- A local access (R97). -/
def chkLocal (w : Work) (blk : Nat) (ea n : Nat) : Chk :=
  let fail := Chk.bad 2 .prot ea
  let inPortion (u : Nat) (b : Block) : Chk :=
    if ea / 2 ^ 20 % 16 < b.cores.length ∧ ea % 2 ^ 20 + n ≤ b.localSize ∧ !b.noLocal then
      .ok (keysFrom (localKey u (ea / 2 ^ 20 % 16) (ea % 2 ^ 20)) n)
    else fail
  if ea / 2 ^ 29 ≠ 0 ∨ ea % n ≠ 0 then fail
  else
    match w.block? blk with
    | none => fail
    | some b =>
      if bitAt ea 28 = 0 then (if ea / 2 ^ 24 % 16 = 0 then inPortion blk b else fail)
      else
        match w.launch? b.lnch with
        | none => fail
        | some l =>
          let rank := ea / 2 ^ 24 % 16
          let g := l.gangSize
          if rank ≥ g then fail
          else
            match blockAt w.pk l (b.lin / g * g + rank) with
            | some (u, m) => if u ≠ blk ∧ m.section_.isSome then .member m.lin else inPortion u m
            | none => .member (b.lin / g * g + rank)

def coreDie (core : Nat) : Nat := core / 48

/-- A weight-store access on a die (R99). -/
def chkWs (w : Work) (cn die ea n al : Nat) : Chk :=
  let granted := match w.ctx? cn with
    | some c => c.wsrs.any fun (d, lo, hi) => d == die && lo ≤ ea && ea + n ≤ hi
    | none => false
  if ea / 2 ^ 32 ≠ 0 ∨ ea % al ≠ 0 ∨ !granted then .bad 2 .prot ea else .ok (keysFrom (wsKey die ea) n)

/-! ## The context's own tables, used by engines and by the machine itself -/

/-- The pieces of a range that lie in one 4 KiB page each: address and bytes. -/
def pagePieces (va n : Nat) : List (Nat × Nat) :=
  (List.range ((va % 4096 + n + 4095) / 4096)).map fun k =>
    let lo := max va ((va / 4096 + k) * 4096)
    (lo, min (va + n) ((va / 4096 + k + 1) * 4096) - lo)

/-- n bytes of a context's global memory, each page by itself: the keys, or the first failure. -/
def chkRange (w : Work) (cn : Nat) (a : Acc) (va n : Nat) : Chk × Work :=
  (pagePieces va n).foldl
    (fun (r : Chk × Work) (c : Nat × Nat) =>
      match r.1 with
      | .ok ks =>
        let (x, w) := chkGlobal r.2 cn a c.1 c.2 1
        ((Chk.ok ks).andThen x, w)
      | _ => r)
    (.ok [], w)

/-- Writes bytes through a context's tables; nothing when the place cannot be written. -/
def writeVirt (w : Work) (cn va : Nat) (bs : List Byte) : Option Work :=
  match chkRange w cn .store va bs.length with
  | (.ok ks, w) => some (w.write ks bs)
  | _ => none

def readVirt (w : Work) (cn va n : Nat) : Option (List Byte) :=
  match chkRange w cn .load va n with
  | (.ok ks, w) => some (w.bytes ks)
  | _ => none

end Sys2Proof.Machine
end

