-- ==== Sys2Proof/Machine/Record.lean ====
section
/-!
DEFINITION. Fault records (R377 to R379), their delivery to the host (R378, R383), the save-area frames,
trap slots and pool (R400 to R402), trace records (R320), and the coordinates of a group that records and special registers give.
-/
namespace Sys2Proof.Machine

/-! ## Numbers (R377 to R379) -/

def Code.num (c : Code) : Nat :=
  match c with
  | .illOp => 1 | .regAlign => 2 | .regRange => 3 | .nonUnif => 4 | .emptyRead => 5 | .transientLost => 6
  | .mxMask => 7 | .tileOverlap => 8 | .blkFmt => 9 | .copyAddr => 10 | .promiseMiss => 11 | .page => 12
  | .stackLimit => 13 | .prot => 14 | .pinRevoked => 15 | .watchdog => 16 | .launchTime => 17 | .detRet => 18
  | .detBroken => 19 | .ferryNak => 20 | .collAbort => 21 | .dataLost => 22 | .dieLost => 23 | .idiv0 => 24
  | .trap => 25 | .brk => 26 | .watch => 27 | .stop => 28 | .killed => 29

def allCodes : List Code :=
  [.illOp, .regAlign, .regRange, .nonUnif, .emptyRead, .transientLost, .mxMask, .tileOverlap, .blkFmt, .copyAddr,
    .promiseMiss, .page, .stackLimit, .prot, .pinRevoked, .watchdog, .launchTime, .detRet, .detBroken, .ferryNak,
    .collAbort, .dataLost, .dieLost, .idiv0, .trap, .brk, .watch, .stop, .killed]

def FClass.num (c : FClass) : Nat :=
  match c with
  | .p => 0 | .a => 1 | .r => 2 | .s => 3 | .f => 4 | .n => 5

def fclassOf (n : Nat) : FClass :=
  match n with
  | 0 => .p | 1 => .a | 2 => .r | 3 => .s | 4 => .f | _ => .n

def b2n (b : Bool) : Nat := if b then 1 else 0

/-- The 64 bytes of a record; host says that it stands in the host ring. -/
def Rec.bytes (r : Rec) (host : Bool) : List Byte :=
  valBytes 1 r.code.num
    ++ valBytes 1 (r.cls.num + 8 * b2n r.hmode + 16 * b2n host + 32 * b2n r.block)
    ++ valBytes 2 r.ctx ++ valBytes 2 r.gidx ++ [r.lanes] ++ valBytes 1 r.core ++ valBytes 8 r.lnch.toNat
    ++ valBytes 8 r.pc.toNat ++ valBytes 8 r.addr.toNat ++ valBytes 4 r.bx.toNat ++ valBytes 4 r.byy.toNat
    ++ valBytes 4 r.bz.toNat ++ valBytes 4 r.info.toNat ++ r.phases

/-- The record that 64 bytes hold. -/
def recOfBytes (bs : List Byte) : Rec where
  code := (allCodes.find? fun c => c.num == fld bs 0 1).getD .killed
  cls := fclassOf (fld bs 1 1 % 8)
  hmode := bitAt (fld bs 1 1) 3 == 1
  block := bitAt (fld bs 1 1) 5 == 1
  ctx := fld bs 2 2
  gidx := fld bs 4 2
  lanes := bs.getD 6 0
  core := fld bs 7 1
  lnch := BitVec.ofNat 64 (fld bs 8 8)
  pc := BitVec.ofNat 64 (fld bs 16 8)
  addr := BitVec.ofNat 64 (fld bs 24 8)
  bx := BitVec.ofNat 32 (fld bs 32 4)
  byy := BitVec.ofNat 32 (fld bs 36 4)
  bz := BitVec.ofNat 32 (fld bs 40 4)
  info := BitVec.ofNat 32 (fld bs 44 4)
  phases := (bs.drop 48).take 16

/-! ## Coordinates (R28, R29) -/

def Launch.flags (l : Launch) : Nat := fld l.rec_ 26 1
def Launch.det (l : Launch) : Bool := bitAt l.flags 0 == 1
def Launch.isItems (l : Launch) : Bool := bitAt l.flags 1 == 1
def Launch.blanes (l : Launch) : Nat := fld l.rec_ 8 4
def Launch.gridX (l : Launch) : Nat := fld l.rec_ 12 4
def Launch.gridY (l : Launch) : Nat := fld l.rec_ 16 4
def Launch.gridZ (l : Launch) : Nat := fld l.rec_ 20 4
def Launch.blockCount (l : Launch) : Nat := l.gridX * l.gridY * l.gridZ

/-- Block coordinates; zero in an item stream. -/
def Launch.coords (l : Launch) (lin : Nat) : Nat × Nat × Nat :=
  if l.isItems then (0, 0, 0) else (lin % l.gridX, lin / l.gridX % l.gridY, lin / (l.gridX * l.gridY))

/-- A code address as a 64-bit virtual address: bits [63:57] repeat bit 56 (R96). -/
def pcVa (p : PC) : W64 := p.signExtend 64

/-- Straight-line addition of words to a code address. -/
def pcPlus (p : PC) (words : Int) : PC := p + BitVec.ofInt 57 (12 * words)

/-! ## Records -/

/-- A record that concerns no group (R377). -/
def bareRec (code : Code) (cls : FClass) (cn lnch addr info : Nat) : Rec where
  code := code
  cls := cls
  hmode := false
  block := false
  ctx := cn
  gidx := 0xFFFF
  lanes := 0
  core := 0xFF
  lnch := BitVec.ofNat 64 lnch
  pc := 0
  addr := BitVec.ofNat 64 addr
  bx := 0
  byy := 0
  bz := 0
  info := BitVec.ofNat 32 info
  phases := List.replicate 16 0

/-- A block's barrier phases mod 256. -/
def Block.phaseBytes (b : Block) : List Byte := (List.range 16).map fun n => BitVec.ofNat 8 (b.phases.getD 0 n)

/-- A record of a group of the package. -/
def groupRec (w : Work) (g : Group) (code : Code) (cls : FClass) (lanes : Mask) (pc addr : W64) (info : Nat) : Rec :=
  let r := bareRec code cls g.ctx g.lnch 0 info
  let (x, y, z) := match w.launch? g.lnch, w.block? g.blk with
    | some l, some b => l.coords b.lin
    | _, _ => (0, 0, 0)
  { r with
    hmode := g.handler.isSome, gidx := g.gidx, lanes := lanes.toByte, core := g.core, pc := pc, addr := addr,
    bx := BitVec.ofNat 32 x, byy := BitVec.ofNat 32 y, bz := BitVec.ofNat 32 z,
    phases := match w.block? g.blk with
      | some b => b.phaseBytes
      | none => r.phases }

/-! ## The host's records (R383) -/

/-- Hands a record to the host: it waits with its context until it is written to the fault ring. A record of the
service firmware's own context, or of any context, raises event bit 1 only for the firmware (R375). -/
def hostRec (w : Work) (r : Rec) : Work :=
  let w := w.updCtx r.ctx fun c => { c with pending := c.pending ++ [r] }
  if r.ctx = Config.firmwareContext then w.mapPk fun p => { p with evword := p.evword ||| 2 } else w

def hostRecs (w : Work) (rs : List Rec) : Work := w.each rs fun r w => hostRec w r

/-! ## Frames (R400 to R402) -/

def slotVa (c : Ctx) (slot : Nat) : Nat := c.spBase + slot * (65536 * c.spSlot)

def frameVa (c : Ctx) (frame : Nat) : Nat := c.save + 0x1000 + 0x2000 * frame

/-- Writes part of a group's frame; a frame that cannot be written keeps its bytes. -/
def writeFrame (w : Work) (cn frame off : Nat) (bs : List Byte) : Work :=
  match w.ctx? cn with
  | some c => (writeVirt w cn (frameVa c frame + off) bs).getD w
  | none => w

def setFState (w : Work) (cn frame st : Nat) : Work := writeFrame w cn frame 0x40 [BitVec.ofNat 8 st]

/-- Adds to a count in the header of the save area. -/
def bumpHeader (w : Work) (cn off n : Nat) (d : Int) : Work :=
  match w.ctx? cn with
  | some c =>
    match readVirt w cn (c.save + off) n with
    | some bs => (writeVirt w cn (c.save + off) (valBytes n (Int.toNat (bytesVal bs + d)))).getD w
    | none => w
  | none => w

/-- Sets or clears a bit of SKIND in a group's frame. -/
def setSkind (w : Work) (cn frame bit : Nat) (on : Bool) : Work :=
  match w.ctx? cn with
  | some c =>
    match readVirt w cn (frameVa c frame + 0x41) 1 with
    | some bs =>
      let v := bytesVal bs
      let v := if bitAt v bit = 1 then v - 2 ^ bit else v
      writeFrame w cn frame 0x41 (valBytes 1 (if on then v + 2 ^ bit else v))
    | none => w
  | none => w

/-! ## The pool (R358, R400, R401) -/

/-- NFRAME of the header. -/
def nframeOf (w : Work) (cn : Nat) : Nat :=
  match w.ctx? cn with
  | some c => match readVirt w cn c.save 4 with
    | some bs => bytesVal bs
    | none => 0
  | none => 0

def poolStart (c : Ctx) (nframe : Nat) : Nat := c.save + 0x1000 + 0x2000 * nframe

def poolPages (c : Ctx) (nframe : Nat) : Nat := (c.save + c.saveLen - poolStart c nframe) / 4096

/-- Whole pages of a run. -/
def pagesOf (bytes : Nat) : Nat := (bytes + 4095) / 4096

/-- The first free page, from page i on, at which n pages stand free. -/
def firstFit (runs : List (Nat × Nat)) (n total : Nat) : Nat → Nat → Option Nat
  | 0, _ => none
  | fuel + 1, i =>
    if i + n > total then none
    else
      match runs.find? fun r => i < r.1 + r.2 && r.1 < i + n with
      | some r => firstFit runs n total fuel (r.1 + r.2)
      | none => some i

/-- Pages at the front of the pool that hold the L9's own record of it (log entry 132). -/
def recordPages : Nat := 1

def usedPages (c : Ctx) : Nat := recordPages + (c.runs.map Prod.snd).sum

/-- Writes POOLFREE. -/
def notePool (w : Work) (cn : Nat) : Work :=
  match w.ctx? cn with
  | some c => (writeVirt w cn (c.save + 16) (valBytes 8 (4096 * (poolPages c (nframeOf w cn) - usedPages c)))).getD w
  | none => w

/-- Takes a run of some bytes: its first page in the pool and its pages; no pages for no bytes. -/
def takeRun (w : Work) (cn bytes : Nat) : Option ((Nat × Nat) × Work) :=
  match w.ctx? cn with
  | none => none
  | some c =>
    let n := pagesOf bytes
    if n = 0 then some ((0, 0), w)
    else
      match firstFit c.runs n (poolPages c (nframeOf w cn)) (c.runs.length + 1) recordPages with
      | some i => some ((i, n), notePool (w.updCtx cn fun c => { c with runs := c.runs ++ [(i, n)] }) cn)
      | none => none

def dropRun (w : Work) (cn : Nat) (r : Option (Nat × Nat)) : Work :=
  match r with
  | some r => if r.2 = 0 then w else notePool (w.updCtx cn fun c => { c with runs := c.runs.filter (· != r) }) cn
  | none => w

/-- The virtual address of a run; zero for one without pages. -/
def runVa (w : Work) (cn : Nat) (r : Nat × Nat) : Nat :=
  match w.ctx? cn with
  | some c => if r.2 = 0 then 0 else poolStart c (nframeOf w cn) + 4096 * r.1
  | none => 0

/-! ## Trace records (R320, R357) -/

/-- The 128 bytes of a trace record of a block; kind as R320 numbers it, and the fields that a fault record shares. -/
def traceBytes (w : Work) (kind mark : Nat) (b : Block) (r : Rec) : List Byte :=
  valBytes 8 w.pk.cycle.toNat ++ valBytes 1 kind ++ valBytes 1 mark ++ valBytes 2 r.ctx ++ valBytes 4 0
    ++ valBytes 8 r.lnch.toNat ++ valBytes 4 r.bx.toNat ++ valBytes 4 r.byy.toNat ++ valBytes 4 r.bz.toNat
    ++ valBytes 2 r.gidx ++ [r.lanes] ++ valBytes 1 r.core ++ valBytes 8 r.pc.toNat
    ++ (List.range 16).flatMap (fun n => valBytes 2 (b.phases.getD 0 n)) ++ List.replicate 48 0

/-- The ring takes a record, or counts a drop; a ring that cannot be reached takes nothing. -/
def traceWrite (w : Work) (cn : Nat) (bs : List Byte) : Work :=
  match w.ctx? cn with
  | none => w
  | some c =>
    match chkRange w cn .store c.tring 64 with
    | (.ok hk, w) =>
      let h := w.bytes hk
      let cap := fld h 8 4
      let count (w : Work) (off : Nat) : Work :=
        w.write ((hk.drop off).take 8) (valBytes 8 ((fld h off 8 + 1) % 2 ^ 64))
      if (fld h 16 8 + 2 ^ 64 - fld h 24 8) % 2 ^ 64 < cap then
        match writeVirt w cn ((fld h 0 8 + 128 * (fld h 16 8 % cap)) % 2 ^ 64) bs with
        | some w => count w 16
        | none => w
      else count w 32
    | _ => w

/-- An event of a block, if its context traces it. -/
def trace (w : Work) (kind mark : Nat) (b : Block) (r : Rec) : Work :=
  match w.ctx? b.ctx with
  | some c =>
    if c.tring ≠ 0 ∧ bitAt c.tren kind = 1 then traceWrite w b.ctx (traceBytes w kind mark b r) else w
  | none => w

/-- The fields of a block event: no group, the core of rank 0. -/
def blockRec (w : Work) (b : Block) : Rec :=
  let (x, y, z) := match w.launch? b.lnch with
    | some l => l.coords b.lin
    | none => (0, 0, 0)
  { bareRec .stop .s b.ctx b.lnch 0 0 with
    core := b.cores.headD 0, bx := BitVec.ofNat 32 x, byy := BitVec.ofNat 32 y, bz := BitVec.ofNat 32 z
    phases := b.phaseBytes }

def traceBlock (w : Work) (kind blk : Nat) : Work := w.onBlock blk fun b w => trace w kind 0 b (blockRec w b)

/-! ## Sources of records that wait past the pending list (R383) -/

/-- The records of a context past the 64 of its pending list, notices apart. -/
def pastList (w : Work) (cn : Nat) : List Rec :=
  match w.ctx? cn with
  | some c => (c.pending.filter fun r => r.cls != .n).drop 64
  | none => []

/-- Two records name one launch and block. -/
def Rec.sameBlock (a b : Rec) : Bool := a.lnch == b.lnch && a.bx == b.bx && a.byy == b.byy && a.bz == b.bz

/-- A block stays where it stands until its record has been written. -/
def blockStays (w : Work) (b : Block) : Bool := (pastList w b.ctx).any (blockRec w b).sameBlock

/-- A group does. -/
def groupStays (w : Work) (g : Group) : Bool :=
  let x := groupRec w g .page .r Mask.none 0 0 0
  (pastList w g.ctx).any fun r => r.gidx == x.gidx && x.sameBlock r

/-- What waits beside the groups on a page does. -/
def engineStays (w : Work) (cn : Nat) (addr : W64) : Bool := (pastList w cn).any fun r => r.gidx == 0xFFFF && r.addr == addr

/-- The fields of a group event, with the instruction it stands at, if any. -/
def traceGroup (w : Work) (kind mark : Nat) (g : Group) (lanes : Mask) (pc : W64) : Work :=
  w.onBlock g.blk fun b w => trace w kind mark b (groupRec w g .stop .s lanes pc 0 0)

end Sys2Proof.Machine
end

