-- ==== Sys2Proof/Machine/Operands.lean ====
section
/-!
DEFINITION. The registers of a group and every operand form: vector registers with their full bits, marks and the bypass
(R17 to R26), scalars, predicates, uniform operands (R52), the memory operand (R39, R95), and what an instruction needs of
its operands before it may issue.
-/
namespace Sys2Proof.Machine

/-! ## Registers -/

/-- A register that nothing has written: zero and full in every lane (R17). -/
def VReg.fresh : VReg := ⟨Lanes.splat 0, Mask.full, Mask.none, Mask.none⟩

/-- An allocated register that `xacq` granted or a group start set. -/
def Group.reg (g : Group) (r : Nat) : VReg := FMap.getD g.regs VReg.fresh r
def Group.setReg (g : Group) (r : Nat) (x : VReg) : Group := { g with regs := FMap.put g.regs VReg.fresh r x }

/-- The allocated count (R18). -/
def Group.alloc (g : Group) : Nat := g.base + 64 * g.ext

def Group.sreg (g : Group) (n : Nat) : W64 := FMap.getD g.sregs 0 n
def Group.setSreg (g : Group) (n : Nat) (v : W64) : Group := { g with sregs := FMap.put g.sregs 0 n v }

def Group.lane (g : Group) (L : Fin 8) : Lane := g.lanes.get L
def Group.updLanes (g : Group) (f : Fin 8 → Lane → Lane) : Group :=
  { g with lanes := Lanes.ofFn fun L => f L (g.lanes.get L) }

/-- p7 reads 1 (R17). -/
def Lane.p (l : Lane) (n : Nat) : Bool := n == 7 || l.pred.getLsbD n

/-- Writes to p7 are discarded. -/
def Lane.setP (l : Lane) (n : Nat) (v : Bool) : Lane :=
  if n < 7 then
    { l with pred := if v then l.pred ||| BitVec.ofNat 7 (2 ^ n) else l.pred &&& ~~~(BitVec.ofNat 7 (2 ^ n)) }
  else l

/-- Writes predicate n in the lanes of m. -/
def Group.setPred (g : Group) (n : Nat) (m : Mask) (v : Mask) : Group :=
  g.updLanes fun L l => if m.get L then l.setP n (v.get L) else l

def Group.live (g : Group) : Mask := Lanes.ofFn fun L => (g.lane L).st == .live
def Group.helpers (g : Group) : Mask := Lanes.ofFn fun L => (g.lane L).st == .helper
def Group.running (g : Group) : Mask := Mask.union g.live g.helpers

def Group.jmask (g : Group) (n : Nat) : Byte × PC := FMap.getD g.jmasks (0, 0) n
def Group.setJmask (g : Group) (n : Nat) (x : Byte × PC) : Group := { g with jmasks := FMap.put g.jmasks (0, 0) n x }

/-- An idle handle (R17). -/
def Chain.idle : Chain := ⟨[], [], [], [], [], none, 0⟩
def Group.chain (g : Group) (h : Nat) : Chain := FMap.getD g.chains Chain.idle h
def Group.setChain (g : Group) (h : Nat) (c : Chain) : Group := { g with chains := FMap.put g.chains Chain.idle h c }

/-! ## The bypass (R22, R23) -/

/-- The newest result of the bypass for a register in a lane. -/
def Group.bypassed (g : Group) (r : Nat) (L : Fin 8) : Option W32 :=
  g.bypass.findSome? fun l => l.findSome? fun b => if b.r = r && b.m.get L then some (b.v.get L) else none

/-- The word an instruction reads: from the bypass where the register is marked transient. -/
def Group.word (g : Group) (r : Nat) (L : Fin 8) : W32 :=
  let x := g.reg r
  if x.mark.get L then (g.bypassed r L).getD (x.val.get L) else x.val.get L

/-- A marked register whose result the bypass no longer holds. -/
def Group.lostIn (g : Group) (r : Nat) (m : Mask) : Mask :=
  Lanes.ofFn fun L => m.get L && (g.reg r).mark.get L && (g.bypassed r L).isNone

/-- n registers from r in a lane as one number, the first the low-order word (R19, R53). -/
def Group.value (g : Group) (r n : Nat) (L : Fin 8) : Nat :=
  (List.range n).foldr (fun k acc => (g.word (r + k) L).toNat + 2 ^ 32 * acc) 0

/-- A write of the register file that completes: value and full bit, clearing the mark (R23, R24). -/
def VReg.write (x : VReg) (m : Mask) (v : Lanes W32) : VReg where
  val := Lanes.ofFn fun L => if m.get L then v.get L else x.val.get L
  full := Mask.union x.full m
  mark := Mask.diff x.mark m
  pend := Mask.diff x.pend m

/-- A write of one register; a transient one goes to the bypass only and sets the mark. -/
def Group.writeReg (g : Group) (r : Nat) (t : Bool) (m : Mask) (v : Lanes W32) : Group :=
  if t then
    let g := g.setReg r { g.reg r with mark := Mask.union (g.reg r).mark m }
    match g.bypass with
    | [] => { g with bypass := [[⟨r, m, v⟩]] }
    | b :: bs => { g with bypass := (⟨r, m, v⟩ :: b) :: bs }
  else g.setReg r ((g.reg r).write m v)

/-- A write of n registers from r, the value split into words. -/
def Group.writeVal (g : Group) (r n : Nat) (t : Bool) (m : Mask) (v : Lanes Nat) : Group :=
  (List.range n).foldl
    (fun g k => g.writeReg (r + k) t m (v.map fun x => BitVec.ofNat 32 (x / 2 ^ (32 * k)))) g

/-- A producer's issue: the registers become empty in the lanes of m with a producer pending (R24). -/
def Group.emptyRegs (g : Group) (r n : Nat) (m : Mask) : Group :=
  (List.range n).foldl
    (fun g k =>
      let x := g.reg (r + k)
      g.setReg (r + k) { x with full := Mask.diff x.full m, pend := Mask.union x.pend m }) g

/-- A producer's write in the lanes of m. A number past the last register stands for registers that the group has given
up, whose late data is discarded (R27). -/
def Group.landRegs (g : Group) (r n : Nat) (m : Mask) (v : Lanes Nat) : Group :=
  if r ≥ 1024 then g else g.writeVal r n false m v

/-! ## What an instruction sees and needs -/

/-- The issuing group as it stands at issue, the lanes of its current split and the active ones among them (R55). -/
structure View where
  g : Nat
  grp : Group
  m : Mask
  act : Mask
  pc : PC
  next : PC
  deriving DecidableEq, Repr

/-- A vector source: first register, count, wait bit, the field that names it (0 fd, 1 fa, 2 fb, 3 imm), and whether it
must be uniform (R52), and the lanes in which it is read, where these are not the active ones. -/
structure Rd where
  r : Nat
  n : Nat
  x : Bool
  fld : Nat
  unif : Bool
  who : Option Mask := none
  deriving DecidableEq, Repr

/-- A vector destination. -/
structure Wr where
  r : Nat
  n : Nat
  t : Bool
  deriving DecidableEq, Repr

/-- What an instruction needs of its operands. -/
structure Need where
  reads : List Rd := []
  writes : List Wr := []
  /-- registers named and neither read nor written at issue -/
  names : List (Nat × Nat) := []
  banks : List Nat := []
  regions : List Nat := []
  /-- a tile form: the active lanes must be all the running lanes (R93) -/
  tile : Bool := false
  /-- the feature bit that gates the instruction (R9) -/
  feature : Option Nat := none
  /-- a read of the weight store, which keeps the block on its die (R408) -/
  ws : Bool := false
  deriving DecidableEq, Repr

end Sys2Proof.Machine

namespace Sys2Proof
open Machine

/-! ## Sources as needs -/

def VSrc.rd (v : VSrc) (n fld : Nat) : Rd := { r := v.r.toNat, n := n, x := v.x, fld := fld, unif := false }
def VDst.wr (d : VDst) (n : Nat) : Wr := ⟨d.r.toNat, n, d.t⟩

def BOp.rds (b : BOp) (n : Nat) : List Rd :=
  match b with
  | .reg v => [v.rd n 2]
  | .imm _ => []

/-- The first register of a vector form of R52: a pair is named by half its number. -/
def uniReg (r : BitVec 9) (n : Nat) : Nat := if n = 2 then 2 * r.toNat else r.toNat

def Uni.rds (u : Uni) (n fld : Nat) (unif : Bool := true) : List Rd :=
  match u with
  | .s _ => []
  | .v r x => [{ r := uniReg r n, n := n, x := x, fld := fld, unif := unif }]

def UDst.wrs (d : UDst) (n : Nat) : List Wr :=
  match d with
  | .s _ => []
  | .v r t => [⟨uniReg r n, n, t⟩]

/-- The registers of a memory operand: the base pair and the offset. -/
def MemRef.rds (m : MemRef) : List Rd :=
  m.base.rds 2 2 false ++ match m.off with
    | some v => [v.rd 1 1]
    | none => []

end Sys2Proof

namespace Sys2Proof.Machine

/-! ## Values of operands -/

/-- A source of n registers in a lane. -/
def View.src (v : View) (s : VSrc) (n : Nat) (L : Fin 8) : Nat := v.grp.value s.r.toNat n L

/-- A b operand of n registers, or the immediate as the entry extends it. -/
def View.bop (v : View) (b : BOp) (n : Nat) (imm : W32 → Nat) (L : Fin 8) : Nat :=
  match b with
  | .reg s => v.src s n L
  | .imm i => imm i

/-- A uniform operand in a lane. -/
def View.uniIn (v : View) (u : Uni) (n : Nat) (L : Fin 8) : Nat :=
  match u with
  | .s r => (v.grp.sreg r.toNat).toNat % 2 ^ (32 * n)
  | .v r _ => v.grp.value (uniReg r n) n L

/-- The lanes on which uniformity is judged: the active lanes that are no helpers, or all active lanes (R183). -/
def View.judged (v : View) : Mask :=
  let l := Mask.diff v.act v.grp.helpers
  if l.any then l else v.act

/-- A uniform operand's one value: that of the lowest judged lane. -/
def View.uni (v : View) (u : Uni) (n : Nat) : Nat :=
  match v.judged.lanes with
  | L :: _ => v.uniIn u n L
  | [] => 0

/-- The effective address of a lane (R95). -/
def View.ea (v : View) (m : MemRef) (L : Fin 8) : Nat :=
  let off : Int := match m.off with
    | some s => (v.grp.word s.r.toNat L).toInt
    | none => 0
  ((v.uniIn m.base 2 L + off + m.disp.toInt) % 2 ^ 64).toNat

def View.s (v : View) (r : BitVec 5) : Nat := (v.grp.sreg r.toNat).toNat

def View.sop (v : View) (b : SOp) : Nat :=
  match b with
  | .reg r => v.s r
  | .imm i => (i.signExtend 64).toNat

def View.p (v : View) (n : BitVec 3) (L : Fin 8) : Bool := (v.grp.lane L).p n.toNat

/-- The active lanes that are no helper lanes. -/
def View.real (v : View) : Mask := Mask.diff v.act v.grp.helpers

/-! ## Destinations -/

/-- Writes of a vector result at issue, in the active lanes. -/
def Work.writeV (w : Work) (v : View) (d : VDst) (n : Nat) (f : Fin 8 → Nat) : Work :=
  w.updGroup v.g fun g => g.writeVal d.r.toNat n d.t v.act (Lanes.ofFn f)

/-- Writes of a scalar register, once for the group. -/
def Work.writeS (w : Work) (v : View) (d : BitVec 5) (x : Nat) : Work :=
  w.updGroup v.g fun g => g.setSreg d.toNat (BitVec.ofNat 64 x)

/-- Writes of a uniform destination: a scalar register, or every active lane. -/
def Work.writeU (w : Work) (v : View) (d : UDst) (n : Nat) (f : Fin 8 → Nat) : Work :=
  match d with
  | .s r => w.writeS v r (f ((v.act.lanes).headD 0) % 2 ^ 64)
  | .v r t => w.updGroup v.g fun g => g.writeVal (uniReg r n) n t v.act (Lanes.ofFn f)

/-- Writes of a predicate, in the active lanes. -/
def Work.writeP (w : Work) (v : View) (d : BitVec 3) (f : Fin 8 → Bool) : Work :=
  w.updGroup v.g fun g => g.setPred d.toNat v.act (Lanes.ofFn f)

end Sys2Proof.Machine
end

