-- ==== Sys2Proof/Machine/Flags.lean ====
section
/-!
DEFINITION. The sticky flags `fpst` of a group (R32): every flag is the OR of the events of its kind in any lane since
group start. The events themselves are computed with the results (Machine/Num.lean, Machine/Alu.lean).
-/
namespace Sys2Proof.Machine

/-- ORs flags into `fpst`. -/
def Group.orFlags (g : Group) (f : Flags) : Group := { g with fpst := g.fpst ||| f }

/-- The flags of the lanes of m together. -/
def laneFlags (m : Mask) (f : Fin 8 → Flags) : Flags := m.lanes.foldl (fun acc L => acc ||| f L) 0

/-- ORs the flags of every active lane (R48, flag). -/
def Work.flag (w : Work) (v : View) (f : Fin 8 → Flags) : Work := w.updGroup v.g fun g => g.orFlags (laneFlags v.act f)

/-- The register `fpst` as R32 lays it out. -/
def Group.fpstReg (g : Group) : Nat := g.fpst.toNat

end Sys2Proof.Machine
end

