-- ==== Sys2Proof/Machine/Order.lean ====
section
/-!
DEFINITION. Chains, the lift line and barriers as operations (R245 to R259), and when an access may perform: the local
order of R246, the same-byte order of R232, imported tokens (R254) and what a group follows of others (R237). Memory is one
multi-copy-atomic store (log entry 12); a release may still perform before the accesses it orders, and then joins only the
agents that its scope and theirs reach (R228, R236).
-/
namespace Sys2Proof.Machine

/-! ## Outstanding accesses -/

def acquires (o : Order) : Bool := o == .acq || o == .acqrel
def releases (o : Order) : Bool := o == .rel || o == .acqrel

def TKind.isRead (k : TKind) : Bool :=
  match k with
  | .load .. | .atom .. | .ref .. | .sload .. | .mread .. | .lrec .. | .lcnt .. => true
  | _ => false

def TKind.isWrite (k : TKind) : Bool :=
  match k with
  | .load .. | .sload .. | .mread .. | .lrec .. | .lcnt .. => false
  | _ => true

/-- A group-wide access counts for every lane (R227). -/
def TKind.groupWide (k : TKind) : Bool :=
  match k with
  | .sload .. | .sstore | .mx | .mread .. | .lrec .. | .lcnt .. | .frec _ => true
  | _ => false

/-- The lane's part of an access has not performed. -/
def Txn.openIn (t : Txn) (L : Fin 8) : Bool :=
  match t.ops.get L with
  | some o => o.phase == 0
  | none => false

def Txn.open (t : Txn) : Bool := laneList.any t.openIn

/-- The bytes of the lane's part of an access. -/
def Txn.laneKeys (t : Txn) (L : Fin 8) : List Nat :=
  match t.ops.get L with
  | some o => o.keys
  | none => []

/-- Access i has not performed, in any lane. -/
def openTxn (p : Package) (i : Nat) : Bool :=
  match p.txns.find? i with
  | some t => t.open
  | none => false

/-- Whether access i, not performed, stands before an access in lane L of group g: an access of the group in that lane,
unless either counts for every lane, and one of another group in any. -/
def openLane (p : Package) (i g : Nat) (L : Fin 8) (wide : Bool) (c : Txn → Bool) : Bool :=
  match p.txns.find? i with
  | some t => c t && (if wide || t.kind.groupWide || t.g != g then t.open else t.openIn L)
  | none => false

/-- Some access that the performed one stood behind has not performed. -/
def Note.live (p : Package) (n : Note) : Bool :=
  n.txns.any fun e => openLane p e.txn n.txn.g n.lane (e.whole || n.txn.kind.groupWide) fun _ => true

/-- The accesses that the performed one stood behind. -/
def Note.ids (n : Note) : List Nat := n.txns.map Behind.txn

/-- The parts of access i that have performed before accesses which stand before them (R246). -/
def ghosts (p : Package) (i : Nat) : List Note := p.notes.filter fun n => n.id == i && n.live p

/-- Such a part stands before an access in lane L of group g. -/
def Note.inLane (n : Note) (g : Nat) (L : Fin 8) (wide : Bool) : Bool :=
  wide || n.txn.kind.groupWide || n.txn.g != g || n.lane == L

/-- Whether access i, or what it has performed before, still stands before an access in lane L of group g. -/
def blocksLane (p : Package) (i g : Nat) (L : Fin 8) (wide : Bool) (c : Txn → Bool) : Bool :=
  openLane p i g L wide c || (ghosts p i).any fun n => c n.txn && n.inLane g L wide

/-- The accesses among a list that have not performed, or have before others that stand before them. -/
def openTxns (p : Package) (l : List Nat) : List Nat := l.filter fun i => openTxn p i || !(ghosts p i).isEmpty

/-- Those among the accesses that joins and fences ordered. -/
def openJoins (p : Package) (l : List (Nat × Scope)) : List (Nat × Scope) := l.filter fun e => !(openTxns p [e.1]).isEmpty

/-- The accesses not performed that access i puts before one in lane L of group g: itself, and what it has performed
before. -/
def standing (p : Package) (g : Nat) (L : Fin 8) (wide : Bool) (i : Nat) : List Behind :=
  (if openLane p i g L wide fun _ => true then [⟨i, wide⟩] else []) ++
    ((ghosts p i).filter fun n => n.inLane g L wide).flatMap Note.txns

/-- The outstanding accesses of a group. -/
def groupTxns (p : Package) (g : Nat) : List Nat := p.txns.keysWhere fun _ t => t.g == g

/-- An access holds an entry of the transaction tables; a `frec` has none (R109, R250). -/
def TKind.holdsEntry (k : TKind) : Bool :=
  match k with
  | .frec _ => false
  | _ => true

/-- The entries that a group has in use. -/
def groupEntries (p : Package) (g : Nat) : List Nat := p.txns.keysWhere fun _ t => t.g == g && t.kind.holdsEntry

def Txn.keys (t : Txn) : List Nat := t.ops.toList.flatMap fun o => match o with
  | some o => o.keys
  | none => []

/-- The lanes' parts that have not performed reach one of these bytes. -/
def Txn.reaches (t : Txn) (ks : List Nat) : Bool := laneList.any fun K => t.openIn K && overlap (t.laneKeys K) ks

/-- The published buffers that some bytes lie in (R277). -/
def pubsOf (p : Package) (ks : List Nat) : List Nat :=
  (p.pubs.filter fun b => ks.any fun k => b.pbase ≤ k && k < b.pbase + b.len).map Pub.obj

/-- Both are reads in one published buffer, whose contents a lane sees in order (R242). -/
def samePub (p : Package) (x t : Txn) (a b : List Nat) : Bool :=
  x.kind.isRead && t.kind.isRead && (pubsOf p a).any fun o => (pubsOf p b).contains o

/-- The bytes of an access that count in lane L beside another's (R227). -/
def Txn.keysIn (t : Txn) (L : Fin 8) (wide : Bool) : List Nat :=
  if wide || t.kind.groupWide then (laneList.filter t.openIn).flatMap t.laneKeys
  else if t.openIn L then t.laneKeys L else []

/-- A read whose contents order what comes after it (R242). -/
def Txn.readsPub (p : Package) (t : Txn) : Bool := t.kind.isRead && !(pubsOf p t.keys).isEmpty

/-! ## Scopes (R228) -/

def scopeNum (s : Scope) : Nat :=
  match s with
  | .grp => 0 | .core => 1 | .die => 2 | .pkg => 3 | .pod => 4 | .sys => 5

/-- Two lanes of the package share an instance of a scope, by their groups and cores. -/
def shareScope (s : Scope) (g core g' core' : Nat) : Bool :=
  match s with
  | .grp => g == g'
  | .core => core == core'
  | .die => coreDie core == coreDie core'
  | .pkg | .pod | .sys => true

/-- An agent of another package shares an instance of the scope with a lane. -/
def shareAbroad (s : Scope) : Bool := s == .pod || s == .sys

def widerScope (a b : Scope) : Scope := if scopeNum a < scopeNum b then b else a

/-- An acquire of a scope by a lane of a group joins the release (R236). -/
def Note.joins (n : Note) (s : Scope) (g core : Nat) : Bool :=
  match n.scope with
  | some r => shareScope r n.txn.g n.txn.core g core && shareScope s n.txn.g n.txn.core g core
  | none => false

/-- An acquire of a scope by an agent of another package or of the host joins the release. -/
def Note.joinsAbroad (n : Note) : Bool :=
  match n.scope with
  | some r => shareAbroad r
  | none => false

/-- The releases whose sequence a read of these bytes meets. -/
def notesAt (p : Package) (ks : List Nat) : List Note := p.notes.filter fun n => overlap n.keys ks && n.live p

/-! ## Tokens and the lift line (R248, R252 to R254) -/

def slotKey (core slot : Nat) : Nat := core * 2048 + slot

structure Token where
  pkg : Nat
  core : Nat
  slot : Nat
  gen : Nat
  scope : Nat
  seq : Nat
  deriving DecidableEq, Repr

def tokenOf (x : Nat) : Token where
  pkg := x / 2 ^ 52 % 2 ^ 12
  core := x / 2 ^ 44 % 2 ^ 8
  slot := x / 2 ^ 33 % 2 ^ 11
  gen := x / 2 ^ 24 % 2 ^ 9
  scope := x / 2 ^ 21 % 2 ^ 3
  seq := x % 2 ^ 21

def Token.word (t : Token) : Nat :=
  t.pkg * 2 ^ 52 + t.core * 2 ^ 44 + t.slot * 2 ^ 33 + t.gen * 2 ^ 24 + t.scope * 2 ^ 21 + t.seq

/-- The sequence numbers of a slot's generation whose accesses have not performed. -/
def LiftSlot.openSeqs (p : Package) (s : LiftSlot) : List Nat :=
  (s.pend.filter fun e => !(openTxns p [e.2]).isEmpty).map Prod.fst

/-- The accesses of a slot up to a number, with those that their exports released. -/
def LiftSlot.upTo (s : LiftSlot) (q : Nat) : List Nat := ((s.pend ++ s.extra).filter fun e => e.1 ≤ q).map Prod.snd

/-- An access performs for its own group at its issue when it is a plain store (R232, R249). -/
def Txn.ownAtIssue (t : Txn) : Bool := t.kind == .store || t.kind == .sstore

/-- The accesses among a list that have not performed at a scope (R249). -/
def openAt (p : Package) (s : Nat) (l : List Nat) : List Nat :=
  (openTxns p l).filter fun i => s != 0 || match p.txns.find? i with
    | some t => !t.ownAtIssue
    | none => false

/-- R254's condition for a token of this package; a token of another package is satisfied when a packet from there
said so, and one of a lost die at once. -/
def tokenMet (p : Package) (x : W64) : Bool :=
  let t := tokenOf x.toNat
  if t.seq = 0 then true
  else if t.pkg ≠ p.no then p.tokensMet.contains x.toNat || p.farLost.contains (t.pkg, coreDie t.core)
  else if p.diesLost.getLsbD (coreDie t.core) then true
  else
    match p.lift.find? (slotKey t.core t.slot) with
    | none => true
    | some s => s.owner.isNone || s.gen != t.gen || s.seq < t.seq ||
      (openAt p t.scope (s.upTo t.seq)).isEmpty

/-- The lowest free slot of a core (log entry 28). -/
def freeSlot (p : Package) (core : Nat) : Option Nat :=
  (List.range 2048).find? fun s =>
    match p.lift.find? (slotKey core s) with
    | none => true
    | some x => x.owner.isNone

/-- The wait of an access whose chain needs a slot (R248): none is free, or the sequence numbers are used up. -/
def liftWait (p : Package) (g : Group) (h : Nat) : Option Wait :=
  let c := g.chain h
  match c.slot with
  | some _ => if c.seq + 1 ≥ 2 ^ 21 then some .liftRoom else none
  | none => if (freeSlot p g.core).isNone then some .liftRoom else none

/-- Numbers an access in its chain's slot, taking a slot where the chain holds none. -/
def numberAccess (w : Work) (gi h t : Nat) : Work :=
  w.onGroup gi fun g w =>
    let c := g.chain h
    match c.slot with
    | some s =>
      let w := w.updGroup gi fun g => g.setChain h { c with seq := c.seq + 1 }
      let next (x : LiftSlot) : LiftSlot := { x with seq := c.seq + 1, pend := x.pend ++ [(c.seq + 1, t)] }
      w.mapPk fun p => { p with lift := p.lift.adjust (slotKey g.core s) next }
    | none =>
      match freeSlot w.pk g.core with
      | none => w
      | some s =>
        let last := match w.pk.lift.find? (slotKey g.core s) with
          | some x => x.gen
          | none => 0
        let w := w.updGroup gi fun g => g.setChain h { c with slot := some s, seq := 1 }
        let slot : LiftSlot := ⟨(last + 1) % 512, 1, some (gi, h), [(1, t)], [], none⟩
        w.mapPk fun p => { p with lift := p.lift.insert (slotKey g.core s) slot }

/-! ## A new access (R245) -/

/-- Puts an access of a group on its chain: its predecessors, those a join ordered before it, the group's accesses that it
follows at the same bytes, the tokens it waits for and the accesses of others it follows; then, but for `frec`, its number
in the lift line. -/
def addTxn (w : Work) (t : Txn) : Nat × Work :=
  let (id, w) := w.newId
  let c := match w.group? t.g with
    | some g => g.chain t.h
    | none => Chain.idle
  let ks := t.keys
  let gone := (w.pk.notes.filter fun n => n.txn.g == t.g && overlap (n.txn.laneKeys n.lane) ks && n.live w.pk).map Note.id
  let same := (w.pk.txns.keysWhere fun _ x => x.g == t.g && (overlap x.keys ks || samePub w.pk x t x.keys ks)) ++ gone
  let t := { t with
    preds := openTxns w.pk c.hist, jpreds := openJoins w.pk c.jord, same := same,
    imports := c.imports.filter fun x => !tokenMet w.pk x
    awaits := openTxns w.pk c.awaits }
  let w := w.setTxn id t
  let w := w.updGroup t.g fun g =>
    let c := g.chain t.h
    g.setChain t.h { c with
      hist := openTxns w.pk c.hist ++ [id], jord := openJoins w.pk c.jord, imports := t.imports, awaits := t.awaits }
  match t.kind with
  | .frec _ => (id, w)
  | _ => (id, numberAccess w t.g t.h id)

/-! ## When an access may perform -/

/-- The order of a chain at another package, where its accesses arrive in their order (R288). -/
def sameAbroad (p : Package) (x t : Txn) (a b : List Nat) : Bool :=
  let far (x : Txn) (l : List Nat) : List Nat := match x.kind with
    | .ferry id => match p.sent.find? id with
      | some e => [e.d.name.toNat / 2 ^ 36 % 2 ^ 12].filter (· != p.no)
      | none => []
    | _ => (l.filter fun k => isGlobalKey k && paPackage k != p.no).map paPackage
  x.g == t.g && x.h == t.h && (far x a).any fun n => (far t b).contains n

/-- The releases that keep an acquire from performing (R236, R247). -/
def noteWait (p : Package) (t : Txn) (L : Fin 8) : List Note :=
  let acq (n : Note) : Bool := acquires t.ord && n.joins t.scope t.g t.core
  let facq (n : Note) : Bool := match t.facq with
    | some s => n.joins s t.g t.core
    | none => false
  if !t.kind.isRead then [] else (notesAt p (t.laneKeys L)).filter fun n => acq n || facq n

/-- What an access, not performed, may still acquire comes before what follows it, wherever that reaches (R237, R254). -/
def Txn.carries (p : Package) (x : Txn) : Bool :=
  x.open && (acquires x.ord || x.facq.isSome || x.readsPub p || !x.imports.all (tokenMet p))

/-- An access of another agent that a later access at some bytes follows has not performed: it reaches those bytes, or
carries what it may still acquire; a `frec`, which reaches no byte, follows each. -/
def awaited (p : Package) (every : Bool) (ks : List Nat) (i : Nat) : Bool :=
  let stands (i : Nat) : Bool := match p.txns.find? i with
    | some x => x.reaches ks || x.carries p || (every && x.open)
    | none => false
  stands i || (ghosts p i).any fun n => n.ids.any stands

/-- Everything but the accesses that a release orders lets the lane's part of an access perform; `set` are the lanes that
perform with it. -/
def ordered (p : Package) (id : Nat) (t : Txn) (set : List (Fin 8)) (L : Fin 8) : Bool :=
  let wide := t.kind.groupWide
  let ks := t.laneKeys L
  let frec := match t.kind with
    | .frec _ => true
    | _ => false
  !(t.preds.any fun i => blocksLane p i t.g L wide fun x => frec || acquires x.ord || x.readsPub p)
    && !(t.preds.any fun i => match p.txns.find? i with
      | some x => x.open && sameAbroad p x t x.keys t.keys
      | none => false)
    && !(t.jpreds.any fun e => blocksLane p e.1 t.g L wide fun x => x.kind.isRead)
    && !(t.same.any fun i => (match p.txns.find? i with
      | some x => x.reaches ks || samePub p x t (x.keysIn L wide) ks
      | none => false) || (t.kind.isRead && (ghosts p i).any fun n => n.inLane t.g L wide))
    && !(t.awaits.any (awaited p frec ks))
    && t.imports.all (tokenMet p)
    && !(laneList.any fun K => K.val < L.val && !set.contains K && t.openIn K && overlap (t.laneKeys K) ks)
    && (noteWait p t L).isEmpty
    && (p.txns.find? id).isSome

/-- The accesses not performed that stand before the lane's part as a write, with the scope of its release of them (R246,
R247): its chain and what it follows for a release, the writes that a fence or join orders for any write, and what the same
lane's writes of its bytes have performed before. -/
def relOpen (p : Package) (t : Txn) (L : Fin 8) : List (Behind × Option Scope) :=
  let put (s : Option Scope) (i : Nat) : List (Behind × Option Scope) :=
    (standing p t.g L (t.kind.groupWide || t.awaits.contains i) i).map fun e => (e, s)
  let hits (n : Note) : Bool := n.inLane t.g L t.kind.groupWide && overlap (n.txn.laneKeys n.lane) (t.laneKeys L)
  (if releases t.ord then (t.preds ++ t.awaits).flatMap (put (some t.scope)) else []) ++
    if t.kind.isWrite then
      (t.jpreds.flatMap fun e => put (some e.2) e.1) ++
        (t.same.flatMap fun i => ((ghosts p i).filter hits).flatMap fun n => n.txns.map fun e => (e, none))
    else []

/-- A plain access of a lane to memory of this package that nothing keeps from performing. -/
def freeTxn (p : Package) (i : Nat) : Bool :=
  match p.txns.find? i with
  | none => true
  | some x =>
    let plain := match x.kind with
      | .load .. | .store | .atom .. => x.ord == .plain && x.staged.isNone
      | _ => false
    plain && laneList.all fun K => !x.openIn K ||
      (ordered p i x [] K && (relOpen p x K).isEmpty && (x.laneKeys K).all fun k => !isGlobalKey k || paPackage k == p.no)

/-- The accesses that an acquire of a scope by a group, made at issue, must follow: those of releases that wrote its bytes
(R236). -/
def acquireOpen (p : Package) (gi core : Nat) (s : Scope) (ks : List Nat) : List Nat :=
  openTxns p (((notesAt p ks).filter fun n => n.joins s gi core).flatMap Note.ids)

/-- A store or an atomic may perform before the plain accesses it orders, which then perform in their own time (R239). -/
def mayPrecede (p : Package) (t : Txn) (l : List (Behind × Option Scope)) : Bool :=
  (match t.kind with
    | .store | .sstore | .atom .. => t.staged.isNone
    | _ => false) && l.all fun e => freeTxn p e.1.txn

/-- Whether the lane's part of an access may perform, together with the lanes of a set. -/
def mayPerformIn (p : Package) (id : Nat) (t : Txn) (set : List (Fin 8)) (L : Fin 8) : Bool :=
  ordered p id t set L && ((relOpen p t L).isEmpty || mayPrecede p t (relOpen p t L))

/-- Whether the lane's part of an access may perform. -/
def mayPerform (p : Package) (id : Nat) (t : Txn) (L : Fin 8) : Bool := mayPerformIn p id t [] L

/-- The read-modify-writes continue a release sequence (R236). -/
def TKind.isRmw (k : TKind) : Bool :=
  match k with
  | .atom .. | .ref .. => true
  | _ => false

/-- A read of some bytes on a handle keeps the releases it meets (R247). -/
def noteMet (w : Work) (gi h core : Nat) (ks : List Nat) : Work :=
  match notesAt w.pk ks with
  | [] => w
  | met => w.updGroup gi fun g => g.setChain h { g.chain h with
      seen := ((g.chain h).seen ++ met.map fun n => (⟨n, core⟩ : Seen)).eraseDups }

/-- What the performing of the lane's part of access id does to the notes that are kept: a write that is no
read-modify-write ends the release sequences of its bytes, one that precedes accesses which stand before it leaves a note of
them for each scope of its release, and a read keeps those it has met. -/
def notePerform (w : Work) (id : Nat) (t : Txn) (L : Fin 8) : Work :=
  let ks := t.laneKeys L
  let rel := relOpen w.pk t L
  if w.pk.notes.isEmpty ∧ rel.isEmpty then w
  else
    let w := if t.kind.isRead then noteMet w t.g t.h t.core ks else w
    let ends (n : Note) : Note :=
      if t.kind.isWrite && !t.kind.isRmw then { n with keys := n.keys.filter fun k => !ks.contains k } else n
    let made := ((rel.map Prod.snd).eraseDups).map fun s => (⟨id, t, L, ks, s, (rel.map Prod.fst).eraseDups⟩ : Note)
    w.mapPk fun p => { p with notes := ((p.notes.map ends).filter (Note.live p)) ++ made }

/-! ## Accesses made at issue -/

/-- The lane's part of an access that an instruction makes at issue must follow these accesses and tokens: as `ordered` and
`relOpen` say for one that stands on its chain. -/
def issueAfter (p : Package) (gi : Nat) (g : Group) (h : Nat) (ks : List Nat) (write : Bool) : Release :=
  let c := g.chain h
  let sel (f : Txn → Bool) (i : Nat) : Bool := (match p.txns.find? i with
    | some x => x.open && f x
    | none => false) || (ghosts p i).any fun n => f n.txn
  let ghost := (p.notes.filter fun n => n.txn.g == gi && overlap (n.txn.laneKeys n.lane) ks && n.live p).map Note.id
  ⟨((c.hist.filter (sel fun x => acquires x.ord || x.readsPub p)) ++
      (c.jord.map Prod.fst).filter (sel fun x => x.kind.isRead || write) ++
      (groupTxns p gi).filter (sel fun x => x.reaches ks) ++ ghost ++ c.awaits.filter (awaited p false ks)).eraseDups,
    c.imports.filter fun x => !tokenMet p x⟩

/-! ## Fences, joins, forks (R251) -/

/-- The accesses of others that a fence or join of a scope makes a group follow: those of the releases its reads have met
and that the scope reaches (R247). -/
def seenTxns (p : Package) (gi : Nat) (s : Scope) (c : Chain) : List Nat :=
  openTxns p ((c.seen.filter fun e => e.note.live p && e.note.joins s gi e.core).flatMap fun e => e.note.ids)

/-- Reads of a list that a release has performed before: a fence or join that would make them acquires comes after them. -/
def overtaken (p : Package) (l : List Nat) : List Nat := l.filter fun i => (match p.txns.find? i with
  | some t => t.kind.isRead
  | none => false) && p.notes.any fun n => n.live p && n.ids.contains i

/-- Reads in flight at a fence or join of a scope acquire at it (R247). -/
def acquireReads (w : Work) (s : Scope) (ts : List Nat) : Work :=
  w.each ts fun i w => w.updTxn i fun t =>
    if t.kind.isRead then { t with facq := some (match t.facq with
      | some x => widerScope x s
      | none => s) } else t

def Group.allChains (g : Group) (f : Chain → List Nat) : List Nat :=
  ((List.range 16).flatMap fun h => f (g.chain h)).eraseDups

/-- Every access of the group becomes a chain predecessor of every later one; a fence also makes its local order (the
fourth row of R246) and acquires at its scope. -/
def fenceChains (w : Work) (gi : Nat) (order : Option Scope) : Work :=
  let all := openTxns w.pk (groupTxns w.pk gi)
  let w := match order with
    | some s => acquireReads w s all
    | none => w
  w.updGroup gi fun g =>
    let met := match order with
      | some s => g.allChains (seenTxns w.pk gi s)
      | none => []
    let awaits := openTxns w.pk (g.allChains Chain.awaits ++ met)
    let jord := match order with
      | some s => (all ++ awaits).eraseDups.map fun i => (i, s)
      | none => []
    (List.range 16).foldl
      (fun g h =>
        let c := g.chain h
        if all.isEmpty && awaits.isEmpty then g
        else g.setChain h { c with
          hist := all, jord := (c.jord ++ jord).eraseDups, awaits := (c.awaits ++ awaits).eraseDups }) g

/-- The accesses that stand directly before an access in some lane (R246). -/
def Txn.directly (p : Package) (t : Txn) : List Nat :=
  (if releases t.ord then t.preds ++ t.awaits else []) ++
    (t.preds.filter fun i => match p.txns.find? i with
      | some x => acquires x.ord
      | none => false) ++
    ((t.jpreds.map Prod.fst).filter fun i => t.kind.isWrite || match p.txns.find? i with
      | some x => x.kind.isRead
      | none => false) ++
    t.same.filter fun i => match p.txns.find? i with
      | some x => laneList.any fun L => overlap (x.keysIn L t.kind.groupWide) (t.keysIn L x.kind.groupWide)
      | none => false

/-- A list of accesses with every one not performed that stands before one of them, in at most n rounds. -/
def closeBefore (p : Package) : Nat → List Nat → List Nat
  | 0, l => l
  | n + 1, l =>
    let more := l.flatMap fun i => (ghosts p i).flatMap Note.ids ++ match p.txns.find? i with
      | some t => openTxns p (t.directly p)
      | none => []
    let m := (l ++ more).eraseDups
    if m.length = l.length then l else closeBefore p n m

/-- Local order is transitive: a join also orders what stands before the accesses of its two handles, by whatever case of
R246. -/
def joinChains (w : Work) (gi hd ha : Nat) (s : Scope) : Work :=
  w.onGroup gi fun g w =>
    let d := g.chain hd
    let a := g.chain ha
    let both := openTxns w.pk ((d.hist ++ a.hist).eraseDups)
    let here (t : Txn) : Bool := t.h == hd || t.h == ha
    let own := closeBefore w.pk w.pk.txns.length (both.filter fun i => (match w.pk.txns.find? i with
      | some t => here t
      | none => false) || (ghosts w.pk i).any fun n => here n.txn)
    let awaits := (openTxns w.pk (d.awaits ++ a.awaits) ++ seenTxns w.pk gi s d ++ seenTxns w.pk gi s a).eraseDups
    (acquireReads w s both).updGroup gi fun g => g.setChain hd { d with
      hist := both, jord := (d.jord ++ (own ++ awaits).map fun i => (i, s)).eraseDups, awaits := awaits
      seen := (d.seen ++ a.seen).eraseDups
      imports := (d.imports ++ (if hd = ha then [] else a.imports)).eraseDups }

/-- The history of D becomes that of S; what a fence or join has ordered before D's accesses, and the tokens they wait for,
stay (R246, R254). -/
def forkChain (w : Work) (gi hd hs : Nat) : Work :=
  if hd = hs then w
  else w.updGroup gi fun g =>
    let s := g.chain hs
    let d := g.chain hd
    g.setChain hd { d with
      hist := openTxns w.pk s.hist, seen := s.seen
      awaits := openTxns w.pk ((d.awaits ++ s.awaits).eraseDups), imports := (d.imports ++ s.imports).eraseDups }

/-- The outstanding accesses on a chain (R249). -/
def chainOpen (p : Package) (gi h : Nat) : List Nat := p.txns.keysWhere fun _ t => t.g == gi && t.h == h && t.open

/-- Whether some access of a chain or that an export of it released has not performed (R248). -/
def LiftSlot.held (p : Package) (s : LiftSlot) : Bool := !(openTxns p ((s.pend ++ s.extra).map Prod.snd)).isEmpty

/-! ## Barriers (R257 to R259, R221) -/

/-- Phase v has passed at a completed count c. -/
def phasePassed (c v : Nat) : Bool :=
  let d := (c % 2 ^ 16 + 2 ^ 16 - v % 2 ^ 16) % 2 ^ 16
  decide (1 ≤ d ∧ d ≤ 32768)

/-- The least arrival count at barrier n over the groups given. -/
def leastArrival (p : Package) (gs : List Nat) (n : Nat) : Option Nat :=
  (gs.filterMap fun i => (p.groups.find? i).map fun g => g.arr.getD 0 n).min?

/-- OPEN, SEALED and STATE of a DET block's slot (R217). -/
def slotState (p : Package) (b : Block) (d : Det) : List Byte :=
  let turn := match p.launches.find? b.lnch with
    | some l => l.turn == b.lin
    | none => false
  valBytes 2 d.opened ++ valBytes 2 d.sealed ++ valBytes 4 (b2n d.ended + 2 * b2n turn + 4 * b2n d.void)

/-- The header of a DET block's slot takes its state. -/
def putSlot (w : Work) (blk : Nat) : Work :=
  w.onBlock blk fun b w =>
    match b.det, w.ctx? b.ctx with
    | some d, some c => (writeVirt w b.ctx (slotVa c d.slot + 8) (slotState w.pk b d)).getD w
    | _, _ => w

/-- A flush point seals the open epoch of a DET block and opens the next (R219). -/
def sealEpoch (w : Work) (blk : Nat) : Work :=
  putSlot (w.updBlock blk fun b => { b with
    det := b.det.map fun d => { d with opened := d.opened + 1, sealed := d.sealed + 1 } }) blk

/-- Completes every phase of barrier n that every group of the block has arrived at; at the flush points (16) the
counts of all groups must be equal (R221). -/
def completePhases (w : Work) (blk n : Nat) : Work :=
  w.onBlock blk fun b w =>
    match leastArrival w.pk b.groups n with
    | none => w
    | some k =>
      let most := ((b.groups.filterMap fun i => (w.pk.groups.find? i).map fun g => g.arr.getD 0 n).max?).getD 0
      if k > b.phases.getD 0 n ∧ (n ≠ 16 ∨ k = most) then
        let w := w.updBlock blk fun b => { b with phases := b.phases.put 0 n k }
        if n = 16 then sealEpoch w blk else w
      else w

/-- The member blocks of a gang that have started. -/
def gangBlocks (p : Package) (l : Launch) (gang : Nat) : List (Nat × Block) :=
  l.blocks.filterMap fun u =>
    match p.blocks.find? u with
    | some b => if b.lin / l.gangSize = gang then some (u, b) else none
    | none => none

/-- Completes phases of a gang's barrier; a member that has not started has not arrived. -/
def completeGang (w : Work) (lnch gang : Nat) : Work :=
  w.onLaunch lnch fun l w =>
    let bs := gangBlocks w.pk l gang
    if bs.length < l.gangSize then w
    else
      match leastArrival w.pk (bs.flatMap fun b => b.2.groups) 17 with
      | none => w
      | some k =>
        if k > l.gphases.getD 0 gang then w.updLaunch lnch fun l => { l with gphases := l.gphases.put 0 gang k } else w

/-- The barrier's number in the list of debts, its completed count, the debts, and the accesses of ended groups, as a group
sees them: barriers 0 to 15, the flush points (16) and the gang barrier (17). -/
structure BarView where
  bar : Nat
  done : Nat
  debts : List Debt
  ended : List Nat
  deriving DecidableEq, Repr

def barrierOf (p : Package) (g : Group) (n : Nat) : BarView :=
  match p.blocks.find? g.blk with
  | none => ⟨n, 0, [], []⟩
  | some b =>
    if n = 17 then
      match p.launches.find? g.lnch with
      | some l =>
        let k := b.lin / l.gangSize
        ⟨k, l.gphases.getD 0 k, l.gdebts, (gangBlocks p l k).flatMap fun e => e.2.endDebts⟩
      | none => ⟨n, 0, [], []⟩
    else ⟨n, b.phases.getD 0 n, b.debts, b.endDebts⟩

/-- An arrival of a group at barrier n of its block (17 for the gang): its phase, with the accesses it releases noted; the
first arrival of a group at a flush restarts its lanes' numbers (R218). -/
def arriveAt (w : Work) (gi n : Nat) : Nat × Work :=
  match w.group? gi with
  | none => (0, w)
  | some g =>
    let v := barrierOf w.pk g n
    let k := g.arr.getD 0 n
    let d : Debt := ⟨v.bar, k, openTxns w.pk (groupTxns w.pk gi ++ g.allChains Chain.awaits)⟩
    let add (l : List Debt) : List Debt :=
      if d.txns.isEmpty then l else (l.filter fun x => !(openTxns w.pk x.txns).isEmpty) ++ [d]
    let w := w.updGroup gi fun g => { g with arr := g.arr.put 0 n (k + 1) }
    let w := if n = 16 ∧ k = v.done then w.updGroup gi fun g => g.updLanes fun _ l => { l with dseq := 0 } else w
    let w := fenceChains w gi none
    let w :=
      if n = 17 then w.updLaunch g.lnch fun l => { l with gdebts := add l.gdebts }
      else w.updBlock g.blk fun b => { b with debts := add b.debts }
    let w := if n = 17 then w.onBlock g.blk fun b w => w.onLaunch g.lnch fun l w => completeGang w g.lnch (b.lin / l.gangSize)
      else completePhases w g.blk n
    (k % 2 ^ 16, w)

/-- Phase v at barrier n has passed. -/
def barrierPassed (p : Package) (g : Group) (n v : Nat) : Bool := phasePassed (barrierOf p g n).done v

/-- A completed wait of phase v at barrier n is an acquire: the group follows, on every handle, the accesses that the
arrivals of the phase and the ends of groups released (R237, R258). -/
def acquirePhase (w : Work) (gi n v : Nat) : Work :=
  w.onGroup gi fun g w =>
    let b := barrierOf w.pk g n
    let of (d : Debt) : Bool := d.bar == b.bar && d.phase % 2 ^ 16 == v % 2 ^ 16 && decide (d.phase < b.done)
    let ts := openTxns w.pk ((b.debts.filter of).flatMap Debt.txns ++ b.ended)
    if ts.isEmpty then w
    else w.updGroup gi fun g => (List.range 16).foldl
      (fun g h => g.setChain h { g.chain h with awaits := ((g.chain h).awaits ++ ts).eraseDups }) g

/-- The limit of R257: 32,768 phases ahead. -/
def arriveBlocked (p : Package) (g : Group) (n : Nat) : Bool := g.arr.getD 0 n ≥ (barrierOf p g n).done + 32768

end Sys2Proof.Machine
end

