-- ==== Sys2Proof/Machine/Items.lean ====
section
/-!
DEFINITION. Flows and items as the instructions and events share them (R338 to R346): places in arrival order, the gate,
passing, and the end of an item.
-/
namespace Sys2Proof.Machine

/-- The flow table has 65,536 entries (R338). -/
def flowTableSize : Nat := 65536

def flow? (p : Package) (l : Nat) (label : W32) : Option Flow := p.flows.find? fun f => f.lnch == l && f.label == label

def updFlow (w : Work) (l : Nat) (label : W32) (f : Flow → Flow) : Work :=
  w.mapPk fun p => { p with flows := p.flows.map fun x => if x.lnch = l ∧ x.label = label then f x else x }

/-- The results of an item that are held for one of its places. -/
def Item.heldAt (i : Item) (label seq : W32) : List Held := i.held.filter fun h => h.label == label && h.seq == seq

/-- The part of an access has not performed. -/
def LanePart.open (p : Package) (x : LanePart) : Bool := blocksLane p x.txn x.g x.lane false fun _ => true

/-- The accesses that the pass of an item releases: those of its lane, and what the lane follows of others (R343, R238). -/
def laneDebts (p : Package) (lane : Option (Nat × Nat)) : List LanePart :=
  match lane with
  | none => []
  | some (g, L) =>
    let others := match p.groups.find? g with
      | some x => (List.range 16).flatMap fun h => (x.chain h).awaits
      | none => []
    (((groupTxns p g ++ others).eraseDups).map fun t => ⟨t, g, Fin.ofNat 8 L⟩).filter (LanePart.open p)

/-- An item has left its place: it has passed there, and its held results have been performed (R338). -/
def placeLeft (p : Package) (f : Flow) (x : Place) : Bool :=
  x.passed && match p.items.find? x.item with
    | some i => (i.heldAt f.label x.seq).isEmpty
    | none => true

/-- An item is in flight in a flow until it has left its place there; in the flow it stands in, until every result that it
holds, in an earlier flow too, has been performed (R338, log entry 54). -/
def placeInFlight (p : Package) (f : Flow) (x : Place) : Bool :=
  !placeLeft p f x || match p.items.find? x.item with
    | some i => i.label == f.label && i.seq == x.seq && !i.held.isEmpty
    | none => false

/-- A place is done when its item has left it and the accesses that the pass releases have performed. -/
def placeDone (p : Package) (f : Flow) (x : Place) : Bool := placeLeft p f x && !(x.debts.any (LanePart.open p))

/-- A flow holds its entry while an item of it is in flight (R338). -/
def Flow.holds (p : Package) (f : Flow) : Bool := f.places.any (placeInFlight p f)

/-- The place at the gate: the first that is not done (R341). -/
def Flow.gate? (p : Package) (f : Flow) : Option Place :=
  if f.debts.any (LanePart.open p) then none else f.places.find? fun x => !placeDone p f x

def atGate (p : Package) (l item : Nat) (label seq : W32) : Bool :=
  match flow? p l label with
  | some f =>
    match f.gate? p with
    | some x => x.item == item && x.seq == seq && !x.passed
    | none => false
  | none => false

/-- The item holds its turn: it has reached the gate and not passed (R341). -/
def holdsTurn (p : Package) (n : Nat) (i : Item) : Bool := !i.passed && atGate p i.lnch n i.label i.seq

/-- An item is in flight until it has left each of its places (R338). -/
def inFlight (p : Package) (n : Nat) : Bool :=
  p.flows.any fun f => f.places.any fun x => x.item == n && !placeLeft p f x

/-- An item stays in the tables while it stands in a lane, awaits admission, or is in flight. -/
def itemStays (p : Package) (n : Nat) : Bool :=
  match p.items.find? n with
  | some i => i.lane.isSome || !i.admitted || inFlight p n
  | none => false

/-- The places that are done, with their items no longer in flight there, leave their flows, and so do the items no longer in
flight whose lanes have finished; a flow with no place, and no access that one released, is gone. -/
def settleItems (w : Work) : Work :=
  let p := w.pk
  let due (l : List LanePart) : List LanePart := l.filter (LanePart.open p)
  let stays (f : Flow) (x : Place) : Bool := !placeDone p f x || placeInFlight p f x
  let flows := p.flows.map fun f => { f with places := f.places.filter (stays f), debts := due f.debts }
  w.mapPk fun p => { p with
    items := p.items.filter fun e => itemStays w.pk e.1
    flows := flows.filter fun f => !(f.places.isEmpty && f.debts.isEmpty) }

/-- The item passes in its current flow (R341, R343): its accesses are released, and its busy bit is cleared (R340). -/
def passItem (w : Work) (n : Nat) : Work :=
  match w.pk.items.find? n with
  | none => w
  | some i =>
    let debts := laneDebts w.pk i.lane
    let here (x : Place) : Bool := x.item == n && x.seq == i.seq && !x.passed
    let w := updFlow w i.lnch i.label fun f =>
      { f with
        places := f.places.map fun x => if here x then { x with passed := true, debts := debts } else x
        busy := if f.busy = some (n, i.seq) then none else f.busy }
    w.updItem n fun i => { i with passed := true, busy := false }

/-- `tkrel`: the item passes, or will at its gate (R350). -/
def releaseItem (w : Work) (n : Nat) : Work :=
  match w.pk.items.find? n with
  | none => w
  | some i => if holdsTurn w.pk n i then passItem w n else w.updItem n fun i => { i with passed := true }

/-- The end of an item: `idone`, `exit`, or the end of its lane by a kill, which discards its held results (R345). An item
that ends awaits admission no longer. -/
def finishItem (w : Work) (n : Nat) (killed : Bool) : Work :=
  let w := passItem w n
  let w := w.updItem n fun i => { i with lane := none, admitted := true, held := if killed then [] else i.held }
  settleItems w

/-- Takes the next number of a flow for an item, making the flow's entry, from number 0, where it has none (R338). The
caller has seen that the table has room. -/
def takePlace (w : Work) (l n : Nat) (label : W32) : W32 × Work :=
  let p := w.pk
  let anew : Flow := ⟨l, label, 0, [], [], none, false⟩
  let f := match flow? p l label with
    | some f => if f.holds p then f else { anew with debts := (f.debts ++ f.places.flatMap Place.debts).filter (LanePart.open p) }
    | none => anew
  let f' : Flow := { f with next := f.next + 1, places := f.places ++ [⟨n, f.next, false, []⟩] }
  (f.next, w.mapPk fun p => { p with flows := (p.flows.filter fun x => !(x.lnch == l && x.label == label)) ++ [f'] })

/-- Entries of the flow table in use. -/
def flowEntries (p : Package) : Nat := (p.flows.filter fun f => !f.saved && f.holds p).length

/-- The flow has its entry, or the table has one free. -/
def flowRoom (p : Package) (l : Nat) (label : W32) : Bool :=
  (match flow? p l label with
    | some f => f.holds p
    | none => false) || flowEntries p < flowTableSize

/-- The die of a flow's home (R338). -/
def flowHome (label : W32) : Nat := label.toNat % 4

/-- R340: no item holds the busy bit, and every atomic item of the flow with a lower number has been admitted. -/
def mayAdmit (p : Package) (n : Nat) : Bool :=
  match p.items.find? n with
  | none => false
  | some i =>
    match flow? p i.lnch i.label with
    | none => false
    | some f =>
      i.cls == .a && !i.admitted && !f.saved && f.busy.isNone &&
        (f.places.takeWhile fun x => !(x.item == n && x.seq == i.seq)).all fun x =>
          match p.items.find? x.item with
          | some j => j.cls != .a || j.admitted || j.label != i.label || x.seq != j.seq
          | none => true

def admitItem (w : Work) (n : Nat) : Work :=
  match w.pk.items.find? n with
  | none => w
  | some i =>
    let w := updFlow w i.lnch i.label fun f => { f with busy := some (n, i.seq) }
    w.updItem n fun i => { i with admitted := true, busy := true }

/-! ## Held results at the gate (R233, R342) -/

def queueBaseOk (d : List Byte) : Bool := fld d 0 8 % 32 == 0 && isPow2 (fld d 8 4) && decide (fld d 8 4 ≤ 2 ^ 24)

def oqOk (d : List Byte) : Bool := queueBaseOk d && fld d 12 4 == 0 && allZero (d.drop 32)

/-- The indices of a queue differ by less than its capacity. -/
def queueRoom (d : List Byte) : Bool := (fld d 16 8 + 2 ^ 64 - fld d 24 8) % 2 ^ 64 < fld d 8 4

/-- The chain of a held result's handle, while its lane runs. -/
def heldChain (p : Package) (i : Item) (h : Held) : Chain :=
  match i.lane.bind fun e => p.groups.find? e.1 with
  | some g => g.chain h.h
  | none => Chain.idle

/-- A held result may be performed: its handle's tokens are met, and the accesses of others that its lane follows and that reach
its bytes have performed (R237, R254). Of its own lane's accesses it follows those performed before it (R233); as a release it
is performed after everything that these and the lane follow (R238). -/
def heldMay (p : Package) (i : Item) (h : Held) : Bool :=
  let c := heldChain p i h
  h.imports.all (tokenMet p) && !((h.awaits ++ c.awaits).any (awaited p (releases h.ord) h.keys)) &&
    !(releases h.ord && c.hist.any fun t => !(ghosts p t).isEmpty)

/-- A held result that cannot be performed yet: it waits on a page, on its handle, or on a full queue. -/
def heldStuck (w : Work) (i : Item) (h : Held) : Bool :=
  h.paused.isSome || !heldMay w.pk i h || (h.kind == 1 && match chkGlobal w h.ctx .store h.addr.toNat 64 1 with
    | (.ok ks, _) => oqOk (w.bytes ks) && !queueRoom (w.bytes ks)
    | _ => false)

/-- A lane of the group holds an item that has reached a gate with a held result to perform there: that comes before anything
more that the group issues (R342). -/
def gateDue (w : Work) (g : Group) : Bool :=
  laneList.any fun L => match (g.lane L).item.bind fun n => (w.pk.items.find? n).map fun i => (n, i) with
    | some (n, i) => !i.held.isEmpty && w.pk.flows.any fun f => f.lnch == i.lnch && !f.saved && match f.gate? w.pk with
        | some x => x.item == n && match i.heldAt f.label x.seq with
            | h :: _ => !heldStuck w i h
            | [] => false
        | none => false
    | none => false

/-- Entries of a core's result buffer in use (R344). -/
def resultEntries (p : Package) (core : Nat) : Nat :=
  (p.items.map fun e => (e.2.held.filter fun h => h.core == core && !h.run).length).sum

end Sys2Proof.Machine
end

