-- ==== Sys2Proof/Machine/Pool.lean ====
section
/-!
DEFINITION. What a save keeps of a group and of its block, and the room and write permission that it looks for in the save
area before it starts (R61, R396, R398, R400, R405).
-/
namespace Sys2Proof.Machine

/-! ## Matrix units -/

def mxKey (core part : Nat) : Nat := core * 4 + part

def MxUnit.fresh : MxUnit := ⟨[], [], [], []⟩
def mxUnit (p : Package) (core part : Nat) : MxUnit := FMap.getD p.mx MxUnit.fresh (mxKey core part)

/-- The banks and regions a command names. -/
def MxOp.banks (o : MxOp) : List Nat :=
  match o with
  | .load l => l.map Prod.fst
  | .keys b _ => [b]
  | .mul _ _ _ _ _ _ bs => bs
  | .save bs _ _ => bs
  | .restore bs _ => bs.map Prod.fst
  | .zero _ | .read .. | .write .. => []

def MxOp.regions (o : MxOp) : List Nat :=
  match o with
  | .mul d s _ _ _ _ _ => d :: s.toList
  | .zero d => [d]
  | .read _ a _ _ _ _ => [a]
  | .write d _ _ => [d]
  | .save _ rs _ => rs
  | .restore _ rs => rs.map Prod.fst
  | .load _ | .keys _ _ => []

/-- Bit i for each name whose physical number satisfies p. -/
def nameBits (names : List Nat) (p : Nat → Bool) : Nat :=
  (names.zipIdx.map fun e => if p e.1 then 2 ^ e.2 else 0).sum

/-- The names of a mask, ascending. -/
def maskNames (n m : Nat) : List Nat := (List.range n).filter fun i => bitAt m i == 1

/-! ## What a save keeps (R61, R396, R398) -/

/-- The commands of the matrix unit that a group's save would stop (R201). -/
def stoppedCmds (p : Package) (gi : Nat) (g : Group) : List MxCmd := (mxUnit p g.core g.part).queue.filter fun c => c.g == gi

/-- A mask of the names whose banks or regions satisfy a test. -/
def namesWhere (w : Nat) (names : List Nat) (p : Nat → Bool) : BitVec w := BitVec.ofNat w (nameBits names p)

/-- The mask word that a save applies: the owner's, as far as it names what the group has, with the banks and regions that
stopped commands name (R398), or one that names everything. -/
def appliedMask (g : Group) (cs : List MxCmd) (m : Option MaskWord) : MaskWord :=
  let chunks := (List.range 32).filter fun c => 32 * c < g.alloc
  let names (n : Nat) : Nat := 2 ^ n - 1
  let all : MaskWord := ⟨true, true, true, true, BitVec.ofNat 7 127, BitVec.ofNat 16 65535, BitVec.ofNat 8 (names g.banks.length),
    BitVec.ofNat 16 (names g.regions.length), BitVec.ofNat 32 ((chunks.map (2 ^ ·)).sum)⟩
  match m with
  | none => all
  | some m => { m with
      banks := (m.banks &&& all.banks) ||| namesWhere 8 g.banks fun n => cs.any fun c => c.op.banks.contains n
      regions := (m.regions &&& all.regions) ||| namesWhere 16 g.regions fun n => cs.any fun c => c.op.regions.contains n
      chunks := m.chunks &&& all.chunks }

def maskChunks (m : MaskWord) : List Nat := maskNames 32 m.chunks.toNat
def maskBanks (m : MaskWord) : List Nat := maskNames 8 m.banks.toNat
def maskRegions (m : MaskWord) : List Nat := maskNames 16 m.regions.toNat

/-- Inbound deliveries that stand in a saved group's list, in order of arrival: not those that wait at the name table (R300). -/
def listedFor (p : Package) (gi : Nat) : List (Nat × Inbound) := p.inbound.filter fun e => e.2.g == gi && !e.2.atTable

/-- Bytes before the delivery records. -/
def bulkFixed (m : MaskWord) : Nat := 1024 * (maskChunks m).length + 16384 * ((maskBanks m).length + (maskRegions m).length)

/-! ## The block section (R405) -/

/-- The groups of a block that have not ended. -/
def Block.left (p : Package) (b : Block) : List (Nat × Group) :=
  b.groups.filterMap fun i => (p.groups.find? i).map fun g => (i, g)

def blockReqs (p : Package) (blk : Nat) : List (Nat × Req) := p.reqs.filter fun e => e.2.blk == blk

def sectionLen (p : Package) (blk : Nat) (b : Block) : Nat :=
  64 + b.cores.length * b.localSize + 64 * (blockReqs p blk).length

def localKeys (blk : Nat) (b : Block) : List Nat :=
  (List.range b.cores.length).flatMap fun r => keysFrom (localKey blk r 0) b.localSize

/-- The local memory and the requests of a block section stand again on the cores given: the requests are issued in stored
order by the engine of the first, from the bytes already done (R408); none where the section cannot be read. -/
def unpackSection (w : Work) (blk : Nat) (b : Block) (cores : List Nat) : Option Work :=
  match b.section_ with
  | none => some w
  | some run =>
    let body := b.cores.length * b.localSize
    (readVirt w b.ctx (runVa w b.ctx run) (64 + body + 64 * b.heldReqs.length)).map fun bs =>
      let w := w.write (localKeys blk b) ((bs.drop 64).take body)
      w.each b.heldReqs.zipIdx fun e w =>
        let r := (bs.drop (64 + body + 64 * e.2)).take 64
        let (id, w) := w.newId
        let q : Req := { e.1 with
          core := cores.headD 0, blk := blk, rec_ := r, preds := ⟨[], []⟩, accepted := false, shape := [], done := fld r 40 8 }
        w.mapPk fun p => { p with reqs := p.reqs.insert id q }

/-- The kinds of save that wait, resident and running, while they cannot be made (R400). -/
def SaveKind.yields (k : SaveKind) : Bool := k == .preempt || k == .migrate

/-- The group is the last of its block that is not saved. -/
def lastResident (p : Package) (gi : Nat) (b : Block) : Bool :=
  (b.left p).all fun e => e.1 == gi || e.2.stat == .saved

/-! ## Room and write permission for the image (R400) -/

/-- The outcome of looking for room: the runs taken, no room, or an address that cannot be written. -/
inductive Runs where
  | ok (bulk sect : Nat × Nat) (w : Work)
  | full
  | bad (code : Code) (addr : Nat)
  deriving DecidableEq, Repr

/-- The first address of a range that cannot be written, of those already reported and not yet retried first. -/
def unwritable (w : Work) (cn va n : Nat) : Option (Code × Nat) :=
  let noted := match w.ctx? cn with
    | some c => (c.notedPages.find? fun a => va ≤ a.toNat && a.toNat < va + n).map fun a => (Code.page, a.toNat)
    | none => none
  match noted, chkRange w cn .store va n with
  | some x, _ => some x
  | none, (.bad _ code a, _) => some (code, a)
  | none, _ => none

/-- Runs of some bytes for the group's own part and for the block section (no bytes: none), all writable with the frame. -/
def findRuns (w : Work) (g : Group) (c : Ctx) (bulk sect : Nat) : Runs :=
  match unwritable w g.ctx (frameVa c g.frame) 0x2000 with
  | some (code, a) => .bad code a
  | none =>
    match takeRun w g.ctx bulk with
    | none => .full
    | some (r, w) =>
      match unwritable w g.ctx (runVa w g.ctx r) (4096 * r.2) with
      | some (code, a) => .bad code a
      | none =>
        match takeRun w g.ctx sect with
        | none => .full
        | some (s, w) =>
          match unwritable w g.ctx (runVa w g.ctx s) (4096 * s.2) with
          | some (code, a) => .bad code a
          | none => .ok r s w

/-- Bytes of the block section that the save of a group writes. -/
def sectionNeed (p : Package) (gi : Nat) (g : Group) : Nat :=
  match p.blocks.find? g.blk with
  | some b => if lastResident p gi b then sectionLen p g.blk b else 0
  | none => 0

def runsFor (w : Work) (gi : Nat) (g : Group) (mask : Option MaskWord) : Runs :=
  match w.ctx? g.ctx with
  | some c =>
    let cs := stoppedCmds w.pk gi g
    findRuns w g c (bulkFixed (appliedMask g cs mask) + 64 * (cs.length + (listedFor w.pk gi).length)) (sectionNeed w.pk gi g)
  | none => .full

/-- A notice of an address that cannot be written, once until it is retried. -/
def noteUnwritable (w : Work) (g : Group) (code : Code) (addr : Nat) : Work :=
  w.onCtx g.ctx fun c w =>
    if c.notedPages.contains (BitVec.ofNat 64 addr) then w
    else
      let w := w.setCtx g.ctx { c with notedPages := BitVec.ofNat 64 addr :: c.notedPages }
      hostRec w (bareRec code .n g.ctx g.lnch addr 0)

/-- The image of the group's save has room and can be written. -/
def saveFits (w : Work) (gi : Nat) (g : Group) (mask : Option MaskWord) : Bool :=
  match runsFor w gi g mask with
  | .ok .. => true
  | _ => false

end Sys2Proof.Machine
end

