-- ==== Sys2Proof/Machine/Ops.lean ====
section
/-!
DEFINITION. The operations every meaning shares: fetching, the view of the issuing split, the needs of its operands with
the fault order of R67, the split ring (R70 to R72), retiring an instruction, the end of groups and blocks, kills (R386),
taking an exception (R380 to R382) and the return from one (R381).
-/
namespace Sys2Proof.Machine

/-! ## Fetch (R50, R362) -/

/-- A byte of code as a group fetches it: one that a group of its launch has written is undefined (R244). -/
def codeByte (w : Work) (g : Group) (k : Nat) : Byte :=
  match w.launch? g.lnch with
  | some l =>
    if l.wrote.any fun r => r.1 ≤ k && k < r.2 then Config.codeByte k (1024 * g.blk + g.gidx) w.pk.cycle.toNat else w.byte k
  | none => w.byte k

/-- The 12 bytes of a word, executable in every page they touch: the word, or the check's failure. -/
def fetchWord (w : Work) (g : Group) (pc : PC) : Except Chk (BitVec 96) :=
  match chkRange w g.ctx .fetch (pcVa pc).toNat 12 with
  | (.ok ks, w) => .ok (bytesWord (ks.map (codeByte w g)))
  | (r, _) => .error r

/-- The sp bit of the word at a code address, where it can be read (R381). -/
def spAt (w : Work) (g : Group) (pc : PC) : Bool :=
  match fetchWord w g pc with
  | .ok x => x.getLsbD 48
  | .error _ => false

/-! ## Splits -/

def Split.ready (s : Split) : Bool := s.cond == .ready

/-- The PC and MR that the lanes of a split share (R16). -/
def Group.pcOf (g : Group) (m : Mask) : PC :=
  match m.lanes with
  | L :: _ => (g.lane L).pc
  | [] => 0
def Group.mrOf (g : Group) (m : Mask) : PC :=
  match m.lanes with
  | L :: _ => (g.lane L).mr
  | [] => 0

def Group.setPc (g : Group) (m : Mask) (pc : PC) : Group :=
  g.updLanes fun L l => if m.get L then { l with pc := pc } else l

def newSplit (m : Mask) : Split := ⟨m, .ready, 0, 0, false, 0, none⟩

/-- Lanes by the number that each names: one entry per number, in the order of their lowest lanes. -/
def byTarget (target : Fin 8 → Nat) : List (Fin 8) → List (Nat × Mask)
  | [] => []
  | L :: ls =>
    let rest := byTarget target ls
    match rest.find? fun e => e.1 == target L with
    | some e => (target L, e.2.set L true) :: rest.filter fun x => x.1 != target L
    | none => (target L, Mask.none.set L true) :: rest

/-- The lanes may issue: in handler mode only those of the handler split (R381). -/
def Group.inHandler (g : Group) (m : Mask) : Bool :=
  match g.handler with
  | some h => m.subset h.lanes
  | none => true

/-- A ready split holds lanes of one MR (R16, R403): one whose lanes' MRs differ divides, the part of the lowest lane in its
place and the others directly after it (log entry 104). -/
def Group.mrParts (g : Group) (s : Split) : List Split :=
  if s.ready then (byTarget (fun L => (g.lane L).mr.toNat) s.lanes.lanes).map fun e => { s with lanes := e.2 } else [s]

/-- Merging into the ring, from the current split on: a ready split joins the earliest ready split with its PC and MR
(R70, R71); in handler mode the splits that are held stay apart (R381). -/
def mergeInto (g : Group) (acc : List Split) (s : Split) : List Split :=
  let same (t : Split) : Bool :=
    t.ready && s.ready && t.only.isNone && s.only.isNone && g.pcOf t.lanes == g.pcOf s.lanes &&
      g.mrOf t.lanes == g.mrOf s.lanes && g.inHandler t.lanes == g.inHandler s.lanes
  if acc.any same then
    acc.map fun t => if same t then { t with lanes := Mask.union t.lanes s.lanes } else t
  else acc ++ [s]

def Group.mergeRing (g : Group) : Group :=
  { g with splits := (g.splits.flatMap g.mrParts).foldl (mergeInto g) [] }

/-- The splits that may issue: in handler mode only the handler split (R381). -/
def Group.mayIssue (g : Group) (s : Split) : Bool := s.ready && g.inHandler s.lanes

/-- The place of the first split from index i on that may issue. -/
def Group.firstReady (g : Group) : List Split → Nat → Option Nat
  | [], _ => none
  | s :: ss, i => if g.mayIssue s then some i else g.firstReady ss (i + 1)

/-- Adds to one of the counters of R323. -/
def Group.count (g : Group) (n k : Nat) : Group :=
  if k = 0 then g else { g with pmc := FMap.put g.pmc 0 n (FMap.getD g.pmc 0 n + BitVec.ofNat 64 k) }

/-- Makes the split at a place current: the ring starts there, its count starts anew, and a different set of lanes
clears the bypass (R23, R72). -/
def Group.makeCurrent (g : Group) (i : Nat) (was : Mask) : Group :=
  match g.splits.drop i ++ g.splits.take i with
  | [] => g
  | s :: ss =>
    let g := g.count 4 (if s.lanes = was then 0 else 1)
    { g with splits := { s with quant := 0 } :: ss, bypass := if s.lanes = was then g.bypass else [] }

/-- A switch point: the first ready split after the current one, going round (R72). A group with none keeps its place. -/
def Group.switchPoint (g : Group) (was : Mask) : Group :=
  match g.splits with
  | [] => g
  | s :: ss =>
    match g.firstReady ss 1 with
    | some i => g.makeCurrent i was
    | none => if g.mayIssue s then g.makeCurrent 0 was else g

/-! ## Names, frames, registers of an ended group -/

/-- Fields of a name (R291). -/
def nameSlot (x : Nat) : Nat := x % 2 ^ 16
def nameGen (x : Nat) : Nat := x / 2 ^ 16 % 2 ^ 20
def namePkg (x : Nat) : Nat := x / 2 ^ 36 % 2 ^ 12

/-- A delivery at this package ends: its sender here, if it has one, is to be told the cause (0 applied). -/
def endDelivery (w : Work) (id : Nat) (i : Inbound) (cause : Nat) : Work :=
  w.mapPk fun p => { p with
    inbound := p.inbound.erase id
    sent := match i.own with
      | some s => p.sent.adjust s fun x => { x with acked := some cause }
      | none => p.sent }

/-- Frees a name (R292); the deliveries that wait for it are discarded with cause 1. -/
def freeName (w : Work) (n : Option Nat) : Work :=
  match n with
  | none => w
  | some k =>
    let w := w.mapPk fun p => { p with
      names := p.names.adjust k fun e => { e with g := none, moving := false }
      freedNames := p.freedNames ++ [k] }
    w.each (w.pk.inbound.filter fun e => nameSlot e.2.d.name.toNat == k) fun e w => endDelivery w e.1 e.2 1

/-- Frees the frame and the private range of a group (R98, R400). -/
def freeFrame (w : Work) (g : Group) : Work :=
  let w := setFState w g.ctx g.frame 0
  w.updCtx g.ctx fun c => { c with
    frames := c.frames.filter (· != g.frame)
    priv := c.priv.filter fun r => r.1 != g.privBase }

/-- Accesses that keep the registers of a group that ends: those that will still write them, deliveries that have not been
acknowledged, and copy requests whose promise is due (R24, R27, R295). -/
def landing (p : Package) (gi : Nat) : List Nat :=
  (p.txns.keysWhere fun _ t => t.g == gi && (t.kind.isRead || match t.kind with
    | .ferry _ => true
    | _ => false)) ++ p.reqs.keysWhere fun _ q => q.g == gi && q.promise.isSome

/-- A copy request still owes its promise (R263). -/
def promiseDue (p : Package) (n : Nat) : Bool :=
  match p.reqs.find? n with
  | some q => q.promise.isSome
  | none => false

def setMx (w : Work) (core part : Nat) (u : MxUnit) : Work :=
  w.mapPk fun p => { p with mx := FMap.put p.mx MxUnit.fresh (mxKey core part) u }

/-- Queued `mxrd` commands of a group still write registers. -/
def MxUnit.reads (u : MxUnit) (gi : Nat) : Bool :=
  u.queue.any fun c => c.g == gi && match c.op with
    | .read .. => true
    | _ => false

def Leftover.alive (p : Package) (l : Leftover) : Bool :=
  (l.txns.any fun t => (p.txns.find? t).isSome || promiseDue p t) || (mxUnit p l.core l.part).reads l.g

/-- Registers return to the partition once no write to them is outstanding (R27). -/
def leaveRegs (w : Work) (gi : Nat) (g : Group) (n : Nat) : Work :=
  let l : Leftover := ⟨g.core, g.part, n, gi, landing w.pk gi⟩
  w.mapPk fun p => { p with leftovers := (l :: p.leftovers).filter (Leftover.alive p) }

/-- Banks and regions return to the start state of R184. -/
def MxUnit.clean (u : MxUnit) (banks regions : List Nat) : MxUnit := { u with
  banks := u.banks.filter fun e => !banks.contains e.1
  regions := u.regions.filter fun e => !regions.contains e.1 }

/-- The banks and regions of an ended group return once its queued commands have completed (R202). -/
def MxUnit.settle (u : MxUnit) : MxUnit :=
  let gone := u.ghosts.filter fun e => !(u.queue.any fun c => c.g == e.1)
  gone.foldl (fun u e => u.clean e.2.1 e.2.2)
    { u with ghosts := u.ghosts.filter fun e => u.queue.any fun c => c.g == e.1 }

/-- A saved group holds none: they went back at its save. -/
def freeMatrix (w : Work) (gi : Nat) (g : Group) : Work :=
  if g.stat = .saved then w
  else
  let u := mxUnit w.pk g.core g.part
  setMx w g.core g.part { u with ghosts := u.ghosts ++ [(gi, g.banks, g.regions)] }.settle

/-- An uncorrectable error that is delivered to a group, or that ended before its delivery, also produces a notice for the
host (R376, R392). -/
def lostNotice (w : Work) (cn : Nat) (r : Rec) : Work :=
  if r.code = .dataLost ∧ r.info ≠ 0 then hostRec w (bareRec .dataLost .n cn r.lnch.toNat r.addr.toNat r.info.toNat) else w

/-- What a group gives up at its end, however it ends. -/
def dropGroupState (w : Work) (gi : Nat) (g : Group) : Work :=
  let w := w.each g.pendA fun r w => lostNotice w g.ctx r
  let w := if g.stat = .saved then bumpHeader w g.ctx 24 4 (-1) else w
  let w := freeFrame (dropRun w g.ctx g.bulk) g
  let w := freeName w g.name
  let w := leaveRegs w gi g g.alloc
  let w := freeMatrix w gi g
  w.dropGroup gi

/-! ## The end of groups and blocks -/

/-- Barriers that the end of a group may complete (R257, R259). -/
def completeAll (w : Work) (blk : Nat) : Work :=
  let w := w.each (List.range 17) fun n w => completePhases w blk n
  w.onBlock blk fun b w => w.onLaunch b.lnch fun l w => completeGang w b.lnch (b.lin / l.gangSize)

def groupsLeft (p : Package) (b : Block) : List Nat := b.groups.filter fun i => (p.groups.find? i).isSome

/-- A block whose last group has ended: its final flush point is reached (R219) and its launch counts it. -/
def endBlock (w : Work) (blk : Nat) : Work :=
  w.onBlock blk fun b w =>
    if b.stat = .begun ∧ (groupsLeft w.pk b).isEmpty then
      let w := dropRun (traceBlock w 2 blk) b.ctx b.section_
      let w := w.updBlock blk fun b =>
        { b with
          stat := .ended
          section_ := none
          det := b.det.map fun d => { d with sealed := d.opened + 1, ended := true } }
      (putSlot w blk).updLaunch b.lnch fun l => { l with blocksDone := l.blocksDone + 1 }
    else w

/-- The firmware lets the context's groups issue on a die (R304, R373). -/
def scheduledOn (p : Package) (cn die : Nat) : Bool :=
  match p.ctxs.find? cn with
  | some c => c.sched.getLsbD die
  | none => false

/-- What a group that a stop no longer holds is still asked for: the save of its block's move, or of a context that has left
its die (R397, R409), its age kept. -/
def Group.askedAgain (g : Group) (p : Package) (gi : Nat) (q : SaveReq) : Option SaveReq :=
  match p.blocks.find? g.blk with
  | some b =>
    if b.toMove.contains gi then some ⟨.migrate, q.age, false, false⟩
    else if scheduledOn p g.ctx (coreDie g.core) then none else some ⟨.preempt, q.age, false, false⟩
  | none => none

/-- Resumes a stopped block (R388): its saved groups may be restored, the others issue again, and every watchdog count
of the block starts anew (R318). -/
def resumeBlockOp (w : Work) (blk : Nat) : Work :=
  w.onBlock blk fun b w =>
    let w := w.updBlock blk fun b => { b with stopped := none, lead := none }
    let w := w.each b.groups fun gi w => w.onGroup gi fun g w => if g.stat = .saved then setSkind w g.ctx g.frame 4 false else w
    w.each b.groups fun gi w => w.updGroup gi fun g =>
      let g := match g.stat, g.saveReq with
        | .resident, some q => if q.kind = SaveKind.stop then { g with saveReq := g.askedAgain w.pk gi q } else g
        | _, _ => g
      g.updLanes fun _ l => { l with wd := 0 }

/-- Items of the lanes of a group. -/
def Group.itemsOf (g : Group) (m : Mask) : List Nat := m.lanes.filterMap fun L => (g.lane L).item

/-- Kills a block (R386, R224, R345): the requests of a section go on unless their die is lost (log entry 133), and the record is
written when its launch's last block is over. -/
def killBlockRec (w : Work) (blk : Nat) (r : Option Rec) : Work :=
  w.onBlock blk fun b w =>
    if b.stat = .killed then w
    else
      let was := b.stat
      let w := if w.pk.diesLost.getLsbD (coreDie (b.cores.headD 0)) then w else (unpackSection w blk b b.cores).getD w
      let w := w.each b.groups fun gi w => w.onGroup gi fun g w =>
        let w := w.each (g.itemsOf Mask.full) fun n w => finishItem w n true
        dropGroupState w gi g
      let w := dropRun w b.ctx b.section_
      let w := w.updBlock blk fun b =>
        { b with
          stat := .killed
          section_ := none
          heldReqs := []
          noLocal := true
          stopped := none
          lead := none
          kill := r
          det := b.det.map fun d => { d with void := true, entries := [] } }
      let w := w.updLaunch b.lnch fun l =>
        { l with
          blocksDone := if was = .begun then l.blocksDone + 1 else l.blocksDone
          killRecs := l.killRecs ++ r.toList
          broken := l.broken || l.det
          fatal := true
          turn := if l.det && l.turn == b.lin then l.turn + 1 else l.turn }
      let w := putSlot w blk
      w.onLaunch b.lnch fun l w =>
        let w := match blockAt w.pk l l.turn with
          | some (u, _) => putSlot w u
          | none => w
        completeGang w b.lnch (b.lin / l.gangSize)

/-- A fault of class F: the kill's record names the fault, with BLOCK set. -/
def killBy (w : Work) (blk : Nat) (r : Rec) : Work := killBlockRec w blk (some { r with cls := .f, block := true })

/-- A stop asks for the group's save (R387): a request it displaces keeps its age, and a save that has begun keeps everything
and is not given up. -/
def Group.askStop (g : Group) : Group :=
  let age : Nat := match g.saveReq with
    | some q => if q.kind.yields then q.age else 0
    | none => 0
  let g := { g with saveReq := some ⟨.stop, age, false, false⟩ }
  match g.stat with
  | .saving _ => { g with stat := .saving none, saveKind := if g.saveKind.yields then .stop else g.saveKind }
  | _ => g

/-- A stop of class S (R387, R388): every group of the block halts at its instruction boundary and is then saved; a stop
that meets a halted block is discarded. -/
def stopBlock (w : Work) (blk : Nat) (code : Code) (r : Rec) (toHost : Bool) : Work :=
  w.onBlock blk fun b w =>
    if b.stopped.isSome ∨ b.stat ≠ .begun then w
    else
      let w := w.updBlock blk fun b => { b with stopped := some code }
      let w := traceBlock (if code = .watchdog then traceBlock w 7 blk else w) 5 blk
      let w := w.each b.groups fun gi w => w.onGroup gi fun g w =>
        if g.stat = .saved then setSkind w g.ctx g.frame 4 true
        else w.updGroup gi fun g => g.askStop
      let w := if code = .watchdog then w.mapPk fun p => { p with evword := p.evword ||| 16 } else w
      if toHost then hostRec w { r with cls := .s } else w

/-- A DET block that would open a 65,537th epoch is killed (R218). -/
def checkEpochs (w : Work) (blk : Nat) : Work :=
  w.onBlock blk fun b w =>
    match b.det with
    | some d =>
      if d.opened ≥ 65536 ∧ b.stat = .begun then
        killBy w blk { blockRec w b with code := .detBroken, core := 0xFF }
      else w
    | none => w

/-- The end of a group no lane of which is live or helper (R13, R27); what it leaves outstanding, and what it follows of
others, the later phases of its block's barriers release too. -/
def endGroup (w : Work) (gi : Nat) : Work :=
  w.onGroup gi fun g w =>
    let due := openTxns w.pk ((groupTxns w.pk gi ++ g.allChains Chain.awaits).eraseDups)
    let w := w.updBlock g.blk fun b => { b with endDebts := openTxns w.pk b.endDebts ++ due }
    let w := dropGroupState w gi g
    let w := w.onBlock g.blk fun b w => if b.lead = some gi then resumeBlockOp w g.blk else w
    let w := checkEpochs (completeAll w g.blk) g.blk
    endBlock w g.blk

/-! ## Taking an exception (R380 to R382) -/

/-- The kinds of wait by the numbers of R403. -/
def waitKind (s : Split) : Nat :=
  if s.only.isSome then 4
  else match s.cond with
  | .blocked (.bar ..) => 1
  | .blocked (.admission _) => 2
  | .blocked (.txn _) => 4
  | .blocked .xacq => 5
  | _ => 0

/-- The group state after a delivery at the vector: PCs of the current split at TVEC, s31 at the trap slot, handler
mode, and for a missed promise the resume mark. An instruction in progress is set aside as a save would keep it. -/
def Group.enterHandler (g : Group) (tvec : PC) (slot : W64) (pc next : PC) (mark : Bool) : Group :=
  match g.splits with
  | [] => g
  | s :: ss =>
    let aside := if waitKind s ≠ 0 then some s else none
    let g := g.setPc s.lanes tvec
    let g := g.setSreg 31 slot
    { g with
      splits := { s with cond := .ready, finish := false, age := 0, only := none } :: ss
      handler := some ⟨s.lanes, pc, next, aside⟩
      resume := if mark then some pc else g.resume }

/-- The pushes that a split waits for and that have not been made are taken back, as a save or a delivery finds them: the
instruction is then to be issued for their lanes only (WAITK 4). -/
def Split.withdraw (p : Package) (s : Split) : Split :=
  match s.cond with
  | .blocked (.txn t) =>
    match p.txns.find? t with
    | some x =>
      match x.kind with
      | .outq _ | .ienq =>
        let left (L : Fin 8) : Bool := match s.only with
          | some m => !s.finish && m.get L
          | none => false
        { s with cond := .ready, finish := false, only := some (Lanes.ofFn fun L => x.openIn L || left L) }
      | _ => s
    | none => s
  | _ => s

/-- Takes back the pushes of the first n splits of a group. -/
def withdrawPushes (w : Work) (gi n : Nat) : Work :=
  w.onGroup gi fun g w =>
    let back (s : Split) : List Nat := match s.cond with
      | .blocked (.txn t) => if s.withdraw w.pk = s then [] else [t]
      | _ => []
    let ts := (g.splits.take n).flatMap back
    let w := w.updGroup gi fun g => { g with splits := (g.splits.take n).map (Split.withdraw w.pk) ++ g.splits.drop n }
    w.each ts fun t w => w.dropTxn t

def trapSlot (c : Ctx) (g : Group) : Nat := frameVa c g.frame

/-- Delivers a record of class P or A to its group: into the trap slot and the handler, with the notice of an uncorrectable
error where `note` says that none has been sent, or, where there is no handler, the slot cannot be written, or a precise fault
meets handler mode, as a kill of the block. -/
def deliver (w : Work) (gi : Nat) (r : Rec) (note : Bool) : Work :=
  w.onGroup gi fun g w =>
    match w.ctx? g.ctx with
    | none => w
    | some c =>
      if c.tvec = 0 ∨ g.handler.isSome then killBy w g.blk r
      else
        match writeVirt w g.ctx (trapSlot c g) (r.bytes false) with
        | none => killBy w g.blk r
        | some w =>
          let w := withdrawPushes (if note then lostNotice w g.ctx r else w) gi 1
          let pc : PC := r.pc.truncate 57
          let next := pcPlus pc (if spAt w g pc then 2 else 1)
          w.updGroup gi fun g =>
            g.enterHandler (BitVec.ofNat 57 c.tvec) (BitVec.ofNat 64 (trapSlot c g)) pc next (r.code == .promiseMiss)

/-- Suspends a group by a replayable `PAGE` (R385): the record goes to the host, and nothing of the group issues. -/
def suspend (w : Work) (gi : Nat) (r : Rec) : Work :=
  let w := w.updGroup gi fun g => { g with susp := some r.addr }
  hostRec w { r with cls := .r }

/-- Records of the context are delivered to its groups: there is a handler. -/
def hasHandler (w : Work) (cn : Nat) : Bool :=
  match w.ctx? cn with
  | some c => c.tvec != 0
  | none => false

/-- Raises a fault of the instruction that the current split issues; `note` as in `deliver`. -/
def raiseRec (w : Work) (gi : Nat) (pc : PC) (code : Code) (lanes : Mask) (addr info : Nat) (note : Bool) : Work :=
  w.onGroup gi fun g w =>
    let r := groupRec w g code .p lanes (pcVa pc) (BitVec.ofNat 64 addr) info
    if code = .page then suspend w gi r else deliver w gi r note

/-- Raises a fault of the instruction, with the notice of an uncorrectable error that its access met. -/
def raiseFault (w : Work) (gi : Nat) (pc : PC) (code : Code) (lanes : Mask) (addr info : Nat) : Work :=
  raiseRec w gi pc code lanes addr info true

/-- Changes the pending records of a group, which a saved one holds in its image (R410). -/
def updPend (w : Work) (gi : Nat) (f : List Rec → List Rec) : Work :=
  w.onGroup gi fun g w =>
    let l := f g.pendA
    let w := w.updGroup gi fun g => { g with pendA := l }
    if g.stat = .saved then
      writeFrame (writeFrame w g.ctx g.frame 0x61 (valBytes 1 (min l.length 32))) g.ctx g.frame 0xC00
        ((l.take 32).flatMap fun r => r.bytes false)
    else w

/-- An asynchronous fault becomes a pending record of its group (R380, R382); with TVEC zero it kills the block. A group holds
32 of them, and one past those is not raised (log entry 105), but for the notice of an uncorrectable error. The PC of the
record is set at delivery. -/
def raiseAsync (w : Work) (gi : Nat) (code : Code) (lanes : Mask) (addr info : Nat) : Work :=
  w.onGroup gi fun g w =>
    let pc := match g.splits with
      | s :: _ => g.pcOf s.lanes
      | [] => 0
    let r := groupRec w g code .a lanes (pcVa pc) (BitVec.ofNat 64 addr) info
    match w.ctx? g.ctx with
    | none => w
    | some c =>
      if c.tvec = 0 then killBy w g.blk r
      else if g.pendA.length < 32 then updPend w gi fun l => l ++ [r]
      else lostNotice w g.ctx r

/-- Whether a transfer of lanes of the handler split to some targets is the return transfer: every lane is there, and each
target is the record's PC or the word after its instruction (R381). -/
def Group.returnsTo (g : Group) (m : Mask) (targets : List PC) : Bool :=
  match g.handler with
  | some h => (targets.all fun t => t == h.pc || t == h.next) && Mask.inter h.lanes g.running == m
  | none => false

/-- The instruction set aside has been completed while the handler ran. -/
def Handler.completed (h : Handler) : Option PC :=
  match h.aside with
  | some a => if a.ready && a.finish then some a.nxt else none
  | none => none

/-- A split of the handler's lanes that stands at the record's PC again resumes the instruction that was set aside. -/
def Group.resumeAside (g : Group) (h : Handler) (s : Split) : Split :=
  match h.aside with
  | some a =>
    if s.lanes.subset h.lanes ∧ g.pcOf s.lanes = h.pc ∧ h.completed.isNone then
      { s with cond := a.cond, finish := a.finish, nxt := a.nxt, only := a.only.map (Mask.inter s.lanes) }
    else s
  | none => s

/-- Lanes that return to an instruction completed meanwhile go on at its next word. -/
def Group.skipAside (g : Group) (h : Handler) : Group :=
  match h.completed with
  | some nxt => g.setPc (Lanes.ofFn fun L => h.lanes.get L && (g.lane L).pc == h.pc) nxt
  | none => g

/-- Leaves handler mode at a return transfer: the other splits go on, and an instruction set aside resumes in the lanes
that return to its PC. -/
def Group.leaveHandler (g : Group) : Group :=
  match g.handler with
  | some h => { g with handler := none, splits := g.splits.map (g.resumeAside h) }.skipAside h
  | none => g

/-- Handler mode ends when no lane of the handler split is left (R381). -/
def Group.dropHandler (g : Group) : Group :=
  match g.handler with
  | some h => if (Mask.inter h.lanes g.running).any then g else { g with handler := none }
  | none => g

/-! ## Issue -/

/-- Lanes of the split that leave straight-line order, as one new split. -/
structure Piece where
  lanes : Mask
  pc : PC
  cond : SCond
  finish : Bool
  nxt : PC
  deriving DecidableEq, Repr

/-- What an instruction does to its split besides its effect: pieces that leave it, a wait of the rest that completes
the instruction, and whether it is a switch point. -/
structure Ctl where
  pieces : List Piece := []
  block : Option Wait := none
  switch : Bool := false
  /-- the whole group waits, and the split stays current (R154) -/
  keep : Bool := false
  /-- the instruction is a return transfer (R381) -/
  ret : Bool := false
  deriving DecidableEq, Repr

/-- How the body of an instruction ends: done; a wait after which it issues afresh; a precise fault; the fault of an engine
request, of whose lost data the engine has sent the notice (R376); or a stop with the instruction not yet retired (R88). -/
inductive Done where
  | ok (w : Work) (c : Ctl)
  | wait (k : Wait)
  | trap (code : Code) (lanes : Mask) (addr info : Nat)
  | failed (code : Code) (lanes : Mask) (addr info : Nat)
  | halt (w : Work)
  deriving DecidableEq, Repr

/-- An `sld` or the reads of a matrix instruction's issue part have not returned: no split of the group issues (R154,
R185). -/
def sldPending (p : Package) (gi : Nat) : Bool :=
  p.txns.any fun e => e.2.g == gi && match e.2.kind with
    | .sload .. | .mread .. => true
    | _ => false

/-- The block of a group stands stopped, and the group does not run its watchdog handler (R387, R388). -/
def groupStopped (p : Package) (gi : Nat) (g : Group) : Bool :=
  match p.blocks.find? g.blk with
  | some b => b.stopped.isSome && !(b.lead == some gi && g.handler.isSome)
  | none => false

/-- Nothing keeps a group from issuing: it stands on its slot, is not suspended or in mogul debt, waits for no `sld`, has no
fault to take first (R382), its block is not stopped, and its current split has not used up its 64 instructions (R72). -/
def groupIssues (p : Package) (gi : Nat) (g : Group) : Bool :=
  g.stat == .resident && g.susp.isNone && g.debt < 256 && !sldPending p gi && (g.pendA.isEmpty || g.handler.isSome) &&
    !groupStopped p gi g && match g.splits with
      | s :: _ => g.mayIssue s && s.quant < 64
      | [] => false

/-- The view of the current split of the issuing group, if the group may issue. -/
def viewOf (w : Work) (h : Hdr) (words : Nat) : Option View :=
  match w.group? w.pk.cur with
  | none => none
  | some g =>
    match g.splits with
    | [] => none
    | s :: _ =>
      if !groupIssues w.pk w.pk.cur g || gateDue w g then none
      else
        let pc := g.pcOf s.lanes
        let todo (L : Fin 8) : Bool := match s.only with
          | some m => m.get L
          | none => true
        let act : Mask := Lanes.ofFn fun L => s.lanes.get L && todo L && ((g.lane L).p h.gp.toNat != h.gn)
        some ⟨w.pk.cur, g, s.lanes, act, pc, pcPlus pc words⟩

/-- The accepted word, or all features for the service firmware (R9). -/
def featureOn (s : Negotiation) (cn n : Nat) : Bool := cn == Config.firmwareContext || s.accepted.getLsbD n

def Need.named (n : Need) : List (Nat × Nat) :=
  n.writes.map (fun x => (x.r, x.n)) ++ n.reads.map (fun x => (x.r, x.n)) ++ n.names

/-- The lanes of a register operand that are empty. -/
def emptyIn (g : Group) (r n : Nat) (m : Mask) : Mask :=
  Lanes.ofFn fun L => m.get L && (List.range n).any fun k => !(g.reg (r + k)).full.get L

/-- The registers of the operand that are empty in some lane, with those lanes. -/
def emptyRegsOf (g : Group) (r n : Nat) (m : Mask) : List (Nat × Byte) :=
  ((List.range n).map fun k => (r + k, (emptyIn g (r + k) 1 m).toByte)).filter fun e => e.2 != 0

/-- The judged lanes whose value differs from that of the lowest judged lane (R183). -/
def differing (v : View) (r n : Nat) : Mask :=
  match v.judged.lanes with
  | [] => Mask.none
  | L0 :: _ => Lanes.ofFn fun L => v.judged.get L && v.grp.value r n L != v.grp.value r n L0

/-- The precise faults and waits of R67 before an instruction's own entry, in their order; then R26's wait for the producers
of its destinations, but for a transient write (log entry 124). An instruction of a feature not accepted is as an unassigned
opcode (R9). Where several operands break one step, INFO names the first of the need's list, with destinations before sources
for the first two steps, and of that operand the first register that breaks it (log entry 106). -/
def preIssue (feat : Bool) (v : View) (n : Need) : Option Done :=
  let g := v.grp
  let who (x : Rd) : Mask := x.who.getD v.act
  if !feat then some (.trap .illOp v.m 0 0)
  else match n.named.find? fun x => x.1 % x.2 != 0 with
  | some x => some (.trap .regAlign v.act 0 x.1)
  | none =>
  match n.named.find? fun x => x.1 + x.2 > g.alloc with
  | some x => some (.trap .regRange v.act 0 (max x.1 g.alloc))
  | none =>
  match n.banks.find? fun b => b ≥ g.banks.length with
  | some b => some (.trap .regRange v.act 0 b)
  | none =>
  match n.regions.find? fun b => b ≥ g.regions.length with
  | some b => some (.trap .regRange v.act 0 b)
  | none =>
  if n.tile && v.act != g.running then some (.trap .mxMask v.act 0 0)
  else match n.reads.find? fun x => (List.range x.n).any fun k => (g.lostIn (x.r + k) (who x)).any with
  | some x =>
    some (.trap .transientLost v.act 0
      (x.r + ((List.range x.n).findIdx fun k => (g.lostIn (x.r + k) (who x)).any)))
  | none =>
  match n.reads.find? fun x => x.x && (emptyIn g x.r x.n (who x)).any with
  | some x =>
    some (.trap .emptyRead (emptyIn g x.r x.n (who x)) 0
      (x.r + ((List.range x.n).findIdx fun k => (emptyIn g (x.r + k) 1 (who x)).any)))
  | none =>
  match n.reads.flatMap fun x => emptyRegsOf g x.r x.n (who x) with
  | e :: es => some (.wait (.full (e :: es)))
  | [] =>
  match n.reads.find? fun x => x.unif && (differing v x.r x.n).any with
  | some x => some (.trap .nonUnif (differing v x.r x.n) 0 x.fld)
  | none =>
  let busy := n.writes.flatMap fun x => if x.t then [] else (List.range x.n).map fun k =>
    (x.r + k, (Mask.inter (g.reg (x.r + k)).pend v.act).toByte)
  match busy.filter fun e => e.2 != 0 with
  | e :: es => some (.wait (.idle (e :: es)))
  | [] => none

def SCond.isHeld (c : SCond) : Bool :=
  match c with
  | .held _ => true
  | _ => false

/-- The waits that count against the watchdog budget (R318). -/
def SCond.counts (c : SCond) : Bool :=
  match c with
  | .held _ => true
  | .blocked (.bar ..) | .blocked (.barw ..) | .blocked (.bwait ..) | .blocked (.lwait ..) | .blocked (.turn _) => true
  | _ => false

/-- The count returns to zero when a wait ends (R318). -/
def Group.clearWd (g : Group) (m : Mask) : Group := g.updLanes fun L l => if m.get L then { l with wd := 0 } else l

/-- The ring after an instruction: the lanes that go straight on keep the place, then the pieces in their order. A held
piece joins an existing held split of its mask; where it is the whole split, that one joins it in its place (R70, R71). -/
def Group.placePieces (g : Group) (v : View) (c : Ctl) : Group :=
  match g.splits with
  | [] => g
  | s :: ss =>
    let gone := c.pieces.foldl (fun m x => Mask.union m x.lanes) Mask.none
    let straight := Mask.inter (Mask.diff v.m gone) g.running
    let pieces := (c.pieces.map fun x => { x with lanes := Mask.inter x.lanes g.running }).filter fun x => x.lanes.any
    let g := g.setPc straight (if c.block.isSome then v.pc else v.next)
    let g := pieces.foldl (fun g x => (if x.cond.counts then g else g.clearWd x.lanes).setPc x.lanes x.pc) g
    let g := match c.block with
      | some k => if (SCond.blocked k).counts then g else g.clearWd straight
      | none => g.clearWd straight
    let meets (x : Piece) (t : Split) : Bool := x.cond.isHeld && x.cond == t.cond
    let joins (x : Piece) : Bool := straight.any && ss.any (meets x)
    let rest := ss.map fun t =>
      match pieces.find? fun x => meets x t with
      | some x => { t with lanes := if joins x then Mask.union t.lanes x.lanes else Mask.none }
      | none => { t with lanes := Mask.inter t.lanes g.running }
    let whole (x : Piece) : Mask := match ss.find? (meets x) with
      | some t => Mask.union x.lanes t.lanes
      | none => x.lanes
    let own := (if straight.any then
        [{ s with
            lanes := straight
            cond := match c.block with
              | some k => .blocked k
              | none => .ready
            finish := c.block.isSome, nxt := v.next, age := 0, quant := s.quant + 1
            only := if c.block.isSome then s.only else none }]
      else []) ++ (pieces.filter fun x => !joins x).map fun x =>
        (⟨whole x, x.cond, s.quant + 1, 0, x.finish, x.nxt, none⟩ : Split)
    { g with splits := own ++ rest.filter fun t => t.lanes.any }

/-- Register-file accesses of an instruction: its sources but for those that are transient in every lane (R23), and its
destinations but for transient ones; a result that is not transient counts though it may stand in the bypass, and one register
named twice counts twice (log entry 125). -/
def Need.accesses (n : Need) (v : View) : List Nat :=
  let fromFile (x : Rd) (r : Nat) : Bool := !(Mask.subset (x.who.getD v.act) (v.grp.reg r).mark && (x.who.getD v.act).any)
  n.reads.flatMap (fun x => ((List.range x.n).map (x.r + ·)).filter (fromFile x)) ++
    (n.writes.filter fun x => !x.t).flatMap fun x => (List.range x.n).map (x.r + ·)

/-- Cycles of bank conflicts: the accesses to a bank past its first (R21). -/
def bankConflicts (slot : Nat) (rs : List Nat) : Nat :=
  ((List.range 8).map fun b => (rs.filter fun r => (r % 8) ^^^ (slot % 8) == b).length - 1).sum

/-- The bypass moves on by one result (R23). -/
def Group.stepBypass (g : Group) : Group :=
  { g with bypass := ([] : List BypassReg) :: g.bypass.take 2 }

/-- An instruction counts at its first issue: its lanes' counts (R395), the counters of R323, and the bypass moves on by
one result (R23). -/
def Group.countIssue (g : Group) (v : View) (n : Need) : Group :=
  ((g.updLanes fun L l => if v.act.get L then { l with issued := l.issued + 1 } else l).count 0 1).count 6
    (bankConflicts g.slot (n.accesses v)) |>.stepBypass

/-- Releases of one held split (R81, R82, R84): the lanes that its mask no longer holds there continue at the next
word; when every lane of the mask is held, all of them do, with MR zero, and the mask empties. A current split that one
instruction holds and releases has not become held: it goes on with its count (R72, log entry 107). -/
def releaseOne (g : Group) (s : Split) : Group × List Split :=
  match s.cond with
  | .held j =>
    let (mask, addr) := g.jmask j.toNat
    let stay : Mask := Lanes.ofFn fun L => s.lanes.get L && mask.getLsbD L.val && (g.lane L).pc == addr
    let out := Mask.diff s.lanes stay
    let g := (g.setPc out s.nxt).clearWd out
    let freed := if out.any then [newSplit out] else []
    if stay.any && (Mask.ofByte mask).subset stay then
      let g := (g.setPc stay s.nxt).clearWd stay
      let g := g.updLanes fun L l => if stay.get L then { l with mr := 0 } else l
      (g.setJmask j.toNat (0, 0), { newSplit stay with quant := s.quant } :: freed)
    else (g, (if stay.any then [{ s with lanes := stay }] else []) ++ freed)
  | _ => (g, [s])

def Group.releaseHeld (g : Group) : Group :=
  let (g, ss) := g.splits.foldl
    (fun (r : Group × List Split) s => let (g, l) := releaseOne r.1 s; (g, r.2 ++ l)) (g, [])
  { g with splits := ss }

/-- The instruction divides its split: two parts of it have running lanes (R72). -/
def Group.divides (g : Group) (v : View) (c : Ctl) : Bool :=
  let gone := c.pieces.foldl (fun m x => Mask.union m x.lanes) Mask.none
  let parts := (c.pieces.filter fun x => (Mask.inter x.lanes g.running).any).length
  parts ≥ 2 || (parts == 1 && (Mask.inter (Mask.diff v.m gone) g.running).any)

def Group.clearBypass (g : Group) (b : Bool) : Group := if b then { g with bypass := [] } else g

/-- A return transfer leaves handler mode (R381). -/
def Group.leaveAt (g : Group) (ret : Bool) : Group := if ret then g.leaveHandler else g

/-- The current split's lanes have different MRs, and it is to divide. -/
def Group.mixed (g : Group) : Bool :=
  match g.splits with
  | s :: _ => (g.mrParts s).length ≥ 2
  | [] => false

/-- The lanes of the split that stands current, if it still has a lane of the issuing split. -/
def Group.curOf (g : Group) (v : View) : Mask :=
  match g.splits with
  | s :: _ => if (Mask.inter s.lanes v.m).any then s.lanes else Mask.none
  | [] => Mask.none

/-- The issuing split goes on: it stands current and may issue. -/
def Group.stays (g : Group) (v : View) : Bool :=
  match g.splits with
  | s :: _ => g.mayIssue s && (Mask.inter s.lanes v.m).any
  | [] => false

/-- The split that is current next: after a switch point the first ready one, going round; where the current split has ceased
to exist, the first ready one from its place on (R72). -/
def Group.nextCurrent (g : Group) (v : View) (switch keep : Bool) : Group :=
  if switch || !(keep || g.stays v) then
    if (g.curOf v).any then g.switchPoint (g.curOf v)
    else
      match g.firstReady g.splits 0 with
      | some i => g.makeCurrent i Mask.none
      | none => g
  else g

/-- After the effect: the ring, merges, the bypass, handler mode and the switch points (R23, R70 to R72). -/
def Group.settleRing (g : Group) (h : Hdr) (v : View) (c : Ctl) : Group :=
  let g1 := (g.placePieces v c).releaseHeld
  (((g1.mergeRing.clearBypass (h.sp.isSome || g.divides v c || g1.mixed)).leaveAt c.ret).dropHandler.mergeRing).nextCurrent
    v (c.switch || h.hint == 1#2) c.keep

/-- The debt an issue adds in the second window of a trial: outside the range of PCs (R325). -/
def mogulDebt (p : Package) (v : View) : Nat :=
  match p.trial with
  | some t =>
    let pc := (pcVa v.pc).toNat
    if t.second ∧ t.left > 0 ∧ t.lnch = v.grp.lnch ∧ !(t.lo.toNat ≤ pc && pc < t.hi.toNat) then t.slow else 0
  | none => 0

/-- A safe point taken with one split left begins the save that was asked for (R397), if its image fits (R400). -/
def Group.safePoint (g : Group) (fits : Bool) (h : Hdr) : Group :=
  match h.sp, g.saveReq, g.splits with
  | some m, some q, [_] =>
    if !q.kind.yields then g
    else if fits then { g with stat := .saving (some m), saveKind := q.kind }
    else { g with saveReq := some { q with missed := true } }
  | _, _, _ => g

/-- Completes an instruction that issued. -/
def retire (w : Work) (h : Hdr) (v : View) (c : Ctl) : Work :=
  let w := w.updGroup v.g fun g => g.settleRing h v c
  let w := w.onBlock v.grp.blk fun b w => if c.ret ∧ b.lead = some v.g then resumeBlockOp w v.grp.blk else w
  w.onGroup v.g fun g w =>
    if !g.running.any then endGroup w v.g
    else w.updGroup v.g fun _ => g.safePoint (h.sp.isSome && saveFits w v.g g h.sp) h

/-- Blocks the current split until it may issue the instruction afresh. -/
def Group.blockCurrent (g : Group) (k : Wait) : Group :=
  match g.splits with
  | [] => g
  | s :: ss =>
    let g := { g with splits := { s with cond := .blocked k, finish := false, age := 0 } :: ss }
    g.switchPoint s.lanes

/-- Part of an instruction is done, and it is to be done for the lanes of a mask later; it has issued (R23, R403). -/
def Group.restOf (g : Group) (rest : Mask) (k : Wait) : Group :=
  let g := match g.splits with
    | s :: ss => { g with splits := { s with only := some rest } :: ss }
    | [] => g
  g.blockCurrent k

/-- The feature that gates the instruction is accepted (R9). -/
def gateOpen (neg : Negotiation) (v : View) (n : Need) : Bool :=
  match n.feature with
  | some i => featureOn neg v.grp.ctx i
  | none => true

def Group.owe (g : Group) (n : Nat) : Group := { g with debt := g.debt + n }

/-- What of an instruction was done before is not issued again (R23, R403). -/
def Group.partDone (g : Group) : Bool :=
  match g.splits with
  | s :: _ => s.only.isSome
  | [] => false

/-- The group issues at a PC: it has not waited to, and a watchpoint skipped for that instruction is met again (R390). -/
def Group.tookTurn (g : Group) (pc : PC) : Group := { g with w := 0, skipWatch := g.skipWatch.filter fun e => e.2 != pc }

/-- The instruction has issued: it counts, with the debt of a trial. -/
def Work.issued (w : Work) (v : View) (n : Need) : Work :=
  w.updGroup v.g fun g =>
    (if g.partDone then g else (g.countIssue v n).owe (mogulDebt w.pk v)).tookTurn v.pc

/-- A block one of whose groups issues a read of the weight store with an active lane keeps its die, whether or not the access
performs (R408). -/
def Work.readsStore (w : Work) (v : View) (n : Need) : Work :=
  if n.ws && v.act.any then w.updBlock v.grp.blk fun b => { b with usedWs := true } else w

/-- The effect of one issue: the needs of the operands, then the body. -/
def issueWork (neg : Negotiation) (h : Hdr) (words : Nat) (need : View → Need) (body : View → Work → Done) (w : Work) :
    Work :=
  match viewOf w h words with
  | none => w
  | some v =>
    let n := need v
    let r := match preIssue (gateOpen neg v n) v n with
      | some d => d
      | none => body v (w.issued v n)
    match r with
    | .ok w' c => retire w' h v c
    | .wait k => w.updGroup v.g fun g => g.blockCurrent k
    | .trap code lanes addr info => raiseFault (w.readsStore v n) v.g v.pc code lanes addr info
    | .failed code lanes addr info => raiseRec w v.g v.pc code lanes addr info false
    | .halt w' => w'

/-- One instruction issued by the current split of the issuing group. -/
def issue (s : State) (h : Hdr) (need : View → Need) (body : View → Work → Done) : Host.Outcome State Fault Refusal :=
  .next (s.run (issueWork s.neg h (if h.sp.isSome then 2 else 1) need body))

/-- The plain completion of an effect. -/
def done (w : Work) : Done := .ok w {}

/-- A group-wide effect: once when a lane is active, nothing when none is (R151). -/
def once (v : View) (w : Work) (f : Work → Done) : Done := if v.act.any then f w else done w

end Sys2Proof.Machine
end

