-- ==== Sys2Proof/Machine/Integer.lean ====
section
/-!
DEFINITION. Class 0: the integer instructions (R141 to R150).
-/
namespace Sys2Proof.Machine

/-- Registers of an operand of a type: an even pair for 64 bits. -/
def regsOf (t : IType) : Nat := if itypeBits t = 64 then 2 else 1

def ibinNeed (f : IBin) (_ : View) : Need :=
  { reads := f.a.rd (regsOf f.ty) 1 :: f.b.rds (regsOf f.ty), writes := [f.d.wr (regsOf f.ty)] }

/-- R149: the exact result of two patterns, saturated or wrapped, written under R127. -/
def ibinBody (f : IBin) (res : IType → Nat → Nat → Int) (v : View) (w : Work) : Done :=
  done (w.writeV v f.d (regsOf f.ty) fun L =>
    intOut (vecBits f.ty) f.ty f.sat
      (res f.ty (v.src f.a (regsOf f.ty) L) (v.bop f.b (regsOf f.ty) immBits L)))

def iunNeed (f : IUn) (dst : Nat) (_ : View) : Need :=
  { reads := [f.a.rd (regsOf f.ty) 1], writes := [f.d.wr dst] }

def iunBody (f : IUn) (res : IType → Nat → Int) (v : View) (w : Work) : Done :=
  done (w.writeV v f.d (regsOf f.ty) fun L =>
    intOut (vecBits f.ty) f.ty f.sat (res f.ty (v.src f.a (regsOf f.ty) L)))

/-- `popc` and `clz` always write one register, zero-extended. -/
def countBody (f : IUn) (res : Nat → Nat → Nat) (v : View) (w : Work) : Done :=
  done (w.writeV v f.d 1 fun L => res (itypeBits f.ty) (v.src f.a (regsOf f.ty) L))

def itriNeed (f : ITri) (_ : View) : Need :=
  let n := regsOf f.ty
  { reads := [f.a.rd n 1, f.b.rd n 2, f.c.rd n 3], writes := [f.d.wr n] }

def itriBody (f : ITri) (res : IType → Nat → Nat → Nat → Int) (v : View) (w : Work) : Done :=
  let n := regsOf f.ty
  done (w.writeV v f.d n fun L =>
    intOut (vecBits f.ty) f.ty f.sat (res f.ty (v.src f.a n L) (v.src f.b n L) (v.src f.c n L)))

/-- The operands of a division in a lane, and the active lanes whose divisor is zero (R145). -/
def dividend (f : IBin) (v : View) (L : Fin 8) : Int := readInt f.ty (v.src f.a (regsOf f.ty) L)
def divisor (f : IBin) (v : View) (L : Fin 8) : Int := readInt f.ty (v.bop f.b (regsOf f.ty) immBits L)
def zeroDivisors (f : IBin) (v : View) : Mask := Lanes.ofFn fun L => v.act.get L && divisor f v L == 0

/-- The context's descriptor turns divisions by zero into faults. -/
def divTraps (p : Package) (cn : Nat) : Bool :=
  match p.ctxs.find? cn with
  | some c => c.idiv0T
  | none => false

/-- The divisions (R145): with y = 0 the flag IDIV0 is set, or the fault `IDIV0` is raised for those lanes where the
context's descriptor enables it. -/
def divBody (f : IBin) (res : IType → Int → Int → Int) (v : View) (w : Work) : Done :=
  if divTraps w.pk v.grp.ctx && (zeroDivisors f v).any then .trap .idiv0 (zeroDivisors f v) 0 0
  else
    done ((w.writeV v f.d (regsOf f.ty) fun L =>
      intOut (vecBits f.ty) f.ty false (res f.ty (dividend f v L) (divisor f v L))).flag v fun L =>
        flagIf ((zeroDivisors f v).get L) flIDIV0)

def execIadd (f : IBin) (s : State) : Host.Outcome State Fault Refusal :=
  issue s f.h (ibinNeed f) (ibinBody f fun t x y => readInt t x + readInt t y)

def execIsub (f : IBin) (s : State) : Host.Outcome State Fault Refusal :=
  issue s f.h (ibinNeed f) (ibinBody f fun t x y => readInt t x - readInt t y)

def execImul (f : IBin) (s : State) : Host.Outcome State Fault Refusal :=
  issue s f.h (ibinNeed f) (ibinBody f fun t x y => readInt t x * readInt t y)

def execImulh (f : IBin) (s : State) : Host.Outcome State Fault Refusal :=
  issue s f.h (ibinNeed f) (ibinBody f fun t x y => (readInt t x * readInt t y) / 2 ^ itypeBits t)

def execImad (f : ITri) (s : State) : Host.Outcome State Fault Refusal :=
  issue s f.h (itriNeed f) (itriBody f fun t x y z => readInt t x * readInt t y + readInt t z)

def execIdiv (f : IBin) (s : State) : Host.Outcome State Fault Refusal :=
  issue s f.h (ibinNeed f) (divBody f divInt)

def execIrem (f : IBin) (s : State) : Host.Outcome State Fault Refusal :=
  issue s f.h (ibinNeed f) (divBody f fun _ x y => remInt x y)

def execImin (f : IBin) (s : State) : Host.Outcome State Fault Refusal :=
  issue s f.h (ibinNeed f) (ibinBody f fun t x y => min (readInt t x) (readInt t y))

def execImax (f : IBin) (s : State) : Host.Outcome State Fault Refusal :=
  issue s f.h (ibinNeed f) (ibinBody f fun t x y => max (readInt t x) (readInt t y))

def execIabs (f : IUn) (s : State) : Host.Outcome State Fault Refusal :=
  issue s f.h (iunNeed f (regsOf f.ty)) (iunBody f fun t x => (readInt t x).natAbs)

def execAnd (f : IBin) (s : State) : Host.Outcome State Fault Refusal :=
  issue s f.h (ibinNeed f) (ibinBody f fun _ x y => (x &&& y : Nat))

def execOr (f : IBin) (s : State) : Host.Outcome State Fault Refusal :=
  issue s f.h (ibinNeed f) (ibinBody f fun _ x y => (x ||| y : Nat))

def execXor (f : IBin) (s : State) : Host.Outcome State Fault Refusal :=
  issue s f.h (ibinNeed f) (ibinBody f fun _ x y => (x ^^^ y : Nat))

def execNot (f : IUn) (s : State) : Host.Outcome State Fault Refusal :=
  issue s f.h (iunNeed f (regsOf f.ty)) (iunBody f fun _ x => -(x : Int) - 1)

def execShl (f : IBin) (s : State) : Host.Outcome State Fault Refusal :=
  issue s f.h (ibinNeed f) (ibinBody f fun t x y => readInt t x * 2 ^ shiftCount t y)

def execShr (f : IBin) (s : State) : Host.Outcome State Fault Refusal :=
  issue s f.h (ibinNeed f) (ibinBody f fun t x y => (lowBits (itypeBits t) x / 2 ^ shiftCount t y : Nat))

def execSar (f : IBin) (s : State) : Host.Outcome State Fault Refusal :=
  issue s f.h (ibinNeed f) (ibinBody f fun t x y => readInt t x / 2 ^ shiftCount t y)

def execPopc (f : IUn) (s : State) : Host.Outcome State Fault Refusal :=
  issue s f.h (iunNeed f 1) (countBody f popCount)

def execClz (f : IUn) (s : State) : Host.Outcome State Fault Refusal :=
  issue s f.h (iunNeed f 1) (countBody f leadingZeros)

def execBrev (f : IUn) (s : State) : Host.Outcome State Fault Refusal :=
  issue s f.h (iunNeed f (regsOf f.ty)) (iunBody f fun t x => reverseBits (itypeBits t) x)

def execBfx (f : IBin) (s : State) : Host.Outcome State Fault Refusal :=
  issue s f.h (ibinNeed f) (ibinBody f bfxInt)

def execBfi (f : ITri) (s : State) : Host.Outcome State Fault Refusal :=
  issue s f.h (itriNeed f) (itriBody f bfiInt)

/-- The index of `lea` is one register for a 64-bit type, extended by the type's sign (R143). -/
def leaNeed (f : LeaF) (_ : View) : Need :=
  { reads := [f.a.rd (regsOf f.ty) 1, f.b.rd 1 2], writes := [f.d.wr (regsOf f.ty)] }

def leaIndex (t : IType) (y : Nat) : Int :=
  match t with
  | .i64 => readInt .i32 y
  | .n64 => readInt .n32 y
  | t => readInt t y

def leaBody (f : LeaF) (v : View) (w : Work) : Done :=
  let n := regsOf f.ty
  done (w.writeV v f.d n fun L =>
    intOut (vecBits f.ty) f.ty f.sat (readInt f.ty (v.src f.a n L) + leaIndex f.ty (v.src f.b 1 L) * 2 ^ f.k.toNat))

def execLea (f : LeaF) (s : State) : Host.Outcome State Fault Refusal := issue s f.h (leaNeed f) (leaBody f)

def icmpNeed (f : ICmpF) (_ : View) : Need := { reads := f.a.rd (regsOf f.ty) 1 :: f.b.rds (regsOf f.ty) }

def icmpBody (f : ICmpF) (v : View) (w : Work) : Done :=
  let n := regsOf f.ty
  done (w.writeP v f.p fun L =>
    compareInt f.cond (readInt f.ty (v.src f.a n L)) (readInt f.ty (v.bop f.b n immBits L)))

def execIcmp (f : ICmpF) (s : State) : Host.Outcome State Fault Refusal := issue s f.h (icmpNeed f) (icmpBody f)

def selNeed (f : SelF) (_ : View) : Need :=
  { reads := f.a.rd (regsOf f.ty) 1 :: f.b.rds (regsOf f.ty), writes := [f.d.wr (regsOf f.ty)] }

def selBody (f : SelF) (v : View) (w : Work) : Done :=
  let n := regsOf f.ty
  done (w.writeV v f.d n fun L =>
    intOut (vecBits f.ty) f.ty false
      (readInt f.ty (if v.p f.p L then v.src f.a n L else v.bop f.b n immBits L)))

def execSel (f : SelF) (s : State) : Host.Outcome State Fault Refusal := issue s f.h (selNeed f) (selBody f)

def execMov (f : IUn) (s : State) : Host.Outcome State Fault Refusal :=
  issue s f.h (iunNeed f (regsOf f.ty)) (iunBody f fun t x => readInt t x)

def movisNeed (f : MoviF) (_ : View) : Need := { writes := [f.d.wr (regsOf f.ty)] }

def moviBody (f : MoviF) (v : View) (w : Work) : Done :=
  done (w.writeV v f.d (regsOf f.ty) fun _ => intOut (vecBits f.ty) f.ty false (readInt f.ty (immBits f.imm)))

def execMovi (f : MoviF) (s : State) : Host.Outcome State Fault Refusal := issue s f.h (movisNeed f) (moviBody f)

def cvtiNeed (f : CvtiF) (_ : View) : Need := { reads := [f.a.rd (regsOf f.src) 1], writes := [f.d.wr (regsOf f.ty)] }

/-- R148: the source read as its type, then wrapped or clamped to the target. -/
def cvtiBody (f : CvtiF) (v : View) (w : Work) : Done :=
  done (w.writeV v f.d (regsOf f.ty) fun L =>
    intOut (vecBits f.ty) f.ty f.sat (readInt f.src (v.src f.a (regsOf f.src) L)))

def execCvti (f : CvtiF) (s : State) : Host.Outcome State Fault Refusal := issue s f.h (cvtiNeed f) (cvtiBody f)

def rngNeed (f : RngF) (_ : View) : Need := { reads := [f.a.rd 1 1], writes := [f.d.wr 1] }

def rngBody (f : RngF) (v : View) (w : Work) : Done :=
  done (w.writeV v f.d 1 fun L => (rngDraw (v.grp.sreg f.b.toNat) f.n (v.grp.word f.a.r.toNat L)).toNat)

def execRng (f : RngF) (s : State) : Host.Outcome State Fault Refusal := issue s f.h (rngNeed f) (rngBody f)

end Sys2Proof.Machine
end

