-- ==== Sys2Proof/Machine/Memory.lean ====
section
/-!
DEFINITION. Loads and stores of class 6 and class 4 (R94 to R110, R114, R154), the staged stores of DET launches (R213 to
R218), and the events by which their accesses perform.
-/
namespace Sys2Proof.Machine

/-! ## Shape of an access -/

def widthBytes (n : Width) : Nat :=
  match n with
  | .w1 => 1 | .w2 => 2 | .w4 => 4 | .w8 => 8 | .w16 => 16 | .w32 => 32

/-- Registers of a data operand (R105). -/
def bytesRegs (n : Nat) : Nat := max 1 (n / 4)

inductive Space where
  | global | loc | priv
  deriving DecidableEq, Repr

/-- The private limit in words (R307 STACK). -/
def stackLimit (w : Work) (g : Group) : Nat :=
  match w.launch? g.lnch with
  | some l => fld l.rec_ 36 4
  | none => 0

/-- The check of one lane's access of n bytes (R96 to R100). -/
def checkLane (w : Work) (g : Group) (sp : Space) (a : Acc) (ea n : Nat) (L : Fin 8) : Chk × Work :=
  match sp with
  | .global => chkGlobal w g.ctx a ea n n
  | .loc => (chkLocal w g.blk ea n, w)
  | .priv => chkPrivate w g.ctx a g.privBase (stackLimit w g) L.val ea n

/-- The checks of every active lane, in lane order. -/
def checkLanes (w : Work) (v : View) (f : Fin 8 → Work → Chk × Work) : Lanes (Option Chk) × Work :=
  v.act.lanes.foldl
    (fun (r : Lanes (Option Chk) × Work) L => let (c, w) := f L r.2; (r.1.set L (some c), w))
    (Lanes.splat none, w)

def Chk.step? (c : Option Chk) : Option Nat :=
  match c with
  | some (.bad s _ _) => some s
  | _ => none

/-- The fault of R108: the earliest step at which a lane that is no helper fails, naming every lane that fails it; or
the wait for a gang member (R97), which a helper lane's load takes as well (R15). -/
def accessFault (v : View) (cs : Lanes (Option Chk)) (a : Acc) : Option Done :=
  let real := v.real.lanes
  match (real.filterMap fun L => Chk.step? (cs.get L)).min? with
  | some s =>
    let m : Mask := Lanes.ofFn fun L => v.real.get L && Chk.step? (cs.get L) == some s
    match cs.get (m.lanes.headD 0) with
    | some (.bad _ code addr) => some (.trap code m addr (if code = .page ∧ a = .store then 1 else 0))
    | _ => none
  | none =>
    (if a = .load then v.act.lanes else real).findSome? fun L => match cs.get L with
      | some (.member b) => some (.wait (.member b))
      | _ => none

def keysOf (c : Option Chk) : Option (List Nat) :=
  match c with
  | some (.ok ks) => some ks
  | _ => none

/-! ## Room (R109, R248) -/

def partTxns (p : Package) (core part : Nat) : Nat :=
  (p.txns.filter fun e => e.2.core == core && e.2.part == part && e.2.kind.holdsEntry).length

/-- The wait of an instruction that finds a transaction table full (R109). -/
def tableWait (p : Package) (v : View) : Option Wait :=
  if (groupEntries p v.g).length ≥ 32 ∨ partTxns p v.grp.core v.grp.part ≥ 1024 then some .txnRoom else none

/-- The wait of an access that finds a transaction table full or its chain without a slot. -/
def roomWait (p : Package) (v : View) (h : Nat) : Option Wait := (tableWait p v).or (liftWait p v.grp h)

def mkTxn (v : View) (h : Nat) (sc : Scope) (o : Order) (k : TKind) (ops : Lanes (Option LaneOp)) : Txn where
  g := v.g
  lnch := v.grp.lnch
  core := v.grp.core
  part := v.grp.part
  ctx := v.grp.ctx
  h := h
  scope := sc
  ord := o
  kind := k
  preds := []
  jpreds := []
  same := []
  imports := []
  ops := ops
  staged := none
  judged := false
  awaits := []
  facq := none
  paused := none
  quiet := Mask.diff v.act v.real
  pc := v.pc

def plainOp (va : Nat) (keys : List Nat) (data : List Byte) : LaneOp := ⟨BitVec.ofNat 64 va, keys, data, [], [], 0⟩

/-! ## Uncorrectable units (R392) -/

/-- The kind of place a key names: 3 local memory, 5 CXL memory and its lines, 6 the weight store. -/
def keyKind (k : Nat) : Nat := if k ≥ 2 ^ 58 then 3 else if k ≥ 2 ^ 57 then 6 else 5

/-- The address a record gives for a key: physical, or that within the die's weight store or the block's local memory,
which have no physical address. -/
def unitAddr (k : Nat) : Nat := if k ≥ 2 ^ 58 then (k - 2 ^ 58) % 2 ^ 24 else if k ≥ 2 ^ 57 then (k - 2 ^ 57) % 2 ^ 32 else k

/-- The byte lies behind a CXL port that has failed (R394). -/
def portDown (p : Package) (k : Nat) : Bool :=
  p.portsDown.any fun x => x.1 && isGlobalKey k && paPackage k == p.no && Config.cxlPort (k / 128) == x.2

/-- The bad unit a read of these bytes meets. -/
def badKey (p : Package) (ks : List Nat) : Option Nat :=
  match p.badUnits.find? fun u => ks.any fun k => k / 8 == u / 8 with
  | some u => some u
  | none => ks.find? (portDown p)

/-- The bad unit that an access to these bytes meets where they lie (R277). -/
def Work.badKey (w : Work) (ks : List Nat) : Option Nat := Sys2Proof.Machine.badKey w.pk (ks.map w.home)

/-- Its address and kind, as a record gives them. -/
def Work.badAt (w : Work) (ks : List Nat) : Option (Nat × Nat) := (w.badKey ks).map fun u => (unitAddr u, keyKind u)

/-- Bytes written; the local memory of a killed block takes none. -/
def storeBytes (w : Work) (ks : List Nat) (bs : List Byte) : Work :=
  let gone (k : Nat) : Bool := match localKeyBlock k with
    | some b => match w.block? b with
      | some x => x.noLocal
      | none => true
    | none => false
  if ks.any gone then w
  else w.place ks bs

/-! ## Code that a launch writes (R244) -/

/-- A range in a list of ranges that stand apart, in rising order. -/
def addRange (lo hi : Nat) : List (Nat × Nat) → List (Nat × Nat)
  | [] => [(lo, hi)]
  | (a, b) :: r =>
    if b < lo then (a, b) :: addRange lo hi r
    else if hi < a then (lo, hi) :: (a, b) :: r
    else addRange (min a lo) (max b hi) r

/-- Rising runs of addresses, as ranges. -/
def runsOf (ks : List Nat) : List (Nat × Nat) :=
  ks.foldr (fun k r => match r with
    | (a, b) :: r => if a = k + 1 then (k, b) :: r else (k, k + 1) :: (a, b) :: r
    | [] => [(k, k + 1)]) []

/-- A group of the launch has written bytes of global memory. -/
def noteWrote (w : Work) (ln : Nat) (ks : List Nat) : Work :=
  w.updLaunch ln fun l => { l with wrote := (runsOf (ks.filter isGlobalKey)).foldl (fun l r => addRange r.1 r.2 l) l.wrote }

/-! ## DET launches: staged stores (R213 to R218) -/

def detOf (w : Work) (g : Group) : Option Det :=
  match w.block? g.blk with
  | some b => b.det
  | none => none

/-- Entries that the block's spill slot can hold. -/
def detCapacity (w : Work) (g : Group) : Nat :=
  match w.ctx? g.ctx with
  | some c => (c.spSlot * 65536 - 64) / 64
  | none => 0

/-- The epoch of a group's next entry: the open one, or the one after where the group has arrived at the flush point that
is to seal it (R219). -/
def entryEpoch (w : Work) (g : Group) (d : Det) : Nat :=
  match w.block? g.blk with
  | some b => d.opened + (if g.arr.getD 0 16 > b.phases.getD 0 16 then 1 else 0)
  | none => d.opened

/-- Adds one entry of a lane; a slot that cannot take it kills the block (R218). -/
def addEntry (w : Work) (gi : Nat) (L : Fin 8) (kind n atype addr : Nat) (keys : List Nat) (data : List Byte)
    (after : Release) : Work :=
  w.onGroup gi fun g w =>
    match detOf w g with
    | none => w
    | some d =>
      if d.entries.length ≥ detCapacity w g then
        killBy w g.blk (groupRec w g .detBroken .f Mask.none 0 (BitVec.ofNat 64 addr) 0)
      else
        let e : DetEntry := ⟨BitVec.ofNat 64 addr, (g.lane L).dseq, g.gidx, L.val, kind, n, atype, entryEpoch w g d, data, keys,
          after.tokens, after.txns⟩
        let w := w.updGroup gi fun g => g.updLanes fun K l => if K = L then { l with dseq := l.dseq + 1 } else l
        w.updBlock g.blk fun b => { b with det := some { d with entries := d.entries ++ [e] } }

/-- The byte a block reads: what its own staged stores have written there, else memory (R214). -/
def blockByte (w : Work) (d : Option Det) (k : Nat) : Byte :=
  match d.bind fun d => d.own.find? k with
  | some b => b
  | none => w.byte k

def blockBytes (w : Work) (d : Option Det) (ks : List Nat) : List Byte := ks.map (blockByte w d)

/-- A staged store becomes visible within its block. -/
def showStaged (w : Work) (blk : Nat) (ks : List Nat) (bs : List Byte) : Work :=
  w.updBlock blk fun b => { b with det := b.det.map fun d => { d with
    own := (ks.zip bs).foldl (fun m c => m.insert c.1 c.2) d.own } }

/-- The block whose store a group's access stages, in a DET launch. -/
def stagedBlk (w : Work) (g : Group) : Option Nat := if (detOf w g).isSome then some g.blk else none

/-! ## Loads (R106) -/

def memNeed (f : MemF) (load : Bool) (_ : View) : Need :=
  let n := bytesRegs (widthBytes f.width)
  { reads := (if load then [] else [f.d.rd n 0]) ++ f.mem.rds
    writes := if load then [⟨f.d.r.toNat, n, false⟩] else [] }

/-- A load's lane: the keys it reads; a helper whose access fails reads zero. -/
def loadOp (ea : Nat) (c : Option Chk) : Option LaneOp :=
  c.map fun c => match c with
    | .ok ks => plainOp ea ks []
    | _ => plainOp ea [] []

def loadBody (f : MemF) (sp : Space) (v : View) (w : Work) : Done :=
  let n := widthBytes f.width
  if !v.act.any then done w
  else
    let (cs, w) := checkLanes w v fun L w => checkLane w v.grp sp .load (v.ea f.mem L) n L
    match accessFault v cs .load, roomWait w.pk v f.hd.toNat with
    | some d, _ => d
    | none, some k => .wait k
    | none, none =>
      let ops := Lanes.ofFn fun L => loadOp (v.ea f.mem L) (cs.get L)
      let t := mkTxn v f.hd.toNat f.scope f.ord (.load f.d.r.toNat (bytesRegs n) n) ops
      let w := w.updGroup v.g fun g => g.emptyRegs f.d.r.toNat (bytesRegs n) v.act
      done (addTxn w t).2

def execLd (f : MemF) (s : State) : Host.Outcome State Fault Refusal :=
  issue s f.h (memNeed f true) (loadBody f .global)
def execLdl (f : MemF) (s : State) : Host.Outcome State Fault Refusal :=
  issue s f.h (memNeed f true) (loadBody f .loc)
def execLdp (f : MemF) (s : State) : Host.Outcome State Fault Refusal :=
  issue s f.h (memNeed f true) (loadBody f .priv)

/-! ## Stores (R107) -/

/-- The low n bytes of a lane's data operand. -/
def storeData (v : View) (d : VSrc) (n : Nat) (L : Fin 8) : List Byte := valBytes n (v.src d (bytesRegs n) L)

/-- A store's lanes: the active lanes whose writes are not suppressed (R15). -/
def storeOps (m : Mask) (ea : Fin 8 → Nat) (cs : Lanes (Option Chk)) (data : Fin 8 → List Byte) :
    Lanes (Option LaneOp) :=
  Lanes.ofFn fun L =>
    if m.get L then (keysOf (cs.get L)).map fun ks => plainOp (ea L) ks (data L) else none

/-- A global store of the lanes of m is staged in a DET launch: one entry per lane (R213). -/
def stageStore (w : Work) (v : View) (m : Mask) (n : Nat) (ops : Lanes (Option LaneOp)) : Work :=
  w.each m.lanes fun L w => match ops.get L with
    | some o => addEntry w v.g L 0 n 0 o.va.toNat o.keys o.data ⟨[], []⟩
    | none => w

/-- The performing part of a store of the lanes of m, whose checks are done. -/
def makeStore (w : Work) (v : View) (f : MemF) (m : Mask) (cs : Lanes (Option Chk)) (staged : Option Nat) : Work :=
  let n := widthBytes f.width
  let ops := storeOps m (v.ea f.mem) cs (storeData v f.d n)
  if !(laneList.any fun L => (ops.get L).isSome) then w
  else
    let w := (addTxn w { mkTxn v f.hd.toNat f.scope f.ord .store ops with staged := staged }).2
    if staged.isSome then stageStore w v m n ops else w

/-- A private store of a helper lane whose own check fails writes nothing and raises nothing (log entry 126). -/
def storeBody (f : MemF) (sp : Space) (v : View) (w : Work) : Done :=
  let n := widthBytes f.width
  if !v.act.any then done w
  else
    let (cs, w) := checkLanes w v fun L w => checkLane w v.grp sp .store (v.ea f.mem L) n L
    match accessFault v cs .store, roomWait w.pk v f.hd.toNat with
    | some d, _ => d
    | none, some k => .wait k
    | none, none =>
      let m := if sp = .priv then v.act else v.real
      done (makeStore w v f m cs (if sp = .global then stagedBlk w v.grp else none))

def execSt (f : MemF) (s : State) : Host.Outcome State Fault Refusal :=
  issue s f.h (memNeed f false) (storeBody f .global)
def execStl (f : MemF) (s : State) : Host.Outcome State Fault Refusal :=
  issue s f.h (memNeed f false) (storeBody f .loc)
def execStp (f : MemF) (s : State) : Host.Outcome State Fault Refusal :=
  issue s f.h (memNeed f false) (storeBody f .priv)

/-! ## `sld` and `sst` (R154) -/

/-- A lane position that stands for a group-wide access: the lowest active lane. -/
def View.lead (v : View) : Fin 8 := (v.act.lanes).headD 0

def smemEa (f : SMemF) (v : View) : Nat := (((v.s f.base : Int) + f.disp.toInt) % 2 ^ 64).toNat

def oneOp (L : Fin 8) (o : LaneOp) : Lanes (Option LaneOp) := (Lanes.splat none).set L (some o)

def sldBody (f : SMemF) (v : View) (w : Work) : Done :=
  if !v.act.any then done w
  else
    let n := itypeBits f.ty / 8
    let (c, w) := chkGlobal w v.grp.ctx .load (smemEa f v) n n
    match c, v.real.any, roomWait w.pk v 0 with
    | .bad _ code addr, true, _ => .trap code v.act addr 0
    | .bad .., false, _ => done (w.writeS v f.d 0)
    | _, _, some k => .wait k
    | c, _, none =>
      let ks := (keysOf (some c)).getD []
      let k : TKind := .sload f.d.toNat f.ty v.act
      let (t, w) := addTxn w (mkTxn v 0 .sys .plain k (oneOp v.lead (plainOp (smemEa f v) ks [])))
      .ok w { block := some (.txn t), keep := true }

def execSld (f : SMemF) (s : State) : Host.Outcome State Fault Refusal := issue s f.h (fun _ => {}) (sldBody f)

def sstBody (f : SMemF) (v : View) (w : Work) : Done :=
  if !v.real.any then done w
  else
    let n := itypeBits f.ty / 8
    let (c, w) := chkGlobal w v.grp.ctx .store (smemEa f v) n n
    match c, roomWait w.pk v 0 with
    | .bad _ code addr, _ => .trap code v.act addr (if code = .page then 1 else 0)
    | _, some k => .wait k
    | c, none =>
      let o := plainOp (smemEa f v) ((keysOf (some c)).getD []) (valBytes n (v.s f.d))
      let w := (addTxn w { mkTxn v 0 .sys .plain .sstore (oneOp v.lead o) with staged := stagedBlk w v.grp }).2
      done (if (detOf w v.grp).isSome then addEntry w v.g v.lead 0 n 0 o.va.toNat o.keys o.data ⟨[], []⟩ else w)

def execSst (f : SMemF) (s : State) : Host.Outcome State Fault Refusal := issue s f.h (fun _ => {}) (sstBody f)

/-! ## `prf`, `pin`, `unpin` (R110, R114) -/

def lineNeed (f : LineF) (_ : View) : Need := { reads := f.mem.rds }

/-- A prefetch moves lines between caches, which hold no state of their own in the model. -/
def execPrf (f : LineF) (s : State) : Host.Outcome State Fault Refusal := issue s f.h (lineNeed f) fun _ w => done w

/-- The check of a pin: a line on another package is refused at step 5 (R114). -/
def chkPin (w : Work) (v : View) (ea : Nat) : Chk × Work := chkGlobal w v.grp.ctx .pin ea 4 4

def lineOf (c : Option Chk) : Option Nat :=
  match c with
  | some (.ok (k :: _)) => some (k / 128)
  | _ => none

def pinsAt (p : Package) (cn slice : Nat) : Nat :=
  (p.pins.filter fun x => x.ctx == cn && Config.homeSlice p.diesLost x.line == slice).length

/-- Pins one line for a lane: whether it is held now. -/
def pinLine (w : Work) (v : View) (line : Nat) : Bool × Work :=
  let cn := v.grp.ctx
  let (n, w) := w.newId
  let own := (n, v.grp.lnch, v.g)
  if w.pk.pins.any fun x => x.ctx == cn && x.line == line then
    (true, w.mapPk fun p => { p with pins := p.pins.map fun x =>
      if x.ctx = cn ∧ x.line = line then { x with count := x.count + 1, owners := x.owners ++ [own] } else x })
  else if pinsAt w.pk cn (Config.homeSlice w.pk.diesLost line) < 32768 then
    (true, w.mapPk fun p => { p with pins := p.pins ++ [(⟨cn, line, 1, [own]⟩ : Pin)] })
  else (false, w)

/-- A pin performs at its issue, so that it holds its entry of the transaction tables for no time; it waits for one
(R109). -/
def pinBody (f : LineF) (v : View) (w : Work) : Done :=
  let (cs, w) := checkLanes w v fun L w => chkPin w v (v.ea f.mem L)
  match accessFault v cs .load, (if v.act.any then tableWait w.pk v else none) with
  | some d, _ => d
  | none, some k => .wait k
  | none, none =>
    let (m, w) := v.act.lanes.foldl
      (fun (r : Mask × Work) L => match lineOf (cs.get L) with
        | some line => let (ok, w) := pinLine r.2 v line; (r.1.set L ok, w)
        | none => r) (Mask.none, w)
    done (w.writeP v f.p fun L => m.get L)

def execPin (f : LineF) (s : State) : Host.Outcome State Fault Refusal := issue s f.h (lineNeed f) (pinBody f)

/-- One decrement, of the oldest pin of the line (log entry 68): the line is released at zero; a line the context does not hold
is left alone. -/
def unpinLine (w : Work) (cn line : Nat) : Work :=
  let less (x : Pin) : Pin :=
    if x.ctx = cn ∧ x.line = line then { x with count := x.count - 1, owners := x.owners.drop 1 } else x
  w.mapPk fun p => { p with pins := (p.pins.map less).filter fun x => x.count > 0 }

def unpinBody (f : LineF) (v : View) (w : Work) : Done :=
  let (cs, w) := checkLanes w v fun L w => chkGlobal w v.grp.ctx .load (v.ea f.mem L) 4 4
  match accessFault v cs .load, (if v.act.any then tableWait w.pk v else none) with
  | some d, _ => d
  | none, some k => .wait k
  | none, none => done (w.each v.act.lanes fun L w => match lineOf (cs.get L) with
      | some line => unpinLine w v.grp.ctx line
      | none => w)

def execUnpin (f : LineF) (s : State) : Host.Outcome State Fault Refusal := issue s f.h (lineNeed f) (unpinBody f)

/-! ## Events: accesses perform (R106, R107, R392, R412) -/

/-- A lane's part reaches a phase, with what an atomic read; an access all of whose parts are finished leaves the
tables (R109). -/
def setPhase (w : Work) (t : Nat) (L : Fin 8) (ph : Nat) (old : List Byte) : Work :=
  let w := w.updTxn t fun x => { x with
    ops := Lanes.ofFn fun K => if K = L then (x.ops.get K).map fun o => { o with phase := ph, old := old } else x.ops.get K }
  match w.txn? t with
  | some x => if x.ops.toList.all fun o => match o with
      | some o => o.phase == 2
      | none => true
    then w.dropTxn t else w
  | none => w

/-- The refresh domain of a weight-store key is refreshing (R99). -/
def refreshing (p : Package) (ks : List Nat) : Bool :=
  ks.any fun k => 2 ^ 57 ≤ k && k < 2 ^ 58 && (k / 2 ^ 17 % 32 == p.cycle.toNat / 2048 % 32)

/-- Data arrives in a lane of a load: the register is written and full. -/
def landLoad (w : Work) (t : Nat) (x : Txn) (L : Fin 8) (d n : Nat) (val : Nat) : Work :=
  let w := w.updGroup x.g fun g => g.landRegs d n (Mask.none.set L true) (Lanes.splat val)
  setPhase w t L 2 []

def groupDet (w : Work) (gi : Nat) : Option Det :=
  match w.group? gi with
  | some g => detOf w g
  | none => none

/-! ### Raising a precise fault at an instruction that still waits (R412, R113, R121) -/

/-- Makes the split that waits for an access current and ready at its instruction; lanes that were to issue it after those of
the access, m, issue it with them, and the lanes of `closed`, for which it is done, do not (R403). -/
def Group.toSplit (g : Group) (t : Nat) (m closed : Mask) : Group :=
  let k := g.splits.findIdx fun s => s.cond == .blocked (.txn t)
  match (if k < g.splits.length then g.splits.drop k ++ g.splits.take k else []) with
  | [] => g
  | s :: ss =>
    let left := if s.finish then s.only else s.only.map (Mask.union m)
    let only := if closed.any then some (Mask.diff (left.getD s.lanes) closed) else left
    { g with splits := { s with cond := .ready, finish := false, quant := 0, only := only } :: ss, bypass := if k = 0 then g.bypass else [] }

/-- The access is dropped, and its instruction raises the fault. -/
def failTxn (w : Work) (t : Nat) (x : Txn) (code : Code) (lanes : Mask) (addr info : Nat) : Work :=
  let w := w.dropTxn t
  let closed (L : Fin 8) : Bool := match x.ops.get L with
    | some o => o.phase == 2
    | none => false
  let w := w.updGroup x.g fun g => g.toSplit t (Lanes.ofFn fun L => (x.ops.get L).isSome) (Lanes.ofFn closed)
  raiseFault w x.g x.pc code lanes addr info

/-- A load of a lane fails after issue (R290, R392, R412): zero and a pending record, or for `sld` the precise fault; a lane
that was a helper takes zero and raises nothing (R15). -/
def loadFails (w : Work) (t : Nat) (x : Txn) (L : Fin 8) (code : Code) (addr info : Nat) : Work :=
  let quiet := x.quiet.get L
  match x.kind with
  | .load d n _ =>
    let w := landLoad w t x L d n 0
    if quiet then w else raiseAsync w x.g code (Mask.none.set L true) addr info
  | .sload d _ act =>
    if quiet then setPhase (w.updGroup x.g fun g => g.setSreg d 0) t L 2 [] else failTxn w t x code act addr info
  | _ => w

/-- The data of one lane of a load returns; a unit that cannot be corrected gives `DATA_LOST` (R412). -/
def loadReturn (t : Nat) (L : Fin 8) (w : Work) : Work :=
  w.onTxn t fun x w =>
    match x.ops.get L with
    | none => w
    | some o =>
      if o.phase ≠ 0 ∨ !mayPerform w.pk t x L ∨ refreshing w.pk o.keys then w
      else
        let w := notePerform w t x L
        let bs := blockBytes w (groupDet w x.g) o.keys
        match x.kind, w.badAt o.keys with
        | .load d n _, none => landLoad w t x L d n (bytesVal bs)
        | .sload d ty _, none =>
          setPhase (w.updGroup x.g fun g => g.setSreg d (BitVec.ofNat 64 (extendTo 64 ty (bytesVal bs)))) t L 2 []
        | _, some (u, k) => loadFails w t x L .dataLost u k
        | _, none => w

/-- A store's bytes reach their home; a store to a unit that needs its lost old bytes is discarded with a notice (R392,
kind 5). -/
def homeStore (w : Work) (cn : Nat) (ks : List Nat) (bs : List Byte) : Work :=
  let w := w.endSequences ks
  match w.badKey ks with
  | some u =>
    if isGlobalKey u ∧ !((List.range 8).all fun i => (ks.map w.home).contains (u / 8 * 8 + i)) then
      hostRec w (bareRec .dataLost .n cn 0 u 5)
    else storeBytes w ks bs
  | none => storeBytes w ks bs

/-- What the lane's part of a store or of `frec` does when it performs: the bytes at their home, or within the DET block; the
entries of the core's record cache. -/
def storeEffect (w : Work) (x : Txn) (o : LaneOp) : Work :=
  match x.kind, x.staged with
  | .frec ks, _ => w.mapPk fun p => { p with recCache := p.recCache.filter fun e => !(e.1 == x.core && ks.contains e.2.1) }
  | _, some blk => showStaged w blk o.keys o.data
  | _, none => noteWrote (homeStore w x.ctx o.keys o.data) x.lnch o.keys

/-- One lane of a store performs at its home, or becomes visible within its DET block; a `frec` performs. -/
def storePerformOp (t : Nat) (L : Fin 8) (w : Work) : Work :=
  w.onTxn t fun x w =>
    let stores := match x.kind with
      | .store | .sstore | .frec _ => true
      | _ => false
    match x.ops.get L with
    | some o =>
      if !stores ∨ o.phase ≠ 0 ∨ !mayPerform w.pk t x L then w
      else setPhase (notePerform (storeEffect w x o) t x L) t L 2 []
    | none => w

def execStorePerform (t : Nat) (lane : Fin 8) (s : State) : Host.Outcome State Fault Refusal :=
  .next (s.run (storePerformOp t lane))

end Sys2Proof.Machine
end

