-- ==== Sys2Proof/Machine/Atomics.lean ====
section
/-!
DEFINITION. Class 7: the atomics (R116 to R122), their performing at the home slice with the combining of R120, and the
page reference counts (R121).
-/
namespace Sys2Proof.Machine

/-! ## The operations (R119) -/

def akindBytes (k : AKind) : Nat :=
  match k with
  | .i64 | .n64 => 8
  | _ => 4

def akindNum (k : AKind) : Nat :=
  match k with
  | .i32 => 0 | .n32 => 1 | .i64 => 2 | .n64 => 3 | .f32 => 4 | .f16x2 => 5 | .bf16x2 => 6

def akindOf (n : Nat) : AKind :=
  match n with
  | 0 => .i32 | 1 => .n32 | 2 => .i64 | 3 => .n64 | 4 => .f32 | 5 => .f16x2 | _ => .bf16x2

/-- The integer type of an integer kind. -/
def akindInt (k : AKind) : Option IType :=
  match k with
  | .i32 => some .i32
  | .n32 => some .n32
  | .i64 => some .i64
  | .n64 => some .n64
  | _ => none

def akindFloat (k : AKind) : FType :=
  match k with
  | .f16x2 => .f16x2
  | .bf16x2 => .bf16x2
  | _ => .f32

/-- An element operation on each element of a float kind; float atomics set no flag. -/
def floatAtom (k : AKind) (op : Fmt → Nat → Nat → Nat × Flags) (old data : Nat) : Nat :=
  let t := akindFloat k
  (packElems (List.zipWith (op (elemFmt t)) (elems t old) (elems t data))).1

/-- The new value of a location under an atomic, by its op number of R116: 0 add, 1 min, 2 max, 3 and, 4 or, 5 xor,
6 exchange, 7 compare and swap, 8 increment, 9 add without return. -/
def atomNew (op : Nat) (k : AKind) (old data cmp : Nat) : Nat :=
  let m := 2 ^ (8 * akindBytes k)
  match op with
  | 3 => old &&& data
  | 4 => old ||| data
  | 5 => old ^^^ data
  | 6 => data
  | 7 => if old = cmp then data else old
  | 8 => if old ≥ data then 0 else old + 1
  | op =>
    match akindInt k with
    | some t =>
      match op with
      | 1 => if readInt t data < readInt t old then data else old
      | 2 => if readInt t data > readInt t old then data else old
      | _ => (old + data) % m
    | none =>
      match op with
      | 1 => floatAtom k (fun f x y => minmaxF f false x y) old data
      | 2 => floatAtom k (fun f x y => minmaxF f true x y) old data
      | _ => floatAtom k (fun f x y => nanFirst f [x, y] (addF f .rne false (decodeF f x) (decodeF f y))) old data

/-- Whether the lanes of one address are combined (R120): integer types but for exchange, swap and increment. -/
def combines (op : Nat) (k : AKind) : Bool := (akindInt k).isSome && (op ≤ 5 || op == 9)

/-! ## Issue -/

/-- Registers of the data operand: twice the width for `acas` (R118). -/
def atomRegs (op : Nat) (k : AKind) : Nat := akindBytes k / 4 * (if op = 7 then 2 else 1)

def atomReturns (op : Nat) : Bool := op != 9

/-- The returned registers become empty; the second half of `acas` is only read. -/
def atomNeed (op : Nat) (f : AtomF) (_ : View) : Need :=
  { reads := f.d.rd (atomRegs op f.ty) 0 :: f.mem.rds
    writes := if atomReturns op then [⟨f.d.r.toNat, akindBytes f.ty / 4, false⟩] else [] }

/-- A lane's part: the data, for `acas` the second half with the first as compare value; a helper's returns zero. -/
def atomOp (op : Nat) (f : AtomF) (v : View) (c : Option Chk) (L : Fin 8) : Option LaneOp :=
  let n := akindBytes f.ty
  let x := v.src f.d (atomRegs op f.ty) L
  let data := if op = 7 then x / 2 ^ (8 * n) else x
  if v.real.get L then
    (keysOf c).map fun ks => { plainOp (v.ea f.mem L) ks (valBytes n data) with cmp := valBytes n x }
  else if v.act.get L ∧ atomReturns op then
    some { plainOp (v.ea f.mem L) [] [] with phase := 1, old := valBytes n 0 }
  else none

/-- What a deferred write of a handle waits for when it performs: the accesses of others and the tokens that its chain follows
at its issue; of its own lane's accesses it follows those performed before it (R233, R237, R254). -/
def deferredAfter (p : Package) (g : Group) (h : Nat) : Release :=
  ⟨openTxns p (g.chain h).awaits, (g.chain h).imports.filter fun x => !tokenMet p x⟩

/-- Class 7 in a DET launch: a returning one of a global type, or any of a local type, raises `DET_RET`; `ared` of a
global type is buffered (R122, R213). -/
def atomBody (op : Nat) (f : AtomF) (v : View) (w : Work) : Done :=
  let n := akindBytes f.ty
  let sp := if f.loc then Space.loc else Space.global
  let det := (detOf w v.grp).isSome
  if !v.act.any then done w
  else if det ∧ (atomReturns op ∨ f.loc) ∧ v.real.any then .trap .detRet v.real 0 0
  else
    let (cs, w) := checkLanes w v fun L w => checkLane w v.grp sp .store (v.ea f.mem L) n L
    match accessFault v cs .store, roomWait w.pk v f.hd.toNat with
    | some d, _ => d
    | none, some k => .wait k
    | none, none =>
      let ops := Lanes.ofFn fun L => atomOp op f v (cs.get L) L
      if !(laneList.any fun L => (ops.get L).isSome) then done w
      else if det ∧ !atomReturns op then
        done (w.each v.real.lanes fun L w => match ops.get L with
          | some o => addEntry w v.g L 1 n (akindNum f.ty) o.va.toNat o.keys o.data (deferredAfter w.pk v.grp f.hd.toNat)
          | none => w)
      else
        let k : TKind := .atom (BitVec.ofNat 6 op) f.ty f.d.r.toNat (n / 4) (atomReturns op)
        let w := if atomReturns op then w.updGroup v.g fun g => g.emptyRegs f.d.r.toNat (n / 4) v.act else w
        done (addTxn w (mkTxn v f.hd.toNat f.scope f.ord k ops)).2

def execAadd (f : AtomF) (s : State) : Host.Outcome State Fault Refusal := issue s f.h (atomNeed 0 f) (atomBody 0 f)
def execAmin (f : AtomF) (s : State) : Host.Outcome State Fault Refusal := issue s f.h (atomNeed 1 f) (atomBody 1 f)
def execAmaxAtomic (f : AtomF) (s : State) : Host.Outcome State Fault Refusal :=
  issue s f.h (atomNeed 2 f) (atomBody 2 f)
def execAand (f : AtomF) (s : State) : Host.Outcome State Fault Refusal := issue s f.h (atomNeed 3 f) (atomBody 3 f)
def execAor (f : AtomF) (s : State) : Host.Outcome State Fault Refusal := issue s f.h (atomNeed 4 f) (atomBody 4 f)
def execAxor (f : AtomF) (s : State) : Host.Outcome State Fault Refusal := issue s f.h (atomNeed 5 f) (atomBody 5 f)
def execAxch (f : AtomF) (s : State) : Host.Outcome State Fault Refusal := issue s f.h (atomNeed 6 f) (atomBody 6 f)
def execAcas (f : AtomF) (s : State) : Host.Outcome State Fault Refusal := issue s f.h (atomNeed 7 f) (atomBody 7 f)
def execAinc (f : AtomF) (s : State) : Host.Outcome State Fault Refusal := issue s f.h (atomNeed 8 f) (atomBody 8 f)
def execAred (f : AtomF) (s : State) : Host.Outcome State Fault Refusal := issue s f.h (atomNeed 9 f) (atomBody 9 f)

/-! ## Page reference counts (R121) -/

def refNeed (f : RefF) (_ : View) : Need :=
  { reads := f.base.rds 2 2 false ++ [f.idx.rd 1 1], writes := [⟨f.d.toNat, 1, false⟩] }

def refHeader (f : RefF) (v : View) (L : Fin 8) : Nat := v.uniIn f.base 2 L
def refIndex (f : RefF) (v : View) (L : Fin 8) : Nat := (v.grp.word f.idx.r.toNat L).toNat
def refEa (f : RefF) (v : View) (L : Fin 8) : Nat := (refHeader f v L + 64 + 4 * refIndex f v L) % 2 ^ 64

/-- The counter's address is checked at issue; a header that is not aligned fails step 2. -/
def refChk (f : RefF) (v : View) (w : Work) (L : Fin 8) : Chk × Work :=
  if refHeader f v L % 64 ≠ 0 then (.bad 2 .prot (refHeader f v L), w) else chkGlobal w v.grp.ctx .store (refEa f v L) 4 4

def refBody (inc : Bool) (f : RefF) (v : View) (w : Work) : Done :=
  if !v.act.any then done w
  else if (detOf w v.grp).isSome ∧ v.real.any then .trap .detRet v.real 0 0
  else
    let (cs, w) := checkLanes w v fun L w => refChk f v w L
    match accessFault v cs .store, roomWait w.pk v f.hd.toNat with
    | some d, _ => d
    | none, some k => .wait k
    | none, none =>
      let ops : Lanes (Option LaneOp) := Lanes.ofFn fun L =>
        if v.real.get L then
          (keysOf (cs.get L)).map fun ks => plainOp (refEa f v L) ks (valBytes 4 (refIndex f v L))
        else if v.act.get L then some { plainOp 0 [] [] with phase := 1, old := valBytes 4 0 } else none
      let hdr := Lanes.ofFn fun L => BitVec.ofNat 64 (refHeader f v L)
      let w := w.updGroup v.g fun g => g.emptyRegs f.d.toNat 1 v.act
      let t := mkTxn v f.hd.toNat f.scope f.ord (.ref inc f.d.toNat hdr (v.grp.reg f.d.toNat).full) ops
      let (t, w) := addTxn w { t with judged := !v.real.any }
      if v.real.any then .ok w { block := some (.txn t) } else done w

def execRefinc (f : RefF) (s : State) : Host.Outcome State Fault Refusal := issue s f.h (refNeed f) (refBody true f)
def execRefdec (f : RefF) (s : State) : Host.Outcome State Fault Refusal := issue s f.h (refNeed f) (refBody false f)

/-! ## At the home slice -/

/-- The lanes that perform together with lane L: those of one address when the operation combines (R120). -/
def combineSet (x : Txn) (L : Fin 8) (comb : Bool) : List (Fin 8) :=
  match x.ops.get L with
  | some o => if comb then laneList.filter fun K => match x.ops.get K with
      | some k => k.phase == 0 && k.keys == o.keys
      | none => false
    else [L]
  | none => []

/-- One lane's read-modify-write. -/
def performAtom (w : Work) (op : Nat) (k : AKind) (o : LaneOp) : List Byte × Work :=
  let old := w.bytes o.keys
  (old, storeBytes w o.keys (valBytes (akindBytes k) (atomNew op k (bytesVal old) (bytesVal o.data) (bytesVal o.cmp))))

/-- The header of a page pool is in order for an index (R121). -/
def poolOk (bs : List Byte) (i : Nat) : Bool :=
  fld bs 0 8 % 4 == 0 && canonical (fld bs 0 8) && isPow2 (fld bs 8 4) && allZero ((bs.drop 36).take 28) &&
    i < fld bs 12 4

/-- Sets bits of PFLAGS. -/
def poolFlag (w : Work) (ks : List Nat) (bit : Nat) : Work :=
  storeBytes w ((ks.drop 32).take 4) (valBytes 4 (bytesVal (w.bytes ((ks.drop 32).take 4)) ||| bit))

/-- Appends page i to the free list (R121): the entry first, then FLTAIL. `chk` judges the entry's place as a store of the
context; one that it fails in any way sets OVF, with the notice (log entry 113). -/
def freePage (w : Work) (cn : Nat) (chk : Work → Nat → Chk × Work) (hk : List Nat) (i : Nat) : Work :=
  let h := w.bytes hk
  let cap := fld h 8 4
  let tail := fld h 24 8
  if (tail + 2 ^ 64 - fld h 16 8) % 2 ^ 64 ≥ cap then poolFlag w hk 1
  else
    let addr := (fld h 0 8 + 4 * (tail % cap)) % 2 ^ 64
    match chk w addr with
    | (.ok ks, w) =>
      storeBytes (homeStore w cn ks (valBytes 4 i)) ((hk.drop 24).take 8) (valBytes 8 ((tail + 1) % 2 ^ 64))
    | (_, w) => hostRec (poolFlag w hk 1) (bareRec .prot .n cn 0 addr 0)

/-- The place of a free-list entry, by a context's tables. -/
def entryChk (cn : Nat) (w : Work) (addr : Nat) : Chk × Work := chkGlobal w cn .store addr 4 4

/-- One lane of `refinc` or `refdec` at the counter's home slice. -/
def performRef (w : Work) (cn : Nat) (chk : Work → Nat → Chk × Work) (inc : Bool) (hk : List Nat) (o : LaneOp) :
    List Byte × Work :=
  let old := w.bytes o.keys
  let cnt := bytesVal old
  let w :=
    if inc then
      if cnt = 2 ^ 32 - 1 then poolFlag w hk 4 else storeBytes w o.keys (valBytes 4 (cnt + 1))
    else if cnt = 0 then poolFlag w hk 2
    else
      let w := storeBytes w o.keys (valBytes 4 (cnt - 1))
      if cnt = 1 then freePage w cn chk hk (bytesVal o.data) else w
  (old, w)

/-- The keys of a lane's pool header, if its tables still map it for writing. -/
def headerKeys (w : Work) (x : Txn) (hdr : Lanes W64) (L : Fin 8) : Option (List Nat) :=
  match chkGlobal w x.ctx .store (hdr.get L).toNat 64 64 with
  | (.ok ks, _) => some ks
  | _ => none

/-- The lanes whose header or index the slice refuses; a header that the tables do not map for writing is refused too (log
entry 114). -/
def refBad (w : Work) (x : Txn) (hdr : Lanes W64) : Mask :=
  Lanes.ofFn fun L => match x.ops.get L with
    | some o => o.phase == 0 && match headerKeys w x hdr L with
        | some ks => !poolOk (w.bytes ks) (bytesVal o.data)
        | none => true
    | none => false

/-- The first lane of a page-count instruction whose header or counter lies in a unit that cannot be corrected, with the unit
(R392). -/
def refLost (w : Work) (x : Txn) (hdr : Lanes W64) : Option (Fin 8 × Nat × Nat) :=
  laneList.findSome? fun L => match x.ops.get L with
    | some o => if o.phase = 0 then (w.badAt ((headerKeys w x hdr L).getD [] ++ o.keys)).map fun u => (L, u) else none
    | none => none

/-- The lanes of a register that an access was to write are full again as they were before it. -/
def restoreFull (x : Txn) (was : Mask) (r : VReg) : VReg :=
  let mine (L : Fin 8) : Bool := (x.ops.get L).isSome
  { r with
    full := Lanes.ofFn fun L => if mine L then was.get L else r.full.get L
    pend := Lanes.ofFn fun L => r.pend.get L && !mine L }

/-- The slice judges the header before any lane is performed, as it stands at that moment, whatever of it the group's own
stores have still to write (log entry 127); a failure raises `PROT`, or `DATA_LOST` for a unit that cannot be corrected, at the
instruction, whose register is as it was. From then on the access holds the header's physical address. -/
def judgeRef (w : Work) (t : Nat) (x : Txn) (d : Nat) (hdr : Lanes W64) (was : Mask) : Work :=
  let bad := refBad w x hdr
  let whole (w : Work) : Work := w.updGroup x.g fun g => g.setReg d (restoreFull x was (g.reg d))
  match refLost w x hdr with
  | some (L, u, k) => failTxn (whole w) t x .dataLost (Mask.none.set L true) u k
  | none =>
  if bad.any then failTxn (whole w) t x .prot bad (hdr.get (bad.lanes.headD 0)).toNat 0
  else
    let at_ (L : Fin 8) : W64 := match headerKeys w x hdr L with
      | some (k :: _) => BitVec.ofNat 64 k
      | _ => 0
    w.updTxn t fun x => { x with
      judged := true
      kind := match x.kind with
        | .ref inc d _ was => .ref inc d (Lanes.ofFn at_) was
        | k => k }

/-- The lanes that would perform with a lane's part. -/
def Txn.performSet (x : Txn) (L : Fin 8) : List (Fin 8) :=
  match x.kind with
  | .atom op k .. => combineSet x L (combines op.toNat k)
  | .ref .. => combineSet x L true
  | _ => []

/-- Each part of a set may perform; where several perform as one, none before accesses that stand before it, so that each
follows what the others release (R234, R236). -/
def setMay (p : Package) (t : Nat) (x : Txn) (set : List (Fin 8)) : Bool :=
  set.all fun K => mayPerformIn p t x set K && (set.length ≤ 1 || (relOpen p x K).isEmpty)

/-- The parts of a set meet a unit that cannot be corrected: the failing lanes' registers become zero and full at once, and the
record is pending (R412). -/
def atomLost (w : Work) (t : Nat) (x : Txn) (set : List (Fin 8)) (u k : Nat) : Work :=
  let w := w.each set fun K w => match x.kind with
    | .atom _ _ d n true => landLoad w t x K d n 0
    | .ref _ d _ _ => landLoad w t x K d 1 0
    | _ => setPhase w t K 2 []
  raiseAsync w x.g .dataLost (set.foldl (fun m K => m.set K true) Mask.none) u k

/-- An atomic of a lane, with the lanes combined with it, performs at its home slice once each of them may. -/
def atomHome (t : Nat) (L : Fin 8) (w : Work) : Work :=
  w.onTxn t fun x w =>
    match x.ops.get L with
    | none => w
    | some o =>
      let set := x.performSet L
      if o.phase ≠ 0 ∨ !setMay w.pk t x set then w
      else
        match x.kind with
        | .atom op k _ _ ret =>
          let w := noteWrote (w.each set fun K w => notePerform w t x K) x.lnch o.keys
          match w.badAt o.keys with
          | some (u, kd) => atomLost w t x set u kd
          | none =>
            w.each set fun K w => match x.ops.get K with
              | some o =>
                let (old, w) := performAtom w op.toNat k o
                setPhase w t K (if ret then 1 else 2) old
              | none => w
        | .ref inc d hdr was =>
          if !x.judged then judgeRef w t x d hdr was
          else
            match w.badAt (o.keys ++ keysFrom (hdr.get L).toNat 64) with
            | some (u, kd) => atomLost w t x set u kd
            | none =>
            (noteWrote (w.each set fun K w => notePerform w t x K) x.lnch o.keys).each set fun K w => match x.ops.get K with
              | some o =>
                let (old, w) := performRef w x.ctx (entryChk x.ctx) inc (keysFrom (hdr.get K).toNat 64) o
                setPhase w t K 1 old
              | none => w
        | _ => w

def execAtomicAtHomeSlice (t : Nat) (lane : Fin 8) (s : State) : Host.Outcome State Fault Refusal :=
  .next (s.run (atomHome t lane))

/-- The old value returns to its lane, whose registers become full; of a page count only once its header is judged. -/
def atomBack (t : Nat) (L : Fin 8) (w : Work) : Work :=
  w.onTxn t fun x w =>
    match x.ops.get L with
    | none => w
    | some o =>
      if o.phase ≠ 1 then w
      else
        match x.kind with
        | .atom _ _ d n _ => landLoad w t x L d n (bytesVal o.old)
        | .ref _ d _ _ => if x.judged then landLoad w t x L d 1 (bytesVal o.old) else w
        | _ => w

def execAtomicReturn (t : Nat) (lane : Fin 8) (s : State) : Host.Outcome State Fault Refusal :=
  .next (s.run (atomBack t lane))

end Sys2Proof.Machine
end

