-- ==== Sys2Proof/Machine/Handles.lean ====
section
/-!
DEFINITION. Class 8: fences, order handles, tokens, barriers and `frec` (R245 to R260), and `aflush` (R220, R221).
-/
namespace Sys2Proof.Machine

/-- The reads of the group that have not returned; `ared` returns nothing. -/
def openReads (p : Package) (gi : Nat) : List Nat := p.txns.keysWhere fun _ t => t.g == gi && match t.kind with
  | .atom _ _ _ _ ret => ret
  | k => k.isRead

/-- `fence` joins every handle into every handle and holds the split until the group's earlier reads have returned. One
that a release has performed before returns first, since the fence is to make it an acquire (R247, log entry 12). -/
def fenceBody (s : Scope) (v : View) (w : Work) : Done :=
  once v w fun w =>
    let passed := overtaken w.pk (groupTxns w.pk v.g)
    if !passed.isEmpty then .wait (.returned passed)
    else
    let ts := openReads w.pk v.g
    .ok (fenceChains w v.g (some s)) { block := if ts.isEmpty then none else some (.returned ts) }

def execFence (f : FenceF) (s : State) : Host.Outcome State Fault Refusal := issue s f.h (fun _ => {}) (fenceBody f.scope)

def hforkBody (f : HpairF) (v : View) (w : Work) : Done :=
  once v w fun w =>
    if !(chainOpen w.pk v.g f.hd.toNat).isEmpty then .wait (.chainIdle f.hd.toNat)
    else done (forkChain w v.g f.hd.toNat f.hs.toNat)

def execHfork (f : HpairF) (s : State) : Host.Outcome State Fault Refusal := issue s f.h (fun _ => {}) (hforkBody f)

/-- As for `fence`, a read on the two chains that a release has performed before returns first. -/
def hjoinBody (f : HjoinF) (v : View) (w : Work) : Done :=
  once v w fun w =>
    let passed := overtaken w.pk ((v.grp.chain f.hd.toNat).hist ++ (v.grp.chain f.ha.toNat).hist)
    if !passed.isEmpty then .wait (.returned passed) else done (joinChains w v.g f.hd.toNat f.ha.toNat f.scope)

def execHjoin (f : HjoinF) (s : State) : Host.Outcome State Fault Refusal := issue s f.h (fun _ => {}) (hjoinBody f)

/-! ## Tokens (R252 to R254) -/

/-- The token of a chain: its slot, and the last access on it that has not performed; null but for the scope when
there is none. -/
def chainToken (p : Package) (g : Group) (h : Nat) (s : Scope) : Token :=
  let null : Token := ⟨0, 0, 0, 0, scopeNum s, 0⟩
  match (g.chain h).slot with
  | none => null
  | some k =>
    match p.lift.find? (slotKey g.core k) with
    | none => null
    | some x =>
      match (x.openSeqs p).max? with
      | some q => ⟨p.no, g.core, k, x.gen, scopeNum s, q⟩
      | none => null

def hexpNeed (f : HexpF) (_ : View) : Need := { writes := f.d.wrs 2, feature := some 3 }

/-- What has been joined into a chain and stands on no number of its slot: accesses of other handles, and the accesses of
others that it follows. -/
def joinedInto (p : Package) (g : Group) (h : Nat) : List Nat :=
  let c := g.chain h
  ((openTxns p c.hist).filter fun i => match p.txns.find? i with
    | some t => t.h != h
    | none => false) ++ openTxns p c.awaits

/-- The token is written at issue. It covers the accesses of the chain itself, and what has been joined into it, which the
export releases too, stands with the token's number (R253); a null token covers nothing (log entry 39). -/
def hexpBody (f : HexpF) (v : View) (w : Work) : Done :=
  once v w fun w =>
    let t := chainToken w.pk v.grp f.ha.toNat f.scope
    let more := if t.seq = 0 then [] else (joinedInto w.pk v.grp f.ha.toNat).map fun i => (t.seq, i)
    let w := w.writeU v f.d 2 fun _ => t.word
    done (match (v.grp.chain f.ha.toNat).slot with
      | some k => w.mapPk fun p => { p with
          lift := p.lift.adjust (slotKey v.grp.core k) fun x => { x with expAge := some 0, extra := x.extra ++ more } }
      | none => w)

def execHexp (f : HexpF) (s : State) : Host.Outcome State Fault Refusal := issue s f.h (hexpNeed f) (hexpBody f)

def huniNeed (f : HuniF) (feature : Nat) (_ : View) : Need := { reads := f.a.rds 2 1, feature := some feature }

def domainOf (w : Work) (cn : Nat) : Nat :=
  match w.ctx? cn with
  | some c => c.domain
  | none => 0

/-- The exported accesses that have performed for their own group only, which a `himp` of that group still follows (R237,
R249). -/
def exportedOpen (p : Package) (gi : Nat) (t : Token) : List Nat :=
  match p.lift.find? (slotKey t.core t.slot) with
  | some s =>
    if t.pkg = p.no ∧ s.gen = t.gen ∧ (s.owner.map Prod.fst) = some gi ∧ t.scope = 0 then openTxns p (s.upTo t.seq) else []
  | none => []

/-- The exporting die of a token has been lost. -/
def tokenLost (p : Package) (t : Token) : Bool :=
  t.seq != 0 && if t.pkg = p.no then p.diesLost.getLsbD (coreDie t.core) else p.farLost.contains (t.pkg, coreDie t.core)

/-- `himp`: later accesses on the handle wait for the token; a lost exporting die gives the group `DIE_LOST`. -/
def himpBody (f : HuniF) (v : View) (w : Work) : Done :=
  once v w fun w =>
    let x := v.uni f.a 2
    let t := tokenOf x
    if t.scope > 5 ∨ t.core > 191 ∨ !inDomain w.pk (domainOf w v.grp.ctx) t.pkg then .trap .prot v.act x 0
    else
      let w := w.updGroup v.g fun g =>
        let c := g.chain f.hd.toNat
        let c := { c with awaits := (c.awaits ++ exportedOpen w.pk v.g t).eraseDups }
        g.setChain f.hd.toNat (if tokenMet w.pk (BitVec.ofNat 64 x) then c
          else { c with imports := c.imports ++ [BitVec.ofNat 64 x] })
      if tokenLost w.pk t then done (raiseAsync w v.g .dieLost v.act 0 (coreDie t.core)) else done w

def execHimp (f : HuniF) (s : State) : Host.Outcome State Fault Refusal := issue s f.h (huniNeed f 3) (himpBody f)

def hwaitBody (f : HwaitF) (v : View) (w : Work) : Done :=
  once v w fun w =>
    let ts := openAt w.pk (scopeNum f.scope) (chainOpen w.pk v.g f.ha.toNat)
    .ok w { block := if ts.isEmpty then none else some (.performed ⟨ts, []⟩) }

def execHwait (f : HwaitF) (s : State) : Host.Outcome State Fault Refusal := issue s f.h (fun _ => {}) (hwaitBody f)

/-! ## Barriers (R257 to R259, R221) -/

/-- Arrives and waits for the phase of the arrival. -/
def arriveAndWait (v : View) (n : Nat) (w : Work) : Done :=
  if arriveBlocked w.pk v.grp n then .wait (.barRoom n)
  else
    let (k, w) := arriveAt w v.g n
    let ends := match w.group? v.g with
      | some g => barrierPassed w.pk g n k
      | none => true
    if ends then done (acquirePhase w v.g n k) else .ok w { block := some (.bar n k) }

def execBar (f : BarF) (s : State) : Host.Outcome State Fault Refusal :=
  issue s f.h (fun _ => {}) fun v w => once v w (arriveAndWait v f.n.toNat)

def execGbar (f : Bare) (s : State) : Host.Outcome State Fault Refusal :=
  issue s f.h (fun _ => {}) fun v w => once v w (arriveAndWait v 17)

/-- An arrival that would open a 65,537th epoch kills the block (R218). -/
def aflushBody (v : View) (w : Work) : Done :=
  once v w fun w =>
    match arriveAndWait v 16 w with
    | .ok w c => .ok (checkEpochs w v.grp.blk) c
    | d => d

def execAflush (f : Bare) (s : State) : Host.Outcome State Fault Refusal :=
  issue s f.h (fun _ => { feature := some 0 }) aflushBody

def baraBody (f : BarSF) (v : View) (w : Work) : Done :=
  once v w fun w =>
    if arriveBlocked w.pk v.grp f.n.toNat then .wait (.barRoom f.n.toNat)
    else
      let (k, w) := arriveAt w v.g f.n.toNat
      done (w.writeS v f.s k)

def execBara (f : BarSF) (s : State) : Host.Outcome State Fault Refusal := issue s f.h (fun _ => {}) (baraBody f)

def barwBody (f : BarSF) (v : View) (w : Work) : Done :=
  once v w fun w =>
    let k := v.s f.s % 2 ^ 16
    let n := f.n.toNat
    let w := fenceChains w v.g none
    if barrierPassed w.pk v.grp n k then done (acquirePhase w v.g n k) else .ok w { block := some (.barw n k) }

def execBarw (f : BarSF) (s : State) : Host.Outcome State Fault Refusal := issue s f.h (fun _ => {}) (barwBody f)

/-! ## `frec` (R260) -/

def frecNeed (f : HuniF) (_ : View) : Need := { reads := f.a.rds 2 1 false }

/-- The key of a record cache entry: nothing is translated, so it is the context's virtual address. -/
def recKey (cn va : Nat) : Nat := cn * 2 ^ 64 + va

/-- The invalidation stands on the handle's chain, and is made once every access before it there has performed. -/
def frecBody (f : HuniF) (v : View) (w : Work) : Done :=
  once v w fun w =>
    let ea (L : Fin 8) : Nat := v.uniIn f.a 2 L
    let bad : Mask := Lanes.ofFn fun L => v.act.get L && (ea L % 64 != 0 || !canonical (ea L))
    if bad.any then .trap .prot bad (ea (bad.lanes.headD 0)) 0
    else
      let ks := v.act.lanes.map fun L => recKey v.grp.ctx (ea L)
      done (addTxn w (mkTxn v f.hd.toNat .sys .plain (.frec ks) (oneOp v.lead (plainOp 0 [] [])))).2

def execFrec (f : HuniF) (s : State) : Host.Outcome State Fault Refusal := issue s f.h (frecNeed f) (frecBody f)

end Sys2Proof.Machine
end

