-- ==== Sys2Proof/Machine/Engines.lean ====
section
/-!
DEFINITION. Class 9 and the engines (R261 to R278): copy requests and their landing, byte barriers, shape records, chains
of transfer records, named tasks (R309), publishable buffers, and `ldw` with the sealing of weight-store regions (R369).
-/
namespace Sys2Proof.Machine

/-! ## What a kick releases (R237) -/

/-- The accesses of a chain that have not performed and those of others that it follows, and the tokens it waits for. -/
def chainRelease (p : Package) (g : Group) (h : Nat) : Release :=
  ⟨openTxns p ((g.chain h).hist ++ (g.chain h).awaits), (g.chain h).imports.filter fun x => !tokenMet p x⟩

def Release.met (p : Package) (r : Release) : Bool := (openTxns p r.txns).isEmpty && r.tokens.all (tokenMet p)

/-- The wait of an instruction that touches bytes at its issue: what `issueAfter` says must come first. -/
def accessWait (p : Package) (v : View) (h : Nat) (ks : List Nat) (write : Bool) : Option Wait :=
  let r := issueAfter p v.g v.grp h ks write
  if r.txns.isEmpty && r.tokens.isEmpty then none else some (.performed r)

/-! ## What engines write -/

/-- Bytes that an engine writes for a launch: a plain write, and code if it is fetched (R231, R244). -/
def engineWrite (w : Work) (ln : Nat) (ks : List Nat) (bs : List Byte) : Work :=
  noteWrote (w.write ks bs) ln ks

/-! ## Named tasks (R309) -/

def Task.fresh : Task := ⟨0, false, []⟩

/-- One indivisible change of a counter; at zero every parked launch becomes ready, in the order it was parked. -/
def updTask (w : Work) (t : Nat) (f : Task → Task) : Work :=
  let x := f (FMap.getD w.pk.tasks Task.fresh t)
  let w := w.mapPk fun p => { p with
    tasks := FMap.put p.tasks Task.fresh t (if x.count = 0 then { x with parked := [] } else x) }
  if x.count = 0 then
    w.each x.parked fun l w =>
      let (n, w) := w.newId
      w.updLaunch l fun y => if y.stat = .parked then { y with stat := .ready, readySeq := n } else y
  else w

def Task.minus (n : W32) (x : Task) : Task :=
  if n.toNat > x.count.toNat then { x with count := 0, under := true } else { x with count := x.count - n }

/-! ## Ranges as engines reach them -/

/-- The copy of a machine in which local memory stands until the last request that names it has ended (R264). -/
def keepLocal (w : Work) : Work :=
  w.mapPk fun p => { p with blocks := p.blocks.mapVals fun _ b => { b with noLocal := false } }

/-- n bytes of local memory from an address, in one portion. -/
def localRange (w : Work) (blk addr n : Nat) : Chk :=
  let w := keepLocal w
  match n with
  | 0 => .ok []
  | _ =>
    match chkLocal w blk addr 1, chkLocal w blk (addr + n - 1) 1 with
    | .ok (a :: _), .ok (b :: _) => if b = a + n - 1 then .ok (keysFrom a n) else .bad 2 .prot addr
    | .member m, _ => .member m
    | _, _ => .bad 2 .prot addr

/-- A transfer of R262, R274: whose tables and block, on which die; spaces as R274 numbers them (0 global, 1 local,
2 weight store, 3 shadow, an address of which is the physical address in the shadow). -/
structure Xfer where
  cn : Nat
  lnch : Nat
  blk : Nat
  die : Nat
  kind : Nat
  sspace : Nat
  dspace : Nat
  src : Nat
  dst : Nat
  size : Nat
  shape : List Byte
  deriving DecidableEq, Repr

def Xfer.range (x : Xfer) (w : Work) (space : Nat) (a : Acc) (addr n : Nat) : Chk × Work :=
  match space with
  | 0 => chkRange w x.cn a addr n
  | 1 => (localRange w x.blk addr n, w)
  | 2 => (chkWs w x.cn x.die addr n 1, w)
  | _ => (.ok (keysFrom addr n), w)

/-! ## Shape records (R269, R271) -/

def sElog (s : List Byte) : Nat := fld s 0 1
def sEsize (s : List Byte) : Nat := 2 ^ sElog s
def sDesc (s : List Byte) : Bool := fld s 1 1 == 1
def sRank (s : List Byte) : Nat := fld s 2 1
def sBase (s : List Byte) : Nat := fld s 8 8
def sExt (s : List Byte) (k : Nat) : Nat := fld s (16 + 8 * k) 8
def sStride (s : List Byte) (k : Nat) : Int := sextNat 64 (fld s (56 + 8 * k) 8)
def sOrg (s : List Byte) (k : Nat) : Int := sextNat 32 (fld s (96 + 4 * k) 4)
def sBox (s : List Byte) (k : Nat) : Nat := fld s (116 + 4 * k) 4

def sWf (s : List Byte) : Bool :=
  s.length == 192 && decide (sElog s ≤ 6) && decide (fld s 1 1 ≤ 1) && (!sDesc s || sElog s == 6) &&
    decide (1 ≤ sRank s ∧ sRank s ≤ 5) && allZero ((s.drop 3).take 5) && allZero (s.drop 136) &&
    (List.range 5).all fun k =>
      if k < sRank s then decide (sExt s k < 2 ^ 63 ∧ 1 ≤ sBox s k ∧ sBox s k ≤ 2 ^ 20)
      else sExt s k == 0 && fld s (56 + 8 * k) 8 == 0 && fld s (96 + 4 * k) 4 == 0 && sBox s k == 0

/-- Elements of the box. -/
def sCount (s : List Byte) : Nat := ((List.range (sRank s)).map (sBox s)).prod

/-- Coordinate k of the element with linear index n, the innermost index fastest. -/
def sCoord (s : List Byte) (n k : Nat) : Int :=
  sOrg s k + (n / ((List.range k).map (sBox s)).prod % sBox s k : Nat)

def sInside (s : List Byte) (n : Nat) : Bool :=
  (List.range (sRank s)).all fun k => decide (0 ≤ sCoord s n k ∧ sCoord s n k < sExt s k)

def fits64 (x : Int) : Bool := decide (-(2 ^ 63) ≤ x ∧ x < 2 ^ 63)

/-- BASE plus the products, each product and sum a signed 64-bit value; none on overflow. -/
def sAddr (s : List Byte) (n : Nat) : Option Int :=
  (List.range (sRank s)).foldl
    (fun acc k => match acc with
      | some a =>
        let p := sCoord s n k * sStride s k
        if fits64 p && fits64 (a + p) then some (a + p) else none
      | none => none)
    (some (sextNat 64 (sBase s)))

/-- The address of an element as an unsigned one; only asked of elements that passed the check at acceptance. -/
def sVa (s : List Byte) (n : Nat) : Nat :=
  match sAddr s n with
  | some a => (a % 2 ^ 64).toNat
  | none => 0

/-- Bytes of the dense side. -/
def Xfer.total (x : Xfer) : Nat := if x.kind = 0 then x.size else sCount x.shape * sEsize x.shape

/-- The check before any byte moves (R271): none, or the reason, 1 `COPY_ADDR` or 2 `PROT`. Where both apply, a malformed shape
record or footprint comes first, then `COPY_ADDR`, then alignment and local ranges (log entry 130). -/
def Xfer.refused (x : Xfer) (w : Work) : Option Nat :=
  let loc (space addr : Nat) : Bool :=
    space == 1 && match localRange w x.blk addr x.total with
      | .bad .. => true
      | _ => false
  if x.kind = 0 then (if loc x.sspace x.src || loc x.dspace x.dst then some 2 else none)
  else if !sWf x.shape || decide (x.total > 2 ^ 32) then some 2
  else
    let e := sEsize x.shape
    let els := (List.range (sCount x.shape)).filter (sInside x.shape)
    let dense := if x.kind = 1 then x.dst else x.src
    let dspace := if x.kind = 1 then x.dspace else x.sspace
    if els.any fun n => match sAddr x.shape n with
      | some a => !canonical (a % 2 ^ 64).toNat || !canonical ((a + e - 1) % 2 ^ 64).toNat
      | none => true
    then some 1
    else if dense % e ≠ 0 || (els.any fun n => sVa x.shape n % e != 0) || loc dspace dense then some 2
    else none

/-! ## Moving bytes (R271, R272) -/

/-- One piece of a transfer: where it comes from, or zero, and where it goes, or nowhere. -/
structure Piece1 where
  src : Option Nat
  dst : Option Nat
  n : Nat
  deriving DecidableEq, Repr

/-- The pieces of the dense bytes lo to hi: single bytes, or elements in box order. -/
def Xfer.pieces (x : Xfer) (lo hi : Nat) : List Piece1 :=
  if x.kind = 0 then (List.range (hi - lo)).map fun i => ⟨some (x.src + lo + i), some (x.dst + lo + i), 1⟩
  else
    let e := sEsize x.shape
    (List.range ((hi - lo) / e)).map fun i =>
      let n := lo / e + i
      let at_ := if sInside x.shape n then some (sVa x.shape n) else none
      if x.kind = 1 then ⟨at_, some (x.dst + n * e), e⟩ else ⟨some (x.src + n * e), at_, e⟩

def zeroBlock : List Byte := [0x20, 0x78] ++ List.replicate 62 0

/-- What a piece meets: its bytes and the keys they go to, or a fault of R272 with its address and kind of place. -/
inductive PieceRes where
  | ok (ks : List Nat) (bs : List Byte)
  | bad (e : CopyErr) (addr kind : Nat)
  | waits
  deriving DecidableEq, Repr

def ofChk (c : Chk) : PieceRes :=
  match c with
  | .ok ks => .ok ks []
  | .bad _ .page a => .bad .page a 0
  | .bad _ _ a => .bad .prot a 0
  | .member _ => .waits

def Xfer.piece (x : Xfer) (w : Work) (m : Piece1) : PieceRes :=
  let desc := x.kind ≠ 0 ∧ sDesc x.shape
  match m.dst with
  | none => .ok [] []
  | some d =>
    let read : PieceRes := match m.src with
      | none => .ok [] (if desc then zeroBlock else List.replicate m.n 0)
      | some a =>
        match ofChk (x.range w x.sspace .load a m.n).1 with
        | .ok ks _ =>
          if refreshing w.pk ks then .waits
          else match w.badAt ks with
            | some (u, k) => .bad .dataLost u k
            | none =>
              let bs := w.bytes ks
              if desc ∧ (blockFmt bs fun _ => true).isNone then .bad .blkFmt a 0 else .ok ks bs
        | r => r
    match read with
    | .ok _ bs =>
      match ofChk (x.range w x.dspace .store d m.n).1 with
      | .ok ks _ => .ok ks bs
      | r => r
    | r => r

/-- Moves pieces until one meets a fault: the bytes moved, and that piece's result. -/
def Xfer.move (x : Xfer) (w : Work) : List Piece1 → Nat × Option PieceRes × Work
  | [] => (0, none, w)
  | m :: ms =>
    match x.piece w m with
    | .ok ks bs =>
      let (n, r, w) := x.move (engineWrite w x.lnch ks bs) ms
      (m.n + n, r, w)
    | r => (0, some r, w)

/-- The dense bytes of one landing: to the next multiple of 256, where no aligned 8 bytes of either side then lie in two
landings; else all (R229). -/
def Xfer.chunkEnd (x : Xfer) (lo : Nat) : Nat :=
  let whole := match x.kind with
    | 0 => x.src % 8 == 0 && x.dst % 8 == 0
    | _ => decide (8 ≤ sEsize x.shape)
  if whole then min x.total (lo / 256 * 256 + 256) else x.total

/-- Two ranges of n and m bytes have an aligned 8 bytes in common. -/
def meetUnit (a b : Option Nat) (n m : Nat) : Bool :=
  match a, b with
  | some a, some b => decide (a / 8 ≤ (b + m - 1) / 8 ∧ b / 8 ≤ (a + n - 1) / 8)
  | _, _ => false

def Piece1.meets (a b : Piece1) : Bool := meetUnit a.src b.src a.n b.n || meetUnit a.dst b.dst a.n b.n

/-- The most of the first k pieces that no aligned 8 bytes join to a later one (R229). -/
def wholeUnits (ms : List Piece1) (k : Nat) : Nat :=
  ((List.range (k + 1)).reverse.find? fun n => !((ms.take n).any fun a => (ms.drop n).any a.meets)).getD 0

/-- The pieces that the first n bytes of a list of pieces make up. -/
def piecesIn (ms : List Piece1) (n : Nat) : Nat := n / max 1 ((ms.head?.map Piece1.n).getD 1)

/-- Moves the dense bytes lo to hi. A fault leaves the bytes before it, but for aligned 8 bytes that it falls into: they are
moved whole or not at all (R229). -/
def Xfer.advanceTo (x : Xfer) (w : Work) (lo hi : Nat) : Nat × Option PieceRes × Work :=
  let ms := x.pieces lo hi
  let r := x.move w ms
  match r.2.1 with
  | none => r
  | some f =>
    let m := x.move w (ms.take (wholeUnits ms (piecesIn ms r.1)))
    (m.1, some f, m.2.2)

/-- Moves one landing's bytes from those done. -/
def Xfer.advance (x : Xfer) (w : Work) (done : Nat) : Nat × Option PieceRes × Work := x.advanceTo w done (x.chunkEnd done)

/-! ## Byte barriers (R265, R266) -/

def barKeys (w : Work) (blk addr : Nat) : List Nat :=
  match localRange w blk addr 32 with
  | .ok ks => ks
  | _ => []

def barAdvance (b : List Byte) : List Byte :=
  if fld b 0 8 = 0 ∧ fld b 8 4 = 0 then
    let ph := fld b 12 4
    setFld (setFld b 12 4 (ph / 2 ^ 31 * 2 ^ 31 + (ph % 2 ^ 31 + 1) % 2 ^ 31)) 8 4 (fld b 16 4)
  else b

def barLand (b : List Byte) (n : Nat) : List Byte := barAdvance (setFld b 0 8 ((fld b 0 8 + 2 ^ 64 - n % 2 ^ 64) % 2 ^ 64))

def barArrive (b : List Byte) (n : Nat) : List Byte :=
  barAdvance (setFld (setFld b 8 4 (fld b 8 4 - 1)) 0 8 ((fld b 0 8 + n) % 2 ^ 64))

def barFail (b : List Byte) (reason loc : Nat) : List Byte :=
  let b := setFld b 12 4 (fld b 12 4 % 2 ^ 31 + 2 ^ 31)
  if fld b 24 8 = 0 then setFld b 24 8 (reason * 2 ^ 56 + loc % 2 ^ 29) else b

/-- One atomic step of the core that holds the barrier. -/
def onBar (w : Work) (blk addr : Nat) (f : List Byte → List Byte) : Work :=
  match barKeys w blk addr with
  | [] => w
  | ks => w.write ks (f (w.bytes ks))

def barPhasePassed (b : List Byte) (v : Nat) : Bool :=
  let d := (fld b 12 4 % 2 ^ 31 + 2 ^ 31 - v % 2 ^ 31) % 2 ^ 31
  decide (1 ≤ d ∧ d ≤ 2 ^ 30)

def barErr (b : List Byte) : Bool := bitAt (fld b 12 4) 31 == 1

/-! ## `cpyk` (R262, R263) -/

def engineSize : Nat := 256

/-- The record check of R263. -/
def reqOk (w : Work) (blk : Nat) (r : List Byte) : Bool :=
  let kind := fld r 0 1
  let s := fld r 1 1 % 16
  let d := fld r 1 1 / 16
  decide (kind ≤ 2 ∧ s ≤ 1 ∧ d ≤ 1 ∧ fld r 2 1 ≤ 3 ∧ fld r 3 1 ≤ 15) && fld r 4 4 == 0 && fld r 36 4 == 0 &&
    allZero (r.drop 48) && (kind != 0 || decide (fld r 24 8 ≤ 2 ^ 32)) &&
    (kind != 1 || (s == 0 && fld r 8 8 == 0)) && (kind != 2 || (d == 0 && fld r 16 8 == 0)) &&
    fld r 32 4 % 32 == 0 && match chkLocal w blk (fld r 32 4) 32 with
      | .ok _ => true
      | .member _ => true
      | .bad .. => false

def cpykNeed (f : CpykF) (_ : View) : Need := { reads := [f.a.rd 1 1], writes := [⟨f.d.toNat, 2, false⟩] }

/-- The bytes of a lane's record, where its address allows them. -/
def cpykKeys (f : CpykF) (v : View) (w : Work) (L : Fin 8) : List Nat :=
  match chkLocal w v.grp.blk (v.grp.word f.a.r.toNat L).toNat 64 with
  | .ok ks => ks
  | _ => []

/-- The record of a lane: its bytes, or a fault or wait of its address. -/
def cpykRec (f : CpykF) (v : View) (w : Work) (L : Fin 8) : Except Chk (List Byte) :=
  match chkLocal w v.grp.blk (v.grp.word f.a.r.toNat L).toNat 64 with
  | .ok ks =>
    let r := w.bytes ks
    match w.badAt ks with
    | some (u, k) => .error (.bad k .dataLost u)
    | none =>
    if reqOk w v.grp.blk r then .ok r else .error (.bad 2 .prot (v.grp.word f.a.r.toNat L).toNat)
  | c => .error c

def engineHolds (p : Package) (core : Nat) : Nat := (p.reqs.filter fun e => e.2.core == core).length

/-- A kick puts one request of a lane behind the others, with the promise the engine is to write: an estimate, a free value
(R263). -/
def kick (f : CpykF) (v : View) (L : Fin 8) (r : List Byte) (w : Work) : Work :=
  let (id, w) := w.newId
  let rel := chainRelease w.pk v.grp f.hd.toNat
  let q : Req := ⟨v.grp.core, v.g, v.grp.blk, v.grp.ctx, r,
    (v.grp.word f.a.r.toNat L).setWidth 64, L.val, f.scope, rel, false, [],
    fld r 40 8, some (f.d.toNat, Config.freeTime w.pk.free), none⟩
  w.mapPk fun p => { p with reqs := p.reqs.insert id q, free := p.free + 1 }

/-- The first lanes whose requests the engine has room for are kicked, and the split waits for room for the others (R263, R403
WAITK 4). -/
def cpykKick (f : CpykF) (v : View) (rs : List (Fin 8 × List Byte)) (w : Work) : Done :=
  let now := rs.take (engineSize - engineHolds w.pk v.grp.core)
  let left := rs.drop now.length
  let m (l : List (Fin 8 × List Byte)) : Mask := l.foldl (fun m e => m.set e.1 true) Mask.none
  if now.isEmpty && !left.isEmpty then .wait (.engineRoom 1)
  else
    let w := w.updGroup v.g fun g =>
      (g.writeVal f.d.toNat 2 false (Mask.diff v.act v.real) (Lanes.splat 0)).emptyRegs f.d.toNat 2 (m now)
    let w := w.each now fun e w => kick f v e.1 e.2 w
    if left.isEmpty then done w else .halt (w.updGroup v.g fun g => g.restOf (m left) (.engineRoom 1))

/-- The records are read once the kick's lanes may read them (R232), and checked. -/
def cpykBody (f : CpykF) (v : View) (w : Work) : Done :=
  match accessWait w.pk v f.hd.toNat (v.real.lanes.flatMap (cpykKeys f v w)) false with
  | some k => .wait k
  | none =>
  let rs := v.real.lanes.map fun L => (L, cpykRec f v w L)
  let bad : Mask := rs.foldl (fun m e => match e.2 with
    | .error (.bad _ .dataLost _) => m
    | .error (.bad ..) => m.set e.1 true
    | _ => m) Mask.none
  let lost := rs.findSome? fun e => match e.2 with
    | .error (.bad k .dataLost u) => some (e.1, u, k)
    | _ => none
  let waits := rs.findSome? fun e => match e.2 with
    | .error (.member b) => some b
    | _ => none
  if bad.any then .trap .prot bad ((v.grp.word f.a.r.toNat (bad.lanes.headD 0)).toNat) 0
  else match lost, waits with
  | some (L, u, k), _ => .trap .dataLost (Mask.none.set L true) u k
  | none, some b => .wait (.member b)
  | none, none => cpykKick f v (rs.filterMap fun e => match e.2 with
      | .ok r => some (e.1, r)
      | .error _ => none) w

def execCpyk (f : CpykF) (s : State) : Host.Outcome State Fault Refusal := issue s f.h (cpykNeed f) (cpykBody f)

/-! ## `arrx` and `bwait` (R267, R268) -/

def arrxNeed (f : ArrxF) (_ : View) : Need := { reads := f.a.rds 1 1 }

def arrxBody (f : ArrxF) (v : View) (w : Work) : Done :=
  if !v.act.any then done w
  else if !v.real.any then done (w.writeS v f.d 0)
  else
    let a := v.uni f.a 1
    let n := v.sop f.b
    match chkLocal w v.grp.blk a 32 with
    | .bad _ code addr => .trap code v.act addr 0
    | .member b => .wait (.member b)
    | .ok ks =>
      if n ≥ 2 ^ 40 then .trap .prot v.act a 0
      else
        let b := w.bytes ks
        match accessWait w.pk v 0 ks true with
        | some k => .wait k
        | none =>
        match w.badAt ks with
        | some (u, k) => .trap .dataLost v.act u k
        | none =>
        if fld b 8 4 = 0 then .wait (.arrivals (ks.headD 0))
        else done ((w.write ks (barArrive b n)).writeS v f.d (fld b 12 4 % 2 ^ 31))

def execArrx (f : ArrxF) (s : State) : Host.Outcome State Fault Refusal := issue s f.h (arrxNeed f) (arrxBody f)

/-- The code of an error's reason (R265). -/
def reasonCode (n : Nat) : Code :=
  match n with
  | 1 => .copyAddr
  | 2 => .prot
  | 3 => .blkFmt
  | _ => .dataLost

/-- The fault that a barrier's error raises: EWORD, with the barrier's address, or for lost data the kind of place, or for
`PROT` nothing (R268, R379). -/
def barFault (w : Work) (key : Nat) (b : List Byte) (a : Nat) : Code × Nat × Nat :=
  let code := reasonCode (fld b 24 8 / 2 ^ 56)
  (code, fld b 24 8, match code with
    | .prot => 0
    | .dataLost => FMap.getD w.pk.lostKinds 0 key
    | _ => a)

def bwaitNeed (f : BwaitF) (_ : View) : Need :=
  { reads := f.a.rds 1 1 ++ match f.prom with
      | some u => u.rds 2 0 false
      | none => [] }

/-- P of R268: the scalar, or the largest of the active lanes. -/
def promiseOf (v : View) (u : Uni) : Nat := v.act.lanes.foldl (fun t L => max t (v.uniIn u 2 L)) 0

def graceOf (w : Work) (cn : Nat) : Nat :=
  match w.ctx? cn with
  | some c => c.grace
  | none => 1024

/-- The issue at the resume mark makes no promise check and clears the mark (R382). -/
def bwaitBody (f : BwaitF) (v : View) (w : Work) : Done :=
  once v w fun w =>
    let a := v.uni f.a 1
    let n := v.sop f.b
    if n ≥ 2 ^ 31 then .trap .prot v.act a 0
    else match chkLocal w v.grp.blk a 32 with
    | .bad _ code addr => .trap code v.act addr 0
    | .member b => .wait (.member b)
    | .ok ks =>
      let marked := v.grp.resume == some v.pc
      let w := if marked then w.updGroup v.g fun g => { g with resume := none } else w
      let b := w.bytes ks
      match accessWait w.pk v f.hd.toNat ks false with
      | some k => .wait k
      | none =>
      match w.badAt ks with
      | some (u, k) => .trap .dataLost v.act u k
      | none =>
      if barPhasePassed b n then done w
      else if barErr b then
        let e := barFault w (ks.headD 0) b a
        .failed e.1 v.act e.2.1 e.2.2
      else
        match (if marked then none else f.prom) with
        | none => .ok w { block := some (.bwait (ks.headD 0) n none (BitVec.ofNat 64 a)) }
        | some u =>
          let p := promiseOf v u
          if w.pk.cycle.toNat ≥ p + graceOf w v.grp.ctx then .trap .promiseMiss v.act p a
          else .ok w { block := some (.bwait (ks.headD 0) n (some (BitVec.ofNat 64 p)) (BitVec.ofNat 64 a)) }

def execBwait (f : BwaitF) (s : State) : Host.Outcome State Fault Refusal := issue s f.h (bwaitNeed f) (bwaitBody f)

/-- Makes split k of a group current and ready at its instruction, to raise the fault that ends its wait. -/
def Group.wakeAt (g : Group) (k : Nat) : Group :=
  match g.splits.drop k ++ g.splits.take k with
  | [] => g
  | s :: ss =>
    { g with splits := { s with cond := .ready, finish := false, quant := 0 } :: ss, bypass := if k = 0 then g.bypass else [] }

/-- The active lanes of the instruction a blocked split waits at: those its guard selects, as the word there says. -/
def guardLanes (w : Work) (g : Group) (m : Mask) : Mask :=
  match fetchWord w g (g.pcOf m) with
  | .ok x =>
    let gp := (x.toNat / 2 ^ 82) % 8
    let gn := x.toNat / 2 ^ 85 % 2 == 1
    Lanes.ofFn fun L => m.get L && ((g.lane L).p gp != gn)
  | .error _ => m

/-- A wait that ends with a fault of its instruction; of lost data the engine has sent the notice (R376). -/
def failWait (w : Work) (gi k : Nat) (code : Code) (addr info : Nat) : Work :=
  w.onGroup gi fun g w =>
    match g.splits[k]? with
    | none => w
    | some s =>
      let lanes := guardLanes w g s.lanes
      raiseRec (w.updGroup gi fun g => g.wakeAt k) gi (g.pcOf s.lanes) code lanes addr info false

/-- The promise of a waiting `bwait` is missed: P plus the grace period has come (R268). -/
def promiseMiss (gi k : Nat) (w : Work) : Work :=
  w.onGroup gi fun g w =>
    match g.splits[k]? with
    | some s =>
      match s.cond with
      | .blocked (.bwait key v (some p) loc) =>
        let b := w.bytes (keysFrom key 32)
        if w.pk.cycle.toNat ≥ p.toNat + graceOf w g.ctx ∧ !barPhasePassed b v ∧ !barErr b ∧ g.stat = .resident ∧
            (g.handler.isNone ∨ g.mayIssue { s with cond := .ready }) then
          failWait w gi k .promiseMiss p.toNat loc.toNat
        else w
      | _ => w
    | none => w

def execPromiseMiss (g sp : Nat) (s : State) : Host.Outcome State Fault Refusal := .next (s.run (promiseMiss g sp))

/-! ## The request engine (R264, R270 to R273) -/

def Req.xfer (q : Req) (ln : Nat) : Xfer where
  cn := q.ctx
  lnch := ln
  blk := q.blk
  die := coreDie q.core
  kind := fld q.rec_ 0 1
  sspace := fld q.rec_ 1 1 % 16
  dspace := fld q.rec_ 1 1 / 16
  src := fld q.rec_ 8 8
  dst := fld q.rec_ 16 8
  size := fld q.rec_ 24 8
  shape := q.shape

def Req.bar (q : Req) : Nat := fld q.rec_ 32 4
def Req.handle (q : Req) : Nat := fld q.rec_ 3 1

def setReq (w : Work) (id : Nat) (q : Req) : Work := w.mapPk fun p => { p with reqs := p.reqs.insert id q }
def dropReq (w : Work) (id : Nat) : Work := w.mapPk fun p => { p with reqs := p.reqs.erase id }

/-- The barrier stands with a gang member that has not started or is saved: what the request does to it waits (R97). -/
def barAway (w : Work) (q : Req) : Bool :=
  match localRange w q.blk q.bar 32 with
  | .member _ => true
  | _ => false

/-- The request ends with an error on its barrier. -/
def failReq (w : Work) (id : Nat) (q : Req) (reason : Nat) : Work :=
  if barAway w q then w else dropReq (onBar w q.blk q.bar fun b => barFail b reason q.loc.toNat) id

/-- Lost data has failed the request: its barrier remembers the kind of place (R379), and the host is told (R376). -/
def lostReq (w : Work) (id : Nat) (q : Req) (ln addr kind : Nat) : Work :=
  if barAway w q then w
  else
  let key := (barKeys w q.blk q.bar).headD 0
  let first := fld (w.bytes (keysFrom key 32)) 24 8 == 0
  let w := failReq w id q 4
  let w := if first then w.mapPk fun p => { p with lostKinds := FMap.put p.lostKinds 0 key kind } else w
  hostRec w (bareRec .dataLost .n q.ctx ln addr kind)

/-- The launch of a block, for records. -/
def lnchOf (w : Work) (blk : Nat) : Nat :=
  match w.block? blk with
  | some b => b.lnch
  | none => 0

/-- The 192 bytes of a shape record through the record cache of a core: where the cache holds other bytes than memory,
the use is of either, whole (R270). -/
def shapeRead (w : Work) (core cn va : Nat) : Except Chk (List Byte) × Work :=
  if va % 64 ≠ 0 then (.error (.bad 2 .prot va), w)
  else
    match chkRange w cn .load va 192 with
    | (.ok ks, w) =>
      let now := w.bytes ks
      let key := recKey cn va
      match w.badAt ks with
      | some (u, k) => (.error (.bad k .dataLost u), w)
      | none =>
      match w.pk.recCache.find? fun e => e.1 == core && e.2.1 == key with
      | some (_, _, old) =>
        if old = now then (.ok now, w)
        else
          let w' := w.mapPk fun p => { p with free := p.free + 1 }
          if Config.staleRecord w.pk.free then (.ok old, w')
          else (.ok now, w'.mapPk fun p => { p with
            recCache := (core, key, now) :: p.recCache.filter fun e => !(e.1 == core && e.2.1 == key) })
      | none =>
        let mine := (w.pk.recCache.filter fun e => e.1 == core).take 63
        (.ok now, w.mapPk fun p => { p with
          recCache := (core, key, now) :: mine ++ p.recCache.filter fun e => e.1 != core })
    | (c, w) => (.error c, w)

/-- No earlier request of the core stands unaccepted with its kick's order met. -/
def firstToTake (p : Package) (core n : Nat) : Bool :=
  !(p.reqs.any fun e => e.2.core == core && e.1 < n && !e.2.accepted && e.2.paused.isNone && e.2.preds.met p)

/-- The engine writes the promise of a request into its lane's pair (R24, R263). -/
def writePromise (w : Work) (n : Nat) (q : Req) (d : Nat) (p : W64) : Work :=
  let w := w.updGroup q.g fun g =>
    g.landRegs d 2 (Lanes.ofFn fun L => L.val == q.lane) (Lanes.splat p.toNat)
  setReq w n { q with promise := none }

/-- The engine takes a request: it promises, then, once the kick's order is met, reads the shape record and checks the
addresses (R271), also while an earlier request with its HANDLE still writes (log entry 131). -/
def acceptReq (core n : Nat) (w : Work) : Work :=
  match w.pk.reqs.find? n with
  | none => w
  | some q =>
    match (if q.core = core then q.promise else none) with
    | some (d, p) => writePromise w n q d p
    | none =>
    if q.core ≠ core ∨ q.accepted ∨ q.paused.isSome ∨ !q.preds.met w.pk ∨ !firstToTake w.pk core n then w
    else
      let kind := fld q.rec_ 0 1
      let (r, w) := if kind = 0 then (.ok [], w) else shapeRead w core q.ctx (fld q.rec_ 24 8)
      match r with
      | .error (.bad _ .page a) =>
        let w := setReq w n { q with paused := some (BitVec.ofNat 64 a) }
        hostRec w (bareRec .page .r q.ctx (lnchOf w q.blk) a 3)
      | .error (.bad k .dataLost u) => lostReq w n q (lnchOf w q.blk) u k
      | .error _ => failReq w n q 2
      | .ok sh =>
        let q := { q with accepted := true, shape := sh }
        match (q.xfer (lnchOf w q.blk)).refused w with
        | some reason => failReq w n q reason
        | none => setReq w n q

def execCopyRequestAccept (core n : Nat) (s : State) : Host.Outcome State Fault Refusal := .next (s.run (acceptReq core n))

/-- The request may move bytes: no earlier one of its core with its HANDLE still has writes to perform (R264). -/
def reqMoves (p : Package) (id : Nat) (q : Req) : Bool :=
  q.accepted && q.paused.isNone &&
    !(p.reqs.any fun e => e.2.core == q.core && e.1 < id && e.2.handle == q.handle)

/-- Bytes of a request land, up to a piece that meets a fault, and are counted on its barrier (R266). -/
def landReq (id : Nat) (w : Work) : Work :=
  match w.pk.reqs.find? id with
  | none => w
  | some q =>
    if !reqMoves w.pk id q ∨ barAway w q then w
    else
      let x := q.xfer (lnchOf w q.blk)
      let (n, r, w') := x.advance w q.done
      if n = 0 ∧ r.isSome then w
      else
        let w := onBar w' q.blk q.bar fun b => barLand b n
        if q.done + n ≥ x.total then dropReq w id else setReq w id { q with done := q.done + n }

def execLand (req : Nat) (s : State) : Host.Outcome State Fault Refusal := .next (s.run (landReq req))

/-- The next piece of a request meets a fault of R272. -/
def copyFault (id : Nat) (e : CopyErr) (w : Work) : Work :=
  match w.pk.reqs.find? id with
  | none => w
  | some q =>
    match reqMoves w.pk id q, (q.xfer (lnchOf w q.blk)).advance w q.done with
    | true, (0, some (.bad e' addr kind), _) =>
      if e ≠ e' then w
      else match e with
      | .page =>
        let w := setReq w id { q with paused := some (BitVec.ofNat 64 addr) }
        hostRec w (bareRec .page .r q.ctx (lnchOf w q.blk) addr 3)
      | .prot => failReq w id q 2
      | .blkFmt => failReq w id q 3
      | .dataLost => lostReq w id q (lnchOf w q.blk) addr kind
    | _, _ => w

def execCopyFault (req : Nat) (e : CopyErr) (s : State) : Host.Outcome State Fault Refusal := .next (s.run (copyFault req e))

/-! ## Publishable buffers (R277, R278) -/

/-- The buffer whose object stands at a virtual address of a context: it must be mapped and aligned. -/
def pubObject (w : Work) (cn va : Nat) : Except Chk Pub × Work :=
  if va % 64 ≠ 0 then (.error (.bad 2 .prot va), w)
  else
    match chkGlobal w cn .load va 64 64 with
    | (.ok ks, w) =>
      match w.pk.pubs.find? fun b => some b.obj == ks.head? with
      | some b => (.ok b, w)
      | none => (.error (.bad 5 .prot va), w)
    | (c, w) => (.error c, w)

/-- The object of `pub`: an address that is not mapped raises `PROT` (R278). -/
def pubOperand (w : Work) (cn va : Nat) : Except Chk Pub × Work :=
  match pubObject w cn va with
  | (.error (.bad 4 _ a), w) => (.error (.bad 4 .prot a), w)
  | r => r

/-- One step at the object's home slice: CUR is inverted and PUBS counts. -/
def publish (w : Work) (obj : Nat) : Work :=
  let cur := w.num (obj + 32) 4
  let w := w.write (keysFrom (obj + 32) 4) (valBytes 4 (cur ^^^ 1))
  w.write (keysFrom (obj + 36) 4) (valBytes 4 ((w.num (obj + 36) 4 + 1) % 2 ^ 32))

/-- The walks of channels, those of descheduled contexts among them, with their cores. -/
def allWalks (p : Package) : List (Nat × Chan) :=
  p.chans.map (fun e => (e.1 / 4, e.2)) ++ p.heldWalks.map fun e => (e.1, e.2.2)

/-- The walk has a record in hand whose transfer is not done. -/
def Chan.moving (x : Chan) : Option Hand :=
  match x.hand with
  | some h => if h.closed then none else some h
  | none => none

/-- An engine request that targets a buffer's shadow is in flight. -/
def shadowBusy (p : Package) (obj : Nat) : Bool :=
  ((allWalks p).any fun e => (e.2.moving.bind Hand.obj) == some obj) ||
    (p.colls.any fun e => e.2.obj == obj && !e.2.committed)

def pubReady (p : Package) (g : Group) (obj h : Nat) : Bool := !shadowBusy p obj && (chainRelease p g h).met p

def pubBody (f : HuniF) (v : View) (w : Work) : Done :=
  if !v.real.any then done w
  else
    match pubOperand w v.grp.ctx (v.uni f.a 2) with
    | (.error (.bad _ code addr), _) => .trap code v.act addr 0
    | (.error _, w) => done w
    | (.ok b, w) =>
      if pubReady w.pk v.grp b.obj f.hd.toNat then done (publish w b.obj)
      else .wait (.pub b.obj f.hd.toNat)

def execPub (f : HuniF) (s : State) : Host.Outcome State Fault Refusal := issue s f.h (huniNeed f 8) (pubBody f)

/-! ## Chains (R274 to R276) -/

def Chan.fresh : Chan := ⟨.idle, 0, 0, 0, 0, ⟨[], []⟩, none, none, 0⟩
def chanKey (core c : Nat) : Nat := core * 4 + c
def chanOf (p : Package) (core c : Nat) : Chan := FMap.getD p.chans Chan.fresh (chanKey core c)
def setChan (w : Work) (core c : Nat) (x : Chan) : Work :=
  w.mapPk fun p => { p with chans := FMap.put p.chans Chan.fresh (chanKey core c) x }

def Chan.busy (x : Chan) : Bool :=
  match x.st with
  | .walking | .paused => true
  | _ => false

def chainNeed (f : ChainF) (_ : View) : Need := { reads := f.a.rds 2 1 }

def chainBody (f : ChainF) (v : View) (w : Work) : Done :=
  if !v.real.any then done w
  else
    let a := v.uni f.a 2
    let x := chanOf w.pk v.grp.core f.c.toNat
    if a % 128 ≠ 0 ∨ !canonical a then .trap .prot v.act a 0
    else if x.busy then .wait (.chanIdle v.grp.core f.c.toNat)
    else done (setChan w v.grp.core f.c.toNat { x with
      st := .walking, next := BitVec.ofNat 64 a, ctx := v.grp.ctx, lnch := v.grp.lnch
      preds := chainRelease w.pk v.grp f.hd.toNat })

def execChain (f : ChainF) (s : State) : Host.Outcome State Fault Refusal := issue s f.h (chainNeed f) (chainBody f)

/-- The register of R276. -/
def chanStatus (x : Chan) : Nat :=
  let st := match x.st with
    | .idle => 0
    | .walking => 1
    | .stopped => 2
    | .paused => 3
  let cur := (if x.busy then x.next else x.cur).toNat
  cur % 2 ^ 57 / 2 ^ 7 * 2 ^ 7 + st

/-- A channel whose last walk was another context's shows the reset state (R352; log entry 108). -/
def chstBody (f : ChstF) (v : View) (w : Work) : Done :=
  once v w fun w =>
    let x := chanOf w.pk v.grp.core f.c.toNat
    done (w.writeS v f.d (if x.ctx = v.grp.ctx then chanStatus x else 0))

def execChst (f : ChstF) (s : State) : Host.Outcome State Fault Refusal := issue s f.h (fun _ => {}) (chstBody f)

/-- The values of R274; a task that the context does not own is refused (R352; log entry 109). -/
def xrecOk (c : Option Ctx) (r : List Byte) : Bool :=
  let kind := fld r 12 1
  let s := fld r 13 1 % 16
  let d := fld r 13 1 / 16
  let owns (t : Nat) : Bool := match c with
    | some c => decide (t < 65536 ∧ c.taskLo ≤ t ∧ t < c.taskLo + c.taskN)
    | none => false
  fld r 0 8 % 128 == 0 && decide (fld r 8 4 < 4 ∧ kind ≤ 2 ∧ fld r 14 1 ≤ 3 ∧ fld r 15 1 ≤ 5) &&
    (s == 0 || s == 2) && (d == 0 || d == 2 || d == 3) &&
    (kind != 1 || (s == 0 && fld r 16 8 == 0)) && (kind != 2 || (d == 0 && fld r 24 8 == 0)) &&
    (owns (fld r 48 4) || fld r 48 4 == 0xFFFFFFFF) && allZero (r.drop 64)

/-- A region of the weight store that a launch has sealed meets the bytes. -/
def sealed (p : Package) (die lo hi : Nat) : Bool := p.seals.any fun s => s.die == die && s.lo < hi && lo < s.hi

/-- The record in hand ends: STATUS is written before OWN is cleared (R275). -/
def closeRecord (w : Work) (ks : List Nat) (status : Nat) : Work :=
  let w := w.write ((ks.drop 52).take 4) (valBytes 4 status)
  w.write ((ks.drop 8).take 4) (valBytes 4 (w.num (ks.headD 0 + 8) 4 / 2 * 2))

/-- The walk after its record: stopped, idle, or at the next record. -/
def Chan.after (x : Chan) (st : ChSt) : Chan :=
  { x with st := st, cur := x.next, page := none, hand := none, done := 0, preds := ⟨[], []⟩ }

def chainFail (w : Work) (core c : Nat) (x : Chan) (ks : List Nat) (status : Nat) : Work :=
  setChan (closeRecord w ks status) core c (x.after .stopped)

/-- A walk meets lost data: it stops, and the host is told (R272, R376). -/
def chainLost (w : Work) (core c : Nat) (x : Chan) (ks : List Nat) (addr kind : Nat) : Work :=
  hostRec (chainFail w core c x ks 5) (bareRec .dataLost .n x.ctx x.lnch addr kind)

/-- A page met by the walk pauses it, and the host is told (R272, R275). -/
def chainPause (w : Work) (core c : Nat) (x : Chan) (addr : Nat) : Work :=
  let w := setChan w core c { x with st := .paused, page := some (BitVec.ofNat 64 addr) }
  hostRec w (bareRec .page .r x.ctx x.lnch addr 3)

/-- The transfer that a record describes, with its shape record. -/
def recXfer (core : Nat) (x : Chan) (r shape : List Byte) : Xfer :=
  ⟨x.ctx, x.lnch, 0, coreDie core, fld r 12 1, fld r 13 1 % 16, fld r 13 1 / 16, fld r 16 8, fld r 24 8, fld r 32 8, shape⟩

/-- The transfer of the record in hand, to the place fixed at its acceptance. -/
def Hand.xfer (h : Hand) (core : Nat) (x : Chan) : Xfer := { recXfer core x h.rec_ h.shape with dst := h.dst }

/-- The bytes of the weight store that a walk still writes. -/
def walkDest (core : Nat) (x : Chan) : Option (Nat × Nat × Nat) :=
  match x.moving with
  | some h => let t := h.xfer core x; if t.dspace = 2 then some (t.die, t.dst, t.dst + t.total) else none
  | none => none

/-- Acceptance resolves the destination: for a shadow the object at DST gives the backing (R277). -/
def acceptDst (w : Work) (x : Chan) (t : Xfer) : Except Chk (Nat × Option Nat) × Work :=
  if t.dspace = 3 then
    match pubObject w x.ctx t.dst with
    | (.ok b, w) => (if t.total ≤ b.len then .ok (w.shadow b, some b.obj) else .error (.bad 2 .prot t.dst), w)
    | (.error c, w) => (.error c, w)
  else (.ok (t.dst, none), w)

/-- The record is done and published where it asks: its task is decremented, and the walk goes on or ends. -/
def chainNext (w : Work) (core c : Nat) (x : Chan) (r : List Byte) : Work :=
  let w := if fld r 48 4 < 65536 then updTask w (fld r 48 4) (Task.minus 1) else w
  setChan w core c (if fld r 0 8 = 0 then x.after .idle
    else { x.after .walking with next := BitVec.ofNat 64 (fld r 0 8) })

/-- A record that is done is published as `pub` does, once no other engine request targets the buffer's shadow (R275). -/
def chainPublish (w : Work) (core c : Nat) (x : Chan) (h : Hand) : Work :=
  match (if bitAt (fld h.rec_ 8 4) 1 = 1 then h.obj else none) with
  | some o => if shadowBusy w.pk o then w else chainNext (publish w o) core c x h.rec_
  | none => chainNext w core c x h.rec_

/-- Performs the transfer of the record in hand from the bytes already done; the record's own bytes may be written. -/
def chainMove (w : Work) (core c : Nat) (x : Chan) (ks : List Nat) (h : Hand) : Work :=
  let t := h.xfer core x
  let (n, res, w) := t.advanceTo w x.done t.total
  match res with
  | none =>
    let x := { x with hand := some { h with closed := true }, done := x.done + n }
    chainPublish (setChan (closeRecord w ks 1) core c x) core c x { h with closed := true }
  | some (.bad .page addr _) => chainPause w core c { x with done := x.done + n } addr
  | some (.bad .prot _ _) => chainFail w core c x ks 3
  | some (.bad .blkFmt _ _) => chainFail w core c x ks 4
  | some (.bad .dataLost addr kind) => chainLost w core c x ks addr kind
  | some _ => setChan w core c { x with done := x.done + n }

/-- A record that the engine owns is accepted: its shape record is read, its addresses are checked, and its destination is
fixed (R270, R271, R274, R277). -/
def chainAccept (w : Work) (core c : Nat) (x : Chan) (ks : List Nat) (r : List Byte) : Work :=
  let (sh, w) := if fld r 12 1 = 0 then (.ok [], w) else shapeRead w core x.ctx (fld r 40 8)
  match sh with
  | .error (.bad _ .page a) => chainPause w core c x a
  | .error (.bad k .dataLost u) => chainLost w core c x ks u k
  | .error _ => chainFail w core c x ks 3
  | .ok sh =>
    let t := recXfer core x r sh
    match acceptDst w x t with
    | (.error (.bad _ .page a), w) => chainPause w core c x a
    | (.error _, w) => chainFail w core c x ks 3
    | (.ok (dst, obj), w) =>
      let t := { t with dst := dst }
      match t.refused w with
      | some 1 => chainFail w core c x ks 2
      | some _ => chainFail w core c x ks 3
      | none =>
        if t.dspace = 2 ∧ sealed w.pk t.die t.dst (t.dst + t.total) then chainFail w core c x ks 3
        else
          let h : Hand := ⟨r, sh, dst, obj, false⟩
          chainMove w core c { x with hand := some h, done := fld r 56 8 } ks h

/-- A release that wrote a record, and that the engine's read of it acquires at the record's SCOPE, has accesses before it still
to perform: the read waits (R236, R239, R275). -/
def recordWaits (w : Work) (core : Nat) (ks : List Nat) : Bool :=
  !(acquireOpen w.pk 0 core ((scopeOf (fld (w.bytes ks) 15 1)).getD .sys) ks).isEmpty

/-- A channel reads one record and performs it (R275). -/
def chainStep (core c : Nat) (w : Work) : Work :=
  let x := chanOf w.pk core c
  let stop (w : Work) : Work := setChan w core c (x.after .stopped)
  if x.st ≠ .walking ∨ !x.preds.met w.pk ∨ !scheduledOn w.pk x.ctx (coreDie core) then w
  else
    match x.hand with
    | some h =>
      if h.closed then chainPublish w core c x h
      else match chkRange w x.ctx .store x.next.toNat 128 with
        | (.bad _ .page a, w) => chainPause w core c x a
        | (.bad .., w) | (.member _, w) => stop w
        | (.ok ks, w) => chainMove w core c x ks h
    | none =>
      match chkRange w x.ctx .load x.next.toNat 128 with
      | (.bad _ .page a, w) => chainPause w core c x a
      | (.bad .., w) | (.member _, w) => stop w
      | (.ok ks, w) =>
        let r := w.bytes ks
        if recordWaits w core ks then w
        else if (w.badAt ks).isNone ∧ bitAt (fld r 8 4) 0 = 0 then
          setChan w core c { x with st := .idle, preds := ⟨[], []⟩ }
        else
          match chkRange w x.ctx .store x.next.toNat 128 with
          | (.bad _ .page a, w) => chainPause w core c x a
          | (.bad .., w) | (.member _, w) => stop w
          | (.ok ks, w) =>
            match w.badAt ks with
            | some (u, k) => chainLost w core c x ks u k
            | none => if xrecOk (w.ctx? x.ctx) r then chainAccept w core c x ks r else chainFail w core c x ks 3

def execChainRecord (core chan : Nat) (s : State) : Host.Outcome State Fault Refusal := .next (s.run (chainStep core chan))

/-! ## `ldw` (R99, R106, R369) -/

/-- The granted regions that the bytes lie in. -/
def wsRegions (w : Work) (cn die ea n : Nat) : List (Nat × Nat × Nat) :=
  match w.ctx? cn with
  | some c => c.wsrs.filter fun (d, lo, hi) => d == die && decide (ea < hi ∧ lo < ea + n)
  | none => []

/-- A region that a launch reads for the first time, while an accepted chain record still writes it. -/
def regionWait (p : Package) (lnch : Nat) (r : Nat × Nat × Nat) : Bool :=
  !(p.seals.any fun s => s.lnch == lnch && s.die == r.1 && s.lo == r.2.1) &&
    (allWalks p).any fun e => match walkDest e.1 e.2 with
      | some (d, lo, hi) => d == r.1 && lo < r.2.2 && r.2.1 < hi
      | none => false

/-- A launch seals a region with its first read. -/
def sealRegion (w : Work) (cn lnch : Nat) (r : Nat × Nat × Nat) : Work :=
  if w.pk.seals.any fun s => s.lnch == lnch && s.die == r.1 && s.lo == r.2.1 then w
  else w.mapPk fun p => { p with seals := p.seals ++ [(⟨cn, lnch, r.1, r.2.1, r.2.2⟩ : Region)] }

/-- The regions that reads of a group touch: wait for accepted writers, or seal; the block keeps its die (R408). -/
def touchRegions (w : Work) (g : Group) (rs : List (Nat × Nat × Nat)) : Except Wait Work :=
  match rs.find? (regionWait w.pk g.lnch) with
  | some (d, lo, hi) => .error (.region d lo hi)
  | none =>
    let w := w.each rs fun r w => sealRegion w g.ctx g.lnch r
    .ok (w.updBlock g.blk fun b => { b with usedWs := true })

def ldwNeed (f : MemF) (v : View) : Need := { memNeed f true v with ws := true }

def ldwBody (f : MemF) (v : View) (w : Work) : Done :=
  let n := widthBytes f.width
  if !v.act.any then done w
  else
    let die := coreDie v.grp.core
    let (cs, w) := checkLanes w v fun L w => (chkWs w v.grp.ctx die (v.ea f.mem L) n n, w)
    match accessFault v cs .load, roomWait w.pk v f.hd.toNat with
    | some d, _ => d
    | none, some k => .wait k
    | none, none =>
      let rs := v.act.lanes.flatMap fun L => match cs.get L with
        | some (.ok _) => wsRegions w v.grp.ctx die (v.ea f.mem L) n
        | _ => []
      match touchRegions w v.grp rs.eraseDups with
      | .error k => .wait k
      | .ok w =>
        let ops := Lanes.ofFn fun L => loadOp (v.ea f.mem L) (cs.get L)
        let t := mkTxn v f.hd.toNat f.scope f.ord (.load f.d.r.toNat (bytesRegs n) n) ops
        let w := w.updGroup v.g fun g => g.emptyRegs f.d.r.toNat (bytesRegs n) v.act
        done (addTxn w t).2

def execLdw (f : MemF) (s : State) : Host.Outcome State Fault Refusal := issue s f.h (ldwNeed f) (ldwBody f)

end Sys2Proof.Machine
end

