-- ==== Sys2Proof/Machine/Collective.lean ====
section
/-!
DEFINITION. Class 15: collectives and multicast stores (R279 to R285), and the collective unit's commit and aborts. What
other packages contribute arrives with the commit.
-/
namespace Sys2Proof.Machine

/-! ## Records (R280, R281) -/

def cMset (r : List Byte) : Nat := fld r 0 8
def cTag (r : List Byte) : W64 := BitVec.ofNat 64 (fld r 8 8)
def cSrc (r : List Byte) : Nat := fld r 16 8
def cDst (r : List Byte) : Nat := fld r 24 8
def cCount (r : List Byte) : Nat := fld r 32 4
def cType (r : List Byte) : LType := (ltypeOf (fld r 36 1)).getD (.int .i32)
def cLop (r : List Byte) : Lop := (lopOf (fld r 37 1)).getD .add
def cRoot (r : List Byte) : Nat := fld r 38 2
def cTimeout (r : List Byte) : Nat := fld r 48 8

def msetOk (m : List Byte) : Bool :=
  decide (1 ≤ fld m 0 2 ∧ fld m 0 2 ≤ 4096 ∧ fld m 2 2 < fld m 0 2) && fld m 4 4 == 0 && fld m 8 8 % 8 == 0 &&
    allZero (m.drop 24)

/-- Bytes of one element: a pair for `.samp`. -/
def elemBytes (k : CKind) (t : LType) : Nat := if k = .samp then 8 else ltypeBits t / 8

/-- Elements each member writes. -/
def outCount (k : CKind) (n count : Nat) : Nat :=
  match k with
  | .allgat => n * count
  | .redsc => count / n
  | _ => count

/-- The values of a record that `coll` requires (R282). -/
def collOk (k : CKind) (r m : List Byte) : Bool :=
  let t := fld r 36 1
  let op := fld r 37 1
  msetOk m && decide (1 ≤ cCount r ∧ cCount r ≤ 2 ^ 28 ∧ t ≤ 10 ∧ op ≤ 7 ∧ cRoot r < fld m 0 2) && fld r 46 2 == 0 &&
    allZero (r.drop 56) && redPair (cType r) (cLop r) &&
    (k != .samp || (op == 6 && (t == 2 || t == 6 || t == 8))) && (k != .redsc || cCount r % fld m 0 2 == 0)

/-! ## `coll` and `collw` (R282, R284) -/

def huniNeed2 (u : Uni) (_ : View) : Need := { reads := u.rds 2 1, feature := some 5 }

/-- The failure of a read that an instruction of this class makes at issue. -/
def chkTrap (v : View) (c : Chk) : Done :=
  match c with
  | .bad k code addr => .trap code v.act addr (if code = .dataLost then k else 0)
  | .member b => .wait (.member b)
  | .ok _ => .trap .prot v.act 0 0

/-- n aligned bytes of global memory that the collective unit reads. -/
def readAt (w : Work) (cn va n al : Nat) : Except Chk (List Byte) × Work :=
  if va % al ≠ 0 then (.error (.bad 2 .prot va), w)
  else
    match chkRange w cn .load va n with
    | (.ok ks, w) =>
      match w.badAt ks with
      | some (u, k) => (.error (.bad k .dataLost u), w)
      | none => (.ok (w.bytes ks), w)
    | (c, w) => (.error c, w)

/-- n aligned bytes of global memory that an instruction reads at issue on a handle: once what is ordered before the read has
performed (R232, R237), with what the block's staged stores have written there (R214). -/
def readRec (v : View) (h va n al : Nat) (w : Work) (k : List Byte → Work → Done) : Done :=
  if va % al ≠ 0 then .trap .prot v.act va 0
  else
    match chkRange w v.grp.ctx .load va n with
    | (.ok ks, w) =>
      match accessWait w.pk v h ks false, w.badAt ks with
      | some x, _ => .wait x
      | none, some (u, kd) => .trap .dataLost v.act u kd
      | none, none => k (blockBytes w (detOf w v.grp) ks) (noteMet w v.g h v.grp.core ks)
    | (c, _) => chkTrap v c

/-- The record, the member set and the buffer object are read and checked; then the instance is with the unit. -/
def collBody (f : CollF) (v : View) (w : Work) : Done :=
  if !v.real.any then done w
  else
    let a := v.uni f.a 2
    readRec v f.hd.toNat a 128 128 w fun r w =>
      readRec v f.hd.toNat (cMset r) 64 64 w fun m w =>
        if !collOk f.kind r m ∨ (w.pk.colls.any fun e => cTag e.2.bytes == cTag r) then .trap .prot v.act a 0
        else
          match pubObject w v.grp.ctx (cDst r) with
          | (.error c, _) => chkTrap v c
          | (.ok b, w) =>
            if outCount f.kind (fld m 0 2) (cCount r) * elemBytes f.kind (cType r) > b.len then .trap .prot v.act a 0
            else
              let (id, w) := w.newId
              let c : Coll := ⟨v.grp.ctx, v.grp.lnch, f.kind, BitVec.ofNat 64 a, r, fld m 0 2, fld m 2 2, b.obj,
                w.shadow b, false, none, 0, chainRelease w.pk v.grp f.hd.toNat, none⟩
              done (w.mapPk fun p => { p with colls := p.colls.insert id c })

def execColl (f : CollF) (s : State) : Host.Outcome State Fault Refusal := issue s f.h (huniNeed2 f.a) (collBody f)

def collwBody (f : HuniF) (v : View) (w : Work) : Done :=
  if !v.act.any then done w
  else
    let a := v.uni f.a 2
    readRec v f.hd.toNat a 128 128 w fun r w =>
      match fld r 40 4 with
      | 0 => .wait (.collw (BitVec.ofNat 64 a))
      | 1 => done w
      | _ => .trap .collAbort v.act (fld r 44 2) 0

def execCollw (f : HuniF) (s : State) : Host.Outcome State Fault Refusal := issue s f.h (huniNeed2 f.a) (collwBody f)

/-! ## `mcst` (R285) -/

def mcstNeed (f : McstF) (_ : View) : Need :=
  { reads := f.d.rd 1 0 :: f.base.rds 2 2 false, feature := some 5 }

def mcstEa (f : McstF) (v : View) (L : Fin 8) : Nat := v.ea ⟨f.base, none, f.disp⟩ L

/-- The keys of one lane's store at every member, in ascending order of members; each copy is checked as a store. -/
def mcstKeys (w : Work) (cn : Nat) (bases : List Nat) (off : Nat) : Chk × Work :=
  bases.foldl
    (fun (r : Chk × Work) b =>
      let (c, w) := chkGlobal r.2 cn .store ((b + off) % 2 ^ 64) 4 4
      (r.1.andThen c, w)) (.ok [], w)

def mcstLane (w : Work) (cn : Nat) (m : List Byte) (bases : List Nat) (ea : Nat) : Chk × Work :=
  let base := bases.getD (fld m 2 2) 0
  if ea % 4 ≠ 0 ∨ ea < base ∨ base + fld m 16 8 < ea + 4 then (.bad 2 .prot ea, w) else mcstKeys w cn bases (ea - base)

def mcstBody (f : McstF) (v : View) (w : Work) : Done :=
  if !v.real.any then done w
  else
    let a := v.s f.set
    readRec v f.hd.toNat a 64 64 w fun m w =>
      if !msetOk m then .trap .prot v.act a 0
      else
        readRec v f.hd.toNat (fld m 8 8) (8 * fld m 0 2) 8 w fun list w =>
          let bases := (List.range (fld m 0 2)).map fun i => fld list (8 * i) 8
          let (cs, w) := checkLanes w v fun L w => mcstLane w v.grp.ctx m bases (mcstEa f v L)
          match accessFault v cs .store, roomWait w.pk v f.hd.toNat with
          | some d, _ => d
          | none, some k => .wait k
          | none, none =>
            let data (L : Fin 8) : List Byte := (bases.map fun _ => valBytes 4 (v.src f.d 1 L)).flatten
            let ops := storeOps v.real (mcstEa f v) cs data
            done (addTxn w (mkTxn v f.hd.toNat .sys .plain .store ops)).2

def execMcst (f : McstF) (s : State) : Host.Outcome State Fault Refusal := issue s f.h (mcstNeed f) (mcstBody f)

/-! ## The collective unit (R282, R283) -/

/-- The tree of R178 over the members, widened to a power of two: pairs are combined, level by level. -/
def treePairs (t : LType) (op : Lop) : List (Option Node) → List (Option Node)
  | a :: b :: ls => (combOpt t op a b).1 :: treePairs t op ls
  | ls => ls

def treeRoot (t : LType) (op : Lop) : Nat → List (Option Node) → Option Node
  | 0, ls => ls.head?.join
  | n + 1, ls => treeRoot t op n (treePairs t op ls)

/-- Levels of the tree over n leaves. -/
def treeLevels (n : Nat) : Nat := ((List.range 13).find? fun k => n ≤ 2 ^ k).getD 12

/-- Element i of a contribution; the index of a `.samp` pair goes with its value. -/
def contribNode (c : Coll) (i : Nat) (bs : List Byte) (m : Nat) : Option Node :=
  let e := elemBytes c.kind (cType c.bytes)
  if c.kind = .samp then some (fld bs (8 * i) 4, fld bs (8 * i + 4) 4) else some (fld bs (e * i) e, m)

/-- One combined element, as it stands in memory. -/
def combined (c : Coll) (parts : List (List Byte)) (i : Nat) : List Byte :=
  let leaves := (parts.zipIdx).map fun (bs, m) => contribNode c i bs m
  let width := 2 ^ treeLevels c.nmem
  match treeRoot (cType c.bytes) (cLop c.bytes) (treeLevels c.nmem) (leaves ++ List.replicate (width - c.nmem) none) with
  | some (v, ix) =>
    if c.kind = .samp then valBytes 4 v ++ valBytes 4 ix else valBytes (elemBytes c.kind (cType c.bytes)) v
  | none => []

/-- The output of this member (R282). -/
def collOut (c : Coll) (parts : List (List Byte)) : List Byte :=
  let n := cCount c.bytes
  match c.kind with
  | .allgat => parts.flatten
  | .bcast => parts.getD (cRoot c.bytes) []
  | .redsc => (List.range (n / c.nmem)).flatMap fun i => combined c parts (c.self * (n / c.nmem) + i)
  | _ => (List.range n).flatMap (combined c parts)

def collOf (p : Package) (tag : W64) : Option (Nat × Coll) := List.find? (fun e => cTag e.2.bytes == tag) p.colls

def setColl (w : Work) (id : Nat) (c : Coll) : Work := w.mapPk fun p => { p with colls := p.colls.insert id c }
def dropColl (w : Work) (id : Nat) : Work := w.mapPk fun p => { p with colls := p.colls.erase id }

/-- A page that the unit meets is reported, and the instance waits for a retry (R272). -/
def pauseColl (w : Work) (id : Nat) (c : Coll) (a : Nat) : Work :=
  hostRec (setColl w id { c with page := some (BitVec.ofNat 64 a) }) (bareRec .page .r c.ctx c.lnch a 3)

/-- The instance ends: FAILED and then STATUS of the record are written, as its tables map it now; a record that they refuse
keeps its bytes. -/
def endColl (w : Work) (id : Nat) (c : Coll) (status failed : Nat) : Work :=
  match chkRange w c.ctx .store c.place.toNat 128 with
  | (.bad _ .page a, w) => pauseColl w id { c with ending := some (status, failed) } a
  | (.bad .., w) | (.member _, w) => dropColl w id
  | (.ok ks, w) =>
    let w := if status = 2 then engineWrite w c.lnch ((ks.drop 44).take 2) (valBytes 2 failed) else w
    dropColl (engineWrite w c.lnch ((ks.drop 40).take 4) (valBytes 4 status)) id

/-- An abort, before the instance commits (R283). -/
def abortColl (w : Work) (id : Nat) (c : Coll) (failed : Nat) : Work :=
  if c.committed ∨ c.ending.isSome then w else endColl w id c 2 failed

/-- Bytes of one member's contribution. -/
def Coll.size (c : Coll) : Nat := cCount c.bytes * elemBytes c.kind (cType c.bytes)

/-- A member contributes: every one, but for `.bcast` only ROOT (R282). -/
def Coll.gives (c : Coll) (m : Nat) : Bool := c.kind != .bcast || m == cRoot c.bytes

/-- The unit has the member's record and what it contributes. -/
def Coll.has (c : Coll) (others : List (Nat × List Byte)) (m : Nat) : Bool :=
  m == c.self || others.any fun o => o.1 == m && (o.2.length == c.size || !c.gives m)

/-- A committed instance publishes as `pub` does, once no other engine request targets the buffer's shadow, and ends. -/
def publishColl (w : Work) (id : Nat) (c : Coll) : Work :=
  if shadowBusy w.pk c.obj then w else endColl (publish w c.obj) id c 1 0

/-- The own contribution: its bytes, none where the member gives none, or the check that fails. -/
def ownPart (w : Work) (c : Coll) : Except Chk (List Byte) × Work :=
  if !c.gives c.self then (.ok [], w)
  else
    readAt w c.ctx (cSrc c.bytes) c.size 1

/-- The own contribution is read, and with those of the other members the output is formed, written to the shadow and
published. A contribution that does not stand ready leaves the instance pending. -/
def commitColl (tag : W64) (others : List (Nat × List Byte)) (w : Work) : Work :=
  match collOf w.pk tag with
  | none => w
  | some (id, c) =>
    if c.page.isSome then w
    else match c.ending with
    | some (status, failed) => endColl w id c status failed
    | none =>
      if c.committed then publishColl w id c
      else if !((List.range c.nmem).all (c.has others)) ∨ !c.preds.met w.pk then w
      else
        match ownPart w c with
        | (.error (.bad _ .page a), w) => pauseColl w id c a
        | (.error (.bad k .dataLost u), w) => hostRec (abortColl w id c c.self) (bareRec .dataLost .n c.ctx c.lnch u k)
        | (.error _, w) => abortColl w id c c.self
        | (.ok own, w) =>
          let parts := (List.range c.nmem).map fun m =>
            if m = c.self then own else ((others.find? fun o => o.1 == m).map Prod.snd).getD []
          let out := collOut c parts
          let c := { c with committed := true }
          publishColl (setColl (engineWrite w c.lnch (keysFrom c.shadow out.length) out) id c) id c

def execCollectiveCommit (tag : W64) (others : List (Nat × List Byte)) (s : State) : Host.Outcome State Fault Refusal :=
  .next (s.run (commitColl tag others))

/-- An abort before commit, for a member that is lost, unreachable, refused or in disagreement (R283). -/
def collectiveAbort (tag : W64) (failed : Nat) (w : Work) : Work :=
  match collOf w.pk tag with
  | some (id, c) => if failed < c.nmem then abortColl w id c failed else w
  | none => w

def execCollectiveAbort (tag : W64) (failed : Nat) (s : State) : Host.Outcome State Fault Refusal :=
  .next (s.run (collectiveAbort tag failed))

def collectiveTimeout (tag : W64) (failed : Nat) (w : Work) : Work :=
  match collOf w.pk tag with
  | some (id, c) =>
    if failed < c.nmem ∧ cTimeout c.bytes ≠ 0 ∧ c.age ≥ cTimeout c.bytes then abortColl w id c failed else w
  | none => w

def execCollectiveTimeout (tag : W64) (failed : Nat) (s : State) : Host.Outcome State Fault Refusal :=
  .next (s.run (collectiveTimeout tag failed))

end Sys2Proof.Machine
end

