-- ==== Sys2Proof/Machine/Control.lean ====
section
/-!
DEFINITION. Class 5: control (R74 to R88).
-/
namespace Sys2Proof.Machine

/-- The target of a displacement in words (R57). -/
def View.target (v : View) (disp : W32) : PC := pcPlus v.pc disp.toInt

/-- A piece of lanes that goes to a code address. -/
def goPiece (m : Mask) (pc : PC) : Piece := ⟨m, pc, .ready, false, 0⟩

/-- The active lanes go to a target; a transfer of control with an active lane is a switch point (R72). -/
def transfer (v : View) (pc : PC) : Ctl := { pieces := [goPiece v.act pc], switch := v.act.any }

def execBra (f : BraF) (s : State) : Host.Outcome State Fault Refusal :=
  issue s f.h (fun _ => {}) fun v w => .ok w (transfer v (v.target f.disp))

/-! ## Indirect transfers (R77, R381) -/

def brxNeed (f : BrxF) (_ : View) : Need := { reads := [f.a.rd 2 1] }

def pcOfVa (x : Nat) : PC := BitVec.ofNat 57 x

/-- The active lanes whose address is no code address: bits [1:0] set, or bits [63:57] that differ from bit 56. -/
def badTargets (f : BrxF) (v : View) : Mask :=
  Lanes.ofFn fun L => v.act.get L && (v.src f.a 2 L % 4 != 0 || !canonical (v.src f.a 2 L))

/-- A transfer of the whole handler split, each lane to the record's PC or to the word after it, is the return transfer
(R381). -/
def isReturn (v : View) (gs : List (Nat × Mask)) : Bool :=
  v.act == v.m && v.grp.returnsTo v.m (gs.map fun e => pcOfVa e.1)

/-- `brx` and `ret`: each active lane goes to its own address. -/
def brxBody (f : BrxF) (v : View) (w : Work) : Done :=
  if (badTargets f v).any then .trap .prot (badTargets f v) (v.src f.a 2 ((badTargets f v).lanes.headD 0)) 0
  else
    let gs := byTarget (v.src f.a 2) v.act.lanes
    .ok w { pieces := gs.map fun e => goPiece e.2 (pcOfVa e.1), switch := v.act.any, ret := isReturn v gs }

def execBrx (f : BrxF) (s : State) : Host.Outcome State Fault Refusal := issue s f.h (brxNeed f) (brxBody f)
def execRet (f : BrxF) (s : State) : Host.Outcome State Fault Refusal := issue s f.h (brxNeed f) (brxBody f)

def callNeed (f : CallF) (_ : View) : Need := { writes := [f.d.wr 2] }

def callBody (f : CallF) (v : View) (w : Work) : Done :=
  .ok (w.writeV v f.d 2 fun _ => (pcVa v.next).toNat) (transfer v (v.target f.disp))

def execCall (f : CallF) (s : State) : Host.Outcome State Fault Refusal := issue s f.h (callNeed f) (callBody f)

/-! ## `switch` (R79) -/

def switchNeed (f : SwitchF) (_ : View) : Need := { reads := [f.a.rd 1 1] }

/-- The active lanes whose value equals case k. -/
def caseLanes (f : SwitchF) (v : View) (k : Fin 8) : Mask :=
  Lanes.ofFn fun L => v.act.get L && (v.grp.word f.a.r.toNat L).toInt == (f.cases.get k).toInt

def switchBody (f : SwitchF) (v : View) (w : Work) : Done :=
  let arms := (laneList.filter fun k => k.val ≤ f.ncase.toNat && (caseLanes f v k).any).map fun k =>
    goPiece (caseLanes f v k) (pcPlus v.pc (f.disp.toInt + k.val * f.stride.toNat))
  .ok w { pieces := arms, switch := !arms.isEmpty }

/-- The case word stands between a `switch` and its successor. -/
def execSwitch (f : SwitchF) (s : State) : Host.Outcome State Fault Refusal :=
  .next (s.run (issueWork s.neg f.h 2 (switchNeed f) (switchBody f)))

/-! ## Rejoin masks (R80 to R84) -/

def joinBody (f : JoinF) (v : View) (w : Work) : Done :=
  let t := v.target f.disp
  done (w.updGroup v.g fun g =>
    (g.setJmask f.j.toNat (v.act.toByte, t)).updLanes fun L l => if v.act.get L then { l with mr := t } else l)

def execJoin (f : JoinF) (s : State) : Host.Outcome State Fault Refusal := issue s f.h (fun _ => {}) (joinBody f)

/-- `waitj` holds the active lanes of the mask at its address; the release of a full mask follows at once in the ring
(`releaseHeld`). On an empty mask it holds nothing, and the address becomes zero. -/
def waitjBody (f : WaitjF) (v : View) (w : Work) : Done :=
  let (mask, addr) := v.grp.jmask f.j.toNat
  let hold := Mask.inter v.act (Mask.ofByte mask)
  if v.pc = addr ∧ mask = 0 then once v w fun w => done (w.updGroup v.g fun g => g.setJmask f.j.toNat (0, 0))
  else if v.pc = addr ∧ hold.any then .ok w { pieces := [⟨hold, v.pc, .held f.j, false, v.next⟩] } else done w

def execWaitj (f : WaitjF) (s : State) : Host.Outcome State Fault Refusal := issue s f.h (fun _ => {}) (waitjBody f)

/-- The layout of R83. -/
def jmaskWord (x : Byte × PC) : Nat := x.2.toNat / 4 * 2 ^ 8 + x.1.toNat
def jmaskOf (g : Group) (x : Nat) : Byte × PC :=
  ((Mask.inter (Mask.ofByte (BitVec.ofNat 8 x)) g.running).toByte, BitVec.ofNat 57 (x / 2 ^ 8 % 2 ^ 55 * 4))

def jrdBody (f : JsF) (v : View) (w : Work) : Done :=
  once v w fun w => done (w.writeS v f.s (jmaskWord (v.grp.jmask f.j.toNat)))

def execJrd (f : JsF) (s : State) : Host.Outcome State Fault Refusal := issue s f.h (fun _ => {}) (jrdBody f)

def jwrBody (f : JsF) (v : View) (w : Work) : Done :=
  once v w fun w => done (w.updGroup v.g fun g => g.setJmask f.j.toNat (jmaskOf g (v.s f.s)))

def execJwr (f : JsF) (s : State) : Host.Outcome State Fault Refusal := issue s f.h (fun _ => {}) (jwrBody f)

/-! ## `yield`, `exit`, `sleep`, `brk`, `trap`, `nop` (R85 to R88) -/

def execYield (f : Bare) (s : State) : Host.Outcome State Fault Refusal :=
  issue s f.h (fun _ => {}) fun _ w => .ok w { switch := true }

def execNop (f : Bare) (s : State) : Host.Outcome State Fault Refusal := issue s f.h (fun _ => {}) fun _ w => done w

/-- Lanes that leave: the lanes of m, and the helpers of a quad that keeps no live lane (R86). -/
def Group.leaving (g : Group) (m : Mask) : Mask :=
  Lanes.ofFn fun L =>
    m.get L || (g.helpers.get L &&
      (laneList.any fun K => K.val / 4 == L.val / 4 && m.get K && g.live.get K) &&
      !(laneList.any fun K => K.val / 4 == L.val / 4 && g.live.get K && !m.get K))

/-- The group without the lanes of out: they are exited, and out of every rejoin mask (R82). -/
def Group.exit (g : Group) (out : Mask) : Group :=
  let g := g.updLanes fun L l => if out.get L then { l with st := .exited, item := none } else l
  { g with jmasks := g.jmasks.mapVals fun _ x => (x.1 &&& ~~~out.toByte, x.2) }

/-- The lanes of m exit, their items finished. -/
def exitLanes (w : Work) (gi : Nat) (m : Mask) : Work :=
  w.onGroup gi fun g w =>
    let w := w.each (g.itemsOf m) fun n w => finishItem w n false
    w.updGroup gi fun y => y.exit (g.leaving m)

def execExit (f : Bare) (s : State) : Host.Outcome State Fault Refusal :=
  issue s f.h (fun _ => {}) fun v w => done (exitLanes w v.g v.act)

def sleepNeed (f : UniF) (_ : View) : Need := { reads := f.a.rds 2 1 false }

/-- `sleep` waits for the largest value its active lanes name (R87). -/
def sleepBody (f : UniF) (v : View) (w : Work) : Done :=
  let t := v.act.lanes.foldl (fun t L => max t (v.uniIn f.a 2 L)) 0
  if v.act.any ∧ w.pk.cycle.toNat < t then .ok w { block := some (.sleep (BitVec.ofNat 64 t)) } else done w

def execSleep (f : UniF) (s : State) : Host.Outcome State Fault Refusal := issue s f.h (sleepNeed f) (sleepBody f)

/-- `brk` stops the block before it retires; after the resume it is passed over (R88, R388). -/
def brkBody (v : View) (w : Work) : Done :=
  if !v.act.any then done w
  else if v.grp.pastBrk = some v.pc then done (w.updGroup v.g fun g => { g with pastBrk := none })
  else
    let w := w.updGroup v.g fun _ => { v.grp with pastBrk := some v.pc }
    .halt (stopBlock w v.grp.blk .brk (groupRec w v.grp .brk .s v.act (pcVa v.pc) 0 0) true)

def execBrk (f : Bare) (s : State) : Host.Outcome State Fault Refusal := issue s f.h (fun _ => {}) brkBody

def trapBody (f : TrapF) (v : View) (w : Work) : Done :=
  if v.act.any then .trap .trap v.act 0 f.n.toNat else done w

def execTrap (f : TrapF) (s : State) : Host.Outcome State Fault Refusal := issue s f.h (fun _ => {}) (trapBody f)

end Sys2Proof.Machine
end

