-- ==== Sys2Proof/Machine/Exchange.lean ====
section
/-!
DEFINITION. Class 3: exchanges, reductions and votes (R172 to R183).
-/
namespace Sys2Proof.Machine

def ltypeRegs (t : LType) : Nat := if ltypeBits t = 64 then 2 else 1

/-! ## Exchanges (R175, R176) -/

/-- The value of the b operand in a lane, of which an exchange uses the low four bits. -/
def exchB (f : ExchF) (v : View) (L : Fin 8) : Nat :=
  match f.b with
  | some (.imm i) => i.toNat
  | some (.reg s) => v.src s 1 L
  | none => 0

/-- The source lane of each exchange for a lane and its b value. -/
inductive Exch where
  | xor (k : Nat) | quad | idx | xorB | down | one
  deriving DecidableEq, Repr

def Exch.source (e : Exch) (L y : Nat) : Nat :=
  match e with
  | .xor k => L ^^^ k
  | .quad => 4 * (L / 4) + y % 4
  | .idx => y % 8
  | .xorB => L ^^^ (y % 8)
  | .down => L + y % 16
  | .one => y % 8

/-- The source lane if it can be read: in range, and live or helper. -/
def exchSource (e : Exch) (f : ExchF) (v : View) (L : Fin 8) : Option (Fin 8) :=
  let s := e.source L.val (exchB f v L)
  if h : s < 8 then (if v.grp.running.get ⟨s, h⟩ then some ⟨s, h⟩ else none) else none

/-- The b register, if it is one, is full in every active lane, so that the source lanes are known. -/
def exchBKnown (f : ExchF) (v : View) : Bool :=
  match f.b with
  | some (.reg s) => !(emptyIn v.grp s.r.toNat 1 v.act).any
  | _ => true

/-- a is read in every active lane and in every source lane. -/
def exchReads (e : Exch) (f : ExchF) (v : View) : Mask :=
  if exchBKnown f v then
    v.act.lanes.foldl (fun m L => match exchSource e f v L with
      | some s => m.set s true
      | none => m) v.act
  else v.act

def exchNeed (e : Exch) (f : ExchF) (v : View) : Need :=
  { reads := { f.a.rd (ltypeRegs f.ty) 1 with who := some (exchReads e f v) } :: (match f.b with
      | some b => b.rds 1
      | none => [])
    writes := [f.d.wr (ltypeRegs f.ty)] }

def exchBody (e : Exch) (f : ExchF) (v : View) (w : Work) : Done :=
  let n := ltypeRegs f.ty
  let w := w.writeV v f.d n fun L => match exchSource e f v L with
    | some s => v.src f.a n s
    | none => 0
  done (w.writeP v f.ind fun L => (exchSource e f v L).isNone)

def execQswh (f : ExchF) (s : State) : Host.Outcome State Fault Refusal :=
  issue s f.h (exchNeed (.xor 1) f) (exchBody (.xor 1) f)
def execQswv (f : ExchF) (s : State) : Host.Outcome State Fault Refusal :=
  issue s f.h (exchNeed (.xor 2) f) (exchBody (.xor 2) f)
def execQswd (f : ExchF) (s : State) : Host.Outcome State Fault Refusal :=
  issue s f.h (exchNeed (.xor 3) f) (exchBody (.xor 3) f)
def execQbc (f : ExchF) (s : State) : Host.Outcome State Fault Refusal := issue s f.h (exchNeed .quad f) (exchBody .quad f)
def execShfl (f : ExchF) (s : State) : Host.Outcome State Fault Refusal := issue s f.h (exchNeed .idx f) (exchBody .idx f)
def execShflx (f : ExchF) (s : State) : Host.Outcome State Fault Refusal :=
  issue s f.h (exchNeed .xorB f) (exchBody .xorB f)
def execShfld (f : ExchF) (s : State) : Host.Outcome State Fault Refusal :=
  issue s f.h (exchNeed .down f) (exchBody .down f)
def execGbc (f : ExchF) (s : State) : Host.Outcome State Fault Refusal := issue s f.h (exchNeed .one f) (exchBody .one f)

/-! ## Reductions and scans (R177 to R181) -/

/-- Registers of the result: an index takes one, whatever the type, and d may then be odd (R173, R180; log entry 128). -/
def redRegs (f : RedF) : Nat := if isArg f.lop then 1 else ltypeRegs f.ty

/-- a is read in the contributing lanes only: the active lanes that are no helpers (R174, R180); `gscan` waits and faults on
those lanes alone too (log entry 129). -/
def redNeed (f : RedF) (v : View) : Need :=
  { reads := [{ f.a.rd (ltypeRegs f.ty) 1 with who := some v.real }]
    writes := [f.d.wr (redRegs f)] }

/-- The leaves of the tree: the elements of the contributing lanes. -/
def redLeaves (f : RedF) (v : View) : Lanes (Option Node) :=
  Lanes.ofFn fun L =>
    if v.real.get L then some (v.src f.a (ltypeRegs f.ty) L % 2 ^ ltypeBits f.ty, L.val) else none

def gredBody (f : RedF) (v : View) (w : Work) : Done :=
  let root := (prefixes f.ty f.lop (redLeaves f v)).l7
  let w := w.writeV v f.d (redRegs f) fun _ => redOut f.ty f.lop root.1
  done (if v.act.any then w.updGroup v.g fun g => g.orFlags root.2 else w)

def execGred (f : RedF) (s : State) : Host.Outcome State Fault Refusal := issue s f.h (redNeed f) (gredBody f)

/-- The prefix a lane receives: P(L), or P(L − 1) with `.excl`. -/
def scanPrefix (f : RedF) (v : View) (L : Fin 8) : Option Node × Flags :=
  let p := prefixes f.ty f.lop (redLeaves f v)
  if f.excl then (if h : L.val = 0 then (none, 0) else p.get ⟨L.val - 1, by omega⟩) else p.get L

def gscanBody (f : RedF) (v : View) (w : Work) : Done :=
  let w := w.writeV v f.d (redRegs f) fun L => redOut f.ty f.lop (scanPrefix f v L).1
  done (w.flag v fun L => (scanPrefix f v L).2)

def execGscan (f : RedF) (s : State) : Host.Outcome State Fault Refusal := issue s f.h (redNeed f) (gscanBody f)

/-! ## Votes and masks (R182) -/

def maskNum (m : Mask) : Nat := m.toByte.toNat

/-- The contributing lanes with the predicate set. -/
def voters (v : View) (p : BitVec 3) : Mask := Lanes.ofFn fun L => v.real.get L && v.p p L

def ballotNeed (f : BallotF) (_ : View) : Need := { writes := [f.d.wr 1] }
def ballotBody (f : BallotF) (v : View) (w : Work) : Done := done (w.writeV v f.d 1 fun _ => maskNum (voters v f.p))
def execBallot (f : BallotF) (s : State) : Host.Outcome State Fault Refusal := issue s f.h (ballotNeed f) (ballotBody f)

def vanyBody (f : VoteF) (v : View) (w : Work) : Done := done (w.writeP v f.d fun _ => (voters v f.p).any)
def execVany (f : VoteF) (s : State) : Host.Outcome State Fault Refusal := issue s f.h (fun _ => {}) (vanyBody f)

def vallBody (f : VoteF) (v : View) (w : Work) : Done := done (w.writeP v f.d fun _ => v.real.subset (voters v f.p))
def execVall (f : VoteF) (s : State) : Host.Outcome State Fault Refusal := issue s f.h (fun _ => {}) (vallBody f)

/-- The bits on which `match` and `unif` compare (R173). -/
def cmpVal (t : LType) (a : VSrc) (v : View) (L : Fin 8) : Nat := v.src a (ltypeRegs t) L % 2 ^ ltypeBits t

def matchNeed (f : MatchF) (_ : View) : Need := { reads := [f.a.rd (ltypeRegs f.ty) 1], writes := [f.d.wr 1] }
def matchBody (f : MatchF) (v : View) (w : Work) : Done :=
  done (w.writeV v f.d 1 fun L =>
    maskNum (Lanes.ofFn fun n => v.real.get n && cmpVal f.ty f.a v n == cmpVal f.ty f.a v L))
def execVmatch (f : MatchF) (s : State) : Host.Outcome State Fault Refusal := issue s f.h (matchNeed f) (matchBody f)

def electBody (f : PredF) (v : View) (w : Work) : Done :=
  done (w.writeP v f.d fun L => v.real.lanes.head? == some L)
def execElect (f : PredF) (s : State) : Host.Outcome State Fault Refusal := issue s f.h (fun _ => {}) (electBody f)

def helperBody (f : PredF) (v : View) (w : Work) : Done := done (w.writeP v f.d fun L => v.grp.helpers.get L)
def execHelper (f : PredF) (s : State) : Host.Outcome State Fault Refusal := issue s f.h (fun _ => {}) (helperBody f)

def exitedLanes (g : Group) : Mask := Lanes.ofFn fun L => (g.lane L).st == .exited

def actmNeed (f : VDstF) (_ : View) : Need := { writes := [f.d.wr 1] }
def actmBody (f : VDstF) (v : View) (w : Work) : Done :=
  done (w.writeV v f.d 1 fun _ =>
    maskNum v.act + maskNum v.m * 2 ^ 8 + maskNum v.grp.helpers * 2 ^ 16 + maskNum (exitedLanes v.grp) * 2 ^ 24)
def execActm (f : VDstF) (s : State) : Host.Outcome State Fault Refusal := issue s f.h (actmNeed f) (actmBody f)

/-- a is read, and its emptiness judged, in the lanes that R183 compares only (log entry 129). -/
def unifNeed (f : UnifF) (v : View) : Need :=
  { reads := [{ f.a.rd (ltypeRegs f.ty) 1 with who := some v.judged }] }

/-- `unif` compares the lanes that R183 judges. -/
def unifBody (f : UnifF) (v : View) (w : Work) : Done :=
  let same := v.judged.lanes.all fun L => v.judged.lanes.all fun K => cmpVal f.ty f.a v L == cmpVal f.ty f.a v K
  done (w.writeP v f.d fun _ => same)
def execUnif (f : UnifF) (s : State) : Host.Outcome State Fault Refusal := issue s f.h (unifNeed f) (unifBody f)

end Sys2Proof.Machine
end

