-- ==== Sys2Proof/Machine/Float.lean ====
section
/-!
DEFINITION. Class 1: the floating-point instructions (R155 to R164).
-/
namespace Sys2Proof.Machine

/-- The b operand of a float instruction: an immediate stands for itself (R156). -/
def fimmVal (i : W32) : Nat := i.toNat

def fbinNeed (f : FBin) (_ : View) : Need := { reads := f.a.rd 1 1 :: f.b.rds 1, writes := [f.d.wr 1] }
def funNeed (f : FUn) (_ : View) : Need := { reads := [f.a.rd 1 1], writes := [f.d.wr 1] }

/-- The a operand's elements after its options (R157). -/
def opA (t : FType) (o : FOpt) (x : Nat) : List Nat := (elems t x).map (optSign (elemFmt t) o.aa o.na)
def opB (t : FType) (o : FOpt) (x : Nat) : List Nat := (elems t x).map (optSign (elemFmt t) o.ab o.nb)

/-- Writes packed results and ORs their flags. -/
def writeFl (w : Work) (v : View) (d : VDst) (r : Fin 8 → Nat × Flags) : Done :=
  done ((w.writeV v d 1 fun L => (r L).1).flag v fun L => (r L).2)

/-- An element operation on two operands: the codes after the options. -/
def fbinBody (f : FBin) (op : Nat → Nat → Nat × Flags) (v : View) (w : Work) : Done :=
  writeFl w v f.d fun L =>
    packElems (List.zipWith op (opA f.ty f.o (v.src f.a 1 L)) (opB f.ty f.o (v.bop f.b 1 fimmVal L)))

def funBody (f : FUn) (op : Nat → Nat × Flags) (v : View) (w : Work) : Done :=
  writeFl w v f.d fun L => packElems ((opA f.ty f.o (v.src f.a 1 L)).map op)

/-- R158 for two operands: NaNs first, then the value. -/
def arith2 (f : FBin) (op : Fmt → FVal → FVal → Nat × Flags) (x y : Nat) : Nat × Flags :=
  let t := elemFmt f.ty
  nanFirst t [x, y] (op t (decodeF t x) (decodeF t y))

def arith1 (f : FUn) (op : Fmt → Nat → FVal → Nat × Flags) (x : Nat) : Nat × Flags :=
  let t := elemFmt f.ty
  nanFirst t [x] (op t x (decodeF t x))

def execFadd (f : FBin) (s : State) : Host.Outcome State Fault Refusal :=
  issue s f.h (fbinNeed f) (fbinBody f (arith2 f fun t x y => addF t f.rnd f.o.satf x y))

def execFsub (f : FBin) (s : State) : Host.Outcome State Fault Refusal :=
  issue s f.h (fbinNeed f) (fbinBody f (arith2 f fun t x y => addF t f.rnd f.o.satf x (negF y)))

def execFmul (f : FBin) (s : State) : Host.Outcome State Fault Refusal :=
  issue s f.h (fbinNeed f) (fbinBody f (arith2 f fun t x y => mulF t f.rnd f.o.satf x y))

def execFdiv (f : FBin) (s : State) : Host.Outcome State Fault Refusal :=
  issue s f.h (fbinNeed f) (fbinBody f (arith2 f fun t x y => divF t f.rnd f.o.satf x y))

def ftriNeed (f : FTri) (_ : View) : Need :=
  { reads := [f.a.rd 1 1, f.b.rd 1 2, f.c.rd 1 3], writes := [f.d.wr 1] }

def zip3 (op : Nat → Nat → Nat → Nat × Flags) : List Nat → List Nat → List Nat → List (Nat × Flags)
  | x :: xs, y :: ys, z :: zs => op x y z :: zip3 op xs ys zs
  | _, _, _ => []

/-- `ffma` rounds the exact x × y + z once (R158, R160). -/
def ffmaBody (f : FTri) (v : View) (w : Work) : Done :=
  let t := elemFmt f.ty
  let op (x y z : Nat) : Nat × Flags :=
    nanFirst t [x, y, z] (fmaF t f.rnd f.o.satf (decodeF t x) (decodeF t y) (decodeF t z))
  writeFl w v f.d fun L =>
    packElems (zip3 op (opA f.ty f.o (v.src f.a 1 L)) (opB f.ty f.o (v.src f.b 1 L)) (elems f.ty (v.src f.c 1 L)))

def execFfma (f : FTri) (s : State) : Host.Outcome State Fault Refusal := issue s f.h (ftriNeed f) (ffmaBody f)

def execFmin (f : FBin) (s : State) : Host.Outcome State Fault Refusal :=
  issue s f.h (fbinNeed f) (fbinBody f (minmaxF (elemFmt f.ty) false))

def execFmax (f : FBin) (s : State) : Host.Outcome State Fault Refusal :=
  issue s f.h (fbinNeed f) (fbinBody f (minmaxF (elemFmt f.ty) true))

def execFabs (f : FUn) (s : State) : Host.Outcome State Fault Refusal :=
  issue s f.h (funNeed f) (funBody f fun x => (optSign (elemFmt f.ty) true false x, 0))

def execFneg (f : FUn) (s : State) : Host.Outcome State Fault Refusal :=
  issue s f.h (funNeed f) (funBody f fun x => (optSign (elemFmt f.ty) false true x, 0))

def execFclass (f : FUn) (s : State) : Host.Outcome State Fault Refusal :=
  issue s f.h (funNeed f) (funBody f fun x => (classF (elemFmt f.ty) x, 0))

def fcmpNeed (f : FCmpF) (_ : View) : Need := { reads := f.a.rd 1 1 :: f.b.rds 1 }

/-- The predicate and flags of R163 in a lane. -/
def fcmpIn (f : FCmpF) (v : View) (L : Fin 8) : Bool × Flags :=
  cmpF (elemFmt f.ty) f.cond ((opA f.ty f.o (v.src f.a 1 L)).headD 0) ((opB f.ty f.o (v.bop f.b 1 fimmVal L)).headD 0)

def fcmpBody (f : FCmpF) (v : View) (w : Work) : Done :=
  done ((w.writeP v f.p fun L => (fcmpIn f v L).1).flag v fun L => (fcmpIn f v L).2)

def execFcmp (f : FCmpF) (s : State) : Host.Outcome State Fault Refusal := issue s f.h (fcmpNeed f) (fcmpBody f)

def execFrcp (f : FUn) (s : State) : Host.Outcome State Fault Refusal :=
  issue s f.h (funNeed f) (funBody f (arith1 f fun t _ x => rcpF t f.rnd f.o.satf x))

def execFrsq (f : FUn) (s : State) : Host.Outcome State Fault Refusal :=
  issue s f.h (funNeed f) (funBody f (arith1 f fun t _ x => rsqF t f.rnd f.o.satf x))

def execFsqrt (f : FUn) (s : State) : Host.Outcome State Fault Refusal :=
  issue s f.h (funNeed f) (funBody f (arith1 f fun t _ x => sqrtF t f.rnd f.o.satf x))

def execFexp2 (f : FUn) (s : State) : Host.Outcome State Fault Refusal :=
  issue s f.h (funNeed f) (funBody f (arith1 f fun t c x => exp2F t f.rnd f.o.satf c x))

def execFlog2 (f : FUn) (s : State) : Host.Outcome State Fault Refusal :=
  issue s f.h (funNeed f) (funBody f (arith1 f fun t c x => log2F t f.rnd f.o.satf c x))

def execFtanh (f : FUn) (s : State) : Host.Outcome State Fault Refusal :=
  issue s f.h (funNeed f) (funBody f (arith1 f fun t c x => tanhF t f.rnd c x))

def execFrnd (f : FUn) (s : State) : Host.Outcome State Fault Refusal :=
  issue s f.h (funNeed f) (funBody f (arith1 f fun t _ x => rndF t f.rnd x))

/-- The integers n of `fscl`: one signed 32-bit value, or the signed halves of a packed type (R155). -/
def scalesOf (t : FType) (y : Nat) : List Int :=
  if isPacked t then [sextNat 16 y, sextNat 16 (y / 2 ^ 16)] else [sextNat 32 y]

def fsclBody (f : FBin) (v : View) (w : Work) : Done :=
  let t := elemFmt f.ty
  let op (x : Nat) (n : Int) : Nat × Flags := nanFirst t [x] (sclF t f.rnd f.o.satf (decodeF t x) n)
  writeFl w v f.d fun L =>
    packElems (List.zipWith op (opA f.ty f.o (v.src f.a 1 L)) (scalesOf f.ty (v.bop f.b 1 fimmVal L)))

def execFscl (f : FBin) (s : State) : Host.Outcome State Fault Refusal := issue s f.h (fbinNeed f) (fsclBody f)

def cvtfNeed (f : CvtfF) (_ : View) : Need := { reads := [f.a.rd 1 1], writes := [f.d.wr 1] }

def cvtfBody (f : CvtfF) (v : View) (w : Work) : Done :=
  writeFl w v f.d fun L =>
    packElems ((opA f.src f.o (v.src f.a 1 L)).map (convFloat (elemFmt f.src) (elemFmt f.ty) f.rnd f.o.satf))

def execCvtf (f : CvtfF) (s : State) : Host.Outcome State Fault Refusal := issue s f.h (cvtfNeed f) (cvtfBody f)

def cvtifNeed (f : CvtiiF) (_ : View) : Need := { reads := [f.a.rd (regsOf f.it) 1], writes := [f.d.wr 1] }

def cvtifBody (f : CvtiiF) (v : View) (w : Work) : Done :=
  writeFl w v f.d fun L => convFromInt (elemFmt f.ty) f.rnd f.o.satf (readInt f.it (v.src f.a (regsOf f.it) L))

def execCvtif (f : CvtiiF) (s : State) : Host.Outcome State Fault Refusal := issue s f.h (cvtifNeed f) (cvtifBody f)

def cvtfiNeed (f : CvtiiF) (_ : View) : Need := { reads := [f.a.rd 1 1], writes := [f.d.wr (regsOf f.it)] }

/-- The integer and flags of `cvtfi` in a lane. -/
def cvtfiIn (f : CvtiiF) (v : View) (L : Fin 8) : Int × Flags :=
  convToInt (elemFmt f.ty) f.it f.rnd ((opA f.ty f.o (v.src f.a 1 L)).headD 0)

def cvtfiBody (f : CvtiiF) (v : View) (w : Work) : Done :=
  let w := w.writeV v f.d (regsOf f.it) fun L => intOut (vecBits f.it) f.it false (cvtfiIn f v L).1
  done (w.flag v fun L => (cvtfiIn f v L).2)

def execCvtfi (f : CvtiiF) (s : State) : Host.Outcome State Fault Refusal := issue s f.h (cvtfiNeed f) (cvtfiBody f)

end Sys2Proof.Machine
end

