-- ==== Sys2Proof/Machine/Hash.lean ====
section
/-!
DEFINITION. SHAKE256, the hash of attestation reports (R370): FIPS 202, which the manual names and does not repeat (log
entry 115).
-/
namespace Sys2Proof.Machine

/-- A Keccak state: 25 words of 64 bits, word x + 5 y for the lane (x, y). -/
abbrev Keccak := List W64

def Keccak.at (a : Keccak) (x y : Nat) : W64 := a.getD (x % 5 + 5 * (y % 5)) 0

/-- The state whose lane (x, y) is f x y. -/
def Keccak.tab (f : Nat → Nat → W64) : Keccak := (List.range 25).map fun i => f (i % 5) (i / 5)

/-- Lane rotations of rho, lane by lane. -/
def rhoOffsets : List Nat :=
  [0, 1, 62, 28, 27, 36, 44, 6, 55, 20, 3, 10, 43, 25, 39, 41, 45, 15, 21, 8, 18, 2, 61, 56, 14]

def roundConstants : List W64 :=
  [0x1, 0x8082, 0x800000000000808A, 0x8000000080008000, 0x808B, 0x80000001, 0x8000000080008081, 0x8000000000008009,
    0x8A, 0x88, 0x80008009, 0x8000000A, 0x8000808B, 0x800000000000008B, 0x8000000000008089, 0x8000000000008003,
    0x8000000000008002, 0x8000000000000080, 0x800A, 0x800000008000000A, 0x8000000080008081, 0x8000000000008080,
    0x80000001, 0x8000000080008008]

def Keccak.theta (a : Keccak) : Keccak :=
  let c := (List.range 5).map fun x => a.at x 0 ^^^ a.at x 1 ^^^ a.at x 2 ^^^ a.at x 3 ^^^ a.at x 4
  Keccak.tab fun x y => a.at x y ^^^ c.getD ((x + 4) % 5) 0 ^^^ (c.getD ((x + 1) % 5) 0).rotateLeft 1

/-- rho, then pi: lane (x, y) comes from lane (x + 3 y, x). -/
def Keccak.rhoPi (a : Keccak) : Keccak :=
  Keccak.tab fun x y =>
    let i := (x + 3 * y) % 5 + 5 * x
    (a.getD i 0).rotateLeft (rhoOffsets.getD i 0)

def Keccak.chi (a : Keccak) : Keccak := Keccak.tab fun x y => a.at x y ^^^ (~~~ a.at (x + 1) y &&& a.at (x + 2) y)

/-- Iota: the constant goes into lane (0, 0). -/
def Keccak.iota (a : Keccak) (c : W64) : Keccak :=
  match a with
  | l :: r => (l ^^^ c) :: r
  | [] => []

/-- The permutation of 24 rounds. -/
def Keccak.permute (a : Keccak) : Keccak := roundConstants.foldl (fun a c => a.theta.rhoPi.chi.iota c) a

/-- The bytes of SHAKE256's rate. -/
def shakeRate : Nat := 136

/-- The message with SHAKE's suffix and padding, in whole blocks. -/
def shakePad (m : List Byte) : List Byte :=
  let z := shakeRate - 1 - m.length % shakeRate
  if z = 0 then m ++ [0x9F] else m ++ [0x1F] ++ List.replicate (z - 1) 0 ++ [0x80]

/-- Word i of a block; 0 beyond its rate. -/
def blockWord (b : List Byte) (i : Nat) : W64 :=
  ((b.drop (8 * i)).take 8).foldr (fun x acc => acc <<< 8 ||| x.setWidth 64) 0

/-- Absorbs n blocks. -/
def absorb : Nat → List Byte → Keccak → Keccak
  | 0, _, a => a
  | n + 1, m, a =>
    let b := m.take shakeRate
    absorb n (m.drop shakeRate) (Keccak.permute (Keccak.tab fun x y => a.at x y ^^^ blockWord b (x + 5 * y)))

/-- The first n bytes of SHAKE256 of a message, n no more than the rate. -/
def shake256 (n : Nat) (m : List Byte) : List Byte :=
  let m := shakePad m
  let a := absorb (m.length / shakeRate) m (List.replicate 25 0)
  (List.range n).map fun i => (a.getD (i / 8) 0 >>> (8 * (i % 8))).setWidth 8

end Sys2Proof.Machine
end

