-- ==== Sys2Proof/Machine/Matrix.lean ====
section
/-!
DEFINITION. Class 10: the matrix unit (R184 to R202). Each tile form has its issue part here, and its execution part in
the event that takes it from the queue.
-/
namespace Sys2Proof.Machine

/-! ## Banks and regions (R184, R189) -/

def Bank.start : Bank := ⟨false, []⟩

/-- Byte o of a bank's image. -/
def Bank.byte (b : Bank) (o : Nat) : Byte :=
  if b.w3 && decide (o ≥ 12288) then 0
  else if o % 64 = 0 then (if b.w3 then 0x11 else 0x10) else FMap.getD b.img 0 o

def Bank.bytes (b : Bank) : List Byte := (List.range 16384).map b.byte

/-- The bank that an image's bytes give. -/
def bankOf (bs : List Byte) : Bank :=
  let w3 := bs.getD 0 0 == 0x11
  let used := if w3 then bs.take 12288 else bs
  ⟨w3, (used.zipIdx.filter fun e => e.2 % 64 != 0 && e.1 != 0).map fun e => (e.2, e.1)⟩

/-- The block of column c and weight block t. -/
def Bank.block (b : Bank) (c t : Nat) : List Byte :=
  let at_ := 64 * ((if b.w3 then 3 else 4) * c + t)
  (List.range 64).map fun i => b.byte (at_ + i)

def Bank.fmt (b : Bank) : BFmt := if b.w3 then .w3 else .w4
def Bank.rows (b : Bank) : Nat := if b.w3 then 160 else 120

/-- w(k, c). -/
def Bank.weight (b : Bank) (k c : Nat) : Int :=
  sextNat (bfmtBits b.fmt) (blockElem b.fmt (b.block c (k / b.rows)) (k % b.rows))

/-- scale(g, c); none for 0xFF. -/
def Bank.scale (b : Bank) (g c : Nat) : Option (Nat × Int) := scaleVal ((b.block c g).getD 1 0).toNat

def MxUnit.bank (u : MxUnit) (n : Nat) : Bank := FMap.getD u.banks Bank.start n
def MxUnit.region (u : MxUnit) (n : Nat) : FMap W32 := FMap.getD u.regions [] n
def MxUnit.entry (u : MxUnit) (n e : Nat) : W32 := FMap.getD (u.region n) 0 e
def MxUnit.setBank (u : MxUnit) (n : Nat) (b : Bank) : MxUnit := { u with banks := FMap.put u.banks Bank.start n b }
def MxUnit.setRegion (u : MxUnit) (n : Nat) (r : FMap W32) : MxUnit := { u with regions := FMap.put u.regions [] n r }
def MxUnit.setEntry (u : MxUnit) (n e : Nat) (v : W32) : MxUnit := u.setRegion n (FMap.put (u.region n) 0 e v)

/-- The 16 KiB of a region in an image (R199). -/
def regionBytes (u : MxUnit) (n : Nat) : List Byte := (List.range 4096).flatMap fun e => valBytes 4 (u.entry n e).toNat

def regionOf (bs : List Byte) : FMap W32 :=
  ((List.range 4096).map fun e => (e, BitVec.ofNat 32 (fld bs (4 * e) 4))).filter fun e => e.2 != 0

/-! ## Names -/

/-- The physical numbers of names of the group. -/
def physBanks (g : Group) (ns : List Nat) : List Nat := ns.map fun n => g.banks.getD n 0
def physRegions (g : Group) (ns : List Nat) : List Nat := ns.map fun n => g.regions.getD n 0

/-! ## The queue (R185) -/

def mxDepth : Nat := 16

/-- The command of an instruction: its word as the encoding gives it, its split granule and its address. -/
def mxCmd (v : View) (i : Instr) (gran a : Nat) (op : MxOp) : MxCmd :=
  ⟨v.g, op, gran, 0, match encode i with
    | some (x, _) => wordBytes x
    | none => [], BitVec.ofNat 64 a⟩

def putCmd (w : Work) (core part : Nat) (c : MxCmd) : Work :=
  let u := mxUnit w.pk core part
  setMx w core part { u with queue := u.queue ++ [c] }

/-- The command enters the queue, or the split waits for an entry. -/
def enqueueMx (v : View) (c : MxCmd) (w : Work) : Done :=
  if (mxUnit w.pk v.grp.core v.grp.part).queue.length ≥ mxDepth then .wait .mxRoom
  else done (putCmd w v.grp.core v.grp.part c)

/-! ## Reads of the issue part (R186) -/

/-- The reads of an instruction, as one plain access on h0. -/
def readTxn (v : View) (k : TKind) (a : Nat) (ks : List Nat) : Txn := mkTxn v 0 .sys .plain k (oneOp v.lead (plainOp a ks []))

/-- What stands between such an access and its performing, and the machine once it has its number on the chain and has
performed. -/
def readAfter (w : Work) (t : Txn) : Release × Work :=
  let (id, w') := addTxn w t
  match w'.txn? id with
  | some x =>
    if (laneList.filter x.openIn).all fun L => mayPerform w'.pk id x L then
      (⟨[], []⟩, ((laneList.filter x.openIn).foldl (fun w L => notePerform w id x L) w').dropTxn id)
    else (⟨openTxns w.pk (x.preds ++ x.jpreds.map Prod.fst ++ x.same ++ x.awaits), x.imports⟩, w)
  | none => (⟨[], []⟩, w)

/-- Reads of checked bytes, of which `used` are read: a wait for what is ordered before them or for a refresh, a unit that
cannot be corrected, or the bytes. They see what the block's staged stores have written (R214). -/
def readBlock (w : Work) (v : View) (ks used : List Nat) (k : List Byte → Work → Done) : Done :=
  match roomWait w.pk v 0 with
  | some x => .wait x
  | none =>
    let (r, w) := readAfter w (readTxn v (.sload 0 .i64 v.act) 0 used)
    if r != ⟨[], []⟩ then .wait (.performed r)
    else if refreshing w.pk used then .wait (.refresh ((used.map fun k => k / 2 ^ 17 % 32).eraseDups))
    else
      match w.badAt used with
      | some (u, k) => .trap .dataLost v.act u k
      | none => k (blockBytes w (detOf w v.grp) ks) w

/-- The checks of n bytes from a base, in 64-byte blocks: the earliest failing step, and in it the lowest block. -/
def checkBlocks (w : Work) (base n : Nat) (f : Work → Nat → Chk × Work) : Chk × Work :=
  (List.range (n / 64)).foldl
    (fun (r : Chk × Work) i =>
      let (c, w) := f r.2 ((base + 64 * i) % 2 ^ 64)
      (r.1.andThen c, w)) (.ok [], w)

/-- The first block, of those at the given offsets, that fails a check of its format. -/
def badBlock (bs : List Byte) (offs : List Nat) (ok : Nat → BFmt → Bool) : Option Nat :=
  offs.find? fun o => (blockFmt ((bs.drop o).take 64) (ok o)).isNone

/-! ## `mxld`, `mxkv` (R190, R191) -/

/-- The blocks of a slot that its code says are read. -/
def slotBlocks (bs : List Byte) (i : Nat) : List Nat :=
  let n := if bs.getD (16384 * i) 0 = 0x11 then 192 else 256
  (List.range n).map fun k => 16384 * i + 64 * k

/-- A block of a slot must be a weight block with the code of the slot's block 0. -/
def slotOk (bs : List Byte) (o : Nat) (f : BFmt) : Bool :=
  (f == .w4 || f == .w3) && bfmtCode f == (bs.getD (o / 16384 * 16384) 0).toNat

def badSlots (bs : List Byte) (n : Nat) : Option Nat := badBlock bs ((List.range n).flatMap (slotBlocks bs)) (slotOk bs)

/-- The banks that consecutive slots give. -/
def slotBanks (bs : List Byte) (ps : List Nat) : List (Nat × Bank) :=
  ps.zipIdx.map fun e => (e.1, bankOf ((bs.drop (16384 * e.2)).take 16384))

def mxldNeed (f : MxldF) (_ : View) : Need :=
  { reads := f.a.rds 2 1, banks := maskNames 8 f.banks.toNat, tile := true, ws := true }

/-- The address stage: the alignment of the base, then every byte of every slot. -/
def mxldCheck (f : MxldF) (v : View) (w : Work) (a n : Nat) : Chk × Work :=
  if a % 64 ≠ 0 then (.bad 2 .prot a, w)
  else checkBlocks w a (16384 * n) fun w x =>
    if f.glob then chkGlobal w v.grp.ctx .load x 64 64 else (chkWs w v.grp.ctx (coreDie v.grp.core) x 64 64, w)

/-- The bytes of n slots that are read, and all of what follows them: the last 4 KiB of a slot of the w3 form are not
(R189). -/
def usedKeys (w : Work) (d : Option Det) (n : Nat) (ks : List Nat) : List Nat :=
  ((List.range n).flatMap fun i =>
    let slot := (ks.drop (16384 * i)).take 16384
    if blockByte w d (slot.headD 0) = 0x11 then slot.take 12288 else slot) ++ ks.drop (16384 * n)

/-- The banks and regions of an image in memory, as commands place them. -/
def imageOp (bs : List Byte) (ps rs : List Nat) : MxOp :=
  let reg (e : Nat × Nat) : Nat × List W32 :=
    (e.1, (List.range 4096).map fun i => BitVec.ofNat 32 (fld bs (16384 * (ps.length + e.2) + 4 * i) 4))
  if rs.isEmpty then .load (slotBanks bs ps) else .restore (slotBanks bs ps) (rs.zipIdx.map reg)

/-- Some of the bytes lie at another package. -/
def anyAbroad (p : Package) (ks : List Nat) : Bool := ks.any fun k => isGlobalKey k && paPackage k != p.no

/-- The slots of a load or restore, once their addresses are in order: bytes of this package are read at once; others are
asked for, and the issue part lasts until they have come (R185, R290). -/
def readImage (v : View) (c : MxCmd) (a : Nat) (ps rs : List Nat) (ks : List Nat) (w : Work) : Done :=
  let n := ps.length
  if anyAbroad w.pk ks then
    match roomWait w.pk v 0 with
    | some x => .wait x
    | none =>
      let (t, w) := addTxn w (readTxn v (.mread a ps rs c) a ks)
      .ok w { block := some (.txn t) }
  else
    readBlock w v ks (usedKeys w (detOf w v.grp) n ks) fun bs w =>
      match badSlots bs n with
      | some o => .trap .blkFmt v.act ((a + o) % 2 ^ 64) 0
      | none => enqueueMx v { c with op := imageOp bs ps rs } w

def mxldBody (f : MxldF) (v : View) (w : Work) : Done :=
  let a := v.uni f.a 2
  let ns := maskNames 8 f.banks.toNat
  match mxldCheck f v w a ns.length with
  | (.bad _ code addr, _) => .trap code v.act addr 0
  | (.member b, _) => .wait (.member b)
  | (.ok ks, w) =>
    let rs := if f.glob then [] else wsRegions w v.grp.ctx (coreDie v.grp.core) a (16384 * ns.length)
    match touchRegions w v.grp rs with
    | .error k => .wait k
    | .ok w => readImage v (mxCmd v (.mxld f) f.gran.toNat a (.load [])) a (physBanks v.grp ns) [] ks w

def execMxld (f : MxldF) (s : State) : Host.Outcome State Fault Refusal := issue s f.h (mxldNeed f) (mxldBody f)

def mxkvNeed (f : MxkvF) (_ : View) : Need :=
  { reads := f.a.rds 1 1, banks := [f.bank.toNat], tile := true, feature := some 6 }

/-- n blocks of local memory from a base that must be aligned to 64. -/
def localBlocks (w : Work) (v : View) (a n : Nat) : Chk :=
  if a % 64 ≠ 0 then .bad 2 .prot a
  else (checkBlocks w a (64 * n) fun w x => (chkLocal w v.grp.blk x 64, w)).1

/-- Local blocks read and checked for one format; the first failing block is named. -/
def withBlocks (v : View) (a n : Nat) (f : BFmt) (w : Work) (k : List Byte → Work → Done) :
    Done :=
  match localBlocks w v a n with
  | .bad _ code addr => .trap code v.act addr 0
  | .member b => .wait (.member b)
  | .ok ks =>
    readBlock w v ks ks fun bs w =>
      match badBlock bs ((List.range n).map (64 * ·)) fun _ x => x == f with
      | some o => .trap .blkFmt v.act (a + o) 0
      | none => k bs w

def mxkvBody (f : MxkvF) (v : View) (w : Work) : Done :=
  withBlocks v (v.uni f.a 1) 1024 .bf16 w fun bs =>
    enqueueMx v (mxCmd v (.mxkv f) 0 (v.uni f.a 1) (.keys ((physBanks v.grp [f.bank.toNat]).headD 0) bs))

def execMxkv (f : MxkvF) (s : State) : Host.Outcome State Fault Refusal := issue s f.h (mxkvNeed f) (mxkvBody f)

/-! ## `mxmul` (R192, R197) -/

def MxSrc.rds (m : MxSrc) : List Rd :=
  match m with
  | .mem a => a.rds 1 1
  | .region _ => []

def MxSrc.regs (m : MxSrc) : List Nat :=
  match m with
  | .mem _ => []
  | .region r => [r.toNat]

def mxmulNeed (f : MxmulF) (_ : View) : Need :=
  { reads := MxSrc.rds f.src, banks := maskNames 8 f.banks.toNat, regions := f.d.toNat :: MxSrc.regs f.src, tile := true }

def rowCount (f : MxmulF) : Nat := f.rows.toNat + 1

def mxmulBody (f : MxmulF) (v : View) (w : Work) : Done :=
  let bs := physBanks v.grp (maskNames 8 f.banks.toNat)
  let d := (physRegions v.grp [f.d.toNat]).headD 0
  match f.src with
  | .region r =>
    if r = f.d then .trap .tileOverlap v.act 0 r.toNat
    else enqueueMx v (mxCmd v (.mxmul f) f.gran.toNat 0
      (.mul d (some ((physRegions v.grp [r.toNat]).headD 0)) [] false (rowCount f) f.align bs)) w
  | .mem a =>
    let bf := f.kind = .bf16
    withBlocks v (v.uni a 1) (rowCount f * (if bf then 16 else 8)) (if bf then .bf16 else .e4m3) w fun blocks =>
      enqueueMx v (mxCmd v (.mxmul f) f.gran.toNat (v.uni a 1) (.mul d none blocks bf (rowCount f) f.align bs))

def execMxmul (f : MxmulF) (s : State) : Host.Outcome State Fault Refusal := issue s f.h (mxmulNeed f) (mxmulBody f)

/-! ## `mxz`, `mxrd`, `mxwr` (R198) -/

def mxzNeed (f : MxzF) (_ : View) : Need := { regions := [f.d.toNat], tile := true }

def execMxz (f : MxzF) (s : State) : Host.Outcome State Fault Refusal :=
  issue s f.h (mxzNeed f) fun v w =>
    enqueueMx v (mxCmd v (.mxz f) 0 0 (.zero ((physRegions v.grp [f.d.toNat]).headD 0))) w

def mxrdNeed (f : MxrdF) (_ : View) : Need :=
  { writes := (List.range (f.n.toNat + 1)).map fun i => ⟨f.d.toNat + i, 1, false⟩, regions := [f.a.toNat], tile := true }

def mxrdBody (f : MxrdF) (v : View) (w : Work) : Done :=
  let n := f.n.toNat + 1
  let op : MxOp := .read f.d.toNat ((physRegions v.grp [f.a.toNat]).headD 0) f.e0.toNat n f.conv v.act
  match enqueueMx v (mxCmd v (.mxrd f) 0 0 op) w with
  | .ok w c => .ok (w.updGroup v.g fun g => g.emptyRegs f.d.toNat n v.act) c
  | d => d

def execMxrd (f : MxrdF) (s : State) : Host.Outcome State Fault Refusal := issue s f.h (mxrdNeed f) (mxrdBody f)

/-- The data is read in all eight lane positions. -/
def mxwrNeed (f : MxwrF) (_ : View) : Need :=
  { reads := (List.range (f.n.toNat + 1)).map fun i => ⟨f.a.r.toNat + i, 1, f.a.x, 1, false, some Mask.full⟩
    regions := [f.d.toNat], tile := true }

def mxwrBody (f : MxwrF) (v : View) (w : Work) : Done :=
  let vals := (List.range (f.n.toNat + 1)).flatMap fun i => laneList.map fun L => v.grp.word (f.a.r.toNat + i) L
  enqueueMx v (mxCmd v (.mxwr f) 0 0 (.write ((physRegions v.grp [f.d.toNat]).headD 0) f.e0.toNat vals)) w

def execMxwr (f : MxwrF) (s : State) : Host.Outcome State Fault Refusal := issue s f.h (mxwrNeed f) (mxwrBody f)

/-! ## `mxsv`, `mxrs` (R199) -/

def mxsvNeed (f : MxsvF) (_ : View) : Need :=
  { reads := f.a.rds 2 1, banks := maskNames 8 f.banks.toNat, regions := maskNames 16 f.regions.toNat, tile := true }

def imageSlots (f : MxsvF) : Nat := (maskNames 8 f.banks.toNat).length + (maskNames 16 f.regions.toNat).length

def imageCheck (f : MxsvF) (v : View) (w : Work) (a : Nat) (acc : Acc) : Chk × Work :=
  if a % 64 ≠ 0 then (.bad 2 .prot a, w)
  else checkBlocks w a (16384 * imageSlots f) fun w x => chkGlobal w v.grp.ctx acc x 64 64

/-- The staged entries of a save in a DET launch: one per 32 bytes, lane 0, ascending; their data comes with the
execution part (R213). -/
def stageSave (w : Work) (v : View) (a : Nat) (ks : List Nat) : Work :=
  w.each (List.range (ks.length / 32)) fun i w => addEntry w v.g 0 0 32 0 ((a + 32 * i) % 2 ^ 64) ((ks.drop (32 * i)).take 32) [] ⟨[], []⟩

def mxsvBody (f : MxsvF) (v : View) (w : Work) : Done :=
  let a := v.uni f.a 2
  match imageCheck f v w a .store, roomWait w.pk v 0 with
  | (.bad _ code addr, _), _ => .trap code v.act addr (if code = .page then 1 else 0)
  | (.member b, _), _ => .wait (.member b)
  | _, some k => .wait k
  | (.ok ks, w), none =>
    let bs := physBanks v.grp (maskNames 8 f.banks.toNat)
    let rs := physRegions v.grp (maskNames 16 f.regions.toNat)
    let (t, w') := addTxn w
      { mkTxn v 0 .sys .plain .mx (oneOp v.lead (plainOp a ks [])) with staged := stagedBlk w v.grp }
    let w' := if (detOf w v.grp).isSome then stageSave w' v a ks else w'
    enqueueMx v (mxCmd v (.mxsv f) f.gran.toNat a (.save bs rs t)) w'

def execMxsv (f : MxsvF) (s : State) : Host.Outcome State Fault Refusal := issue s f.h (mxsvNeed f) (mxsvBody f)

def mxrsBody (f : MxsvF) (v : View) (w : Work) : Done :=
  let a := v.uni f.a 2
  let bs := physBanks v.grp (maskNames 8 f.banks.toNat)
  let rs := physRegions v.grp (maskNames 16 f.regions.toNat)
  match imageCheck f v w a .load with
  | (.bad _ code addr, _) => .trap code v.act addr 0
  | (.member b, _) => .wait (.member b)
  | (.ok ks, w) => readImage v (mxCmd v (.mxrs f) f.gran.toNat a (.load [])) a bs rs ks w

def execMxrs (f : MxsvF) (s : State) : Host.Outcome State Fault Refusal := issue s f.h (mxsvNeed f) (mxrsBody f)

/-! ## `mxq` (R200) -/

def mxStatus (u : MxUnit) (g : Group) (gi : Nat) : Nat :=
  let mine := u.queue.filter fun c => c.g == gi
  nameBits g.banks (fun n => (u.bank n).w3) * 2 ^ 32 + mine.length * 2 ^ 24
    + nameBits g.regions (fun n => mine.any fun c => c.op.regions.contains n) * 2 ^ 8
    + nameBits g.banks (fun n => mine.any fun c => c.op.banks.contains n)

def mxqBody (f : SdstF) (v : View) (w : Work) : Done :=
  once v w fun w => done (w.writeS v f.d (mxStatus (mxUnit w.pk v.grp.core v.grp.part) v.grp v.g))

def execMxq (f : SdstF) (s : State) : Host.Outcome State Fault Refusal := issue s f.h (fun _ => {}) (mxqBody f)

/-! ## Arithmetic (R193 to R196) -/

/-- An element of a row: a NaN as its f32 code, an infinity, or an exact number. -/
inductive RowEl where
  | nan (code : Nat)
  | inf (neg : Bool)
  | num (d : Dy)
  deriving DecidableEq, Repr

/-- Element k of a described block times its scale (R138). -/
def blockRowEl (f : BFmt) (block : List Byte) (k : Nat) : RowEl :=
  let code := blockElem f block k
  match scaleVal (block.getD 1 0).toNat, elemVal f code with
  | none, _ => .nan 0x7FC00000
  | some _, .nan .. => .nan (match bfmtFloat f with
    | some x => convNaN x .f32 code
    | none => 0x7FC00000)
  | some _, .inf neg => .inf neg
  | some _, .zero _ => .num ⟨0, 0⟩
  | some (sn, se), .fin neg n e => .num ⟨(if neg then -1 else 1) * (n * sn : Nat), e + se⟩

def f32RowEl (x : Nat) : RowEl :=
  match decodeF .f32 x with
  | .nan .. => .nan (quieted .f32 x)
  | .inf neg => .inf neg
  | v => .num (fvalDy v)

/-- The 480 elements of row r. -/
def rowOf (u : MxUnit) (src : Option Nat) (blocks : List Byte) (bf16 : Bool) (r : Nat) : List RowEl :=
  (List.range 480).map fun k =>
    match src with
    | some a => f32RowEl (u.entry a (480 * r + k)).toNat
    | none =>
      let per := if bf16 then 30 else 60
      let nb := if bf16 then 16 else 8
      blockRowEl (if bf16 then .bf16 else .e4m3) ((blocks.drop (64 * (nb * r + k / per))).take 64) (k % per)

/-- E(x) of a finite number that is not zero. -/
def expOf (x : RowEl) : Option Int :=
  match x with
  | .num ⟨v, e⟩ => if v = 0 then none else some (Nat.log2 v.natAbs + e + 1)
  | _ => none

def alignBits (a : Align) : Nat :=
  match a with
  | .a8 => 8
  | .a12 => 12
  | .a16 => 16

/-- q_k of R193 under the exponent of its segment. -/
def alignEl (wd : Nat) (ej : Int) (x : RowEl) : Int :=
  match x with
  | .num ⟨v, e⟩ =>
    let (k, _) := roundToInt .rne (decide (v < 0)) v.natAbs (e + (wd : Int) - 1 - ej) false
    min (if v < 0 then -(k : Int) else k) (2 ^ (wd - 1) - 1)
  | _ => 0

/-- The segments of a row: exponent and aligned elements (R193). -/
def alignRow (wd : Nat) (row : List RowEl) : List (Int × List Int) :=
  let erow := ((row.filterMap expOf).max?).getD 0
  (List.range 12).map fun j =>
    let seg := (row.drop (40 * j)).take 40
    let ej := match (seg.filterMap expOf).max? with
      | some e => max e (erow - 64)
      | none => erow - 64
    (ej, seg.map (alignEl wd ej))

/-- The exact sum of R194. -/
def columnSum (wd : Nat) (segs : List (Int × List Int)) (b : Bank) (c : Nat) : Dy :=
  segs.zipIdx.foldl
    (fun acc e =>
      let j := e.2
      let s := (e.1.2.zipIdx.map fun q => q.1 * b.weight (40 * j + q.2) c).sum
      let (sn, se) := (b.scale (if b.w3 then j / 4 else j / 3) c).getD (0, 0)
      dyAdd acc ⟨s * (sn : Int), e.1.1 - (wd : Int) + 1 + se⟩) ⟨0, 0⟩

/-- The infinities of a row against a column: `none` where one meets a zero, else the signs of the products. -/
def infSigns (row : List RowEl) (b : Bank) (c : Nat) : Option (List Bool) :=
  row.zipIdx.foldl
    (fun acc e => match acc, e.1 with
      | some l, .inf neg =>
        let wt := b.weight e.2 c
        let zero := match b.scale (e.2 / b.rows) c with
          | some (0, _) => true
          | _ => false
        if wt == 0 || zero then none else some (l ++ [neg != decide (wt < 0)])
      | acc, _ => acc) (some [])

/-- r1: the first rounding, or what R196 decides before it. -/
def firstRound (wd : Nat) (row : List RowEl) (segs : List (Int × List Int)) (b : Bank) (c : Nat) : Nat :=
  let nan := row.findSome? fun x => match x with
    | .nan code => some code
    | _ => none
  match nan with
  | some code => code
  | none =>
    if (List.range (480 / b.rows)).any fun g => (b.scale g c).isNone then 0x7FC00000
    else
      match infSigns row b c with
      | none => 0x7FC00000
      | some [] => (roundDy .f32 .rne false (columnSum wd segs b c) false).1
      | some (n :: ns) => if ns.all (· == n) then signCode .f32 n + infMag .f32 else 0x7FC00000

/-- `fadd.f32.rne` without flags. -/
def addF32 (x y : Nat) : Nat :=
  (nanFirst .f32 [x, y] (addF .f32 .rne false (decodeF .f32 x) (decodeF .f32 y))).1

/-- One row of `mxmul` (R194). -/
def mulRow (u : MxUnit) (d : Nat) (src : Option Nat) (blocks : List Byte) (bf16 : Bool) (wd : Nat) (bs : List Nat)
    (r : Nat) : MxUnit :=
  let row := rowOf u src blocks bf16 r
  let segs := alignRow wd row
  let cols := bs.flatMap fun b => (List.range 64).map fun c => (u.bank b, c)
  let n := cols.length
  cols.zipIdx.foldl
    (fun u e =>
      let i := r * n + e.2
      u.setEntry d i (BitVec.ofNat 32 (addF32 (u.entry d i).toNat (firstRound wd row segs e.1.1 e.1.2)))) u

/-- One weight block of `mxkv`: the scale and the elements of 120 rows (R191). -/
def keyBlock (xs : List RowEl) : List Byte :=
  let nums := xs.map fun x => match x with
    | .num d => some d
    | _ => none
  let build (scale : Nat) (q : Dy → Int) : List Byte :=
    let payload := (xs.zipIdx.map fun e => match e.1 with
      | .num d => (q d % 16).toNat * 16 ^ e.2
      | _ => 0).sum
    [0x10, BitVec.ofNat 8 scale] ++ valBytes 60 payload ++ [0, 0]
  if nums.any Option.isNone then build 0xFF fun _ => 0
  else
    let amax := (nums.filterMap id).foldl (fun (m : Dy) x => if dyLt m ⟨x.v.natAbs, x.e⟩ then ⟨x.v.natAbs, x.e⟩ else m) ⟨0, 0⟩
    if amax.v = 0 then build 0 fun _ => 0
    else
      let (n, e, st) := quotMag amax.v.natAbs amax.e 7 0
      let scale := (roundVal .e5m3 .rup false false n e st).1
      build scale fun d =>
        (quantWeight 4 .rne (if d.v = 0 then .zero false else .fin (decide (d.v < 0)) d.v.natAbs d.e) scale).1

def keysBank (blocks : List Byte) : Bank :=
  bankOf ((List.range 256).flatMap fun i =>
    let c := i / 4
    keyBlock ((List.range 120).map fun k =>
      let row := 120 * (i % 4) + k
      blockRowEl .bf16 ((blocks.drop (1024 * c + 64 * (row / 30))).take 64) (row % 30)))

/-- The value `mxrd` writes. -/
def convOut (c : MxConv) (x : W32) : Nat :=
  match c with
  | .f32 => x.toNat
  | .bf16 => (convFloat .f32 .bf16 .rne false x.toNat).1
  | .f16 => (convFloat .f32 .f16 .rne false x.toNat).1

/-! ## Execution parts (R185, R202) -/

/-- The data of staged entries of a group that wait for it, from some bytes and their keys: of several at one address the
first, since commands execute in their order. -/
def fillEntries (gidx : Nat) (ks : List Nat) (bytes : List Byte) (es : List DetEntry) : List DetEntry :=
  (List.range (ks.length / 32)).foldl
    (fun es i =>
      let n := es.findIdx fun e => e.data.isEmpty && e.gidx == gidx && e.keys.headD 0 == ks.getD (32 * i) 0
      es.modify n fun e => { e with data := (bytes.drop (32 * i)).take 32 }) es

/-- Writes of `mxsv` in its execution part: stores, or the data of its staged entries, whose group may have ended (R202). The
groups of a block stand in the order of their indices. -/
def performSave (w : Work) (x : Txn) (ks : List Nat) (bytes : List Byte) : Work :=
  match x.staged with
  | some blk =>
    let filled (b : Block) (d : Det) : Det :=
      { d with entries := fillEntries (b.groups.findIdx (· == x.g)) ks bytes d.entries }
    showStaged (w.updBlock blk fun b => { b with det := b.det.map (filled b) }) blk ks bytes
  | none => noteWrote (homeStore w x.ctx ks bytes) x.lnch ks

/-- `mxrd` writes the active lanes of its issue; a group that has ended keeps nothing. -/
def landRead (w : Work) (gi : Nat) (u : MxUnit) (r a e0 n : Nat) (conv : MxConv) (m : Mask) : Work :=
  w.each (List.range n) fun i w =>
    w.updGroup gi fun g =>
      g.landRegs (r + i) 1 m (Lanes.ofFn fun L => convOut conv (u.entry a (e0 + 8 * i + L.val)))

/-- What a command is made of, as R201 counts it: rows, or banks and regions. -/
def MxOp.size (o : MxOp) : Nat :=
  match o with
  | .mul _ _ _ _ rows _ _ => rows
  | .load l => l.length
  | .restore bs rs => bs.length + rs.length
  | .save bs rs _ => bs.length + rs.length
  | _ => 1

/-- Where the command's next granule ends. -/
def MxCmd.stop (c : MxCmd) : Nat :=
  let n := match c.op, c.gran with
    | _, 0 => c.op.size
    | .mul .., 1 => 8
    | .mul .., 2 => 4
    | _, _ => 1
  min c.op.size (c.done + max 1 n)

/-- The unit's state after the parts lo to hi of a command. -/
def MxOp.run (o : MxOp) (u : MxUnit) (lo hi : Nat) : MxUnit :=
  let part {α : Type} (l : List α) (from_ : Nat) : List α := (l.drop (lo - from_)).take (hi - max lo from_)
  match o with
  | .load l => (part l 0).foldl (fun u e => u.setBank e.1 e.2) u
  | .keys b blocks => u.setBank b (keysBank blocks)
  | .mul d src blocks bf _ al bs =>
    ((List.range hi).drop lo).foldl (fun u r => mulRow u d src blocks bf (alignBits al) bs r) u
  | .zero d => u.setRegion d []
  | .write d e0 vals => vals.zipIdx.foldl (fun u e => u.setEntry d (e0 + e.2) e.1) u
  | .restore bs rs =>
    let u := (part bs 0).foldl (fun u e => u.setBank e.1 e.2) u
    (part rs bs.length).foldl (fun u e => u.setRegion e.1 ((e.2.zipIdx.map fun x => (x.2, x.1)).filter fun x => x.2 != 0)) u
  | .read .. | .save .. => u

/-- The parts lo to hi of a save: their keys and bytes, in the order of the image. -/
def saveParts (u : MxUnit) (bs rs : List Nat) (ks : List Nat) (lo hi : Nat) : List Nat × List Byte :=
  let imgs := bs.map (fun b => (u.bank b).bytes) ++ rs.map (regionBytes u)
  ((ks.drop (16384 * lo)).take (16384 * (hi - lo)), ((imgs.drop lo).take (hi - lo)).flatten)

/-- The head of the queue is done to a granule, or leaves the queue. -/
def mxAdvance (w : Work) (core part : Nat) (u : MxUnit) (c : MxCmd) (cs : List MxCmd) : Work :=
  let q := if c.stop < c.op.size then { c with done := c.stop } :: cs else cs
  setMx w core part ({ u with queue := q } : MxUnit).settle

/-- The unit executes the command at the head of its queue up to the next boundary of its split granule, whichever group
issued it. -/
def mxExecute (core part : Nat) (w : Work) : Work :=
  let u := mxUnit w.pk core part
  match u.queue with
  | [] => w
  | c :: cs =>
    match c.op with
    | .read r a e0 n conv m => mxAdvance (landRead w c.g u r a e0 n conv m) core part u c cs
    | .save bs rs t =>
      match w.txn? t with
      | some x =>
        if (laneList.filter x.openIn).all fun L => mayPerform w.pk t x L then
          let (ks, bytes) := saveParts u bs rs x.keys c.done c.stop
          let w := performSave w x ks bytes
          mxAdvance (if c.stop < c.op.size then w else w.dropTxn t) core part u c cs
        else w
      | none => mxAdvance w core part u c cs
    | o => mxAdvance w core part (o.run u c.done c.stop) c cs

/-- The running lanes of a group: the active ones of a matrix instruction (R93). -/
def runningOf (w : Work) (gi : Nat) : Mask :=
  match w.group? gi with
  | some g => g.running
  | none => Mask.none

/-- The bytes of an access's lane that count: of a matrix instruction's slots those that their codes say are read. -/
def readKeys (w : Work) (x : Txn) (o : LaneOp) : List Nat :=
  match x.kind with
  | .mread _ ps _ _ => usedKeys w (groupDet w x.g) ps.length o.keys
  | _ => o.keys

/-- The reads of a matrix instruction at another package have come: their format is checked, and the command enters the
queue once it has room (R185, R190); those of a group that has ended go nowhere (R27). -/
def mreadReturn (t : Nat) (x : Txn) (L : Fin 8) (w : Work) : Work :=
  match x.kind, x.ops.get L with
  | .mread a ps rs c, some o =>
    if (w.group? x.g).isNone then w.dropTxn t
    else if o.phase ≠ 0 ∨ !mayPerform w.pk t x L ∨ (mxUnit w.pk x.core x.part).queue.length ≥ mxDepth then w
    else
      let w := notePerform w t x L
      let bs := blockBytes w (groupDet w x.g) o.keys
      match w.badAt (readKeys w x o), badSlots bs ps.length with
      | some (u, k), _ => failTxn w t x .dataLost (runningOf w x.g) u k
      | none, some n => failTxn w t x .blkFmt (runningOf w x.g) ((a + n) % 2 ^ 64) 0
      | none, none => putCmd (w.dropTxn t) x.core x.part { c with op := imageOp bs ps rs }
  | _, _ => w

def execMxCommandExecute (core part : Nat) (s : State) : Host.Outcome State Fault Refusal := .next (s.run (mxExecute core part))

end Sys2Proof.Machine
end

