-- ==== Sys2Proof/Machine/Scalar.lean ====
section
/-!
DEFINITION. Class 4 but for `sld` and `sst`: scalar arithmetic (R69, R151, R152) and `rds` (R28 to R31, R153).
-/
namespace Sys2Proof.Machine

def noNeed (_ : View) : Need := {}

/-- R69: the exact result, saturated or wrapped, extended to 64 bits; once for the group. -/
def sbinBody (f : SBin) (res : IType → Nat → Nat → Int) (v : View) (w : Work) : Done :=
  once v w fun w => done (w.writeS v f.d (intOut 64 f.ty f.sat (res f.ty (v.s f.a) (v.sop f.b))))

def sunBody (f : SUn) (res : IType → Nat → Int) (v : View) (w : Work) : Done :=
  once v w fun w => done (w.writeS v f.d (intOut 64 f.ty f.sat (res f.ty (v.s f.a))))

/-- `spopc` and `sclz` zero-extend their count. -/
def scountBody (f : SUn) (res : Nat → Nat → Nat) (v : View) (w : Work) : Done :=
  once v w fun w => done (w.writeS v f.d (res (itypeBits f.ty) (v.s f.a)))

def execSadd (f : SBin) (s : State) : Host.Outcome State Fault Refusal :=
  issue s f.h noNeed (sbinBody f fun t x y => readInt t x + readInt t y)

def execSsub (f : SBin) (s : State) : Host.Outcome State Fault Refusal :=
  issue s f.h noNeed (sbinBody f fun t x y => readInt t x - readInt t y)

def execSmul (f : SBin) (s : State) : Host.Outcome State Fault Refusal :=
  issue s f.h noNeed (sbinBody f fun t x y => readInt t x * readInt t y)

def execSand (f : SBin) (s : State) : Host.Outcome State Fault Refusal :=
  issue s f.h noNeed (sbinBody f fun _ x y => (x &&& y : Nat))

def execSor (f : SBin) (s : State) : Host.Outcome State Fault Refusal :=
  issue s f.h noNeed (sbinBody f fun _ x y => (x ||| y : Nat))

def execSxor (f : SBin) (s : State) : Host.Outcome State Fault Refusal :=
  issue s f.h noNeed (sbinBody f fun _ x y => (x ^^^ y : Nat))

def execSshl (f : SBin) (s : State) : Host.Outcome State Fault Refusal :=
  issue s f.h noNeed (sbinBody f fun t x y => readInt t x * 2 ^ shiftCount t y)

def execSshr (f : SBin) (s : State) : Host.Outcome State Fault Refusal :=
  issue s f.h noNeed (sbinBody f fun t x y => (lowBits (itypeBits t) x / 2 ^ shiftCount t y : Nat))

def execSmin (f : SBin) (s : State) : Host.Outcome State Fault Refusal :=
  issue s f.h noNeed (sbinBody f fun t x y => min (readInt t x) (readInt t y))

def execSmax (f : SBin) (s : State) : Host.Outcome State Fault Refusal :=
  issue s f.h noNeed (sbinBody f fun t x y => max (readInt t x) (readInt t y))

def execSsar (f : SBin) (s : State) : Host.Outcome State Fault Refusal :=
  issue s f.h noNeed (sbinBody f fun t x y => readInt t x / 2 ^ shiftCount t y)

def execSmulh (f : SBin) (s : State) : Host.Outcome State Fault Refusal :=
  issue s f.h noNeed (sbinBody f fun t x y => (readInt t x * readInt t y) / 2 ^ itypeBits t)

def execSmov (f : SUn) (s : State) : Host.Outcome State Fault Refusal :=
  issue s f.h noNeed (sunBody f fun t x => readInt t x)

def execSabs (f : SUn) (s : State) : Host.Outcome State Fault Refusal :=
  issue s f.h noNeed (sunBody f fun t x => (readInt t x).natAbs)

def execSneg (f : SUn) (s : State) : Host.Outcome State Fault Refusal :=
  issue s f.h noNeed (sunBody f fun t x => -readInt t x)

def execSnot (f : SUn) (s : State) : Host.Outcome State Fault Refusal :=
  issue s f.h noNeed (sunBody f fun _ x => -(x : Int) - 1)

def execSbrev (f : SUn) (s : State) : Host.Outcome State Fault Refusal :=
  issue s f.h noNeed (sunBody f fun t x => reverseBits (itypeBits t) x)

def execSpopc (f : SUn) (s : State) : Host.Outcome State Fault Refusal := issue s f.h noNeed (scountBody f popCount)

def execSclz (f : SUn) (s : State) : Host.Outcome State Fault Refusal := issue s f.h noNeed (scountBody f leadingZeros)

def smoviBody (f : SmoviF) (v : View) (w : Work) : Done :=
  once v w fun w => done (w.writeS v f.d (intOut 64 f.ty false (readInt f.ty (immBits f.imm))))

def execSmovi (f : SmoviF) (s : State) : Host.Outcome State Fault Refusal := issue s f.h noNeed (smoviBody f)

/-- `scmp` writes the predicate in each active lane of the current split (R152). -/
def scmpBody (f : ScmpF) (v : View) (w : Work) : Done :=
  done (w.writeP v f.p fun _ => compareInt f.cond (readInt f.ty (v.s f.a)) (readInt f.ty (v.sop f.b)))

def execScmp (f : ScmpF) (s : State) : Host.Outcome State Fault Refusal := issue s f.h noNeed (scmpBody f)

/-! ## Special registers (R28 to R31) -/

/-- `wsph` at a cycle count (R31). -/
def wsphAt (c : Nat) : Nat := c % 2048 * 32 + c / 2048 % 32

def iclsNum (c : ICls) : Nat :=
  match c with
  | .u => 0 | .o => 1 | .a => 2

/-- The item of a live lane. -/
def laneItem (w : Work) (g : Group) (L : Fin 8) : Option Item :=
  if (g.lane L).st = .live then (g.lane L).item.bind w.pk.items.find? else none

/-- The value of special register n in a lane. -/
def specialReg (w : Work) (g : Group) (n : Nat) (L : Fin 8) : Nat :=
  let ln := w.launch? g.lnch
  let items := match ln with
    | some l => l.isItems
    | none => false
  let lin := match w.block? g.blk with
    | some b => b.lin
    | none => 0
  let ext (k : Launch → Nat) : Nat := match ln with
    | some l => if items then 1 else k l
    | none => 0
  let grid (k : Launch → Nat) : Nat := match ln with
    | some l => if items then 0 else k l
    | none => 0
  let it (k : Item → Nat) : Nat := match laneItem w g L with
    | some i => k i
    | none => 0
  match n with
  | 0 => L.val
  | 1 => L.val / 4
  | 2 => g.part * 128 + g.slot
  | 3 => g.gidx
  | 4 => grid fun l => (l.coords lin).1
  | 5 => grid fun l => (l.coords lin).2.1
  | 6 => grid fun l => (l.coords lin).2.2
  | 7 => grid fun _ => lin
  | 8 => ext Launch.gridX
  | 9 => ext Launch.gridY
  | 10 => ext Launch.gridZ
  | 11 => grid fun l => lin / l.gangSize
  | 12 => grid fun l => lin % l.gangSize
  | 13 => g.lnch
  | 14 => it fun i => i.label.toNat
  | 15 => it fun i => iclsNum i.cls
  | 16 => it fun i => i.seq.toNat
  | 17 => g.core
  | 18 => coreDie g.core
  | 19 => w.pk.no
  | 20 => g.ctx
  | 21 => wsphAt w.pk.cycle.toNat
  | 22 => g.fpstReg
  | _ => 0

/-- `lnch` is 64 bits wide and fills an even pair. -/
def srRegs (n : Nat) : Nat := if n = 13 then 2 else 1

def rdsNeed (f : RdsF) (_ : View) : Need := { writes := f.d.wrs (srRegs f.sr.toNat) }

def rdsBody (f : RdsF) (v : View) (w : Work) : Done :=
  once v w fun w => done (w.writeU v f.d (srRegs f.sr.toNat) fun L => specialReg w v.grp f.sr.toNat L)

def execRds (f : RdsF) (s : State) : Host.Outcome State Fault Refusal := issue s f.h (rdsNeed f) (rdsBody f)

end Sys2Proof.Machine
end

