-- ==== Sys2Proof/Machine/Flows.lean ====
section
/-!
DEFINITION. Ordered stores and output queues, item queues, and the turns of items (R111 to R113, R335 to R351), with the
events at the home slices and at the gate.
-/
namespace Sys2Proof.Machine

/-! ## Held results (R342, R344) -/

/-- The item's `stord` and `outq` are held: it is ordered, and neither holds its turn nor has passed (R342). -/
def itemHolds (p : Package) (n : Nat) : Bool :=
  match p.items.find? n with
  | some i => i.cls == .o && !i.passed && !holdsTurn p n i
  | none => false

/-- The item of a lane whose `stord` and `outq` are held. -/
def holdsResults (p : Package) (g : Group) (L : Fin 8) : Option Nat :=
  match (g.lane L).st, (g.lane L).item with
  | .live, some n => if itemHolds p n then some n else none
  | _, _ => none

def resultBuffer : Nat := 1024

def resultRoom (p : Package) (core n : Nat) : Bool := resultEntries p core + n ≤ resultBuffer

/-- The lanes of a mask whose results are held, and the others. -/
def splitHeld (w : Work) (g : Group) (m : Mask) : Mask × Mask :=
  let h : Mask := Lanes.ofFn fun L => m.get L && (holdsResults w.pk g L).isSome
  (h, Mask.diff m h)

/-- The wait of an instruction whose held lanes do not fit the buffer. -/
def heldWait (w : Work) (v : View) (h : Mask) : Option Wait :=
  if resultRoom w.pk v.grp.core h.count then none
  else some (.resultRoom (h.lanes.filterMap fun L => holdsResults w.pk v.grp L))

/-- Holds one lane's result with its item. -/
def holdResult (f : MemF) (v : View) (kind : Nat) (ea : Nat) (ks : List Nat) (data : List Byte) (L : Fin 8) (w : Work) :
    Work :=
  match holdsResults w.pk v.grp L with
  | none => w
  | some n =>
    let c := v.grp.chain f.hd.toNat
    w.updItem n fun i =>
      let h : Held := ⟨kind, i.label, i.seq, BitVec.ofNat 64 ea, ks, widthBytes f.width, f.hd.toNat, f.scope, f.ord, data,
        v.grp.core, v.grp.ctx, c.imports.filter fun x => !tokenMet w.pk x, openTxns w.pk c.awaits, false, none⟩
      { i with held := i.held ++ [h] }

def holdAll (f : MemF) (v : View) (kind : Nat) (cs : Lanes (Option Chk)) (h : Mask) (w : Work) : Work :=
  w.each h.lanes fun L w => match keysOf (cs.get L) with
    | some ks => holdResult f v kind (v.ea f.mem L) ks (storeData v f.d (widthBytes f.width) L) L w
    | none => w

/-! ## `stord` (R111) -/

def stordBody (f : MemF) (v : View) (w : Work) : Done :=
  let n := widthBytes f.width
  if !v.act.any then done w
  else
    let (cs, w) := checkLanes w v fun L w => checkLane w v.grp .global .store (v.ea f.mem L) n L
    match accessFault v cs .store, roomWait w.pk v f.hd.toNat with
    | some d, _ => d
    | none, some k => .wait k
    | none, none =>
      let (h, now) := splitHeld w v.grp v.real
      match heldWait w v h with
      | some k =>
        if now.any then .halt ((makeStore w v f now cs (stagedBlk w v.grp)).updGroup v.g fun g => g.restOf h k) else .wait k
      | none => done (makeStore (holdAll f v 0 cs h w) v f now cs (stagedBlk w v.grp))

def execStord (f : MemF) (s : State) : Host.Outcome State Fault Refusal := issue s f.h (memNeed f false) (stordBody f)

/-! ## Queues at the home slice (R112, R113, R336, R337, R351) -/

def iqOk (d : List Byte) : Bool := queueBaseOk d && decide (fld d 12 4 ≤ 1) && allZero (d.drop 32)
def itemEntryOk (e : List Byte) : Bool := decide (fld e 4 1 ≤ 2) && allZero ((e.drop 5).take 3)

/-- What one push comes to. -/
inductive Push where
  | full
  | page (addr : Nat)
  | refused (addr : Nat)
  | pushed (w : Work)
  deriving DecidableEq, Repr

/-- One indivisible push of a 32-byte entry, with the descriptor as it stands (R113). An entry address that is not canonical
is refused as one without permission (log entry 111). -/
def pushEntry (w : Work) (cn ln : Nat) (dk : List Nat) (entry : List Byte) : Push :=
  let d := w.bytes dk
  if !queueRoom d then .full
  else
    let addr := (fld d 0 8 + 32 * (fld d 16 8 % fld d 8 4)) % 2 ^ 64
    match chkGlobal w cn .store addr 32 32 with
    | (.ok ks, w) =>
      .pushed (engineWrite (engineWrite w ln ks entry) ln ((dk.drop 16).take 8) (valBytes 8 ((fld d 16 8 + 1) % 2 ^ 64)))
    | (.bad _ .page a, _) => .page a
    | (.bad _ _ a, _) => .refused a
    | (.member _, _) => .full

/-- The entry of an `outq`: the data, widened with zeros. -/
def outEntry (bs : List Byte) : List Byte := bs.take 32 ++ List.replicate (32 - bs.length) 0

/-! ## `outq` and `ienq` -/

/-- The check of a descriptor's address at issue. -/
def descCheck (w : Work) (v : View) (ea : Nat) : Chk × Work := chkGlobal w v.grp.ctx .store ea 64 64

/-- The pushes of the lanes of m, which hold the split until all have been performed or discarded; the lanes left then issue
the instruction. -/
def makePushes (w : Work) (v : View) (h : Nat) (sc : Scope) (o : Order) (k : TKind) (m left : Mask) (ea : Fin 8 → Nat)
    (cs : Lanes (Option Chk)) (data : Fin 8 → List Byte) : Done :=
  if !m.any then done w
  else
    let (t, w) := addTxn w (mkTxn v h sc o k (storeOps m ea cs data))
    if left.any then .halt (w.updGroup v.g fun g => g.restOf left (.txn t)) else .ok w { block := some (.txn t) }

def outqBody (f : MemF) (v : View) (w : Work) : Done :=
  let n := widthBytes f.width
  if !v.act.any then done w
  else
    let (cs, w) := checkLanes w v fun L w => descCheck w v (v.ea f.mem L)
    match accessFault v cs .store, roomWait w.pk v f.hd.toNat with
    | some d, _ => d
    | none, some k => .wait k
    | none, none =>
      if (detOf w v.grp).isSome then
        done (w.each v.real.lanes fun L w => match keysOf (cs.get L) with
          | some ks => addEntry w v.g L 2 n 0 (v.ea f.mem L) ks (storeData v f.d n L) ⟨[], []⟩
          | none => w)
      else
        let (h, now) := splitHeld w v.grp v.real
        let push (w : Work) (left : Mask) : Done :=
          makePushes w v f.hd.toNat f.scope f.ord (.outq n) now left (v.ea f.mem) cs (storeData v f.d n)
        match heldWait w v h with
        | some k => if now.any then push w h else .wait k
        | none => push (holdAll f v 1 cs h w) Mask.none

def execOutq (f : MemF) (s : State) : Host.Outcome State Fault Refusal := issue s f.h (memNeed f false) (outqBody f)

def ienqNeed (f : IenqF) (_ : View) : Need := { reads := f.d.rd 8 0 :: f.mem.rds, feature := some 1 }

def ienqBody (f : IenqF) (v : View) (w : Work) : Done :=
  if !v.act.any then done w
  else
    let (cs, w) := checkLanes w v fun L w => descCheck w v (v.ea f.mem L)
    match accessFault v cs .store, roomWait w.pk v f.hd.toNat with
    | some d, _ => d
    | none, some k => .wait k
    | none, none =>
      makePushes w v f.hd.toNat .sys .rel .ienq v.real Mask.none (v.ea f.mem) cs fun L => valBytes 32 (v.src f.d 8 L)

def execIenq (f : IenqF) (s : State) : Host.Outcome State Fault Refusal := issue s f.h (ienqNeed f) (ienqBody f)

/-! ## The pushes as events -/

/-- The lanes whose descriptor, or entry, the slice refuses before the first push. -/
def pushBad (w : Work) (x : Txn) (ok : List Byte → List Byte → Bool) : Mask :=
  Lanes.ofFn fun L => match x.ops.get L with
    | some o => o.phase == 0 && !ok (w.bytes o.keys) o.data
    | none => false

/-- The first lane whose descriptor lies in a unit that cannot be corrected, with the unit (R392). -/
def pushLost (w : Work) (x : Txn) : Option (Fin 8 × Nat × Nat) :=
  laneList.findSome? fun L => match x.ops.get L with
    | some o => if o.phase = 0 then (w.badAt o.keys).map fun u => (L, u) else none
    | none => none

/-- The slice has taken the instruction: every lane's push may perform but for the lanes before it (R113, R232). -/
def pushTaken (p : Package) (t : Nat) (x : Txn) : Bool :=
  (laneList.filter x.openIn).all fun L => mayPerformIn p t x (laneList.filter x.openIn) L

/-- The lane's descriptor is reached at these keys. -/
def setKeys (w : Work) (t : Nat) (L : Fin 8) (ks : List Nat) : Work :=
  w.updTxn t fun x => { x with
    ops := Lanes.ofFn fun K => if K = L then (x.ops.get K).map fun o => { o with keys := ks } else x.ops.get K }

/-- One push of a lane, whose descriptor is translated at each attempt, so that a push that waits keeps no translation
(R366, log entry 76). -/
def pushLane (w : Work) (x : Txn) (t : Nat) (L : Fin 8) (va : Nat) (entry : List Byte) : Work :=
  let pause (w : Work) (a : Nat) : Work := hostRec (w.updTxn t fun x => { x with paused := some (BitVec.ofNat 64 a) })
    (bareRec .page .r x.ctx x.lnch a 3)
  let refuse (w : Work) (a : Nat) : Work := setPhase (hostRec w (bareRec .prot .n x.ctx x.lnch a 0)) t L 2 []
  match chkGlobal w x.ctx .store va 64 64 with
  | (.ok ks, w) =>
    let w := setKeys w t L ks
    match w.badAt ks with
    | some (u, k) => failTxn w t x .dataLost (Mask.none.set L true) u k
    | none =>
    match pushEntry w x.ctx x.lnch ks entry with
    | .full => w
    | .page a => pause w a
    | .refused a => refuse w a
    | .pushed w => setPhase w t L 2 []
  | (.bad _ .page a, w) => pause w a
  | (.bad _ _ a, w) => refuse w a
  | (.member _, w) => w

/-- One push of the lowest lane left: judged first, then made once the queue has room. -/
def pushStep (t : Nat) (x : Txn) (ok : List Byte → List Byte → Bool) (entry : List Byte → List Byte) (w : Work) : Work :=
  let bad := pushBad w x ok
  if !x.judged ∧ !pushTaken w.pk t x then w
  else match (if x.judged then none else pushLost w x) with
  | some (L, u, k) => failTxn w t x .dataLost (Mask.none.set L true) u k
  | none =>
  if !x.judged ∧ bad.any then
    failTxn w t x .prot bad (match x.ops.get (bad.lanes.headD 0) with
      | some o => o.va.toNat
      | none => 0) 0
  else
    let w := w.updTxn t fun x => { x with judged := true }
    match laneList.find? fun L => x.openIn L with
    | none => w
    | some L =>
      match x.ops.get L with
      | none => w
      | some o =>
        if !mayPerform w.pk t x L ∨ x.paused.isSome then w else pushLane w x t L o.va.toNat (entry o.data)

def outqPush (t : Nat) (w : Work) : Work :=
  w.onTxn t fun x w => match x.kind with
    | .outq _ => pushStep t x (fun d _ => oqOk d) outEntry w
    | _ => w

def execOutqPush (t : Nat) (s : State) : Host.Outcome State Fault Refusal := .next (s.run (outqPush t))

def ienqPush (t : Nat) (w : Work) : Work :=
  w.onTxn t fun x w => match x.kind with
    | .ienq => pushStep t x (fun d e => iqOk d && itemEntryOk e) id w
    | _ => w

def execIenqPush (t : Nat) (s : State) : Host.Outcome State Fault Refusal := .next (s.run (ienqPush t))

/-! ## Turns (R348 to R350) -/

def itemsNeed (_ : View) : Need := { feature := some 1 }

/-- The active lanes that hold no item and are no helpers. -/
def itemless (v : View) : Mask := Lanes.ofFn fun L => v.real.get L && (v.grp.lane L).item.isNone

/-- The effect of an instruction on items, unless a lane has none (R347). -/
def onItems (v : View) (w : Work) (f : Work → Done) : Done :=
  if (itemless v).any then .trap .prot (itemless v) 0 0 else f w

/-- The items of active lanes, in lane order. -/
def laneItems (v : View) : List (Fin 8 × Nat) :=
  v.real.lanes.filterMap fun L => (v.grp.lane L).item.map fun n => (L, n)

def relabelNeed (f : RelabelF) (_ : View) : Need := { reads := [f.a.rd 1 1], feature := some 1 }

/-- One lane's item takes its place in a new flow. -/
def moveItem (w : Work) (l n : Nat) (label : W32) (c : ICls) : Work :=
  let (seq, w) := takePlace w l n label
  w.updItem n fun i => { i with label := label, cls := c, seq := seq, passed := false, admitted := c != .a, busy := false }

/-- The flow table can take each of the labels (R338). -/
def flowsFit (p : Package) (l : Nat) (labels : List W32) : Bool := labels.all (flowRoom p l)

/-- Lane by lane, the item passes in its old flow and takes its place in the new one, up to the first lane that finds the
table full: the lanes left (R348). -/
def relabelLanes (ln : Nat) (label : Fin 8 → W32) (c : ICls) : List (Fin 8 × Nat) → Work → Work × List (Fin 8 × Nat)
  | [], w => (w, [])
  | e :: es, w =>
    let w := settleItems (passItem w e.2)
    if flowRoom w.pk ln (label e.1) then relabelLanes ln label c es (moveItem w ln e.2 (label e.1) c) else (w, e :: es)

/-- The items of a split that await admission. -/
def unadmitted (p : Package) (v : View) : List (Fin 8 × Nat) :=
  v.m.lanes.filterMap fun L => match (v.grp.lane L).st, (v.grp.lane L).item with
    | .live, some n => match p.items.find? n with
      | some i => if i.admitted then none else some (L, n)
      | none => none
    | _, _ => none

/-- Blocked splits of one lane each. -/
def lanePieces (v : View) (ls : List (Fin 8 × Wait)) : List Piece :=
  ls.map fun e => ⟨Mask.none.set e.1 true, v.pc, .blocked e.2, true, v.next⟩

def relabelBody (f : RelabelF) (v : View) (w : Work) : Done :=
  onItems v w fun w =>
    let label (L : Fin 8) : W32 := v.grp.word f.a.r.toNat L
    match relabelLanes v.grp.lnch label f.cls (laneItems v) w with
    | (w, e :: es) =>
      let rest : Mask := (e :: es).foldl (fun m x => m.set x.1 true) Mask.none
      .halt (w.updGroup v.g fun g => g.restOf rest (.flowRoom [label e.1]))
    | (w, []) =>
      let w := w.each (unadmitted w.pk v) fun e w => if mayAdmit w.pk e.2 then admitItem w e.2 else w
      .ok w { pieces := lanePieces v ((unadmitted w.pk v).map fun e => (e.1, Wait.admission e.2)) }

def execRelabel (f : RelabelF) (s : State) : Host.Outcome State Fault Refusal :=
  issue s f.h (relabelNeed f) (relabelBody f)

def itemidNeed (f : ItemidF) (_ : View) : Need := { writes := [⟨f.d.toNat, 4, false⟩], feature := some 1 }

/-- The quadruple of R349 as one number. -/
def itemWord (p : Package) (n : Nat) (i : Item) : Nat :=
  i.label.toNat
    + 2 ^ 32 * (b2n i.busy * 2 ^ 10 + b2n i.passed * 2 ^ 9 + b2n (holdsTurn p n i) * 2 ^ 8 + iclsNum i.cls)
    + 2 ^ 64 * i.seq.toNat + 2 ^ 96 * i.held.length

def itemidBody (f : ItemidF) (v : View) (w : Work) : Done :=
  let x (L : Fin 8) : Nat := match (v.grp.lane L).st, (v.grp.lane L).item with
    | .live, some n => match w.pk.items.find? n with
      | some i => itemWord w.pk n i
      | none => 0
    | _, _ => 0
  done (w.updGroup v.g fun g => g.writeVal f.d.toNat 4 false v.act (Lanes.ofFn x))

def execItemid (f : ItemidF) (s : State) : Host.Outcome State Fault Refusal := issue s f.h (itemidNeed f) (itemidBody f)

/-- `idone` finishes the items and exits. -/
def execIdone (f : Bare) (s : State) : Host.Outcome State Fault Refusal :=
  issue s f.h itemsNeed fun v w => onItems v w fun w => done (exitLanes w v.g v.act)

def tktBody (v : View) (w : Work) : Done :=
  onItems v w fun w =>
    let waits := (laneItems v).filter fun e => match w.pk.items.find? e.2 with
      | some i => !i.passed && !holdsTurn w.pk e.2 i
      | none => false
    .ok w { pieces := lanePieces v (waits.map fun e => (e.1, Wait.turn e.2)) }

def execTkt (f : Bare) (s : State) : Host.Outcome State Fault Refusal := issue s f.h itemsNeed tktBody

def execTkrel (f : Bare) (s : State) : Host.Outcome State Fault Refusal :=
  issue s f.h itemsNeed fun v w =>
    onItems v w fun w => done (settleItems (w.each (laneItems v) fun e w => releaseItem w e.2))

/-! ## Items as events (R338, R340, R342, R413) -/

/-- Launch l runs an item stream and may take items. -/
def streamOpen (w : Work) (l : Launch) : Bool :=
  l.isItems && (l.stat == .ready || l.stat == .running) && !l.broken && match w.ctx? l.ctx with
    | some c => c.st == .live && c.sched != 0
    | none => false

def iqAddr (l : Launch) : Nat := fld l.rec_ 64 8

/-- The descriptor as a load of the launch's context, whole by R336: its keys, a page it waits on, or a refusal. -/
def readIq (w : Work) (l : Launch) : Except Chk (List Nat) × Work :=
  match chkGlobal w l.ctx .load (iqAddr l) 64 64 with
  | (.ok ks, w) => if iqOk (w.bytes ks) then (.ok ks, w) else (.error (.bad 5 .prot (iqAddr l)), w)
  | (c, w) => (.error c, w)

/-- The bytes of the descriptor's line of 128, where the tables map it. -/
def iqLine (w : Work) (l : Launch) : List Nat :=
  match w.ctx? l.ctx with
  | some c => match walk w c (iqAddr l % 2 ^ 57) with
    | some x => keysFrom ((x.pa + iqAddr l % 2 ^ x.size) / 128 * 128) 128
    | none => []
  | none => []

/-- The dispatcher meets a read it cannot make, of the descriptor (1) or of an entry (2): a page it waits on, or a notice, once
while that stands; it then takes nothing until the descriptor's line is written or a retry condition holds. -/
def dispFault (w : Work) (ln : Nat) (l : Launch) (what : Nat) (c : Chk) : Work :=
  match c with
  | .bad _ .page a =>
    let w := w.updLaunch ln fun l => { l with dispPage := some (BitVec.ofNat 64 a) }
    hostRec w (bareRec .page .r l.ctx ln a 3)
  | _ =>
    let line := iqLine w l
    let w := w.updLaunch ln fun l => { l with dispNoted := true, dispTold := what, dispLine := line, dispDue := false }
    if l.dispTold = what then w else hostRec w (bareRec .prot .n l.ctx ln (iqAddr l) 0)

def iclsOf (n : Nat) : ICls :=
  match n with
  | 0 => .u
  | 1 => .o
  | _ => .a

/-- The dispatcher can read; what it could not is over. -/
def dispWhole (w : Work) (ln : Nat) : Work := w.updLaunch ln fun l => { l with dispTold := 0 }

/-- The dispatcher's acquire of IQPROD, at `sys`, follows what a release that wrote it orders (R338). -/
def prodOpen (p : Package) (ks : List Nat) : Bool := p.notes.any fun n => overlap n.keys ks && n.joinsAbroad && n.live p

/-- The dispatcher takes the entry at IQCONS. -/
def itemTake (ln : Nat) (w : Work) : Work :=
  w.onLaunch ln fun l w =>
    if !streamOpen w l ∨ l.dispPage.isSome ∨ l.dispNoted then w
    else
      match readIq w l with
      | (.error c, w) => dispFault w ln l 1 c
      | (.ok dk, w) =>
        let d := w.bytes dk
        let cons := fld d 24 8
        if fld d 16 8 ≤ cons then dispWhole w ln
        else if prodOpen w.pk ((dk.drop 16).take 8) then w
        else
          let addr := (fld d 0 8 + 32 * (cons % fld d 8 4)) % 2 ^ 64
          match chkGlobal w l.ctx .load addr 32 32 with
          | (.ok ks, w) =>
            let w := dispWhole w ln
            let e := w.bytes ks
            let next (w : Work) : Work := engineWrite w ln ((dk.drop 24).take 8) (valBytes 8 ((cons + 1) % 2 ^ 64))
            if !itemEntryOk e then next (hostRec w (bareRec .prot .n l.ctx ln addr 0))
            else
              let label := BitVec.ofNat 32 (fld e 0 4)
              if !flowRoom w.pk ln label then w
              else
                let (n, w) := w.newId
                let (seq, w) := takePlace w ln n label
                let c := iclsOf (fld e 4 1)
                let args := (List.range 3).map fun k => BitVec.ofNat 64 (fld e (8 + 8 * k) 8)
                let i : Item := ⟨ln, label, c, seq, args, false, c != .a, false, [], none⟩
                let w := w.mapPk fun p => { p with items := p.items.insert n i }
                let w := if c != .a then w.updLaunch ln fun l => { l with readyItems := l.readyItems ++ [n] } else w
                next w
          | (c, w) => dispFault w ln l 2 c

def execItemTake (l : Nat) (s : State) : Host.Outcome State Fault Refusal := .next (s.run (itemTake l))

/-- An atomic item is admitted: it becomes ready, or its waiting lane does. -/
def atomicAdmit (n : Nat) (w : Work) : Work :=
  match w.pk.items.find? n with
  | none => w
  | some i =>
    if !mayAdmit w.pk n then w
    else
      let w := admitItem w n
      if i.lane.isNone then w.updLaunch i.lnch fun l => { l with readyItems := l.readyItems ++ [n] } else w

def execAtomicItemAdmit (item : Nat) (s : State) : Host.Outcome State Fault Refusal := .next (s.run (atomicAdmit item))

/-- The first held result of the item at a gate is performed; a push that cannot be made yet waits (R342). An item that has
executed `tkrel` passes once none is left (R350). -/
def gateStep (ln : Nat) (label : W32) (w : Work) : Work :=
  match flow? w.pk ln label with
  | none => w
  | some f =>
    if f.saved then w
    else match f.gate? w.pk with
    | none => settleItems w
    | some pl =>
      match w.pk.items.find? pl.item with
      | none => w
      | some i =>
        match i.heldAt label pl.seq with
        | [] => if i.passed ∧ i.label = label ∧ i.seq = pl.seq then settleItems (passItem w pl.item) else w
        | h :: _ =>
          let drop (w : Work) : Work := settleItems (w.updItem pl.item fun i => { i with held := i.held.erase h })
          let pause (a : Nat) (w : Work) : Work :=
            let w := w.updItem pl.item fun i => { i with
              held := i.held.map fun x => if x = h then { x with paused := some (BitVec.ofNat 64 a) } else x }
            hostRec w (bareRec .page .r h.ctx ln a 3)
          if h.paused.isSome ∨ !heldMay w.pk i h then w
          else
            match chkGlobal w h.ctx .store h.addr.toNat (if h.kind = 0 then h.width else 64) 1 with
            | (.bad _ .page a, w) => pause a w
            | (.bad .., w) | (.member _, w) => drop (hostRec w (bareRec .prot .n h.ctx ln h.addr.toNat 0))
            | (.ok ks, w) =>
              if h.kind = 0 then drop (noteWrote (homeStore w h.ctx ks h.data) ln ks)
              else if let some (u, k) := w.badAt ks then drop (hostRec w (bareRec .dataLost .n h.ctx ln u k))
              else if !oqOk (w.bytes ks) then drop (hostRec w (bareRec .prot .n h.ctx ln h.addr.toNat 0))
              else
                match pushEntry w h.ctx ln ks (outEntry h.data) with
                | .full => w
                | .page a => pause a w
                | .refused a => drop (hostRec w (bareRec .prot .n h.ctx ln a 0))
                | .pushed w => drop w

def execGateReached (l : Nat) (label : W32) (s : State) : Host.Outcome State Fault Refusal := .next (s.run (gateStep l label))

/-- The dispatcher reads a descriptor again that it had found unusable, since its line has been written or a retry condition
has held (R413). -/
def dispatcherRetry (ln : Nat) (w : Work) : Work :=
  w.onLaunch ln fun l w =>
    if !l.dispNoted ∨ !l.dispDue ∨ l.dispPage.isSome then w
    else
      match readIq w l with
      | (.ok _, w) => w.updLaunch ln fun l =>
        { l with dispNoted := false, dispDue := false, dispTold := if l.dispTold = 1 then 0 else l.dispTold }
      | (.error c, w) => dispFault w ln l 1 c

def execDispatcherRetry (l : Nat) (s : State) : Host.Outcome State Fault Refusal := .next (s.run (dispatcherRetry l))

end Sys2Proof.Machine
end

