-- ==== Sys2Proof/Machine/Resources.lean ====
section
/-!
DEFINITION. Class 12: extended register blocks and full bits (R18 to R20, R27, R89 to R92), with the partition's grants
and swap-outs of R91.
-/
namespace Sys2Proof.Machine

/-! ## Registers of a partition -/

/-- Groups that stand on a partition. -/
def partGroups (p : Package) (core part : Nat) : List (Nat × Group) :=
  p.groups.filter fun e => e.2.core == core && e.2.part == part && e.2.stat != .saved

/-- Free registers of a partition's 8,192: those of ended groups count until their writes have landed (R27). -/
def freeRegs (p : Package) (core part : Nat) : Nat :=
  8192 - ((partGroups p core part).map fun e => e.2.alloc).sum
    - ((p.leftovers.filter fun l => l.core == core && l.part == part && l.alive p).map fun l => l.regs).sum

/-- Registers of a context's groups on a partition. -/
def ctxRegs (p : Package) (cn core part : Nat) : Nat :=
  (((partGroups p core part).filter fun e => e.2.ctx == cn).map fun e => e.2.alloc).sum

def regQuotaOf (p : Package) (cn : Nat) : Nat :=
  match p.ctxs.find? cn with
  | some c => c.regQuota
  | none => 0

/-- Room and quota allow n more registers of a context. -/
def admits (p : Package) (cn core part n : Nat) : Bool :=
  decide (n ≤ freeRegs p core part ∧ ctxRegs p cn core part + n ≤ regQuotaOf p cn)

/-! ## Requests (R91) -/

/-- The requests of a partition, oldest first: a group that is being saved keeps its place until it has left. -/
def partRequests (p : Package) (core part : Nat) : List (Nat × XReq) :=
  sortBy (fun a b => decide (a.2.seq ≤ b.2.seq)) ((partGroups p core part).filterMap fun e => e.2.xreq.map fun x => (e.1, x))

/-- k more units, zero and full in every lane (R20). -/
def Group.grant (g : Group) (k : Nat) : Group :=
  { g with ext := g.ext + k, regs := g.regs.filter fun e => e.1 < g.alloc }

/-- Once a split becomes ready again: where the current split cannot issue, the switch that found no ready split is made;
a current split that becomes ready itself is current anew (R72). -/
def Group.resumeRing (g : Group) (own : Bool) : Group :=
  match g.splits with
  | [] => g
  | s :: _ => if !g.mayIssue s then g.switchPoint s.lanes else if own then g.makeCurrent 0 s.lanes else g

/-- The wait of a split is over: it is ready, at the next word where the end of the wait completes its instruction. -/
def Group.finishSplit (g : Group) (k : Nat) : Group :=
  match g.splits[k]? with
  | none => g
  | some s =>
    let g := if s.finish then (g.setPc s.lanes s.nxt).clearWd s.lanes else g
    let only := if s.finish then none else s.only
    let g := { g with splits := g.splits.set k { s with cond := .ready, finish := false, age := 0, only := only } }
    g.mergeRing.resumeRing (k == 0)

/-- The split that waits in the group's outstanding `xacq`. -/
def Group.xacqSplit (g : Group) : Option Nat := g.splits.findIdx? fun s => s.cond == .blocked .xacq

/-- The `xacq` that was set aside when the handler took its split is completed (R380, R403). -/
def Group.grantAside (g : Group) : Group :=
  let grant (a : Split) : Split := if a.cond = .blocked .xacq then { a with cond := .ready, finish := true } else a
  { g with handler := g.handler.map fun h => { h with aside := h.aside.map grant } }

/-- The outstanding request of a group is granted, and its split goes on. -/
def Group.granted (g : Group) : Group :=
  match g.xreq with
  | none => g
  | some x =>
    let g := { g.grant x.k with xreq := none }
    match g.xacqSplit with
    | some k => g.finishSplit k
    | none => g.grantAside

/-- Partitions grant in the order of the requests. -/
def xacqGrant (core part : Nat) (w : Work) : Work :=
  match partRequests w.pk core part with
  | [] => w
  | (gi, x) :: _ =>
    w.onGroup gi fun g w =>
      if admits w.pk g.ctx core part (64 * x.k) then w.updGroup gi Group.granted else w

def execXacqGrant (core part : Nat) (s : State) : Host.Outcome State Fault Refusal := .next (s.run (xacqGrant core part))

/-- The requests that give way, youngest first, until n registers of a context are admitted. -/
def swapOut (p : Package) (cn core part n : Nat) : List Nat → List Nat
  | [] => []
  | g :: gs =>
    if admits p cn core part n then []
    else g :: swapOut { p with groups := p.groups.erase g } cn core part n gs

/-- The oldest request has waited 4,096 cycles: others that wait in `xacq` are swapped out. Groups already being saved
make room too. -/
def xacqSwapOut (core part : Nat) (w : Work) : Work :=
  match partRequests w.pk core part with
  | [] => w
  | (gi, x) :: others =>
    w.onGroup gi fun g w =>
      if x.age < 4096 then w
      else
        let going (e : Nat × XReq) : Bool := match w.group? e.1 with
          | some y => y.saveReq.isSome || y.stat != .resident
          | none => true
        let p := others.foldl (fun p e => if going e then { p with groups := p.groups.erase e.1 } else p) w.pk
        let young := ((others.filter fun e => !going e).map Prod.fst).reverse
        w.each (swapOut p g.ctx core part (64 * x.k) young) fun gj w =>
          w.updGroup gj fun y => { y with saveReq := some ⟨.xacqSwap, 0, true, false⟩ }

def execXacqSwapOut (core part : Nat) (s : State) : Host.Outcome State Fault Refusal :=
  .next (s.run (xacqSwapOut core part))

/-! ## `xacq`, `xrel` (R90, R91) -/

/-- `.try` grants at once or not at all. -/
def xacqTry (v : View) (p : BitVec 3) (k : Nat) (w : Work) : Done :=
  let ok := v.grp.xreq.isNone && (partRequests w.pk v.grp.core v.grp.part).isEmpty &&
    admits w.pk v.grp.ctx v.grp.core v.grp.part (64 * k)
  done ((if ok then w.updGroup v.g fun g => g.grant k else w).writeP v p fun _ => ok)

def xacqBody (f : XacqF) (v : View) (w : Work) : Done :=
  once v w fun w =>
    let k := f.k.toNat
    if v.grp.alloc + 64 * k > 1024 then .trap .regRange v.act 0 v.grp.alloc
    else match f.tryP with
    | some p => xacqTry v p k w
    | none =>
      if v.grp.xreq.isSome then .wait .xacqTurn
      else if (partRequests w.pk v.grp.core v.grp.part).isEmpty ∧
          admits w.pk v.grp.ctx v.grp.core v.grp.part (64 * k) then
        done (w.updGroup v.g fun g => g.grant k)
      else
        let (n, w) := w.newId
        .ok (w.updGroup v.g fun g => { g with xreq := some ⟨k, n, 0⟩ }) { block := some .xacq }

def execXacq (f : XacqF) (s : State) : Host.Outcome State Fault Refusal := issue s f.h (fun _ => { feature := some 9 }) (xacqBody f)

/-- Late data for registers at or past a number goes nowhere (R27). -/
def TKind.redirect (k : TKind) (from_ : Nat) : TKind :=
  match k with
  | .load d n width => if d ≥ from_ then .load 1024 n width else .load d n width
  | .atom op t d n ret => if d ≥ from_ then .atom op t 1024 n ret else .atom op t d n ret
  | .ref inc d hdr was => if d ≥ from_ then .ref inc 1024 hdr was else .ref inc d hdr was
  | k => k

def MxOp.redirect (o : MxOp) (from_ : Nat) : MxOp :=
  match o with
  | .read r a e0 n conv m => .read r a e0 (min n (from_ - r)) conv m
  | o => o

/-- The promise of a copy request is due in registers at or past a number. -/
def Req.promises (q : Req) (from_ : Nat) : Bool :=
  match q.promise with
  | some (d, _) => decide (from_ ≤ d ∧ d < 1024)
  | none => false

/-- The accesses of a group that still write registers at or past a number, and its copy requests that will write their
promise there (R24). -/
def landingFrom (p : Package) (gi from_ : Nat) : List Nat :=
  (p.txns.keysWhere fun _ t => t.g == gi && match t.kind with
    | .load d .. | .atom _ _ d _ true | .ref _ d .. => decide (from_ ≤ d ∧ d < 1024)
    | _ => false) ++ p.reqs.keysWhere fun _ q => q.g == gi && q.promises from_

/-- A promise due in registers that are given up is discarded when it comes. -/
def Req.redirect (q : Req) (from_ : Nat) : Req :=
  if q.promises from_ then { q with promise := q.promise.map fun e => (1024, e.2) } else q

/-- The top k units are given up: their registers return to the partition once what still writes them has landed. -/
def xrelOp (w : Work) (gi k : Nat) : Work :=
  w.onGroup gi fun g w =>
    let from_ := g.alloc - 64 * k
    let ts := landingFrom w.pk gi from_
    let u := mxUnit w.pk g.core g.part
    let reads := u.queue.any fun c => c.g == gi && match c.op with
      | .read r _ _ n _ _ => decide (r + n > from_)
      | _ => false
    let left : List Leftover := if ts.isEmpty ∧ !reads then [] else [⟨g.core, g.part, 64 * k, gi, ts⟩]
    let w := w.updGroup gi fun g => { g with ext := g.ext - k, regs := g.regs.filter fun e => e.1 < from_ }
    let w := setMx w g.core g.part { u with
      queue := u.queue.map fun c => if c.g = gi then { c with op := c.op.redirect from_ } else c }
    w.mapPk fun p => { p with
      txns := p.txns.mapVals fun _ t => if t.g = gi then { t with kind := t.kind.redirect from_ } else t
      reqs := p.reqs.mapVals fun _ q => if q.g = gi then q.redirect from_ else q
      leftovers := left ++ p.leftovers.filter (Leftover.alive p) }

def xrelBody (f : XrelF) (v : View) (w : Work) : Done :=
  once v w fun w =>
    if f.k.toNat > v.grp.ext then .trap .regRange v.act 0 v.grp.alloc else done (xrelOp w v.g f.k.toNat)

def execXrel (f : XrelF) (s : State) : Host.Outcome State Fault Refusal := issue s f.h (fun _ => { feature := some 9 }) (xrelBody f)

/-! ## Full bits (R92) -/

/-- The register is a destination, whose pending producers are waited for. -/
def fbitNeed (f : FbitF) (_ : View) : Need := { writes := [⟨f.d.toNat, 1, false⟩] }

def setFull (w : Work) (v : View) (r : Nat) (b : Bool) : Work :=
  w.updGroup v.g fun g =>
    let x := g.reg r
    g.setReg r { x with full := if b then Mask.union x.full v.act else Mask.diff x.full v.act }

def execFset (f : FbitF) (s : State) : Host.Outcome State Fault Refusal :=
  issue s f.h (fbitNeed f) fun v w => done (setFull w v f.d.toNat true)

def execFclr (f : FbitF) (s : State) : Host.Outcome State Fault Refusal :=
  issue s f.h (fbitNeed f) fun v w => done (setFull w v f.d.toNat false)

def ftakeNeed (f : DA) (_ : View) : Need := { reads := [f.a.rd 1 1], writes := [f.d.wr 1] }

def ftakeBody (f : DA) (v : View) (w : Work) : Done :=
  done (setFull (w.writeV v f.d 1 fun L => (v.grp.word f.a.r.toNat L).toNat) v f.a.r.toNat false)

def execFtake (f : DA) (s : State) : Host.Outcome State Fault Refusal := issue s f.h (ftakeNeed f) (ftakeBody f)

/-- The register is named, not read. -/
def ftestNeed (f : FtestF) (_ : View) : Need := { names := [(f.a.toNat, 1)] }

def execFtest (f : FtestF) (s : State) : Host.Outcome State Fault Refusal :=
  issue s f.h (ftestNeed f) fun v w => done (w.writeP v f.p fun L => (v.grp.reg f.a.toNat).full.get L)

end Sys2Proof.Machine
end

