-- ==== Sys2Proof/Machine/Image.lean ====
section
/-!
DEFINITION. The image of a saved group as bytes (R402 to R405): the frame, the bulk run and the block section, and how they
are read back.
-/
namespace Sys2Proof.Machine

/-! ## The bulk run (R404) -/

def chunkBytes (g : Group) (c : Nat) : List Byte :=
  (List.range 32).flatMap fun r => laneList.flatMap fun L => valBytes 4 ((g.reg (32 * c + r)).val.get L).toNat

def ferryBytes (d : Delivery) : List Byte :=
  valBytes 2 d.target ++ [d.m.toByte] ++ [0] ++ valBytes 2 d.src ++ valBytes 1 d.core ++ [0] ++ valBytes 2 d.slot
    ++ List.replicate 22 0 ++ laneList.flatMap fun L => valBytes 4 (d.data.get L).toNat

/-- The record of a stopped command: its word, the rows or banks done, and its address. -/
def cmdBytes (c : MxCmd) : List Byte :=
  c.word ++ valBytes 4 c.done ++ valBytes 8 c.addr.toNat ++ List.replicate 40 0

/-- The run's bytes: chunks, banks, regions, stopped commands, deliveries. -/
def bulkBytes (w : Work) (gi : Nat) (g : Group) (cs : List MxCmd) (m : MaskWord) : List Byte :=
  let u := mxUnit w.pk g.core g.part
  (maskChunks m).flatMap (chunkBytes g) ++ (physBanks g (maskBanks m)).flatMap (fun b => (u.bank b).bytes)
    ++ (physRegions g (maskRegions m)).flatMap (regionBytes u) ++ cs.flatMap cmdBytes ++ (listedFor w.pk gi).flatMap fun e => ferryBytes e.2.d

/-! ## The frame (R402, R403) -/

def laneSt (s : LaneSt) : Nat :=
  match s with
  | .live => 0 | .helper => 1 | .exited => 2 | .inactive => 3

/-- IFLAG, LABEL and ISEQ of a lane's item. -/
def itemBytes (p : Package) (n : Option Nat) : List Byte × List Byte :=
  match n with
  | some k =>
    match p.items.find? k with
    | some i => (valBytes 1 (iclsNum i.cls + 4 * b2n (holdsTurn p k i) + 8 * b2n i.passed + 16 * b2n i.busy),
        valBytes 4 i.label.toNat ++ valBytes 4 i.seq.toNat)
    | none => ([0], List.replicate 8 0)
  | none => ([0], List.replicate 8 0)

def laneBytes (p : Package) (l : Lane) (pred : BitVec 7) : List Byte :=
  let (fl, li) := itemBytes p l.item
  valBytes 1 (laneSt l.st) ++ valBytes 1 (l.pred &&& pred).toNat ++ fl ++ [(0 : Byte)] ++ li ++ valBytes 4 l.dseq

/-- WAITK and WAITV of a split; the current one of a suspended group waits for the retry. -/
def splitWait (s : Split) (susp : Bool) : Nat × Nat :=
  match s.cond, s.only with
  | _, some m => (4, m.toByte.toNat)
  | .blocked (.bar _ v), none => (1, v % 2 ^ 16)
  | .blocked (.admission _), none => (2, 0)
  | .blocked .xacq, none => (5, 0)
  | _, none => (if susp then 3 else 0, 0)

def splitBytes (s : Split) (susp : Bool) : List Byte :=
  let (k, v) := splitWait s susp
  [s.lanes.toByte] ++ valBytes 1 k ++ valBytes 1 (min s.quant 63) ++ List.replicate 5 0 ++ valBytes 8 v

/-- The status of R301. -/
def Group.frysWord (g : Group) : Nat := g.frysLast * 2 ^ 56 + g.inflight * 2 ^ 32 + g.frysNaks.toNat

/-- SKIND. -/
def Group.skind (g : Group) (full stopped : Bool) : Nat :=
  b2n full + 2 * b2n g.handler.isSome + 4 * b2n g.resume.isSome + 8 * b2n g.susp.isSome + 16 * b2n stopped
    + 32 * b2n (g.saveKind == .xacqSwap || g.saveKind == .parentSwap)

/-- The frame from offset 0x41 to 0x7F. -/
def frameHead (g : Group) (full stopped : Bool) (lin : Nat) (m : MaskWord) (nferry nmx bulk bulkLen blkRun : Nat) :
    List Byte :=
  let xreq : Nat := match g.xreq with
    | some x => x.k
    | none => 0
  valBytes 1 (g.skind full stopped) ++ valBytes 2 g.gidx ++ valBytes 4 lin ++ valBytes 8 g.lnch ++ valBytes 2 g.base
    ++ valBytes 1 g.ext ++ valBytes 1 xreq ++ valBytes 12 (maskWord m) ++ valBytes 1 0 ++ valBytes 1 (min g.pendA.length 32)
    ++ valBytes 1 g.plq.length ++ valBytes 1 0 ++ valBytes 2 nferry ++ valBytes 2 nmx ++ valBytes 8 bulk ++ valBytes 4 bulkLen
    ++ valBytes 4 0 ++ valBytes 8 blkRun

/-- From 0x80 to 0x37F: scalars, PCs, lanes, rejoin masks, splits. -/
def frameLanes (p : Package) (g : Group) (m : MaskWord) : List Byte :=
  (List.range 32).flatMap (fun n => valBytes 8 (g.sreg n).toNat)
    ++ laneList.flatMap (fun L => valBytes 8 (pcVa (g.lane L).pc).toNat ++ valBytes 8 (pcVa (g.lane L).mr).toNat)
    ++ laneList.flatMap (fun L => laneBytes p (g.lane L) m.pred)
    ++ (List.range 16).flatMap (fun j => valBytes 8 (if m.jmask.getLsbD j then jmaskWord (g.jmask j) else 0))
    ++ (List.range 8).flatMap fun i => match g.splits[i]? with
      | some s => splitBytes s (i == 0 && g.susp.isSome)
      | none => List.replicate 16 0

/-- From 0x380 to 0x3FF: status, counters, arrivals. -/
def frameCounts (g : Group) : List Byte :=
  let xage : Nat := match g.xreq with
    | some x => x.age
    | none => 0
  let wdc : Nat := (laneList.map fun L => (g.lane L).wd).max?.getD 0
  valBytes 4 g.fpstReg ++ valBytes 4 xage ++ valBytes 8 g.frysWord
    ++ (List.range 8).flatMap (fun n => valBytes 8 (FMap.getD g.pmc 0 n).toNat)
    ++ (List.range 16).flatMap (fun n => valBytes 2 (FMap.getD g.arr 0 n)) ++ valBytes 2 (FMap.getD g.arr 0 17)
    ++ valBytes 6 0 ++ valBytes 8 wdc

/-- The full bits, or the marks, of the allocation, one byte for each of 1,024 registers. -/
def frameBits (g : Group) (f : VReg → Mask) : List Byte :=
  (List.range 1024).map fun r => if r < g.alloc then (f (g.reg r)).toByte else 0

/-- The frame from offset 0x41 to its end. -/
def frameBytes (p : Package) (g : Group) (full stopped : Bool) (lin : Nat) (m : MaskWord) (nferry nmx bulk bulkLen blkRun : Nat) :
    List Byte :=
  let pend := (g.pendA.take 32).flatMap fun r => r.bytes false
  frameHead g full stopped lin m nferry nmx bulk bulkLen blkRun ++ frameLanes p g m ++ frameCounts g
    ++ frameBits g VReg.full ++ frameBits g VReg.mark ++ pend ++ List.replicate (2048 - pend.length + 0xC00) 0

/-! ## The block section (R405) -/

/-- A request's record with RESUME, the bytes already moved. -/
def reqRecord (q : Req) : List Byte := setFld q.rec_ 40 8 q.done

/-- Completed phases of the gang barrier of a block. -/
def gangPhases (p : Package) (b : Block) : Nat :=
  match p.launches.find? b.lnch with
  | some l => FMap.getD l.gphases 0 (b.lin / l.gangSize)
  | none => 0

def sectionBytes (w : Work) (blk : Nat) (b : Block) : List Byte :=
  (List.range 16).flatMap (fun n => valBytes 2 (FMap.getD b.phases 0 n)) ++ valBytes 2 (gangPhases w.pk b)
    ++ valBytes 1 b.cores.length ++ [0] ++ valBytes 4 b.localSize ++ valBytes 2 (blockReqs w.pk blk).length
    ++ List.replicate 22 0 ++ w.bytes (localKeys blk b) ++ (blockReqs w.pk blk).flatMap fun e => reqRecord e.2

/-! ## Reading an image back (R399, R411) -/

/-- Whether the bytes of a saved frame can be read, and those of its run. -/
def readFrame (w : Work) (g : Group) : Option (List Byte) :=
  match w.ctx? g.ctx with
  | some c => readVirt w g.ctx (frameVa c g.frame) 0x1400
  | none => none

def readBulk (w : Work) (g : Group) (f : List Byte) : Option (List Byte) :=
  let n := fld f 0x70 4
  if n = 0 then some [] else readVirt w g.ctx (fld f 0x68 8) n

/-- The registers of a frame and run: values of the named chunks, zero elsewhere, with the full bits and marks. -/
def imageRegs (g : Group) (f bulk : List Byte) (m : MaskWord) : FMap VReg :=
  (List.range g.alloc).foldl
    (fun acc r =>
      let place := (maskChunks m).findIdx (· == r / 32)
      let val (L : Fin 8) : W32 :=
        if place < (maskChunks m).length then BitVec.ofNat 32 (fld bulk (1024 * place + 32 * (r % 32) + 4 * L.val) 4) else 0
      FMap.put acc VReg.fresh r
        ⟨Lanes.ofFn val, Mask.ofByte (f.getD (0x400 + r) 0), Mask.ofByte (f.getD (0x800 + r) 0), Mask.none⟩) []

/-- The PCs of a frame. -/
def imagePc (f : List Byte) (L : Fin 8) : PC := BitVec.ofNat 57 (fld f (0x180 + 16 * L.val) 8)

end Sys2Proof.Machine
end

