-- ==== Sys2Proof/Machine/Ferry.lean ====
section
/-!
DEFINITION. Class 13: names and ferry stores (R291 to R302), packets from other packages and failed remote accesses (R289,
R290, R361), and lines taken back (R101, R115).
-/
namespace Sys2Proof.Machine

/-! ## Names (R292, R294) -/

def nameWord (p : Package) (slot gen : Nat) : Nat := p.no * 2 ^ 36 + gen * 2 ^ 16 + slot

/-- The slot a binding takes: one never used, else the one free for longest. -/
def nextName (p : Package) : Option Nat := if p.names.length < 65536 then some p.names.length else p.freedNames.head?

def groupName (p : Package) (g : Group) : Option Nat :=
  match g.name with
  | some k => (p.names.find? k).map fun e => nameWord p k e.gen
  | none => none

/-- The group is to be saved, or is saved, by the migration of its block, and has not been restored (R300). -/
def groupMoves (p : Package) (gi : Nat) (g : Group) : Bool :=
  match p.blocks.find? g.blk with
  | some b => b.migrating && (g.stat != .resident || b.toMove.contains gi)
  | none => false

/-- The name of a group, binding one where it has none; zero when the table has no free entry. -/
def bindName (w : Work) (gi : Nat) (g : Group) : Nat × Work :=
  match groupName w.pk g with
  | some x => (x, w)
  | none =>
    match nextName w.pk with
    | none => (0, w)
    | some k =>
      let last := match w.pk.names.find? k with
        | some e => e.gen
        | none => 0
      let gen := if last + 1 ≥ 2 ^ 20 then 1 else last + 1
      let w := w.mapPk fun p => { p with
        names := p.names.insert k ⟨gen, some gi, g.ctx, domainOf w g.ctx, groupMoves p gi g⟩
        freedNames := p.freedNames.filter (· != k) }
      (nameWord w.pk k gen, w.updGroup gi fun g => { g with name := some k })

def ferryNeed (_ : View) : Need := { feature := some 4 }

def nacqBody (f : SdstF) (v : View) (w : Work) : Done :=
  once v w fun w =>
    let (x, w) := bindName w v.g v.grp
    done (w.writeS v f.d x)

def execNacq (f : SdstF) (s : State) : Host.Outcome State Fault Refusal := issue s f.h ferryNeed (nacqBody f)

def nrelBody (v : View) (w : Work) : Done :=
  once v w fun w => done ((freeName w v.grp.name).updGroup v.g fun g => { g with name := none })

def execNrel (f : Bare) (s : State) : Host.Outcome State Fault Refusal := issue s f.h ferryNeed nrelBody

/-- The resident or saved group of a launch at a block's linear index and a group index. -/
def groupOfLaunch (p : Package) (l : Launch) (lin gidx : Nat) : Option (Nat × Group) :=
  match blockAt p l lin with
  | none => none
  | some (_, b) => b.groups.findSome? fun gi => match p.groups.find? gi with
      | some g => if g.gidx = gidx then some (gi, g) else none
      | none => none

/-- Groups of one block (R12). -/
def Launch.groupCount (l : Launch) : Nat := (l.blanes + 7) / 8

def nlookBody (f : SpairF) (v : View) (w : Work) : Done :=
  once v w fun w =>
    let x := v.s f.a
    match w.launch? v.grp.lnch with
    | none => .trap .prot v.act x 0
    | some l =>
      let lin := x % 2 ^ 32
      let gidx := x / 2 ^ 32 % 2 ^ 10
      if l.isItems ∨ x / 2 ^ 42 ≠ 0 ∨ lin ≥ l.blockCount ∨ gidx ≥ l.groupCount then .trap .prot v.act x 0
      else
        match groupOfLaunch w.pk l lin gidx with
        | some (gi, g) =>
          let (n, w) := bindName w gi g
          done (w.writeS v f.d n)
        | none => done (w.writeS v f.d 0)

def execNlook (f : SpairF) (s : State) : Host.Outcome State Fault Refusal := issue s f.h ferryNeed (nlookBody f)

def frysBody (f : SdstF) (v : View) (w : Work) : Done := once v w fun w => done (w.writeS v f.d v.grp.frysWord)

def execFrys (f : SdstF) (s : State) : Host.Outcome State Fault Refusal := issue s f.h ferryNeed (frysBody f)

/-! ## `fry` (R295) -/

def fryNeed (f : FryF) (_ : View) : Need :=
  { reads := f.a.rds 2 1 ++ [f.b.rd 1 2], feature := some 4 }

/-- The delivery takes an entry of the tables and is held until its chain predecessors have performed. -/
def fryBody (f : FryF) (v : View) (w : Work) : Done :=
  if !v.real.any then done w
  else
    let x := v.uni f.a 2
    if x / 2 ^ 48 ≠ 0 then .trap .prot v.act x 0
    else match roomWait w.pk v f.hd.toNat with
    | some k => .wait k
    | none =>
      let rel := chainRelease w.pk v.grp f.hd.toNat
      let (id, w) := w.newId
      let (t, w) := addTxn w (mkTxn v f.hd.toNat .pod .plain (.ferry id) (oneOp v.lead (plainOp 0 [] [])))
      let (slot, seq) := match w.group? v.g with
        | some g => (((g.chain f.hd.toNat).slot).getD 0, (g.chain f.hd.toNat).seq)
        | none => (0, 0)
      let gen := match w.pk.lift.find? (slotKey v.grp.core slot) with
        | some s => s.gen
        | none => 0
      let d : Delivery := ⟨w.pk.no, v.grp.core, slot, gen, seq, 0, v.g, f.hd.toNat, BitVec.ofNat 64 x, f.target.toNat,
        Lanes.ofFn fun L => v.grp.word f.b.r.toNat L, v.real, domainOf w v.grp.ctx⟩
      let w := w.mapPk fun p => { p with sent := p.sent.insert id ⟨d, t, rel, false, none⟩ }
      done (w.updGroup v.g fun g => { g with inflight := g.inflight + 1 })

def execFry (f : FryF) (s : State) : Host.Outcome State Fault Refusal := issue s f.h (fryNeed f) (fryBody f)

/-! ## Deliveries at their target (R296 to R300) -/

def sameChain (a b : Delivery) : Bool := a.src == b.src && a.sender == b.sender && a.handle == b.handle

/-- An earlier delivery of the same chain to the same group has not ended. -/
def earlierWaits (p : Package) (n : Nat) (d : Delivery) (gi : Nat) : Bool :=
  p.inbound.any fun e => e.1 < n && e.2.g == gi && sameChain e.2.d d

/-- What stands between a delivery and its register: none, a cause to discard it, or nothing yet (R296). -/
inductive FerryJudge where
  | apply | discard (cause : Nat) | waits
  deriving DecidableEq, Repr

def ferryJudge (g : Group) (d : Delivery) : FerryJudge :=
  if d.target ≥ g.alloc then .discard 2
  else
    let x := g.reg d.target
    if (Mask.inter d.m (Mask.union x.full x.pend)).any then .waits else .apply

def applyDelivery (w : Work) (gi : Nat) (d : Delivery) : Work :=
  w.updGroup gi fun g => g.setReg d.target ((g.reg d.target).write d.m d.data)

/-- Judges the waiting delivery n once its turn has come; at a group that is being saved it waits (R410). -/
def ferryApply (n : Nat) (w : Work) : Work :=
  match w.pk.inbound.find? n with
  | none => w
  | some i =>
    w.onGroup i.g fun g w =>
      if g.stat ≠ .resident ∨ i.core.isNone ∨ earlierWaits w.pk n i.d i.g then w
      else
        match ferryJudge g i.d with
        | .apply => endDelivery (applyDelivery w i.g i.d) n i 0
        | .discard c => endDelivery w n i c
        | .waits => w

def execFerryApply (core n : Nat) (s : State) : Host.Outcome State Fault Refusal :=
  .next (s.run fun w => match w.pk.inbound.find? n with
    | some i => if i.core = some core then ferryApply n w else w
    | none => w)

/-- The mask that the save of a group applied. -/
def savedMask (f : List Byte) : MaskWord := maskOf (fld f 0x54 12)

/-- Writes a delivery into a saved image, if its register lies in a saved chunk and is empty there (R299). -/
def imageWrite (w : Work) (g : Group) (d : Delivery) : Option Work :=
  match readFrame w g with
  | none => none
  | some f =>
    let m := savedMask f
    let full := Mask.ofByte (f.getD (0x400 + d.target) 0)
    if d.target ≥ g.alloc ∨ !(maskChunks m).contains (d.target / 32) ∨ (Mask.inter d.m full).any then none
    else
      let place := (maskChunks m).findIdx (· == d.target / 32)
      let at_ := fld f 0x68 8 + 1024 * place + 32 * (d.target % 32)
      match readVirt w g.ctx at_ 32 with
      | none => none
      | some old =>
        let new := laneList.flatMap fun L =>
          if d.m.get L then valBytes 4 (d.data.get L).toNat else (old.drop (4 * L.val)).take 4
        match writeVirt w g.ctx at_ new with
        | none => none
        | some w =>
          let w := writeFrame w g.ctx g.frame (0x400 + d.target) [(Mask.union full d.m).toByte]
          some (writeFrame w g.ctx g.frame (0x800 + d.target)
            [(Mask.diff (Mask.ofByte (f.getD (0x800 + d.target) 0)) d.m).toByte])

/-- Appends a record to the run of a saved group, moving the run to a longer one where it is full (R299, R404). -/
def imageAppend (w : Work) (gi : Nat) (g : Group) (d : Delivery) : Option Work :=
  match readFrame w g with
  | none => none
  | some f =>
    let run := (g.bulk).getD (0, 0)
    let len := fld f 0x70 4
    let count (w : Work) : Work :=
      writeFrame (writeFrame w g.ctx g.frame 0x64 (valBytes 2 (fld f 0x64 2 + 1))) g.ctx g.frame 0x70 (valBytes 4 (len + 64))
    if len + 64 ≤ 4096 * run.2 then (writeVirt w g.ctx (fld f 0x68 8 + len) (ferryBytes d)).map count
    else
      match takeRun w g.ctx (len + 64), readBulk w g f with
      | some (r, w), some bs =>
        (writeVirt w g.ctx (runVa w g.ctx r) (bs ++ ferryBytes d)).map fun w =>
          let w := dropRun w g.ctx g.bulk
          let w := w.updGroup gi fun g => { g with bulk := some r }
          count (writeFrame w g.ctx g.frame 0x68 (valBytes 8 (runVa w g.ctx r)))
      | _, _ => none

def inboundCount (p : Package) (core : Nat) : Nat := (p.inbound.filter fun e => e.2.core == some core).length

/-- Where a delivery comes to wait. -/
def park (w : Work) (d : Delivery) (own : Option Nat) (gi : Nat) (core : Option Nat) (atTable : Bool) : Nat × Work :=
  let (n, w) := w.newId
  (n, w.mapPk fun p => { p with inbound := p.inbound.insert n ⟨d, own, gi, core, atTable, n⟩ })

/-- A delivery reaches the package of its name: discarded, applied, or put where it waits; none when it must be sent
again. -/
def arrive (w : Work) (d : Delivery) (own : Option Nat) : Option Work :=
  let discard (c : Nat) : Option Work := some (let (n, w') := park w d own 0 none false; endDelivery w' n ⟨d, own, 0, none, false, n⟩ c)
  match w.pk.names.find? (nameSlot d.name.toNat) with
  | none => discard 1
  | some e =>
    match e.g with
    | none => discard 1
    | some gi =>
      if e.gen ≠ nameGen d.name.toNat then discard 1
      else if e.domain ≠ d.domain then discard 3
      else
        match w.group? gi with
        | none => discard 1
        | some g =>
          if e.moving then some (park w d own gi none true).2
          else if g.stat = .saved then
            let chained := earlierWaits w.pk w.pk.fresh d gi
            match (if chained then none else imageWrite w g d) with
            | some w => let (n, w) := park w d own gi none false; some (endDelivery w n ⟨d, own, gi, none, false, n⟩ 0)
            | none =>
              if (listedFor w.pk gi).length ≥ 256 then none
              else (imageAppend w gi g d).map fun w => (park w d own gi none false).2
          else
            let now := !earlierWaits w.pk w.pk.fresh d gi && ferryJudge g d != .waits && g.stat == .resident
            if !now && inboundCount w.pk g.core ≥ 256 then none
            else
              let (n, w) := park w d own gi (some g.core) false
              some (ferryApply n w)

/-- Deliveries sent earlier on the same chain to the same package that have not reached it (R288). -/
def sentBefore (p : Package) (id : Nat) (d : Delivery) : Bool :=
  p.sent.any fun e => e.1 < id && sameChain e.2.d d && namePkg e.2.d.name.toNat == namePkg d.name.toNat && !e.2.arrived

/-- A delivery of a group of this package arrives here. -/
def ownDelivery (id : Nat) (w : Work) : Work :=
  match w.pk.sent.find? id with
  | none => w
  | some x =>
    if x.arrived ∨ namePkg x.d.name.toNat ≠ w.pk.no ∨ !x.preds.met w.pk ∨ sentBefore w.pk id x.d then w
    else
      let w' := w.mapPk fun p => { p with sent := p.sent.insert id { x with arrived := true } }
      (arrive w' x.d (some id)).getD w

/-! ## Acknowledgements (R301, R302) -/

/-- The acknowledgement of a delivery comes back with its cause: what the target here decided, or what another package
answered (4 where it cannot be reached). -/
def ferryAck (id cause : Nat) (w : Work) : Work :=
  match w.pk.sent.find? id with
  | none => w
  | some x =>
    let here := namePkg x.d.name.toNat = w.pk.no
    if (here ∧ x.acked ≠ some cause) ∨ (¬here ∧ (cause > 4 ∨ !x.preds.met w.pk)) then w
    else
      let w := (w.dropTxn x.txn).mapPk fun p => { p with sent := p.sent.erase id }
      w.onGroup x.d.sender fun g w =>
        let w := w.updGroup x.d.sender fun g => { g with
          inflight := g.inflight - 1
          frysLast := if cause = 0 then g.frysLast else cause
          frysNaks := if cause = 0 then g.frysNaks else g.frysNaks + 1 }
        match cause, w.ctx? g.ctx with
        | 0, _ => w
        | _, some c => if c.nakT then raiseAsync w x.d.sender .ferryNak x.d.m x.d.name.toNat cause else w
        | _, none => w

def execFerryAck (id cause : Nat) (s : State) : Host.Outcome State Fault Refusal := .next (s.run (ferryAck id cause))

/-! ## Packets from other packages (R288, R289, R361) -/

/-- A packet is admitted only through an entry of this package's reach table that names it. -/
def admitsPacket (p : Package) (domain addr n : Nat) (write : Bool) : Bool :=
  paPackage addr == p.no && !inControlSpace addr &&
    p.reach.any fun e => e.domain == domain && e.target == p.no && e.admits addr n write

/-- The context number no context has: a packet's own context stands on its package. -/
def noContext : Nat := 4096

/-- Groups that wait for a token of a die of a package. -/
def importers (p : Package) (pkg die : Nat) : List Nat :=
  p.groups.keysWhere fun _ g => g.chains.any fun c => c.2.imports.any fun x =>
    let t := tokenOf x.toNat
    t.pkg == pkg && coreDie t.core == die && !tokenMet p x

/-- `refinc` or `refdec` of another package's group, at the counter's home slice here: the header and the index are judged,
and the count changes (R121). -/
def countArrives (w : Work) (x : Packet) (inc : Bool) (hdr : Nat) (idx : W32) (entry : Option Nat) : Work :=
  let hk := keysFrom hdr 64
  let chk (w : Work) (_ : Nat) : Chk × Work := (match entry with
    | some pa => if admitsPacket w.pk x.domain pa 4 true then .ok (keysFrom pa 4) else .bad 5 .prot pa
    | none => .bad 5 .prot 0, w)
  if admitsPacket w.pk x.domain x.addr 4 true ∧ admitsPacket w.pk x.domain hdr 64 true ∧
      (w.badAt (hk ++ keysFrom x.addr 4)).isNone ∧ poolOk (w.bytes hk) idx.toNat then
    (performRef w noContext chk inc hk ⟨0, keysFrom x.addr 4, valBytes 4 idx.toNat, [], [], 0⟩).2
  else w

/-- One push of `outq` or `ienq` of another package's group, at the descriptor's home slice here (R94, R113): none while the
queue is full. A descriptor that the slice refuses, or that cannot be read, and an entry's place that the tables or the reach
refuse, are pushed nothing; the sender's package raises what follows. -/
def pushArrives (w : Work) (x : Packet) (item : Bool) (bytes : List Byte) (entry : Option Nat) : Option Work :=
  let dk := keysFrom x.addr 64
  let d := w.bytes dk
  let whole := x.addr % 64 == 0 && admitsPacket w.pk x.domain x.addr 64 true && (w.badAt dk).isNone &&
    if item then iqOk d && itemEntryOk bytes else oqOk d
  if !whole then some w
  else if !queueRoom d then none
  else
    match entry with
    | some pa =>
      if pa % 32 = 0 ∧ admitsPacket w.pk x.domain pa 32 true then
        some ((w.write (keysFrom pa 32) (outEntry bytes)).write ((dk.drop 16).take 8) (valBytes 8 ((fld d 16 8 + 1) % 2 ^ 64)))
      else some w
    | none => some w

/-- What a packet does at this package; what it reads goes back to its sender. None while it cannot be done. -/
def packetDone (w : Work) (x : Packet) : Option Work :=
  match x.op with
  | .refcount inc hdr idx entry => some (countArrives w x inc hdr idx entry)
  | .push item bytes entry => pushArrives w x item bytes entry
  | .dieLost die =>
    let waiting := importers w.pk x.src die
    let w := w.mapPk fun p => { p with farLost := (x.src, die) :: p.farLost }
    some (w.each waiting fun gi w => raiseAsync w gi .dieLost Mask.none 0 die)
  | .read _ => some w
  | .write data =>
    let ks := keysFrom x.addr data.length
    some (if admitsPacket w.pk x.domain x.addr data.length true then homeStore w noContext ks data else w)
  | .atomic op ty data cmp =>
    let n := akindBytes ty
    let ks := keysFrom x.addr n
    some (if admitsPacket w.pk x.domain x.addr n true ∧ (w.badAt ks).isNone then
      (performAtom w op.toNat ty ⟨0, ks, valBytes n data.toNat, valBytes n cmp.toNat, [], 0⟩).2
    else w)
  | .token t => some (if (tokenOf t.toNat).pkg = w.pk.no then w
    else w.mapPk fun p => { p with tokensMet := t.toNat :: p.tokensMet })

/-! ## The reorder buffers (R288) -/

/-- A slot of another package's core, the generation, the number in the chain, and that of what the chain sent here before. -/
structure FarPlace where
  src : Nat
  slot : Nat
  gen : Nat
  seq : Nat
  prev : Nat
  deriving DecidableEq, Repr

def FarArrival.place (a : FarArrival) : FarPlace :=
  match a with
  | .packet x => ⟨x.src, slotKey x.core x.slot, x.gen, x.seq, x.prev⟩
  | .delivery d => ⟨d.src, slotKey d.core d.slot, d.gen, d.seq, d.prev⟩

/-- The last of the chain's that has been applied here: 0 where the generation has none. -/
def lastApplied (p : Package) (x : FarPlace) : Nat :=
  match p.applied.find? (x.src * 2 ^ 20 + x.slot) with
  | some (g, n) => if g = x.gen then n else 0
  | none => 0

/-- It is the next of its chain. -/
def FarPlace.next (p : Package) (x : FarPlace) : Bool := x.prev == lastApplied p x && lastApplied p x < x.seq

def noteApplied (w : Work) (x : FarPlace) : Work :=
  w.mapPk fun p => { p with applied := p.applied.insert (x.src * 2 ^ 20 + x.slot) (x.gen, x.seq) }

/-- What has come is applied; none where it cannot be yet: a full queue or inbound buffer. -/
def applyFar (w : Work) (a : FarArrival) : Option Work :=
  let w := noteApplied w a.place
  match a with
  | .packet x => packetDone w x
  | .delivery d => arrive w d none

/-- Applies what waits in the reorder buffers and has become the next of its chain, at most n of it. -/
def drainFar : Nat → Work → Work
  | 0, w => w
  | n + 1, w =>
    match w.pk.reorder.findSome? fun a => if a.place.next w.pk then
        applyFar (w.mapPk fun p => { p with reorder := p.reorder.erase a }) a else none with
    | some w => drainFar n w
    | none => w

/-- A packet or delivery of another package arrives: it is applied in its chain's order, and waits in the reorder buffer of its
slot for what is still to come before it. -/
def farArrives (a : FarArrival) (w : Work) : Work :=
  if a.place.src = w.pk.no ∨ a.place.seq ≤ lastApplied w.pk a.place then w
  else
    let w := if w.pk.reorder.contains a then w else w.mapPk fun p => { p with reorder := p.reorder ++ [a] }
    drainFar w.pk.reorder.length w

def ferryDelivery (r : DeliveryRef) (w : Work) : Work :=
  match r with
  | .remote d => if namePkg d.name.toNat ≠ w.pk.no then w else farArrives (.delivery d) w
  | .own id => ownDelivery id w

def execFerryDelivery (d : DeliveryRef) (s : State) : Host.Outcome State Fault Refusal := .next (s.run (ferryDelivery d))

/-- A packet of another package arrives: an access takes its place in its chain, and a report stands in none. -/
def packetArrives (x : Packet) (w : Work) : Work :=
  match x.op with
  | .token _ | .dieLost _ => if x.src = w.pk.no then w else (packetDone w x).getD w
  | _ => farArrives (.packet x) w

def execRemotePacketArrival (p : Packet) (s : State) : Host.Outcome State Fault Refusal := .next (s.run (packetArrives p))

/-! ## Remote accesses that fail (R290, R412) -/

/-- The bytes of a lane's access that lie on another package. -/
def onPackage (pkg : Nat) (o : LaneOp) : List Nat := o.keys.filter fun k => isGlobalKey k && paPackage k == pkg

/-- A store that reaches several packages is discarded at one of them (R285). -/
def LaneOp.without (o : LaneOp) (gone : List Nat) : LaneOp :=
  let left := (o.keys.zip o.data).filter fun e => !gone.contains e.1
  { o with keys := left.map Prod.fst, data := left.map Prod.snd }

/-- One lane's remote access ends at a package as unreachable or refused. -/
def remoteFail (t : Nat) (L : Fin 8) (refused : Bool) (pkg : Nat) (w : Work) : Work :=
  w.onTxn t fun x w =>
    match x.ops.get L with
    | none => w
    | some o =>
      match onPackage pkg { o with keys := readKeys w x o } with
      | [] => w
      | pa :: ks =>
        if pkg = w.pk.no ∨ o.phase ≠ 0 ∨ !mayPerform w.pk t x L then w
        else
          let code := if refused then Code.prot else Code.dataLost
          let addr := if refused then o.va.toNat else pa
          let m : Mask := Mask.none.set L true
          match x.kind with
          | .load .. | .sload .. => loadFails w t x L code addr 0
          | .mread .. => failTxn w t x code (runningOf w x.g) addr 0
          | .lrec _ m | .lcnt _ _ m => failTxn w t x code m addr 0
          | .atom _ _ d n true => raiseAsync (landLoad w t x L d n 0) x.g code m addr 0
          | .ref _ d _ was =>
            if x.judged then raiseAsync (landLoad w t x L d 1 0) x.g code m addr 0
            else failTxn (w.updGroup x.g fun g => g.setReg d (restoreFull x was (g.reg d))) t x code m addr 0
          | .outq _ | .ienq => failTxn w t x code m addr 0
          | _ =>
            let w := hostRec w (bareRec code .n x.ctx x.lnch addr 0)
            let left := o.without (pa :: ks)
            if left.keys.isEmpty then setPhase w t L 2 []
            else w.updTxn t fun x => { x with ops := x.ops.set L (some left) }

def execRemoteAccessFailure (t : Nat) (lane : Fin 8) (refused : FarFailure) (s : State) :
    Host.Outcome State Fault Refusal := .next (s.run (remoteFail t lane refused.refused refused.pkg))

/-! ## Lines taken back (R101, R115) -/

/-- Copies in the caches hold no state of their own in the model, so their removal changes nothing. -/
def execBackInvalidate (_pa : Nat) (s : State) : Host.Outcome State Fault Refusal := .next s

/-- The oldest pin on some lines: its order number, launch and group, with the context and the line. -/
def oldestPin (ps : List Pin) : Option ((Nat × Nat × Nat) × Nat × Nat) :=
  (ps.flatMap fun x => x.owners.map fun o => (o, x.ctx, x.line)).foldl
    (fun a e => match a with
      | some b => if e.1.1 < b.1.1 then some e else a
      | none => some e) none

/-- The invalidation of a group has waited 2^20 cycles for pins: every one on its lines is released, and the group that made
the oldest is told, or the host when it has ended: the address is the physical one of that pin's line (log entry 68). -/
def pinRevoke (gi : Nat) (w : Work) : Work :=
  w.onGroup gi fun g w =>
    match g.splits.findSome? fun s => match s.cond with
      | .blocked (.inval _ _ _ _ ls t) => if w.pk.cycle.toNat ≥ t.toNat then some ls else none
      | _ => none with
    | none => w
    | some ls =>
      let hit (x : Pin) : Bool := ls.contains (x.ctx * 2 ^ 64 + x.line)
      let old := oldestPin (w.pk.pins.filter hit)
      let w := w.mapPk fun p => { p with pins := p.pins.filter fun x => !hit x }
      match old with
      | none => w
      | some ((_, ln, gj), cn, line) =>
        if (w.group? gj).isSome then raiseAsync w gj .pinRevoked Mask.none (128 * line) 0
        else hostRec w (bareRec .pinRevoked .n cn ln (128 * line) 0)

def execPinRevoked (inv : Nat) (s : State) : Host.Outcome State Fault Refusal := .next (s.run (pinRevoke inv))

end Sys2Proof.Machine
end

