-- ==== Sys2Proof/Machine/Launch.lean ====
section
/-!
DEFINITION. Launch records and how they are taken (R305 to R310, R211, R335), the two launch instructions (R326 to R331),
and the completion of launches and streams (R317, R346, R386).
-/
namespace Sys2Proof.Machine

/-! ## Launch records (R307, R308, R335) -/

def recBase (r : List Byte) : Nat := fld r 28 2
def recMxb (r : List Byte) : Nat := fld r 30 1
def recMxr (r : List Byte) : Nat := fld r 31 1
def recLocal (r : List Byte) : Nat := fld r 32 4
def recStack (r : List Byte) : Nat := fld r 36 4
def recDep (r : List Byte) : Nat := fld r 40 4
def recNtask (r : List Byte) : Nat := fld r 44 4
def recDone (r : List Byte) : Nat := fld r 48 8
def recParam (r : List Byte) : Nat := fld r 56 8
def recIq (r : List Byte) : Nat := fld r 64 8
def recPrio (r : List Byte) : Nat := fld r 25 1
def recFlags (r : List Byte) : Nat := fld r 26 1
def recGang (r : List Byte) : Nat := fld r 24 1
def recBlanes (r : List Byte) : Nat := fld r 8 4
def recBlocks (r : List Byte) : Nat := fld r 12 4 * fld r 16 4 * fld r 20 4

/-- A named task of DEP or NTASK, if valid. -/
def taskOf (x : Nat) : Option Nat := if bitAt x 31 = 1 then some (x % 2 ^ 16) else none

def recIsDet (r : List Byte) : Bool := bitAt (recFlags r) 0 == 1
def recIsItems (r : List Byte) : Bool := bitAt (recFlags r) 1 == 1

/-- The values of R307, and of R335 for an item stream. -/
def recFieldsOk (r : List Byte) : Bool :=
  r.length == 256 && canonical (fld r 0 8) && fld r 0 8 % 4 == 0 &&
    decide (1 ≤ recBlanes r ∧ recBlanes r ≤ 8192 ∧ 1 ≤ fld r 12 4 ∧ 1 ≤ fld r 16 4 ∧ 1 ≤ fld r 20 4 ∧
      recBlocks r ≤ 2 ^ 32 - 1 ∧ 1 ≤ recGang r ∧ recGang r ≤ 16 ∧ recPrio r ≤ 7 ∧ recFlags r ≤ 3) &&
    recBlocks r % recGang r == 0 && fld r 27 1 == 0 &&
    decide (16 ≤ recBase r ∧ recBase r ≤ 256 ∧ recMxb r ≤ 8 ∧ recMxr r ≤ 16 ∧ recLocal r ≤ 786432 ∧ recStack r ≤ 2 ^ 24) &&
    recBase r % 16 == 0 && recLocal r % 64 == 0 && recDep r / 2 ^ 16 % 2 ^ 15 == 0 && recNtask r / 2 ^ 16 % 2 ^ 15 == 0 &&
    recDone r % 8 == 0 && allZero (r.drop 72) &&
    if recIsItems r then
      recBlanes r == 8 && decide (fld r 12 4 ≤ 98304) && fld r 16 4 == 1 && fld r 20 4 == 1 && recGang r == 1 &&
        recIq r != 0 && recIq r % 64 == 0
    else recIq r == 0

/-- The groups per partition, and so the groups per core rank and the cores of a block (R312). -/
def recCap (r : List Byte) : Nat :=
  let c := min 128 (8192 / recBase r)
  let c := if recMxb r > 0 then min c (8 / recMxb r) else c
  if recMxr r > 0 then min c (16 / recMxr r) else c

def ceilDiv (a b : Nat) : Nat := (a + b - 1) / b

def recGroups (r : List Byte) : Nat := ceilDiv (recBlanes r) 8
def recGpr (r : List Byte) : Nat := ceilDiv (recGroups r) (ceilDiv (recGroups r) (4 * recCap r))
def recCores (r : List Byte) : Nat := ceilDiv (recGroups r) (recGpr r)

def ownsTask (c : Ctx) (t : Option Nat) : Bool :=
  match t with
  | some t => decide (c.taskLo ≤ t ∧ t < c.taskLo + c.taskN)
  | none => true

/-- The record passes R308 for a context. -/
def recOk (neg : Negotiation) (cn : Nat) (c : Ctx) (r : List Byte) : Bool :=
  recFieldsOk r && (!recIsDet r || (featureOn neg cn 0 && c.detOk && !recIsItems r && c.spCount != 0)) &&
    (!recIsItems r || featureOn neg cn 1) && ownsTask c (taskOf (recDep r)) && ownsTask c (taskOf (recNtask r)) &&
    decide (recCores r ≤ 16 ∧ recCores r ≤ c.coreQuota ∧ recGang r * recCores r ≤ 48 ∧
      recGang r * recCores r ≤ c.coreQuota ∧ recGroups r * (32 * recStack r) ≤ c.privLen)

/-! ## Taking a record (R306, R310, R328) -/

def Launch.fresh (cn : Nat) (r : List Byte) (addr : W64) (src : LSrc) (die : Option Nat) (parent : Nat) : Launch where
  ctx := cn
  rec_ := r
  addr := addr
  src := src
  stat := .appended
  die := die
  parentLnch := parent
  readySeq := 0
  next := 0
  blocks := []
  blocksDone := 0
  killRecs := []
  placed := false
  cycles := 0
  waited := 0
  marks := []
  turn := 0
  broken := false
  gphases := []
  gdebts := []
  wrote := []
  dispNoted := false
  dispTold := 0
  dispLine := []
  dispDue := false
  dispPage := none
  readyItems := []
  donePage := none
  fatal := false

/-- The entry of a pending-launch queue is free again (R328). -/
def freePending (w : Work) (ln : Nat) : Work :=
  match w.launch? ln with
  | some l =>
    match l.src with
    | .group g => w.updGroup g fun g => { g with plq := g.plq.filter (· != ln) }
    | .queue => w
  | none => w

/-- The launch becomes ready, after those that are. -/
def makeReady (w : Work) (ln : Nat) : Work :=
  let (n, w) := w.newId
  w.updLaunch ln fun l => { l with stat := .ready, readySeq := n }

/-- The record of launch ln is checked: refused, parked on its task, or ready. -/
def judgeLaunch (neg : Negotiation) (ln : Nat) (w : Work) : Work :=
  w.onLaunch ln fun l w =>
    let ok := match w.ctx? l.ctx with
      | some c => recOk neg l.ctx c l.rec_
      | none => false
    if !ok then
      let w := hostRec (freePending w ln) (bareRec .illOp .f l.ctx ln l.addr.toNat 0)
      w.mapPk fun p => { p with launches := p.launches.erase ln }
    else
      match taskOf (recDep l.rec_) with
      | none => makeReady w ln
      | some t =>
        let x := FMap.getD w.pk.tasks Task.fresh t
        if x.count = 0 then makeReady w ln
        else
          let w := freePending w ln
          let w := w.updLaunch ln fun l => { l with stat := .parked }
          w.mapPk fun p => { p with tasks := FMap.put p.tasks Task.fresh t { x with parked := x.parked ++ [ln] } }

/-! ## Hardware work queues (R305, R306) -/

def Queue.fresh : Queue := ⟨0, 0, 0, 0, 0, false, false, none⟩
def queueOf (p : Package) (q : Nat) : Queue := FMap.getD p.queues Queue.fresh q
def setQueue (w : Work) (q : Nat) (x : Queue) : Work :=
  w.mapPk fun p => { p with queues := FMap.put p.queues Queue.fresh q x }

/-- The queue stops on an error, which the firmware's event word shows (R305, R375). -/
def queueErr (w : Work) (q : Nat) (x : Queue) : Work :=
  (setQueue w q { x with en := false, err := true }).mapPk fun p => { p with evword := p.evword ||| 8 }

/-- Takes one record of a queue. -/
def takeRecord (neg : Negotiation) (q : Nat) (w : Work) : Work :=
  let x := queueOf w.pk q
  if !x.en ∨ x.paused.isSome ∨ x.prod = x.cons then w
  else if x.prod - x.cons > x.cap then queueErr w q x
  else
    let cn := x.ctx.toNat
    let addr := (x.base.toNat + 256 * (x.cons.toNat % x.cap.toNat)) % 2 ^ 64
    match chkRange w cn .load addr 256 with
    | (.bad _ .page a, w) =>
      hostRec (setQueue w q { x with paused := some (BitVec.ofNat 64 a) }) (bareRec .page .r cn 0 addr 3)
    | (.bad .., w) | (.member _, w) =>
      hostRec (queueErr w q x) (bareRec .prot .n cn 0 addr 0)
    | (.ok ks, w) =>
      let (ln, w) := w.newId
      let w := w.setLaunch ln (Launch.fresh cn (w.bytes ks) (BitVec.ofNat 64 addr) .queue none 0)
      let w := setQueue w q { x with cons := x.cons + 1 }
      judgeLaunch neg ln w

def execQueueRecordTake (q : Nat) (s : State) : Host.Outcome State Fault Refusal := .next (s.run (takeRecord s.neg q))

/-! ## `launch` (R327, R328) -/

def launchNeed (f : HuniF) (_ : View) : Need := { reads := f.a.rds 2 1, feature := some 2 }

/-- The launch of a group's record is appended, with the record's bytes as its groups read them (R214, R328). -/
def appendLaunch (w : Work) (gi : Nat) (g : Group) (a : Nat) (ks : List Nat) : Work :=
  let (ln, w) := w.newId
  let w := w.setLaunch ln
    (Launch.fresh g.ctx (blockBytes w (detOf w g) ks) (BitVec.ofNat 64 a) (.group gi) (some (coreDie g.core)) g.lnch)
  w.updGroup gi fun g => { g with plq := g.plq ++ [ln] }

/-- A read of an instruction at another package: its split waits for it, so that a failure is precise (R290, R412). -/
def readAbroad (v : View) (h : Nat) (sc : Scope) (o : Order) (k : TKind) (a : Nat) (ks : List Nat) (w : Work) : Done :=
  match roomWait w.pk v h with
  | some x => .wait x
  | none =>
    let (t, w) := addTxn w (mkTxn v h sc o k (oneOp v.lead (plainOp a ks [])))
    .ok w { block := some (.txn t) }

def launchBody (f : HuniF) (v : View) (w : Work) : Done :=
  if !v.real.any then done w
  else
    let a := v.uni f.a 2
    if a % 64 ≠ 0 ∨ !canonical a then .trap .prot v.act a 0
    else
      match chkRange w v.grp.ctx .load a 256 with
      | (.bad _ code addr, _) => .trap code v.act addr 0
      | (.member b, _) => .wait (.member b)
      | (.ok ks, w) =>
        let rel := chainRelease w.pk v.grp f.hd.toNat
        if v.grp.plq.length ≥ 4 then .wait .launchRoom
        else if !rel.met w.pk then .wait (.performed rel)
        else
        if anyAbroad w.pk ks then readAbroad v f.hd.toNat .sys .plain (.lrec (BitVec.ofNat 64 a) v.act) a ks w
        else match accessWait w.pk v f.hd.toNat ks false with
        | some k => .wait k
        | none =>
          match w.badAt ks with
          | some (u, k) => .trap .dataLost v.act u k
          | none => done (appendLaunch (noteMet w v.g f.hd.toNat v.grp.core ks) v.g v.grp a ks)

def execLaunch (f : HuniF) (s : State) : Host.Outcome State Fault Refusal := issue s f.h (launchNeed f) (launchBody f)

/-- The die takes the entries in the order of appending. -/
def takeEntry (neg : Negotiation) (ln : Nat) (w : Work) : Work :=
  w.onLaunch ln fun l w =>
    let earlier := w.pk.launches.any fun e => e.1 < ln && e.2.stat == .appended && e.2.die == l.die
    if l.stat ≠ .appended ∨ earlier then w else judgeLaunch neg ln w

def execLaunchEntryTake (n : Nat) (s : State) : Host.Outcome State Fault Refusal := .next (s.run (takeEntry s.neg n))

/-! ## `lwait` (R330, R331) -/

def lwaitNeed (f : LwaitF) (_ : View) : Need := { reads := f.a.rds 2 1, feature := some 2 }

def lwaitTarget (f : LwaitF) (v : View) : Nat :=
  match f.b with
  | .reg r => v.s r
  | .imm i => i.toNat

/-- The wait of an acquire made at issue: what the read of its bytes follows, and what a release that wrote them orders
before it. -/
def acquireWait (p : Package) (v : View) (h : Nat) (s : Scope) (ks : List Nat) : Option Wait :=
  (accessWait p v h ks false).or
    (match acquireOpen p v.g v.grp.core s ks with
      | [] => none
      | l => some (.performed ⟨l, []⟩))

def lwaitBody (f : LwaitF) (v : View) (w : Work) : Done :=
  once v w fun w =>
    let p := v.uni f.a 2
    let t := lwaitTarget f v
    if p % 8 ≠ 0 ∨ !canonical p then .trap .prot v.act p 0
    else
      match chkGlobal w v.grp.ctx .load p 8 8 with
      | (.bad _ code addr, _) => .trap code v.act addr 0
      | (.member b, _) => .wait (.member b)
      | (.ok ks, w) =>
        if anyAbroad w.pk ks then
          readAbroad v f.hd.toNat .sys .acq (.lcnt (BitVec.ofNat 64 p) (BitVec.ofNat 64 t) v.act) p ks w
        else match acquireWait w.pk v f.hd.toNat .sys ks with
        | some k => .wait k
        | none =>
          match w.badAt ks with
          | some (u, k) => .trap .dataLost v.act u k
          | none =>
            if bytesVal (blockBytes w (detOf w v.grp) ks) ≥ t then done w
            else .wait (.lwait (BitVec.ofNat 64 p) (BitVec.ofNat 64 t))

def execLwait (f : LwaitF) (s : State) : Host.Outcome State Fault Refusal := issue s f.h (lwaitNeed f) (lwaitBody f)

/-- The counter is at its target, or cannot be read. -/
def counterReached (w : Work) (g : Group) (p t : W64) : Bool :=
  match chkRange w g.ctx .load p.toNat 8 with
  | (.ok ks, w) => decide (bytesVal (blockBytes w (detOf w g) ks) ≥ t.toNat)
  | _ => true

/-- A waiting `lwait` reads its counter again: once it may complete, the instruction issues afresh. The wait of a group that
is saved, or being saved, stands in its image, and its restore looks at the counter (R334). -/
def lwaitReread (gi k : Nat) (w : Work) : Work :=
  w.onGroup gi fun g w =>
    match g.splits[k]? with
    | some s =>
      match s.cond with
      | .blocked (.lwait p t) =>
        if counterReached w g p t ∧ g.stat = .resident then w.updGroup gi fun g => g.finishSplit k else w
      | _ => w
    | none => w

def execLwaitReread (g sp : Nat) (s : State) : Host.Outcome State Fault Refusal := .next (s.run (lwaitReread g sp))

/-! ## Reads at another package (R290, R328, R330) -/

/-- A split that waits for an access waits for something else from now on, and then issues its instruction afresh. -/
def Group.waitInstead (g : Group) (t : Nat) (k : Wait) : Group :=
  let f (s : Split) : Split := if s.cond = .blocked (.txn t) then { s with cond := .blocked k, finish := false } else s
  { g with
    splits := g.splits.map f
    handler := g.handler.map fun h => { h with aside := h.aside.map f } }

/-- A launch record has come from another package: the launch is appended once the queue has room. A counter has: `lwait` is
over when it has reached its target, and waits for it otherwise. What a group that has ended asked for goes nowhere. -/
def farReadReturn (t : Nat) (x : Txn) (L : Fin 8) (w : Work) : Work :=
  match w.group? x.g, x.ops.get L with
  | none, _ => w.dropTxn t
  | some _, none => w
  | some g, some o =>
    if o.phase ≠ 0 ∨ !mayPerform w.pk t x L then w
    else
      let ended (w : Work) : Work := (notePerform w t x L).dropTxn t
      match x.kind, w.badAt o.keys with
      | .lrec _ m, some (u, k) | .lcnt _ _ m, some (u, k) => failTxn w t x .dataLost m u k
      | .lrec a _, none => if g.plq.length ≥ 4 then w else appendLaunch (ended w) x.g g a.toNat o.keys
      | .lcnt p c _, none =>
        let w' := ended w
        if bytesVal (blockBytes w (detOf w g) o.keys) ≥ c.toNat then w'
        else w'.updGroup x.g fun g => g.waitInstead t (.lwait p c)
      | _, _ => w

/-- The data of a load, of a matrix instruction's reads, or of a launch's or `lwait`'s read returns. -/
def dataReturn (t : Nat) (L : Fin 8) (w : Work) : Work :=
  w.onTxn t fun x w =>
    match x.kind with
    | .mread .. => mreadReturn t x L w
    | .lrec .. | .lcnt .. => farReadReturn t x L w
    | _ => loadReturn t L w

def execLoadDataReturn (t : Nat) (lane : Fin 8) (s : State) : Host.Outcome State Fault Refusal :=
  .next (s.run (dataReturn t lane))

/-! ## Completion (R317, R346, R386) -/

/-- Nothing that the launch's groups did is outstanding: writes, deliveries, requests and chains. -/
def launchDrained (p : Package) (ln : Nat) : Bool :=
  !(p.txns.any fun e => e.2.lnch == ln) &&
    !(p.reqs.any fun e => match p.blocks.find? e.2.blk with
      | some b => b.lnch == ln
      | none => false) &&
    !(p.chans.any fun e => e.2.lnch == ln && e.2.busy) && !(p.heldWalks.any fun e => e.2.2.lnch == ln)

/-- The n64 at DONE gains one; a page makes it wait, and a refusal drops it. -/
def countDone (w : Work) (ln : Nat) (l : Launch) : Work :=
  let d := recDone l.rec_
  if d = 0 then w
  else
    match chkGlobal w l.ctx .store d 8 8 with
    | (.ok ks, w) => storeBytes w ks (valBytes 8 ((bytesVal (w.bytes ks) + 1) % 2 ^ 64))
    | (.bad _ .page a, w) =>
      hostRec (w.updLaunch ln fun l => { l with donePage := some (BitVec.ofNat 64 a) }) (bareRec .page .r l.ctx ln d 3)
    | (.bad .., w) | (.member _, w) => hostRec w (bareRec .prot .n l.ctx ln d 0)

/-- The pins that a launch made are released with its end (R114). -/
def launchPins (ps : List Pin) (ln : Nat) : List Pin :=
  (ps.map fun x => let o := x.owners.filter fun e => e.2.1 != ln; { x with owners := o, count := o.length }).filter
    fun x => x.count > 0

/-- The launch leaves the tables: its blocks, its regions' seals, its pins, its armed stops, and itself unless its counter
still waits. -/
def retireLaunch (w : Work) (ln : Nat) : Work :=
  w.onLaunch ln fun l w =>
    let w := freePending w ln
    w.mapPk fun p => { p with
      pins := launchPins p.pins ln
      armed := p.armed.filter fun a => a.lnch != ln
      blocks := p.blocks.filter fun e => e.2.lnch != ln
      seals := p.seals.filter fun s => s.lnch != ln
      launches := if l.donePage.isSome then p.launches.insert ln { l with stat := .done, blocks := [] }
        else p.launches.erase ln }

def completeLaunch (w : Work) (ln : Nat) (l : Launch) : Work :=
  let w := countDone w ln l
  let w := match taskOf (recNtask l.rec_) with
    | some t => updTask w t (Task.minus 1)
    | none => w
  retireLaunch w ln

/-- Every block of a grid launch is over, or everything a killed one had begun. -/
def blocksOver (l : Launch) : Bool := if l.stat == .killed then l.blocksDone == l.blocks.length else l.blocksDone == l.blockCount

/-- The turns of a DET launch have all been released; those of a launch killed whole are void (R222, R224). -/
def turnsOver (l : Launch) : Bool := !l.det || l.stat == .killed || l.turn ≥ l.blockCount

/-- The end of a launch with killed blocks: the records of the kills, and then nothing more, once the turns of its other
blocks have been released (R224). -/
def endFatal (w : Work) (ln : Nat) (l : Launch) : Work :=
  let w := hostRecs w l.killRecs
  let w := w.updLaunch ln fun l => { l with killRecs := [] }
  if launchDrained w.pk ln ∧ turnsOver l then retireLaunch w ln else w

/-- Retries a DONE increment whose page has been mapped. -/
def retryDone (w : Work) (ln : Nat) (l : Launch) : Work :=
  if l.donePage.isSome then w
  else
    let w := countDone w ln l
    w.onLaunch ln fun l w => if l.donePage.isSome then w else w.mapPk fun p => { p with launches := p.launches.erase ln }

def launchComplete (ln : Nat) (w : Work) : Work :=
  w.onLaunch ln fun l w =>
    match l.stat with
    | .done => retryDone w ln l
    | .appended | .parked => w
    | _ =>
      if l.isItems ∧ l.stat ≠ .killed then w
      else if !blocksOver l then w
      else if l.fatal ∨ l.stat = .killed then endFatal w ln l
      else if launchDrained w.pk ln ∧ turnsOver l then completeLaunch w ln l
      else w

def execLaunchComplete (l : Nat) (s : State) : Host.Outcome State Fault Refusal := .next (s.run (launchComplete l))

/-- R346: the queue is closed and empty, no item is in flight, and no group stands. -/
def streamOver (w : Work) (ln : Nat) (l : Launch) : Bool :=
  match readIq w l with
  | (.ok dk, w) =>
    let d := w.bytes dk
    bitAt (fld d 12 4) 0 == 1 && fld d 16 8 == fld d 24 8 && !(w.pk.items.any fun e => e.2.lnch == ln) &&
      l.blocksDone == l.blocks.length
  | _ => false

def streamComplete (ln : Nat) (w : Work) : Work :=
  w.onLaunch ln fun l w =>
    let w := settleItems w
    if !l.isItems ∨ !(l.stat == .ready || l.stat == .running) ∨ l.dispPage.isSome ∨ !streamOver w ln l then w
    else if l.fatal then endFatal w ln l
    else if launchDrained w.pk ln then completeLaunch w ln l
    else w

def execStreamComplete (l : Nat) (s : State) : Host.Outcome State Fault Refusal := .next (s.run (streamComplete l))

end Sys2Proof.Machine
end

