-- ==== Sys2Proof/Machine/Room.lean ====
section
/-!
DEFINITION. Room for groups and blocks (R311, R312, R358): what stands on a core, where groups are to stand, and the cores
on which they fit; then the groups of a block as they start (R12 to R17, R98, R339).
-/
namespace Sys2Proof.Machine

/-! ## What stands on a core -/

/-- A member of the block's gang has not ended or been killed (R97). -/
def gangLives (p : Package) (b : Block) : Bool :=
  match p.launches.find? b.lnch with
  | some l =>
    let ms := gangBlocks p l (b.lin / l.gangSize)
    ms.any (fun e => e.2.stat == .begun) || (l.stat != .killed && ms.length < l.gangSize)
  | none => false

/-- The block whose portion a local address of a block's request names (R97). -/
def localOwner (p : Package) (blk addr : Nat) : Option Nat :=
  if bitAt addr 28 = 0 then some blk
  else match p.blocks.find? blk with
    | some b => match p.launches.find? b.lnch with
      | some l => (blockAt p l (b.lin / l.gangSize * l.gangSize + addr / 2 ^ 24 % 16)).map Prod.fst
      | none => none
    | none => none

/-- A request names a barrier, a source or a destination in the local memory of a block (R264). -/
def Req.names (p : Package) (q : Req) (u : Nat) : Bool :=
  let at_ (space addr : Nat) : Bool := space == 1 && localOwner p q.blk addr == some u
  at_ 1 q.bar || at_ (fld q.rec_ 1 1 % 16) (fld q.rec_ 8 8) || at_ (fld q.rec_ 1 1 / 16) (fld q.rec_ 16 8)

/-- The local memory of a block stands on its cores: while a block of its gang lives and it has not been killed, or while a
request that names it goes on (R97, R264, R386), and it has not been saved. -/
def localHeld (p : Package) (u : Nat) (b : Block) : Bool :=
  b.section_.isNone && ((!b.noLocal && gangLives p b) || p.reqs.any fun e => e.2.blk == u || e.2.names p u)

def localUsed (p : Package) (core : Nat) : Nat :=
  (p.blocks.map fun e => if e.2.cores.contains core && localHeld p e.1 e.2 then e.2.localSize else 0).sum

def coreLocal : Nat := 786432

def usedSlots (p : Package) (core part : Nat) : List Nat := (partGroups p core part).map fun e => e.2.slot
def usedBanks (p : Package) (core part : Nat) : List Nat :=
  (partGroups p core part).flatMap (fun e => e.2.banks) ++ (mxUnit p core part).ghosts.flatMap fun e => e.2.1
def usedRegions (p : Package) (core part : Nat) : List Nat :=
  (partGroups p core part).flatMap (fun e => e.2.regions) ++ (mxUnit p core part).ghosts.flatMap fun e => e.2.2

/-- The n lowest numbers below a bound that a list does not hold. -/
def lowestFree (n bound : Nat) (used : List Nat) : List Nat := ((List.range bound).filter fun i => !used.contains i).take n

/-- Cores on which a context has groups. -/
def coresOf (p : Package) (cn : Nat) : List Nat :=
  ((p.groups.filter fun e => e.2.ctx == cn && e.2.stat != .saved).map fun e => e.2.core).eraseDups

def coreQuotaOf (p : Package) (cn : Nat) : Nat :=
  match p.ctxs.find? cn with
  | some c => c.coreQuota
  | none => 0

/-! ## Where groups are to stand -/

/-- What one group takes: its core rank and partition, registers, banks and regions. -/
structure Seat where
  rank : Nat
  part : Nat
  regs : Nat
  banks : Nat
  regions : Nat
  deriving DecidableEq, Repr

/-- The groups of one block of a record (R312). -/
def seatsOf (r : List Byte) : List Seat :=
  (List.range (recGroups r)).map fun i => ⟨i / recGpr r, i % recGpr r % 4, recBase r, recMxb r, recMxr r⟩

/-- A partition takes the seats given. -/
def partTakes (p : Package) (cn core part : Nat) (ss : List Seat) : Bool :=
  ss.isEmpty ||
    (decide ((usedSlots p core part).length + ss.length ≤ 128) && admits p cn core part (ss.map Seat.regs).sum &&
      decide ((usedBanks p core part).length + (ss.map Seat.banks).sum ≤ 8 ∧
        (usedRegions p core part).length + (ss.map Seat.regions).sum ≤ 16))

/-- A core takes a rank's share of a block with its portion of local memory. -/
def coreTakes (p : Package) (cn loc : Nat) (ss : List Seat) (rank core : Nat) : Bool :=
  decide (localUsed p core + loc ≤ coreLocal) &&
    (List.range 4).all fun q => partTakes p cn core q (ss.filter fun s => s.rank == rank && s.part == q)

/-- The context stays within its cores. -/
def coresWithin (p : Package) (cn : Nat) (cores : List Nat) : Bool :=
  ((coresOf p cn ++ cores).eraseDups).length ≤ coreQuotaOf p cn

def dieStands (p : Package) (die : Nat) : Bool := decide (die < 4) && !p.diesLost.getLsbD die

/-- Seats of n ranks fit on the cores given, rank by rank. -/
def coresTake (p : Package) (cn loc : Nat) (ss : List Seat) (n die : Nat) (cores : List Nat) : Bool :=
  cores.length == n && cores.eraseDups == cores && dieStands p die && cores.all (fun c => coreDie c == die) &&
    (cores.zipIdx.all fun e => coreTakes p cn loc ss e.2 e.1) && coresWithin p cn cores

/-- Cores of a die that take the ranks, those already in use first. -/
def chooseCores (p : Package) (cn loc : Nat) (ss : List Seat) (n die : Nat) : Option (List Nat) :=
  let used := coresOf p cn
  let all := (List.range 48).map (48 * die + ·)
  let order := all.filter (used.contains ·) ++ all.filter fun c => !used.contains c
  let cs := (List.range n).foldl
    (fun (acc : List Nat) k =>
      match order.find? fun c => !acc.contains c && coreTakes p cn loc ss k c with
      | some c => acc ++ [c]
      | none => acc) []
  if coresTake p cn loc ss n die cs then some cs else none

/-! ## Frames, private ranges, DET slots -/

def freeFrames (w : Work) (cn n : Nat) : Option (List Nat) :=
  match w.ctx? cn with
  | some c =>
    let fs := lowestFree n (min (nframeOf w cn) (c.frames.length + n)) c.frames
    if fs.length = n then some fs else none
  | none => none

/-- Private ranges for n groups of some bytes each, lowest first (R98). -/
def freePrivs (c : Ctx) (bytes : Nat) : Nat → List (Nat × Nat) → Option (List Nat)
  | 0, _ => some []
  | n + 1, used =>
    if bytes = 0 then (freePrivs c bytes n used).map ((c.priv0 + c.privLen) :: ·)
    else
      match firstFit used bytes c.privLen (used.length + 1) 0 with
      | some i => (freePrivs c bytes n ((i, bytes) :: used)).map ((c.priv0 + i) :: ·)
      | none => none

def privRanges (w : Work) (cn bytes n : Nat) : Option (List Nat) :=
  match w.ctx? cn with
  | some c => freePrivs c bytes n (c.priv.map fun r => (r.1.toNat - c.priv0, r.2))
  | none => none

/-- DET slots of a context in use: those of blocks whose turn has not been released (R215). -/
def slotsInUse (p : Package) (cn : Nat) : List Nat :=
  p.blocks.filterMap fun e =>
    match e.2.det, p.launches.find? e.2.lnch with
    | some d, some l => if e.2.ctx = cn ∧ l.turn ≤ e.2.lin then some d.slot else none
    | _, _ => none

def freeDetSlot (p : Package) (cn : Nat) : Option Nat :=
  match p.ctxs.find? cn with
  | some c => (lowestFree 1 (min c.spCount (p.blocks.length + 1)) (slotsInUse p cn)).head?
  | none => none

/-! ## A group as it starts (R12 to R17) -/

/-- The state of lane position L with n lanes launched. -/
def laneStart (n : Nat) (L : Fin 8) : LaneSt :=
  if L.val < n then .live else if n > L.val / 4 * 4 then .helper else .inactive

def Group.fresh (cn ln blk gidx core part slot frame base : Nat) (entry : PC) (param priv : W64) (n : Nat)
    (banks regions : List Nat) (items : List Nat) : Group where
  ctx := cn
  lnch := ln
  blk := blk
  gidx := gidx
  core := core
  part := part
  slot := slot
  frame := frame
  base := base
  ext := 0
  lanes := Lanes.ofFn fun L =>
    ⟨laneStart n L, if laneStart n L = .inactive then 0 else entry, 0, 0, items[L.val]?, 0, 0, 0⟩
  regs := []
  sregs := FMap.put [] 0 0 param
  jmasks := []
  splits := [newSplit (Lanes.ofFn fun L => laneStart n L != .inactive)]
  bypass := []
  fpst := 0
  chains := []
  plq := []
  xreq := none
  banks := banks
  regions := regions
  stat := .resident
  saveReq := none
  saveKind := .preempt
  susp := none
  replay := false
  handler := none
  resume := none
  pendA := []
  frysLast := 0
  frysNaks := 0
  inflight := 0
  name := none
  pmc := []
  arr := []
  w := 0
  debt := 0
  skipWatch := []
  pastBrk := none
  privBase := priv
  bulk := none
  saveSeq := 0
  mxHeld := []

/-- The arguments of a live lane's item in v0 to v5 (R339). -/
def itemRegs (p : Package) (items : List Nat) : FMap VReg :=
  (List.range 6).foldl
    (fun m r =>
      let val (L : Fin 8) : W32 := match items[L.val]? with
        | some n => match p.items.find? n with
          | some i => BitVec.ofNat 32 ((i.args.getD (r / 2) 0).toNat / 2 ^ (32 * (r % 2)))
          | none => 0
        | none => 0
      FMap.put m VReg.fresh r { VReg.fresh with val := Lanes.ofFn val }) []

/-- Starts one group of a block on a core: its slot, its matrix allocation and its frame. -/
def startGroup (w : Work) (ln blk gidx core part frame : Nat) (priv : Nat) (n : Nat) (items : List Nat) : Work :=
  w.onLaunch ln fun l w =>
    let r := l.rec_
    let (gi, w) := w.newId
    let slot := (lowestFree 1 128 (usedSlots w.pk core part)).headD 0
    let banks := lowestFree (recMxb r) 8 (usedBanks w.pk core part)
    let regions := lowestFree (recMxr r) 16 (usedRegions w.pk core part)
    let g := Group.fresh l.ctx ln blk gidx core part slot frame (recBase r) (BitVec.ofNat 57 (fld r 0 8))
      (BitVec.ofNat 64 (recParam r)) (BitVec.ofNat 64 priv) n banks regions items
    let w := w.setGroup gi { g with regs := itemRegs w.pk items }
    let w := w.each (items.zipIdx) fun e w => w.updItem e.1 fun i => { i with lane := some (gi, e.2) }
    let w := w.updBlock blk fun b => { b with groups := b.groups ++ [gi] }
    let bytes := 32 * recStack r
    let w := w.updCtx l.ctx fun c => { c with
      frames := frame :: c.frames
      priv := if bytes = 0 then c.priv else (BitVec.ofNat 64 priv, bytes) :: c.priv }
    setFState w l.ctx frame 1

def Block.fresh (cn ln lin : Nat) (cores : List Nat) (gpr loc : Nat) (det : Option Det) : Block where
  ctx := cn
  lnch := ln
  lin := lin
  cores := cores
  gpr := gpr
  groups := []
  phases := []
  debts := []
  endDebts := []
  localSize := loc
  stat := .begun
  stopped := none
  lead := none
  usedWs := false
  section_ := none
  heldReqs := []
  noLocal := false
  det := det
  kill := none
  migrating := false
  toMove := []

def Det.fresh (slot : Nat) : Det := ⟨slot, [], [], 0, 0, 0, false, false, none⟩

/-- A block takes its slot: the header is at its reset values, but for a turn that the block holds (R215, R217). -/
def takeSlot (w : Work) (u : Nat) : Work :=
  w.onBlock u fun b w =>
    match b.det, w.ctx? b.ctx with
    | some d, some c => putSlot ((writeVirt w b.ctx (slotVa c d.slot) (List.replicate 64 0)).getD w) u
    | _, _ => w

/-- A block starts: its groups all together, and its launch goes on to the next (R311). -/
def startBlock (w : Work) (ln lin : Nat) (cores frames privs : List Nat) (det : Option Det) (n : Nat) (items : List Nat) :
    Work :=
  w.onLaunch ln fun l w =>
    let r := l.rec_
    let (u, w) := w.newId
    let w := w.setBlock u (Block.fresh l.ctx ln lin cores (recGpr r) (recLocal r) det)
    let w := freePending w ln
    let w := w.updLaunch ln fun l => { l with
      stat := .running, next := l.next + 1, blocks := l.blocks ++ [u], placed := true, waited := 0 }
    let w := takeSlot w u
    let w := w.each ((frames.zip privs).zipIdx) fun e w =>
      let i := e.2
      let core := cores.getD (i / recGpr r) 0
      startGroup w ln u i core (i % recGpr r % 4) e.1.1 e.1.2 (min 8 (n - 8 * i)) items
    traceBlock w 1 u

end Sys2Proof.Machine
end

