-- ==== Sys2Proof/Machine/Place.lean ====
section
/-!
DEFINITION. Placement (R311 to R314): which launch a die serves next, which saved groups come first, item groups (R339),
and the swap-out of waiting parents (R332).
-/
namespace Sys2Proof.Machine

/-! ## Saved groups that could be restored (R314, R334, R408) -/

/-- A split waits as a swapped parent's do. -/
def parentWait (s : Split) : Bool :=
  match s.cond with
  | .blocked (.lwait ..) | .blocked .launchRoom => true
  | _ => false

/-- The wait that made a swapped parent eligible has ended: its counter has reached its target, or its queue is empty; or it
ended before the save began. -/
def parentDone (w : Work) (g : Group) : Bool :=
  !(g.splits.any parentWait) || g.splits.any fun s => match s.cond with
    | .blocked (.lwait p t) => counterReached w g p t
    | .blocked .launchRoom => g.plq.isEmpty
    | _ => false

/-- The flows of a context's launches. -/
def ctxFlows (p : Package) (cn : Nat) : List Flow :=
  p.flows.filter fun f => match p.launches.find? f.lnch with
    | some l => l.ctx == cn
    | none => false

/-- A stream has room for one more resident group than stand (R335). -/
def streamRoom (p : Package) (l : Launch) : Bool :=
  !l.isItems || (p.groups.filter fun e => l.blocks.contains e.2.blk && e.2.stat != .saved).length < l.gridX

/-- The conditions on a saved group that its block's restore takes along. The flows of its context have returned first (R408),
and a migrating block has been saved whole (R409). -/
def comesBack (w : Work) (gi : Nat) (g : Group) (die : Nat) : Bool :=
  g.stat == .saved && (match w.launch? g.lnch with
      | some l => streamRoom w.pk l
      | none => true) &&
     scheduledOn w.pk g.ctx die && !((ctxFlows w.pk g.ctx).any fun f => f.saved) &&
    (match w.block? g.blk with
      | some b =>
        (b.stopped.isNone || b.lead == some gi) && (!b.migrating || b.toMove.all fun i => (w.group? i).isNone)
      | none => false)

/-- The conditions on a saved group other than room and its own `xacq` request (R314, R334). -/
def restoreTurn (w : Work) (gi : Nat) (g : Group) (die : Nat) : Bool :=
  comesBack w gi g die && (g.saveKind != .parentSwap || parentDone w g)

/-- Units that a restored group is granted with its restore (R91, R403). -/
def grantUnits (g : Group) : Nat :=
  match g.saveKind, g.xreq with
  | .xacqSwap, some x => x.k
  | _, _ => 0

/-- No request of a partition made earlier than the group's waits there. -/
def firstInLine (p : Package) (g : Group) (core part : Nat) : Bool :=
  match g.saveKind, g.xreq with
  | .xacqSwap, some x => (partRequests p core part).all fun e => e.2.seq > x.seq
  | _, _ => true

def groupSeat (g : Group) (rank part : Nat) : Seat :=
  ⟨rank, part, g.alloc + 64 * grantUnits g, g.banks.length, g.regions.length⟩

/-- The seats of a block placed again whole (R408). -/
def blockSeats (p : Package) (b : Block) : List Seat :=
  (b.left p).map fun e => groupSeat e.2 (e.2.gidx / b.gpr) (e.2.gidx % b.gpr % 4)

/-- Dies on which a saved block may be placed again: its own if it has used the weight store (R408). -/
def blockDies (b : Block) : List Nat := if b.usedWs then [coreDie (b.cores.headD 0)] else [0, 1, 2, 3]

/-- A migrating block moves to other cores (R409). -/
def coresChange (b : Block) (cores : List Nat) : Bool := !b.migrating || cores != b.cores

/-- A block saved whole can be placed on the cores given. -/
def blockTakes (p : Package) (b : Block) (die : Nat) (cores : List Nat) : Bool :=
  (blockDies b).contains die && coresChange b cores && coresTake p b.ctx b.localSize (blockSeats p b) b.cores.length die cores

/-- The matrix queue of a partition has room for the commands that the group's save stopped (R185, R201). -/
def queueTakes (p : Package) (g : Group) (core part : Nat) : Bool :=
  decide ((mxUnit p core part).queue.length + g.mxHeld.length ≤ mxDepth)

/-- The partition of a core on which a saved group of a block that stands there can be restored. -/
def seatOn (p : Package) (g : Group) (core : Nat) : Option Nat :=
  let parts := if g.saveKind = .xacqSwap then [0, 1, 2, 3] else [g.part]
  parts.find? fun q => firstInLine p g core q && queueTakes p g core q && partTakes p g.ctx core q [groupSeat g 0 q]

def groupTakes (p : Package) (g : Group) (b : Block) (core : Nat) : Bool :=
  coreDie core == coreDie (b.cores.headD 0) && dieStands p (coreDie core) && (seatOn p g core).isSome &&
    coresWithin p g.ctx [core] && (!b.migrating || core != g.core)

/-- The cores on which a saved group could be restored now on a die, if any. -/
def restoreCores (w : Work) (gi : Nat) (g : Group) (die : Nat) : Option (List Nat) :=
  if !restoreTurn w gi g die then none
  else
    match w.block? g.blk with
    | none => none
    | some b =>
      match b.section_ with
      | some _ =>
        match chooseCores w.pk b.ctx b.localSize (blockSeats w.pk b) b.cores.length die with
        | some cs => if blockTakes w.pk b die cs then some cs else none
        | none => none
      | none => (((List.range 48).map (48 * die + ·)).find? (groupTakes w.pk g b)).map ([·])

/-- Saved groups in the order of their saves. -/
def savedGroups (p : Package) : List (Nat × Group) :=
  sortBy (fun a b => decide (a.2.saveSeq ≤ b.2.saveSeq)) (p.groups.filter fun e => e.2.stat == .saved)

/-! ## The next block of a launch -/

/-- The launch has a block to place: the next of a grid, or a group of ready items (R311, R335). -/
def Launch.waits (l : Launch) : Bool :=
  (l.stat == .ready || l.stat == .running) && if l.isItems then !l.readyItems.isEmpty else decide (l.next < l.blockCount)

/-- The die is one on which the next block may stand: that of a launch made by `launch`, and that of its gang. -/
def nextOn (p : Package) (l : Launch) (die : Nat) : Bool :=
  (match l.die with
    | some d => d == die
    | none => true) &&
    match gangBlocks p l (l.next / l.gangSize) with
    | (_, b) :: _ => coreDie (b.cores.headD 0) == die
    | [] => true

/-- What a block takes besides its cores: frames, private ranges and, in a DET launch, a slot. -/
def blockExtras (w : Work) (l : Launch) : Option (List Nat × List Nat × Option Nat) :=
  let n := recGroups l.rec_
  match freeFrames w l.ctx n, privRanges w l.ctx (32 * recStack l.rec_) n with
  | some fs, some ps =>
    if l.det then (freeDetSlot w.pk l.ctx).map fun s => (fs, ps, some s) else some (fs, ps, none)
  | _, _ => none

/-- The context of the launch has its groups issue on the die. -/
def liveOn (p : Package) (cn die : Nat) : Bool :=
  scheduledOn p cn die && match p.ctxs.find? cn with
    | some c => c.st == .live
    | none => false

/-- Cores of a die on which the next block of a launch fits. -/
def nextCores (w : Work) (l : Launch) (die : Nat) : Option (List Nat) :=
  if l.waits && streamRoom w.pk l && liveOn w.pk l.ctx die && nextOn w.pk l die && (blockExtras w l).isSome then
    chooseCores w.pk l.ctx (recLocal l.rec_) (seatsOf l.rec_) (recCores l.rec_) die
  else none

/-! ## The order of service (R311, R313, R314, R332) -/

/-- A child of a launch that has a group swapped out for its children on the die: room there is offered to it first. -/
def childFirst (p : Package) (l : Launch) (die : Nat) : Bool :=
  l.parentLnch != 0 && p.groups.any fun e =>
    e.2.lnch == l.parentLnch && e.2.stat == .saved && e.2.saveKind == .parentSwap && coreDie e.2.core == die

/-- Launch a is served before launch b of its context: by PRIO, then by the order of becoming ready. -/
def servedBefore (a b : Launch) : Bool :=
  recPrio a.rec_ > recPrio b.rec_ || (recPrio a.rec_ == recPrio b.rec_ && a.readySeq < b.readySeq)

/-- The next block of the launch belongs to a gang that has begun to start (R313). -/
def gangBegun (p : Package) (l : Launch) : Bool := !l.isItems && !(gangBlocks p l (l.next / l.gangSize)).isEmpty

/-- Another launch must be served on the die before this one: a child of a swapped parent, a member of a gang that has begun,
or one of the same context that R311 places first (log entry 112). -/
def otherFirst (w : Work) (ln : Nat) (l : Launch) (die : Nat) : Bool :=
  let mine := childFirst w.pk l die
  let before (o : Launch) : Bool :=
    if o.ctx == l.ctx then servedBefore o l else gangBegun w.pk o && !gangBegun w.pk l
  w.pk.launches.any fun e =>
    e.1 != ln && ((childFirst w.pk e.2 die && !mine) || (childFirst w.pk e.2 die == mine && before e.2)) &&
      (nextCores w e.2 die).isSome

/-- A saved group could be restored on the die now, and comes before a new block. -/
def savedFirst (w : Work) (l : Launch) (die : Nat) : Bool :=
  !childFirst w.pk l die && (savedGroups w.pk).any fun e => (restoreCores w e.1 e.2 die).isSome

/-- Places the next block of a launch on the cores given. -/
def blockPlace (ln : Nat) (cores : List Nat) (w : Work) : Work :=
  w.onLaunch ln fun l w =>
    let die := coreDie (cores.headD 0)
    let r := l.rec_
    if !l.waits || l.isItems || !liveOn w.pk l.ctx die || !nextOn w.pk l die || otherFirst w ln l die || savedFirst w l die ||
        !coresTake w.pk l.ctx (recLocal r) (seatsOf r) (recCores r) die cores then w
    else
      match blockExtras w l with
      | some (fs, ps, slot) => startBlock w ln l.next cores fs ps (slot.map Det.fresh) (recBlanes r) []
      | none => w

def execBlockPlace (l : Nat) (cores : List Nat) (s : State) : Host.Outcome State Fault Refusal :=
  .next (s.run (blockPlace l cores))

/-! ## Item groups (R335, R339) -/

/-- The dispatcher forms a group of the first n ready items and places it on a core. -/
def itemGroupStart (ln n core : Nat) (w : Work) : Work :=
  w.onLaunch ln fun l w =>
    let die := coreDie core
    let r := l.rec_
    let items := l.readyItems.take n
    if !streamOpen w l || n == 0 || n > 8 || items.length < n || !streamRoom w.pk l || !liveOn w.pk l.ctx die ||
        !(match l.die with
          | some d => d == die
          | none => true) || otherFirst w ln l die || savedFirst w l die ||
        !coresTake w.pk l.ctx (recLocal r) (seatsOf r) 1 die [core] then w
    else
      match blockExtras w l with
      | some (fs, ps, _) =>
        let w := w.updLaunch ln fun l => { l with readyItems := l.readyItems.drop n }
        startBlock w ln l.next [core] fs ps none n items
      | none => w

def execItemGroupStart (l n core : Nat) (s : State) : Host.Outcome State Fault Refusal :=
  .next (s.run (itemGroupStart l n core))

/-! ## Parents that wait for children (R332) -/

def swapCycles : Nat := 4096

def heldOnly (s : Split) : Bool :=
  match s.cond with
  | .held _ => true
  | _ => false

/-- No split is ready, and one has waited long enough. -/
def idleParent (g : Group) : Bool :=
  g.stat == .resident && g.saveReq.isNone && !g.splits.isEmpty && g.splits.all (fun s => parentWait s || heldOnly s) &&
    g.splits.any fun s => parentWait s && s.age ≥ swapCycles

/-- A ready child of a launch on a die, whose next block has waited long enough for room. -/
def waitingChild (w : Work) (parent die : Nat) (l : Launch) : Bool :=
  l.parentLnch == parent && l.waits && l.waited ≥ swapCycles && streamRoom w.pk l && liveOn w.pk l.ctx die &&
    nextOn w.pk l die && (nextCores w l die).isNone

/-- The package without some groups, and without the local memory of blocks all of whose groups are among them. -/
def without (p : Package) (gs : List Nat) : Package :=
  let groups := p.groups.filter fun e => !gs.contains e.1
  { p with
    groups := groups
    blocks := p.blocks.mapVals fun _ b =>
      if b.stat == .begun && b.groups.any (gs.contains ·) && !(groups.any fun e => b.groups.contains e.1 && e.2.stat != .saved)
      then { b with section_ := some (0, 0) } else b }

/-- The block of a child fits once some groups are gone. -/
def fitsWithout (w : Work) (l : Launch) (die : Nat) (gs : List Nat) : Bool :=
  (nextCores { w with pk := without w.pk gs } l die).isSome

/-- Idle groups of the die that a child waits for, those that have waited longest first. -/
def idleParents (w : Work) (die cn : Nat) : List (Nat × Group) :=
  let longest (g : Group) : Nat := ((g.splits.filter parentWait).map Split.age).max?.getD 0
  sortBy (fun a b => decide (longest a.2 ≥ longest b.2)) (w.pk.groups.filter fun e =>
    coreDie e.2.core == die && e.2.ctx == cn && idleParent e.2 && w.pk.launches.any fun l => waitingChild w e.2.lnch die l.2)

/-- The eligible groups among some: those a child of whose launch would fit were all the eligible ones swapped out, with those
already going. The first argument bounds the rounds. -/
def eligible (w : Work) (die : Nat) (going : List Nat) : Nat → List (Nat × Group) → List (Nat × Group)
  | 0, gs => gs
  | n + 1, gs =>
    let out := going ++ gs.map Prod.fst
    eligible w die going n (gs.filter fun e => w.pk.launches.any fun l =>
      waitingChild w e.2.lnch die l.2 && fitsWithout w l.2 die out)

/-- The group is the longest-waiting of the parents eligible on its die, and a waiting child of one of them does not yet fit
without the groups already going. -/
def parentGoes (w : Work) (gi : Nat) (g : Group) : Bool :=
  let die := coreDie g.core
  let going := (w.pk.groups.filter fun e => coreDie e.2.core == die && e.2.stat != .saved &&
    ((e.2.saveReq.map SaveReq.kind) == some .parentSwap || (e.2.stat != .resident && e.2.saveKind == .parentSwap))).map Prod.fst
  let idle := idleParents w die g.ctx
  let all := eligible w die going idle.length idle
  (all.head?.map Prod.fst) == some gi && all.any fun e => w.pk.launches.any fun l =>
    waitingChild w e.2.lnch die l.2 && !fitsWithout w l.2 die going && fitsWithout w l.2 die (going ++ all.map Prod.fst)

/-- A waiting parent is swapped out, the longest-waiting first (R332). -/
def parentSwapOut (gi : Nat) (w : Work) : Work :=
  w.onGroup gi fun g w =>
    if parentGoes w gi g then w.updGroup gi fun g => { g with saveReq := some ⟨.parentSwap, 0, true, false⟩ } else w

def execParentSwapOut (g : Nat) (s : State) : Host.Outcome State Fault Refusal := .next (s.run (parentSwapOut g))

end Sys2Proof.Machine
end

