-- ==== Sys2Proof/Machine/Saves.lean ====
section
/-!
DEFINITION. Saves and restores (R396 to R410): when a group is saved and what must have happened first, the image it
leaves, the restore of a group or of a whole block, migration, and the runs of a context.
-/
namespace Sys2Proof.Machine

/-! ## When a save is taken (R397, R398) -/

/-- No split of the group may issue (in handler mode only the handler's may), or the group is suspended. -/
def Group.atRest (g : Group) : Bool := g.susp.isSome || g.splits.all fun s => !g.mayIssue s

/-- A command that holds a transaction entry or writes registers, and so completes before a save (R398). -/
def MxOp.finishes (o : MxOp) : Bool :=
  match o with
  | .read .. | .save .. => true
  | _ => false

/-- The group's matrix commands let its save complete: those of a stop (R387) or of a parent's swap-out (R333) have completed;
others stop at a boundary of their granules, where they stand between events (R201, R398, log entry 60). -/
def commandsRest (p : Package) (gi : Nat) (g : Group) : Bool :=
  let cs := stoppedCmds p gi g
  if g.saveKind == .stop || g.saveKind == .parentSwap then cs.isEmpty else !(cs.any fun c => c.op.finishes)

/-- What the save waits for: every transaction entry free and no register with a producer pending, every chain performed
with its tokens satisfied, and the matrix commands at rest. -/
def groupQuiet (p : Package) (gi : Nat) (g : Group) : Bool :=
  (groupTxns p gi).isEmpty && !(g.splits.any fun s => match s.cond with
      | .blocked (.txn _) => true
      | _ => false) && (g.chains.all fun c => c.2.imports.all (tokenMet p)) &&
    !(p.reqs.any fun e => e.2.g == gi && e.2.promise.isSome) && commandsRest p gi g

/-- Accesses of other groups to the local memory of a block are outstanding: its save waits for them (log entry 72). -/
def localBusy (p : Package) (blk : Nat) : Bool :=
  p.txns.any fun e => e.2.open && e.2.keys.any fun k => localKeyBlock k == some blk

/-- Bytes between the boundaries of a split granule that is not zero (R273). -/
def granule (n : Nat) : Nat :=
  match n with
  | 1 => 65536
  | 2 => 4096
  | _ => 256

/-- A request stands at a boundary of its split granule (R273). -/
def Req.atGranule (q : Req) : Bool :=
  q.done == fld q.rec_ 40 8 || (fld q.rec_ 2 1 != 0 && q.done % granule (fld q.rec_ 2 1) == 0)

/-! ## Writing the image -/

/-- DET entries are written to the block's slot (R216, R217, R225). -/
def detEntryBytes (e : DetEntry) : List Byte :=
  valBytes 8 e.addr.toNat ++ valBytes 4 e.seq ++ valBytes 2 e.gidx ++ valBytes 1 e.lane ++ valBytes 1 e.kind
    ++ valBytes 1 e.width ++ valBytes 1 e.atype ++ valBytes 2 e.epoch ++ List.replicate 12 0
    ++ outEntry e.data

def detHeader (p : Package) (b : Block) (d : Det) : List Byte :=
  valBytes 8 d.entries.length ++ slotState p b d ++ List.replicate 48 0

def spill (w : Work) (b : Block) : Work :=
  match b.det, w.ctx? b.ctx with
  | some d, some c =>
    (writeVirt w b.ctx (slotVa c d.slot) (detHeader w.pk b d ++ d.entries.flatMap detEntryBytes)).getD w
  | _, _ => w

/-- Every slot of the group retires, and its chains are idle (R256) but for what their later accesses follow of other groups:
the move orders the group's own accesses only (R243). -/
def retireSlots (w : Work) (gi : Nat) : Work :=
  w.mapPk fun p => { p with
    lift := p.lift.mapVals fun _ s => match s.owner with
      | some (g, _) => if g = gi then { s with owner := none, pend := [], extra := [] } else s
      | none => s
    groups := p.groups.adjust gi fun g => { g with
      chains := (g.chains.mapVals fun _ c => { Chain.idle with
          jord := openJoins p c.jord, awaits := openTxns p c.awaits, seen := c.seen.filter fun x => x.note.live p }).filter
        fun c => c.2 != Chain.idle } }

/-- The block's local memory and requests go into its section (R405, R407). -/
def saveSection (w : Work) (blk : Nat) (b : Block) (run : Nat × Nat) : Work :=
  let w := (writeVirt w b.ctx (runVa w b.ctx run) (sectionBytes w blk b)).getD w
  let w := w.updBlock blk fun b => { b with section_ := some run, heldReqs := (blockReqs w.pk blk).map Prod.snd }
  let w := w.mapPk fun p => { p with reqs := p.reqs.filter fun e => e.2.blk != blk }
  w.each b.groups fun gi w => w.onGroup gi fun g w => writeFrame w g.ctx g.frame 0x78 (valBytes 8 (runVa w b.ctx run))

/-- The image of a group is written, and the group leaves its slot. -/
def writeImage (w : Work) (gi : Nat) (g : Group) (b : Block) (mask : Option MaskWord) (bulk sect : Nat × Nat) : Work :=
  let cs := stoppedCmds w.pk gi g
  let m := appliedMask g cs mask
  let bytes := bulkBytes w gi g cs m
  let last := lastResident w.pk gi b
  let w := (writeVirt w g.ctx (runVa w g.ctx bulk) bytes).getD w
  let section_ := if last then runVa w g.ctx sect else 0
  let frame := frameBytes w.pk g mask.isNone b.stopped.isSome b.lin m (listedFor w.pk gi).length cs.length
    (runVa w g.ctx bulk) bytes.length section_
  let w := writeFrame w g.ctx g.frame 0x40 ([(2 : Byte)] ++ frame)
  let w := spill (bumpHeader w g.ctx 24 4 1) b
  let w := retireSlots w gi
  let u := mxUnit w.pk g.core g.part
  let w := setMx w g.core g.part ({ u with queue := u.queue.filter fun c => c.g != gi }.clean g.banks g.regions)
  let (n, w) := w.newId
  let w := w.updGroup gi fun g => { g with
    stat := .saved, saveSeq := n, saveReq := none, bulk := some bulk, bypass := [], mxHeld := cs
    lanes := g.lanes.map fun l => { l with pred := l.pred &&& m.pred }
    jmasks := g.jmasks.filter fun e => m.jmask.getLsbD e.1 }
  let w := w.updBlock g.blk fun b => { b with toMove := b.toMove.erase gi }
  let w := w.mapPk fun p => { p with inbound := p.inbound.mapVals fun _ i => if i.g = gi then { i with core := none } else i }
  let w := if last then saveSection w g.blk b sect else w
  match w.group? gi with
  | some g => traceGroup w 3 0 g Mask.none 0
  | none => w

/-! ## GROUP_SAVE -/

/-- The reason of a swap-out has gone: the parent may issue again (R334), or the request is granted (R91). -/
def SaveKind.lapsed (k : SaveKind) (g : Group) : Bool :=
  match k with
  | .parentSwap => !g.atRest
  | .xacqSwap => g.xreq.isNone
  | _ => false

/-- A notice where the image cannot be written. -/
def noteUnfit (w : Work) (g : Group) (r : Runs) : Work :=
  match r with
  | .bad code a => noteUnwritable w g code a
  | _ => w

/-- A save that can be taken starts: the group halts at its boundary, and pushes not made are withdrawn. -/
def startSave (w : Work) (gi : Nat) (g : Group) (q : SaveReq) : Work :=
  let go (w : Work) : Work :=
    (withdrawPushes w gi 8).updGroup gi fun g => { g with stat := .saving none, saveKind := q.kind }
  if q.kind.lapsed g then w.updGroup gi fun g => { g with saveReq := none }
  else if !q.kind.yields then go w
  else if g.atRest || q.forced then if saveFits w gi g none then go w else noteUnfit w g (runsFor w gi g none)
  else if q.missed then
    (noteUnfit w g (runsFor w gi g none)).updGroup gi fun g => { g with saveReq := some { q with missed := false } }
  else w

/-- The block's copy requests let a save of the group complete: those of a stopped block have completed (R387); where the last
group of its block is saved, others stop at a boundary of their granules (R407). -/
def requestsRest (p : Package) (gi : Nat) (g : Group) (b : Block) : Bool :=
  let rs := blockReqs p g.blk
  if g.saveKind == .stop then rs.isEmpty else !lastResident p gi b || rs.all fun e => e.2.atGranule

/-- A group whose save cannot be made runs on, and its request stands, unless its context runs on its die again. -/
def Group.runsOn (g : Group) (p : Package) : Group :=
  { g with
    stat := .resident
    saveReq := g.saveReq.filter fun q => !(q.kind == .preempt && scheduledOn p g.ctx (coreDie g.core)) }

/-- A save completes once the group is quiet and its image has room; one that may wait lets its group run on instead. -/
def finishSave (w : Work) (gi : Nat) (g : Group) (mask : Option MaskWord) : Work :=
  w.onBlock g.blk fun b w =>
    if !groupQuiet w.pk gi g || (lastResident w.pk gi b && localBusy w.pk g.blk) || !requestsRest w.pk gi g b then w
    else
      match runsFor w gi g mask with
      | .ok bulk sect w => writeImage w gi g b mask bulk sect
      | r =>
        let w := noteUnfit w g r
        if g.saveKind.yields then w.updGroup gi fun g => g.runsOn w.pk else w

def groupSave (gi : Nat) (w : Work) : Work :=
  w.onGroup gi fun g w =>
    match g.stat, g.saveReq with
    | .resident, some q => startSave w gi g q
    | .saving (some m), _ => let w := withdrawPushes w gi 1; w.onGroup gi fun g w => finishSave w gi g (some m)
    | .saving none, _ => finishSave w gi g none
    | _, _ => w

def execGroupSave (g : Nat) (s : State) : Host.Outcome State Fault Refusal := .next (s.run (groupSave g))

/-- A request has waited 2^20 cycles: the group is saved at its next instruction boundary (R397). -/
def preemptTimeout (gi : Nat) (w : Work) : Work :=
  w.updGroup gi fun g => { g with
    saveReq := g.saveReq.map fun q => if q.age ≥ 2 ^ 20 then { q with forced := true } else q }

def execPreemptTimeout (g : Nat) (s : State) : Host.Outcome State Fault Refusal := .next (s.run (preemptTimeout g))

/-! ## Restore (R399, R403, R408, R410) -/

/-- The split as a restore finds it: its lanes' PCs are those of the frame, and a wait that needs no state issues afresh. -/
def Split.resumed (w : Work) (g : Group) (f : List Byte) (s : Split) : Split :=
  let L := s.lanes.lanes.headD 0
  let pc := imagePc f L
  match splitWait s false with
  | (1, _) | (2, _) | (5, _) =>
    if pc = (g.lane L).pc then s else { s with nxt := pcPlus pc (if spAt w g pc then 2 else 1) }
  | _ => { s with cond := .ready, finish := false, age := 0 }

/-- The command with its banks and regions under their new numbers. -/
def MxOp.rename (bank region : Nat → Nat) (o : MxOp) : MxOp :=
  match o with
  | .load l => .load (l.map fun e => (bank e.1, e.2))
  | .keys b blocks => .keys (bank b) blocks
  | .mul d src blocks bf rows al bs => .mul (region d) (src.map region) blocks bf rows al (bs.map bank)
  | .zero d => .zero (region d)
  | .read r a e0 n conv m => .read r (region a) e0 n conv m
  | .write d e0 vals => .write (region d) e0 vals
  | .save bs rs t => .save (bs.map bank) (rs.map region) t
  | .restore bs rs => .restore (bs.map fun e => (bank e.1, e.2)) (rs.map fun e => (region e.1, e.2))

/-- The new number that stands where an old one stood. -/
def renumber (old new : List Nat) (n : Nat) : Nat := new.getD (old.findIdx (· == n)) n

/-- The commands that a save has stopped go back to the queue of the group's new unit, from where they stopped (R201). -/
def requeue (u : MxUnit) (was g : Group) : MxUnit :=
  let again (c : MxCmd) : MxCmd := { c with op := c.op.rename (renumber was.banks g.banks) (renumber was.regions g.regions) }
  { u with queue := u.queue ++ was.mxHeld.map again }

/-- The saved banks and regions come back into the group's new ones. -/
def loadMatrix (u : MxUnit) (g : Group) (m : MaskWord) (bulk : List Byte) : MxUnit :=
  let at_ (i : Nat) : List Byte := (bulk.drop (1024 * (maskChunks m).length + 16384 * i)).take 16384
  let nb := (maskBanks m).length
  let u := ((physBanks g (maskBanks m)).zipIdx).foldl (fun u e => MxUnit.setBank u e.1 (bankOf (at_ e.2))) u
  ((physRegions g (maskRegions m)).zipIdx).foldl (fun u e => MxUnit.setRegion u e.1 (regionOf (at_ (nb + e.2)))) u

/-- The keys of an image, where it can be read. -/
def imageKeys (w : Work) (g : Group) (f : List Byte) : List Nat :=
  let keys (va n : Nat) : List Nat := match chkRange w g.ctx .load va n with
    | (.ok ks, _) => ks
    | _ => []
  match w.ctx? g.ctx with
  | some c => keys (frameVa c g.frame) 0x1400 ++ keys (fld f 0x68 8) (fld f 0x70 4)
  | none => []

/-- Restores one group on a core and partition. -/
def restoreGroup (w : Work) (gi : Nat) (g : Group) (core part : Nat) (f bulk : List Byte) : Work :=
  match w.badAt (imageKeys w g f) with
  | some (u, _) => killBy w g.blk (groupRec w g .dataLost .f Mask.none 0 (BitVec.ofNat 64 u) 7)
  | none =>
    let m := savedMask f
    let slot := (lowestFree 1 128 (usedSlots w.pk core part)).headD 0
    let was := g
    let g := { g with
      core := core, part := part, slot := slot
      banks := lowestFree g.banks.length 8 (usedBanks w.pk core part)
      regions := lowestFree g.regions.length 16 (usedRegions w.pk core part) }
    let splits := g.splits.map (Split.resumed w g f)
    let g := { g with
      stat := .resident
      saveReq := none
      mxHeld := []
      splits := splits
      lanes := Lanes.ofFn fun L => { g.lane L with pc := imagePc f L }
      pastBrk := match g.pastBrk, g.splits with
        | some p, s :: _ => if imagePc f (s.lanes.lanes.headD 0) = p then some p else none
        | _, _ => none
      regs := imageRegs g f bulk m
      sregs := (List.range 32).foldl (fun r n => FMap.put r 0 n (BitVec.ofNat 64 (fld f (0x80 + 8 * n) 8))) [] }
    let w := dropRun w g.ctx g.bulk
    let w := w.setGroup gi { (if grantUnits g > 0 then g.granted else g) with bulk := none }
    let w := setMx w core part (requeue (loadMatrix (mxUnit w.pk core part) g m bulk) was g)
    let w := setFState (bumpHeader w g.ctx 24 4 (-1)) g.ctx g.frame 1
    let w := w.mapPk fun p => { p with
      names := match g.name with
        | some k => p.names.adjust k fun e => { e with moving := false }
        | none => p.names
      inbound := p.inbound.mapVals fun _ i => if i.g = gi then { i with core := some core, atTable := false } else i }
    let w := w.each (listedFor w.pk gi) fun e w => ferryApply e.1 w
    match w.group? gi with
    | some g => traceGroup w 4 0 g Mask.none 0
    | none => w

/-- Restores one group if its image can be read. -/
def tryRestore (w : Work) (gi core part : Nat) : Work :=
  w.onGroup gi fun g w =>
    match readFrame w g with
    | none => w
    | some f =>
      match readBulk w g f with
      | none => w
      | some bulk => restoreGroup (setFState w g.ctx g.frame 3) gi g core part f bulk

/-- A block that stands whole again is no longer migrating. -/
def settleMove (w : Work) (blk : Nat) : Work :=
  w.onBlock blk fun b w =>
    if b.section_.isNone ∧ (b.left w.pk).all (fun e => e.2.stat == .resident) then
      w.updBlock blk fun b => { b with migrating := false, toMove := [] }
    else w

/-- The addresses of a block section. -/
def sectionKeys (w : Work) (b : Block) (run : Nat × Nat) : List Nat :=
  match chkRange w b.ctx .load (runVa w b.ctx run) (4096 * run.2) with
  | (.ok ks, _) => ks
  | _ => []

/-- The groups of a block placed again return together, each to its rank's core; one that must wait for its place in a line of
requests, or for room in a matrix queue, follows by itself. -/
def restoreAll (w : Work) (b : Block) (die : Nat) (cores : List Nat) : Work :=
  let back := (b.left w.pk).filter fun e => comesBack w e.1 e.2 die
  w.each back fun e w => w.onGroup e.1 fun g w =>
    let core := cores.getD (g.gidx / b.gpr) 0
    let part := g.gidx % b.gpr % 4
    if firstInLine w.pk g core part && queueTakes w.pk g core part then tryRestore w e.1 core part else w

/-- Places a block saved whole again: its local memory, its requests, then its groups, all together (R408, R334); an
uncorrectable error in its section kills it (R392). -/
def restoreBlock (w : Work) (blk : Nat) (b : Block) (run : Nat × Nat) (die : Nat) (cores : List Nat) : Work :=
  match w.badAt (sectionKeys w b run), b.left w.pk with
  | some (u, _), e :: _ => killBy w blk (groupRec w e.2 .dataLost .f Mask.none 0 (BitVec.ofNat 64 u) 7)
  | _, _ =>
    match unpackSection w blk b cores with
    | none => w
    | some w =>
      let w := w.updBlock blk fun b => { b with cores := cores, section_ := none, heldReqs := [] }
      let w := dropRun w b.ctx (some run)
      let w := w.each b.groups fun gi w => w.onGroup gi fun g w => writeFrame w g.ctx g.frame 0x78 (valBytes 8 0)
      restoreAll w b die cores

/-- No other save, and no child of a swapped parent, comes first on the die (R314, R332). -/
def restoreFirst (w : Work) (g : Group) (die : Nat) : Bool :=
  (savedGroups w.pk).all (fun e => e.2.saveSeq ≥ g.saveSeq || (restoreCores w e.1 e.2 die).isNone) &&
    w.pk.launches.all fun e => !childFirst w.pk e.2 die || (nextCores w e.2 die).isNone

def groupRestore (gi : Nat) (cores : List Nat) (w : Work) : Work :=
  w.onGroup gi fun g w => w.onBlock g.blk fun b w =>
    let core := cores.headD 0
    let die := coreDie core
    if !restoreTurn w gi g die || !restoreFirst w g die then w
    else
      match b.section_ with
      | some run => if blockTakes w.pk b die cores then settleMove (restoreBlock w g.blk b run die cores) g.blk else w
      | none =>
        match seatOn w.pk g core with
        | some part => if cores.length == 1 && groupTakes w.pk g b core then settleMove (tryRestore w gi core part) g.blk else w
        | none => w

def execGroupRestore (g : Nat) (cores : List Nat) (s : State) : Host.Outcome State Fault Refusal :=
  .next (s.run (groupRestore g cores))

/-! ## Migration (R300, R409) -/

/-- A migration asks for the group's save; a request it displaces keeps its age (R397, R409). -/
def Group.askMove (g : Group) : Group :=
  match g.stat, g.saveReq with
  | .saved, _ => g
  | _, some q => { g with saveReq := some { q with kind := .migrate } }
  | _, none => { g with saveReq := some ⟨.migrate, 0, false, false⟩ }

/-- The firmware moves a block: each of its groups is to be saved, its name entries are moving, and other cores take it. -/
def migration (ln lin : Nat) (w : Work) : Work :=
  w.onLaunch ln fun l w =>
    match blockAt w.pk l lin with
    | none => w
    | some (u, b) =>
      if b.stat ≠ .begun ∨ b.migrating ∨ b.stopped.isSome then w
      else
        let goes := ((b.left w.pk).filter fun e => e.2.stat != .saved).map Prod.fst
        let w := traceBlock (w.updBlock u fun b => { b with migrating := true, toMove := goes }) 8 u
        w.each b.groups fun gi w => w.onGroup gi fun g w =>
          let w := w.updGroup gi Group.askMove
          match g.name with
          | some k => w.mapPk fun p => { p with names := p.names.adjust k fun e => { e with moving := true } }
          | none => w

def execMigration (l lin : Nat) (s : State) : Host.Outcome State Fault Refusal := .next (s.run (migration l lin))

/-! ## The runs of a context (R406 to R408) -/

def flowBytes (p : Package) (f : Flow) : List Byte :=
  let gate := match f.places.filter fun x => !placeLeft p f x with
    | x :: _ => x.seq
    | [] => f.next
  let infl := (((f.places.filter (placeInFlight p f)).map Place.item).eraseDups).length
  let holder := match f.busy with
    | some x => x.2.toNat
    | none => 0
  valBytes 8 f.lnch ++ valBytes 4 f.label.toNat ++ valBytes 4 f.next.toNat ++ valBytes 4 gate.toNat
    ++ valBytes 4 (b2n f.busy.isSome) ++ valBytes 4 holder ++ valBytes 4 infl

/-- Held results of a context, each with its item's launch and its place in the item's order. -/
def ctxHeld (p : Package) (cn : Nat) : List (Nat × Nat × Held) :=
  p.items.flatMap fun e => (e.2.held.zipIdx.filter fun h => h.1.ctx == cn).map fun h => (e.2.lnch, h.2, h.1)

def heldBytes (ln nth : Nat) (h : Held) : List Byte :=
  valBytes 8 h.addr.toNat ++ valBytes 4 h.label.toNat ++ valBytes 4 h.seq.toNat ++ valBytes 1 h.kind ++ valBytes 1 h.width
    ++ valBytes 1 h.h ++ valBytes 1 (scopeNum h.scope + 8 * orderNum h.ord) ++ valBytes 4 nth ++ valBytes 8 ln
    ++ outEntry h.data

def walkBytes (e : Nat × Nat × Chan) : List Byte :=
  valBytes 8 e.2.2.next.toNat ++ valBytes 1 e.1 ++ valBytes 1 e.2.1 ++ valBytes 1 (chanStatus e.2.2 % 4) ++ valBytes 5 0

def ctxResident (p : Package) (cn : Nat) : Bool := p.groups.any fun e => e.2.ctx == cn && e.2.stat != .saved
def dieResident (p : Package) (cn die : Nat) : Bool :=
  p.groups.any fun e => e.2.ctx == cn && e.2.stat != .saved && coreDie e.2.core == die

/-- A field of the header of the save area. -/
def setHeader (w : Work) (cn off n v : Nat) : Work :=
  match w.ctx? cn with
  | some c => (writeVirt w cn (c.save + off) (valBytes n v)).getD w
  | none => w

/-- A run with its bytes, if there is room and it can be written. -/
def writeRun (w : Work) (cn : Nat) (bs : List Byte) : Option ((Nat × Nat) × Work) :=
  match takeRun w cn bs.length with
  | some (r, w) => if r.2 = 0 then some (r, w) else (writeVirt w cn (runVa w cn r) bs).map fun w => (r, w)
  | none => none

/-- Flow entries and held results are written together or not at all, and leave the flow table and the result buffers. -/
def writeFlowRuns (w : Work) (cn : Nat) : Work :=
  let fs := (ctxFlows w.pk cn).filter fun f => !f.saved && f.holds w.pk
  let hs := ctxHeld w.pk cn
  if fs.isEmpty then w
  else
    match writeRun w cn (fs.flatMap (flowBytes w.pk)) with
    | none => w
    | some (rf, w1) =>
      match writeRun w1 cn (hs.flatMap fun e => heldBytes e.1 e.2.1 e.2.2) with
      | none => w
      | some (rh, w) =>
        let w := w.onCtx cn fun c w => dropRun w cn c.heldRun
        let w := w.mapPk fun p => { p with
          flows := p.flows.map fun f => if fs.contains f then { f with saved := true } else f
          items := p.items.mapVals fun _ i => { i with held := i.held.map fun h => if h.ctx = cn then { h with run := true } else h } }
        let w := w.updCtx cn fun c => { c with flowRun := some rf, heldRun := if rh.2 = 0 then none else some rh }
        let w := setHeader (setHeader w cn 28 4 fs.length) cn 32 8 (runVa w cn rf)
        setHeader (setHeader w cn 40 4 hs.length) cn 48 8 (runVa w cn rh)

/-- A walk as it stops: within a record, back at the last boundary of the record's granule (R273). -/
def Chan.atGranule (x : Chan) : Chan :=
  match x.hand with
  | some h =>
    if h.closed then x
    else match fld h.rec_ 14 1 with
      | 0 => { x with done := min x.done (fld h.rec_ 56 8) }
      | n => let k := granule n; { x with done := max (min x.done (fld h.rec_ 56 8)) (x.done / k * k) }
  | none => x

/-- Walks on the channels of dies where the context no longer runs leave their channels; one within a record leaves the bytes
done in it. -/
def haltedWalks (p : Package) (cn : Nat) : List (Nat × Nat × Chan) :=
  (p.chans.filter fun e => e.2.ctx == cn && e.2.busy && !scheduledOn p cn (coreDie (e.1 / 4)) &&
    !dieResident p cn (coreDie (e.1 / 4))).map fun e => (e.1 / 4, e.1 % 4, e.2.atGranule)

/-- RESUME of the record that a halted walk stands within. -/
def putResume (w : Work) (cn : Nat) (x : Chan) : Work :=
  match x.hand with
  | some h => if h.closed then w else (writeVirt w cn (x.next.toNat + 56) (valBytes 8 x.done)).getD w
  | none => w

/-- The channel records of a context as they are to stand. -/
def rewriteChanRun (w : Work) (cn : Nat) (walks : List (Nat × Nat × Chan)) : Option Work :=
  let w := w.onCtx cn fun c w => dropRun w cn c.chanRun
  match writeRun w cn (walks.flatMap walkBytes) with
  | none => none
  | some (r, w) =>
    let w := w.updCtx cn fun c => { c with chanRun := if r.2 = 0 then none else some r }
    some (setHeader (setHeader w cn 44 4 walks.length) cn 56 8 (runVa w cn r))

def ctxWalks (p : Package) (cn : Nat) : List (Nat × Nat × Chan) := p.heldWalks.filter fun e => e.2.2.ctx == cn

def writeWalks (w : Work) (cn : Nat) : Work :=
  let now := haltedWalks w.pk cn
  if now.isEmpty then w
  else
    match rewriteChanRun w cn (ctxWalks w.pk cn ++ now) with
    | none => w
    | some w =>
      let w := w.each now fun e w => putResume w cn e.2.2
      let w := w.each now fun e w => setChan w e.1 e.2.1 Chan.fresh
      w.mapPk fun p => { p with heldWalks := p.heldWalks ++ now }

/-- A free channel of the same number on the die, on the walk's own core first. -/
def walkPlace (p : Package) (core c : Nat) : Option Nat :=
  (core :: (List.range 48).map (48 * coreDie core + ·)).find? fun k => !(chanOf p k c).busy

/-- Walks resume on the dies where the context runs again. -/
def resumeWalks (w : Work) (cn : Nat) : Work :=
  let back := (ctxWalks w.pk cn).filter fun e => scheduledOn w.pk cn (coreDie e.1)
  w.each back fun e w =>
    match walkPlace w.pk e.1 e.2.1 with
    | none => w
    | some k =>
      let rest := w.pk.heldWalks.erase e
      match rewriteChanRun w cn (rest.filter fun x => x.2.2.ctx == cn) with
      | none => w
      | some w => (setChan w k e.2.1 e.2.2).mapPk fun p => { p with heldWalks := rest }

/-- Flow entries return to the flow table once it has room; the run of held results is freed with the last of them. -/
def returnFlows (w : Work) (cn : Nat) : Work :=
  let fs := (ctxFlows w.pk cn).filter fun f => f.saved
  let w :=
    if fs.isEmpty ∨ flowEntries w.pk + fs.length > flowTableSize then w
    else
      let w := w.mapPk fun p => { p with flows := p.flows.map fun f => if fs.contains f then { f with saved := false } else f }
      let w := w.onCtx cn fun c w => dropRun w cn c.flowRun
      setHeader (setHeader (w.updCtx cn fun c => { c with flowRun := none }) cn 28 4 0) cn 32 8 0
  w.onCtx cn fun c w =>
    if c.heldRun.isSome ∧ !((ctxHeld w.pk cn).any fun e => e.2.2.run) then
      let w := (dropRun w cn c.heldRun).updCtx cn fun c => { c with heldRun := none }
      setHeader (setHeader w cn 40 4 0) cn 48 8 0
    else w

/-- What a context's runs need next: flow entries, held results and walks leave or return with its scheduling. -/
def contextRuns (cn : Nat) (w : Work) : Work :=
  w.onCtx cn fun c w =>
    let w := if c.sched = 0 ∧ !ctxResident w.pk cn then writeFlowRuns w cn else w
    let w := if c.sched ≠ 0 then returnFlows w cn else w
    resumeWalks (writeWalks w cn) cn

def execContextRunsWrite (ctx : Nat) (s : State) : Host.Outcome State Fault Refusal := .next (s.run (contextRuns ctx))

end Sys2Proof.Machine
end

