-- ==== Sys2Proof/Machine/Gate.lean ====
section
/-!
DEFINITION. The start gate of a DET launch (R222 to R224): one entry, or one turn, at a time.
-/
namespace Sys2Proof.Machine

/-- Order of application within an epoch (R219). -/
def DetEntry.key (e : DetEntry) : Nat := (e.gidx * 8 + e.lane) * 2 ^ 32 + e.seq

/-- The entry of the first epoch not yet applied that comes next. -/
def Det.nextEntry (d : Det) : Option DetEntry :=
  (d.entries.filter fun e => e.epoch == d.applied).foldl
    (fun (a : Option DetEntry) e => match a with
      | some x => if e.key < x.key then some e else a
      | none => some e) none

/-- A record of the block that holds the turn: no group's, with the block's coordinates (R223). -/
def turnRec (w : Work) (b : Block) (code : Code) (cls : FClass) (addr info : Nat) : Rec :=
  let r := blockRec w b
  { bareRec code cls b.ctx b.lnch addr info with bx := r.bx, byy := r.byy, bz := r.bz }

/-- An entry leaves the block's list; what the block sees of its own stores stays (R210, R214). -/
def dropEntry (w : Work) (u : Nat) (e : DetEntry) : Work :=
  w.updBlock u fun b => { b with det := b.det.map fun d => { d with entries := d.entries.erase e } }

/-- The release waits for a page. -/
def pauseGate (w : Work) (u : Nat) (b : Block) (addr : Nat) : Work :=
  let w := w.updBlock u fun b => { b with det := b.det.map fun d => { d with paused := some (BitVec.ofNat 64 addr) } }
  hostRec w (turnRec w b .page .r addr 3)

/-- The entry is discarded with a notice. -/
def discardEntry (w : Work) (u : Nat) (b : Block) (e : DetEntry) (code : Code) (addr info : Nat) : Work :=
  hostRec (dropEntry w u e) (turnRec w b code .n addr info)

/-- A push of KIND 2, with its descriptor as it stands. -/
def applyPush (w : Work) (u : Nat) (b : Block) (e : DetEntry) (dk : List Nat) : Work :=
  if e.addr.toNat % 64 ≠ 0 then discardEntry w u b e .detBroken e.addr.toNat 0
  else if let some (x, k) := w.badAt dk then discardEntry w u b e .dataLost x k
  else if !oqOk (w.bytes dk) then discardEntry w u b e .detBroken e.addr.toNat 0
  else
    match pushEntry w b.ctx b.lnch dk (outEntry e.data) with
    | .full => w
    | .page a => pauseGate w u b a
    | .refused a => hostRec (dropEntry w u e) (bareRec .prot .n b.ctx b.lnch a 0)
    | .pushed w => dropEntry w u e

/-- An entry waits for the data of a matrix save (R213), and a buffered atomic for the tokens that its handle had imported and
for the accesses of others that it follows (R233, R254). -/
def entryWaits (p : Package) (e : DetEntry) (ks : List Nat) : Bool :=
  (e.kind == 0 && decide (e.data.length < e.width)) || !(e.imports.all (tokenMet p)) || e.awaits.any (awaited p false ks)

/-- Applies one entry at the home of its address. -/
def applyEntry (w : Work) (u : Nat) (b : Block) (e : DetEntry) : Work :=
  if entryWaits w.pk e [] then w
  else
    match chkGlobal w b.ctx .store e.addr.toNat (if e.kind = 2 then 64 else e.width) 1 with
    | (.bad _ .page a, w) => pauseGate w u b a
    | (.bad .., w) | (.member _, w) => discardEntry w u b e .detBroken e.addr.toNat 0
    | (.ok ks, w) =>
      if entryWaits w.pk e ks then w
      else
      match e.kind with
      | 0 => dropEntry (noteWrote (homeStore w b.ctx ks e.data) b.lnch ks) u e
      | 1 =>
        match w.badAt ks with
        | some (x, k) => discardEntry w u b e .dataLost x k
        | none =>
          let w := (performAtom w 9 (akindOf e.atype) ⟨e.addr, ks, e.data, [], [], 0⟩).2
          dropEntry (noteWrote w b.lnch ks) u e
      | _ => applyPush w u b e ks

/-- The turn passes to the next block, whose slot says so (R217). -/
def nextTurn (w : Work) (ln : Nat) : Work :=
  (w.updLaunch ln fun l => { l with turn := l.turn + 1 }).onLaunch ln fun l w =>
    match blockAt w.pk l l.turn with
    | some (u, _) => putSlot w u
    | none => w

/-- One step of the gate. -/
def startGate (ln : Nat) (w : Work) : Work :=
  w.onLaunch ln fun l w =>
    match blockAt w.pk l l.turn with
    | none => w
    | some (u, b) =>
      match b.det with
      | none => w
      | some d =>
        if b.stat = .killed ∨ d.void then nextTurn w ln
        else if d.paused.isSome then w
        else if d.applied < d.sealed then
          match d.nextEntry with
          | some e => applyEntry w u b e
          | none => w.updBlock u fun b => { b with det := some { d with applied := d.applied + 1 } }
        else if b.stat = .ended then nextTurn w ln
        else w

def execStartGateApply (l : Nat) (s : State) : Host.Outcome State Fault Refusal := .next (s.run (startGate l))

end Sys2Proof.Machine
end

