-- ==== Sys2Proof/Machine/System.lean ====
section
/-!
DEFINITION. Class 14: the cycle counter, performance counters and progress marks (R321 to R325), and the system
instructions of the service firmware (R371 to R375), with the retry conditions of R385.
-/
namespace Sys2Proof.Machine

/-! ## `rdcc`, `pmrd`, `trmk` (R321 to R324) -/

def execRdcc (f : RdccF) (s : State) : Host.Outcome State Fault Refusal :=
  issue s f.h (fun _ => { writes := f.d.wrs 2 }) fun v w =>
    once v w fun w => done (w.writeU v f.d 2 fun _ => w.pk.cycle.toNat)

/-- A free value of the telemetry that the manual does not model (log entry 5). -/
def telemetry (w : Work) (n : Nat) : Nat × Work :=
  ((Config.telemetry n w.pk.free).toNat, w.mapPk fun p => { p with free := p.free + 1 })

/-- Counter n of a group: its own, or one of its core's, zero where the context has selected no event (R323). -/
def counterValue (w : Work) (g : Group) (n : Nat) : Nat × Work :=
  if n < 8 then ((FMap.getD g.pmc 0 n).toNat, w)
  else
    let sel := match w.ctx? g.ctx with
      | some c => FMap.getD c.pmev 0 n
      | none => 0
    if sel = 0 then (0, w) else telemetry w n

def execPmrd (f : BarSF) (s : State) : Host.Outcome State Fault Refusal :=
  issue s f.h (fun _ => {}) fun v w =>
    once v w fun w =>
      let (x, w) := counterValue w v.grp f.n.toNat
      done (w.writeS v f.s x)

/-- Marks count in the window of a running trial (R325). -/
def Trial.count (t : Trial) (ln n k : Nat) : Trial :=
  if t.lnch = ln ∧ t.mark = n ∧ t.left > 0 then
    if t.second then { t with m1 := t.m1 + BitVec.ofNat 64 k } else { t with m0 := t.m0 + BitVec.ofNat 64 k }
  else t

def trmkBody (f : TrmkF) (v : View) (w : Work) : Done :=
  once v w fun w =>
    let n := f.n.toNat
    let k := v.real.count
    let w := w.updLaunch v.grp.lnch fun l => { l with marks := FMap.put l.marks 0 n (FMap.getD l.marks 0 n + BitVec.ofNat 64 k) }
    let w := w.mapPk fun p => { p with trial := p.trial.map fun t => t.count v.grp.lnch n k }
    done (traceGroup w 6 n v.grp v.act (pcVa v.pc))

def execTrmk (f : TrmkF) (s : State) : Host.Outcome State Fault Refusal :=
  issue s f.h (fun _ => { feature := some 7 }) (trmkBody f)

/-! ## System registers (R372, R373) -/

/-- A right of the issuing context, and the order of a `fence.sys`: the group's earlier accesses are done first. -/
def withRight (v : View) (w : Work) (bit : Nat) (k : Work → Done) : Done :=
  once v w fun w =>
    let ok := match w.ctx? v.grp.ctx with
      | some c => c.opt bit
      | none => false
    if !ok then .trap .prot v.act 0 0
    else
      match groupTxns w.pk v.g with
      | [] => k (fenceChains w v.g (some .sys))
      | ts => .wait (.returned ts)

def ctxNum (s : CtxSt) : Nat :=
  match s with
  | .free => 0 | .live => 1 | .draining => 2

/-- `ctxstat` of a context. -/
def ctxStat (p : Package) (cn : Nat) : Nat :=
  let st := match p.ctxs.find? cn with
    | some c => ctxNum c.st
    | none => 0
  let n (saved : Bool) : Nat := (p.groups.filter fun e => e.2.ctx == cn && (e.2.stat == .saved) == saved).length
  st + 2 ^ 16 * (n false % 2 ^ 16) + 2 ^ 32 * (n true % 2 ^ 32)

/-- The value of a system register. -/
def sysregRead (w : Work) (n : Nat) : Nat × Work :=
  let p := w.pk
  let cn := p.ctxsel.toNat
  let task := FMap.getD p.tasks Task.fresh p.tasksel.toNat
  if n = 0x000 then (p.no + 2 ^ 12 * 0xF + 2 ^ 16 * p.diesLost.toNat, w)
  else if n = 0x020 then (cn, w)
  else if n = 0x021 then ((match p.ctxs.find? cn with
    | some c => c.sched.toNat
    | none => 0), w)
  else if n = 0x022 then (ctxStat p cn, w)
  else if n = 0x030 then (p.tasksel.toNat, w)
  else if n = 0x031 then (task.count.toNat + 2 ^ 32 * b2n task.under, w)
  else if n = 0x080 then let (x, w) := telemetry w n; (x % 2 ^ 8, w)
  else if n = 0x081 then telemetry w n
  else ((match p.ctxs.find? cn with
    | some c => (FMap.getD c.pmev 0 (n - 0x050)).toNat
    | none => 0), w)

def execSysrd (f : SysF) (s : State) : Host.Outcome State Fault Refusal :=
  issue s f.h (fun _ => {}) fun v w =>
    withRight v w 3 fun w =>
      let (x, w) := sysregRead w f.reg.toNat
      done (w.writeS v f.s x)

/-- A group's die joins or leaves the dies of its context (R409): a switch's request not yet served is dropped, or one is made,
and one that a stop holds back is as old as the switch. A save in progress goes on. -/
def Group.rescheduled (g : Group) (stays : Bool) : Group :=
  match g.stat, g.saveReq with
  | .resident, none => if stays then g else { g with saveReq := some ⟨.preempt, 0, false, false⟩ }
  | .resident, some q =>
    if stays && q.kind == .preempt then { g with saveReq := none }
    else if !stays && q.kind == .stop then { g with saveReq := some { q with age := 0 } }
    else g
  | _, _ => g

/-- A context's dies change: groups on a die it leaves are to be saved. -/
def reschedule (w : Work) (cn : Nat) (dies : BitVec 4) : Work :=
  w.onCtx cn fun _ w =>
    let w := w.updCtx cn fun c => { c with sched := dies }
    w.mapPk fun p => { p with groups := p.groups.mapVals fun _ g =>
      if g.ctx = cn then g.rescheduled (dies.getLsbD (coreDie g.core)) else g }

/-- A host write of a task's counter (R309). -/
def writeTask (w : Work) (t : Nat) (x : Nat) : Work :=
  if bitAt x 63 = 0 then updTask w t fun y => { y with count := BitVec.ofNat 32 x, under := false }
  else updTask w t (Task.minus (BitVec.ofNat 32 x))

def sysregReadOnly (n : Nat) : Bool := n == 0x000 || n == 0x022 || n == 0x080 || n == 0x081

def sysregWrite (w : Work) (n x : Nat) : Work :=
  let cn := w.pk.ctxsel.toNat
  if n = 0x020 then w.mapPk fun p => { p with ctxsel := BitVec.ofNat 12 x }
  else if n = 0x021 then reschedule w cn (BitVec.ofNat 4 x)
  else if n = 0x030 then w.mapPk fun p => { p with tasksel := BitVec.ofNat 16 x }
  else if n = 0x031 then writeTask w w.pk.tasksel.toNat x
  else w.updCtx cn fun c => { c with pmev := FMap.put c.pmev 0 (n - 0x050) (BitVec.ofNat 64 x) }

def execSyswr (f : SysF) (s : State) : Host.Outcome State Fault Refusal :=
  issue s f.h (fun _ => {}) fun v w =>
    withRight v w 3 fun w =>
      if sysregReadOnly f.reg.toNat then .trap .prot v.act 0 0 else done (sysregWrite w f.reg.toNat (v.s f.s))

/-! ## The retry conditions (R385) -/

/-- A suspended group whose retry condition holds: a saved one leaves its suspension in its image (R410). -/
def replayGroup (w : Work) (gi : Nat) : Work :=
  w.onGroup gi fun g w =>
    if g.susp.isNone then w
    else if g.stat = .saved then
      let w := setSkind w g.ctx g.frame 3 false
      let w := writeFrame w g.ctx g.frame 0x301 [0]
      w.updGroup gi fun g => { g with susp := none, replay := false }
    else w.updGroup gi fun g => { g with replay := true }

/-- What waits on a page of a context goes on, but for that whose record has found the pending list full (R383). -/
def retryWaits (w : Work) (cn : Nat) (hit : W64 → Bool) : Work :=
  let goes (a : W64) : Bool := hit a && !engineStays w cn a
  let clear (a : Option W64) : Option W64 := if a.any goes then none else a
  let chan (x : Chan) : Chan := if x.ctx = cn ∧ x.page.any goes then { x with page := none, st := .walking } else x
  let det (d : Det) : Det := { d with paused := clear d.paused }
  let held (h : Held) : Held := if h.ctx = cn then { h with paused := clear h.paused } else h
  w.mapPk fun p => { p with
    reqs := p.reqs.mapVals fun _ q => if q.ctx = cn then { q with paused := clear q.paused } else q
    chans := p.chans.mapVals fun _ x => chan x
    heldWalks := p.heldWalks.map fun e => (e.1, e.2.1, chan e.2.2)
    colls := p.colls.mapVals fun _ x => if x.ctx = cn then { x with page := clear x.page } else x
    txns := p.txns.mapVals fun _ t => if t.ctx = cn then { t with paused := clear t.paused } else t
    items := p.items.mapVals fun _ i => { i with held := i.held.map held }
    queues := p.queues.mapVals fun _ q => if q.ctx.toNat = cn then { q with paused := clear q.paused } else q
    launches := p.launches.mapVals fun _ l =>
      if l.ctx = cn then { l with
        dispPage := clear l.dispPage, donePage := clear l.donePage, dispDue := l.dispDue || hit (BitVec.ofNat 64 (fld l.rec_ 64 8)) }
      else l
    blocks := p.blocks.mapVals fun _ b =>
      if b.ctx = cn then { b with det := b.det.map det, heldReqs := b.heldReqs.map fun q => { q with paused := clear q.paused } }
      else b
    ctxs := p.ctxs.adjust cn fun c => { c with notedPages := c.notedPages.filter fun a => !hit a } }

/-- A retry condition of a context for the addresses given. -/
def retry (w : Work) (cn : Nat) (hit : W64 → Bool) : Work :=
  let gs := w.pk.groups.keysWhere fun _ g => g.ctx == cn && g.susp.any hit
  retryWaits (w.each gs fun gi w => replayGroup w gi) cn hit

/-! ## `tlbinv`, `halt` (R374, R375) -/

/-- The address lies in a range; a length of zero is everything. -/
def inRange (va len : Nat) (a : W64) : Bool := len == 0 || (decide (va ≤ a.toNat) && decide (a.toNat < va + len))

/-- An entry overlaps the range of an invalidation. -/
def Tlb.hit (e : Tlb) (cn asid va len : Nat) : Bool :=
  e.ctx == cn && e.asid == asid && (len == 0 || (e.va < va % 2 ^ 57 + len && va % 2 ^ 57 < e.va + 2 ^ e.size))

/-- The bytes an access reaches by the translations it holds: its lanes', and a page pool's header once it is judged. -/
def Txn.held (t : Txn) : List Nat :=
  t.keys ++ match t.kind with
    | .ref _ _ hdr _ => if t.judged then hdr.toList.map BitVec.toNat else []
    | _ => []

/-- Accesses of a context that reach a page of one of the entries and have not performed. A push that its entry address stops
holds no translation: it makes its own at each attempt (log entry 76). -/
def usersOf (p : Package) (cn : Nat) (es : List Tlb) : List Nat :=
  p.txns.keysWhere fun _ t => t.ctx == cn && t.paused.isNone && t.open &&
    t.held.any fun k => es.any fun e => e.pa ≤ k && k < e.pa + 2 ^ e.size

/-- Pins on the lines of a physical range. -/
def pinnedIn (p : Package) (pa len : Nat) : List Nat :=
  (p.pins.filter fun x => pa ≤ 128 * x.line && 128 * x.line < pa + len).map fun x => x.ctx * 2 ^ 64 + x.line

/-- The invalidation's waits are over. -/
def invalOver (p : Package) (ts pins : List Nat) : Bool :=
  (openTxns p ts).isEmpty && !(p.pins.any fun x => pins.contains (x.ctx * 2 ^ 64 + x.line))

/-- The entries of a range leave; those with accesses that have not performed are remembered until they have, so that an
invalidation issued afresh, or another of an overlapping range, waits for them too (R366). -/
def dropEntries (p : Package) (cn asid va len : Nat) : Package :=
  let gone := p.tlb.filter fun e => e.hit cn asid va len
  let kept := p.dropped.map fun d => { d with txns := openTxns p d.txns }
  { p with
    tlb := p.tlb.filter fun e => !gone.contains e
    dropped := (kept ++ gone.map fun e => Dropped.mk e (usersOf p cn [e])).filter fun d => !d.txns.isEmpty }

/-- Accesses by dropped entries of a range. -/
def droppedUsers (p : Package) (cn asid va len : Nat) : List Nat :=
  ((p.dropped.filter fun d => d.entry.hit cn asid va len).flatMap Dropped.txns).eraseDups

def invalidate (w : Work) (r : List Byte) : Done :=
  let cn := fld r 16 2
  let va := fld r 0 8
  let len := fld r 8 8
  let live := match w.ctx? cn with
    | some c => c.st == .live
    | none => false
  if !live then done w
  else
    let w := w.mapPk fun p => dropEntries p cn (fld r 18 2) va len
    let ts := droppedUsers w.pk cn (fld r 18 2) va len
    let pins := if bitAt (fld r 20 1) 0 = 1 then pinnedIn w.pk (fld r 24 8) len else []
    if ts.isEmpty ∧ pins.isEmpty then done (retry w cn (inRange va len))
    else .ok w { block := some (.inval ts cn va len pins (w.pk.cycle + BitVec.ofNat 64 (2 ^ 20))) }

def tlbinvBody (f : SsrcF) (v : View) (w : Work) : Done :=
  withRight v w 4 fun w =>
    let a := v.s f.a
    if a % 32 ≠ 0 ∨ !canonical a then .trap .prot v.act a 0
    else
      match chkGlobal w v.grp.ctx .load a 32 32 with
      | (.bad _ code addr, _) => .trap code v.act addr 0
      | (.member b, _) => .wait (.member b)
      | (.ok ks, w) =>
        match w.badAt ks with
        | some (u, k) => .trap .dataLost v.act u k
        | none => invalidate w (w.bytes ks)

def execTlbinv (f : SsrcF) (s : State) : Host.Outcome State Fault Refusal := issue s f.h (fun _ => {}) (tlbinvBody f)

def execHalt (f : SdstF) (s : State) : Host.Outcome State Fault Refusal :=
  issue s f.h (fun _ => {}) fun v w =>
    withRight v w 5 fun w =>
      if w.pk.evword = 0 then .wait .halt
      else done ((w.writeS v f.d w.pk.evword.toNat).mapPk fun p => { p with evword := 0 })

end Sys2Proof.Machine
end

