-- ==== Sys2Proof/Machine/Root.lean ====
section
/-!
DEFINITION. Feature negotiation (R4 to R9) and the commands of the Yilril root (R353 to R361, R370).
-/
namespace Sys2Proof.Machine

/-! ## Negotiation (R5 to R7) -/

/-- A ZL9-4C offers every bit that R5 defines. -/
def offeredWord : BitVec 256 := 0x3FF

/-- A context other than the service firmware's exists. -/
def othersExist (p : Package) : Bool := p.ctxs.any fun e => e.1 != Config.firmwareContext && e.2.st != .free

/-- Writes to the negotiation registers take effect. -/
def negOpen (s : State) : Bool := !s.neg.done && !othersExist s.pk

/-- The outcome of a commit. -/
def Negotiation.commit (n : Negotiation) : Negotiation :=
  if n.accepted &&& offeredWord = n.accepted then { n with done := true, err := false }
  else { n with accepted := 0, err := true }

def commitOp (s : State) : State := if negOpen s then { s with neg := s.neg.commit } else s

def execCommit (s : State) : Host.Outcome State Fault Refusal := .next (commitOp s)

/-! ## The mailbox (R353) -/

def mbSuccess : Nat := 0
def mbUnknown : Nat := 1
def mbField : Nat := 2
def mbState : Nat := 3
def mbConflict : Nat := 4
def mbFull : Nat := 5

/-- The n bytes of the argument block from an offset. -/
def argBytes (w : Work) (off n : Nat) : List Byte := w.bytes (keysFrom (w.pk.mbarg.toNat + off) n)

/-- One command: its result, and what it changes when it succeeds. -/
abbrev Command := Work → Nat × Work

/-- A command with its argument block, which must be aligned. -/
def withArgs (c : Command) : Command := fun w => if w.pk.mbarg.toNat % 64 ≠ 0 then (mbField, w) else c w

/-- Runs a command whole: a command that fails changes nothing. -/
def runCommand (code : Nat) (c : Command) (w : Work) : Work :=
  let (r, w') := c w
  let w := if r = mbSuccess then w' else w
  w.mapPk fun p => { p with mbcmd := BitVec.ofNat 64 code, mbresult := r, mbseq := p.mbseq + 1 }

/-! ## CREATE (R355, R356, R363, R400) -/

/-- A weight-store entry within its values. -/
def wsrOk (x : Nat) : Bool :=
  x / 2 ^ 34 % 2 ^ 29 == 0 && (bitAt x 63 == 0 ||
    decide (1 ≤ x / 2 ^ 16 % 2 ^ 16 ∧ x / 2 ^ 16 % 2 ^ 16 ≤ 2048 ∧ x % 2 ^ 16 ≤ 2047 ∧
      x % 2 ^ 16 + x / 2 ^ 16 % 2 ^ 16 ≤ 2048))

/-- The OPTS bits that a context may have: SYSREG, TLBINV and HALT are the service firmware's alone (R356). -/
def optsBound (cn : Nat) : Nat := if cn = Config.firmwareContext then 64 else 8

/-- Every field of a descriptor of a context lies within its values. -/
def descFieldsOk (cn : Nat) (c : Ctx) : Bool :=
  c.f 0 8 / 2 ^ 60 == 10 && decide (c.f 10 2 < optsBound cn) && canonical c.tvec && c.tvec % 4 == 0 && c.save % 4096 == 0 &&
    c.saveLen % 4096 == 0 && c.f 56 8 % 4096 == 0 && c.privLen % 4096 == 0 && c.spBase % 65536 == 0 &&
    decide (1 ≤ c.spSlot ∧ c.spSlot ≤ 65536 ∧ c.spCount ≤ 65536 ∧ c.coreQuota ≤ 192 ∧ c.regQuota ≤ 8192) &&
    c.regQuota % 64 == 0 && decide (c.queueQuota ≤ 16384) && c.f 94 2 == 0 &&
    decide (c.taskLo ≤ 65535 ∧ c.taskN ≤ 65536 - c.taskLo) && c.hmsi % 4 == 0 &&
    decide (1 ≤ c.hmsid ∧ c.hmsid ≤ 2047) && c.f 116 4 == 0 && c.fring % 64 == 0 && c.tring % 64 == 0 &&
    c.tren % 2 == 0 && decide (c.tren < 2 ^ 9) && c.f 140 4 == 0 &&
    ((List.range 8).all fun n => wsrOk (c.f (144 + 8 * n) 8)) && allZero (c.desc.drop 208)

def Ctx.fresh (desc : List Byte) : Ctx where
  st := .live
  desc := desc
  sched := 0xF
  pending := []
  drops := 0
  runs := []
  flowRun := none
  heldRun := none
  chanRun := none
  runsDue := false
  pmev := []
  priv := []
  frames := []
  notedPages := []

def wsOverlap (a b : Nat × Nat × Nat) : Bool := a.1 == b.1 && a.2.1 < b.2.2 && b.2.1 < a.2.2

/-- Two regions of one list overlap. -/
def selfOverlap : List (Nat × Nat × Nat) → Bool
  | [] => false
  | a :: l => l.any (wsOverlap a) || selfOverlap l

/-- Two contexts share a named task; a range of none shares none. -/
def sharesTask (c d : Ctx) : Bool :=
  decide (c.taskN ≠ 0 ∧ d.taskN ≠ 0 ∧ c.taskLo < d.taskLo + d.taskN ∧ d.taskLo < c.taskLo + c.taskN)

/-- Another live context holds one of the tasks or a part of one of the regions. -/
def grantConflict (p : Package) (c : Ctx) : Bool :=
  selfOverlap c.wsrs || p.ctxs.any fun e => e.2.st == .live &&
    (sharesTask c e.2 ||
      c.wsrs.any fun a => e.2.wsrs.any (wsOverlap a))

/-- The context to which a byte of the weight store was granted last. -/
def lastHolder (p : Package) (die off : Nat) : Option Nat :=
  (p.wsHeld.find? fun h => h.2.1 == die && h.2.2.1 ≤ off && off < h.2.2.2).map Prod.fst

/-- A range first granted to a context other than its last holder reads zero (R360). -/
def zeroRange (w : Work) (cn : Nat) (r : Nat × Nat × Nat) : Work :=
  let ks := ((w.base.map Prod.fst ++ w.wr.map Prod.fst).filter fun k =>
    wsKey r.1 r.2.1 ≤ k && k < wsKey r.1 r.2.2 && lastHolder w.pk r.1 (k - wsKey r.1 0) != some cn).eraseDups
  let w := w.write ks (ks.map fun _ => 0)
  w.mapPk fun p => { p with wsHeld := (cn, r.1, r.2.1, r.2.2) :: p.wsHeld }

/-- The context's tasks start at zero. -/
def zeroTasks (w : Work) (c : Ctx) : Work :=
  w.each (w.pk.tasks.keysWhere fun t _ => c.taskLo ≤ t && t < c.taskLo + c.taskN) fun t w =>
    updTask w t fun x => { x with count := 0, under := false }

/-- The header of the save area as CREATE leaves it (R401). -/
def startHeader (w : Work) (cn : Nat) (c : Ctx) : Work :=
  let n := nframeOf w cn
  setHeader (setHeader w cn 8 8 (poolStart c n)) cn 16 8 (4096 * (poolPages c n - recordPages))

/-- No record cache holds a shape record of the context (R360). -/
def dropRecs (cn : Nat) (p : Package) : Package := { p with recCache := p.recCache.filter fun e => e.2.1 / 2 ^ 64 != cn }

def createArgs : Command := fun w =>
  let a := argBytes w 0 320
  let cn := fld a 0 2
  let c := Ctx.fresh ((a.drop 64).take 256)
  if cn > 4095 ∨ !allZero ((a.drop 2).take 62) ∨ !descFieldsOk cn c then (mbField, w)
  else
    match w.ctx? cn with
    | some _ => (mbState, w)
    | none =>
      let w' := w.setCtx cn c
      match chkRange w' cn .load c.save 4096 with
      | (.ok ks, _) =>
        let n := fld (w.bytes ks) 0 4
        if n = 0 ∨ n > 131072 then (mbField, w)
        else if grantConflict w.pk c then (mbConflict, w)
        else
          let w := (w'.mapPk (dropRecs cn)).each c.wsrs fun r w => zeroRange w cn r
          (mbSuccess, startHeader (zeroTasks w c) cn c)
      | _ => (mbField, w)

/-- Any CREATE before the negotiation is done ends with RESULT 3 (R7, R353). -/
def createCmd (negDone : Bool) : Command := if negDone then withArgs createArgs else fun w => (mbState, w)

def execCreate (s : State) : Host.Outcome State Fault Refusal := .next (s.run (runCommand 1 (createCmd s.neg.done)))

/-! ## DESTROY (R359, R360) -/

/-- Queues of the context stop with ERR; its parked launches are discarded. -/
def destroyQueues (w : Work) (cn : Nat) : Work :=
  let w := w.each (w.pk.queues.keysWhere fun _ q => q.ctx.toNat == cn) fun q w => queueErr w q (queueOf w.pk q)
  let mine := w.pk.launches.keysWhere fun _ l => l.ctx == cn
  w.mapPk fun p => { p with
    tasks := p.tasks.mapVals fun _ t => { t with parked := t.parked.filter fun l => !mine.contains l } }

/-- Launches end without completing: their blocks' groups are discarded, and nothing is counted. -/
def destroyLaunches (w : Work) (cn : Nat) : Work :=
  let mine := w.pk.launches.keysWhere fun _ l => l.ctx == cn
  let w := w.each (w.pk.blocks.keysWhere fun _ b => b.ctx == cn) fun u w => killBlockRec w u none
  let w := w.each mine fun ln w => freePending w ln
  w.mapPk fun p => { p with
    launches := p.launches.filter fun e => !mine.contains e.1
    blocks := p.blocks.filter fun e => e.2.ctx != cn
    items := p.items.filter fun e => !mine.contains e.2.lnch
    flows := p.flows.filter fun f => !mine.contains f.lnch
    seals := p.seals.filter fun r => r.ctx != cn
    armed := p.armed.filter fun a => a.ctx != cn }

/-- Engine requests, walks and collectives stop, with what the context holds besides. -/
def destroyEngines (w : Work) (cn : Nat) : Work :=
  let w := w.each (w.pk.colls.filter fun e => e.2.ctx == cn) fun e w => abortColl w e.1 e.2 e.2.self
  w.mapPk fun p => { dropRecs cn p with
    reqs := p.reqs.filter fun e => e.2.ctx != cn
    chans := p.chans.filter fun e => e.2.ctx != cn
    heldWalks := p.heldWalks.filter fun e => e.2.2.ctx != cn
    pins := p.pins.filter fun x => x.ctx != cn
    tlb := p.tlb.filter fun e => e.ctx != cn }

/-- The holder of weight-store bytes whose context has gone: no context's number. -/
def noHolder : Nat := 4096

/-- Every write of the context has landed: those of its accesses, and the status of its collectives. -/
def writesLanded (p : Package) (cn : Nat) : Bool :=
  !(p.txns.any fun e => e.2.ctx == cn) && !(p.colls.any fun e => e.2.ctx == cn)

/-- The context is free once every write of it has landed; what it held of the weight store was another context's for whichever
takes its number next (R360). -/
def freeCtx (p : Package) (cn : Nat) : Package :=
  match p.ctxs.find? cn with
  | some c =>
    if c.st = .draining ∧ writesLanded p cn then { p with
      ctxs := p.ctxs.erase cn
      wsHeld := p.wsHeld.map fun h => if h.1 = cn then (noHolder, h.2) else h }
    else p
  | none => p

/-- Draining contexts that have nothing outstanding become free. -/
def freeCtxs (p : Package) : Package := (p.ctxs.map Prod.fst).foldl freeCtx p

def destroyCmd : Command := fun w =>
  let a := argBytes w 0 64
  let cn := fld a 0 2
  if cn > 4095 ∨ !allZero (a.drop 2) then (mbField, w)
  else
    match w.ctx? cn with
    | some c =>
      if c.st ≠ .live then (mbState, w)
      else
        let w := destroyEngines (destroyLaunches (destroyQueues w cn) cn) cn
        let w := w.updCtx cn fun c => { c with st := .draining, pending := [] }
        (mbSuccess, w.mapPk fun p => freeCtx p cn)
    | none => (mbState, w)

def execDestroy (s : State) : Host.Outcome State Fault Refusal := .next (s.run (runCommand 2 (withArgs destroyCmd)))

/-! ## REACH (R361) -/

def reachOf (a : List Byte) : Reach := ⟨fld a 0 2, fld a 2 2, fld a 8 8, fld a 16 8, bitAt (fld a 4 1) 0 == 1⟩

def reachOk (a : List Byte) : Bool :=
  decide (fld a 2 2 ≤ 4095 ∧ fld a 4 1 < 4) && fld a 5 3 == 0 && fld a 8 8 % 4096 == 0 && fld a 16 8 % 4096 == 0 &&
    fld a 16 8 != 0 && allZero (a.drop 24)

/-- The range meets a device control space, which no entry covers (R354). -/
def meetsControl (base len : Nat) : Bool := inControlSpace (base + len - 1) || base % 2 ^ 44 + len > 0x0FFFFFC00000

def reachAddCmd : Command := fun w =>
  let a := argBytes w 0 64
  let e := reachOf a
  if !reachOk a ∨ meetsControl e.base e.len then (mbField, w)
  else if w.pk.reach.length ≥ 1024 then (mbFull, w)
  else (mbSuccess, w.mapPk fun p => { p with reach := p.reach ++ [e] })

def sameReach (a b : Reach) : Bool := a.domain == b.domain && a.target == b.target && a.base == b.base && a.len == b.len

def reachRemoveCmd : Command := fun w =>
  let a := argBytes w 0 64
  if !reachOk a then (mbField, w)
  else
    match w.pk.reach.findIdx? (sameReach (reachOf a)) with
    | some i => (mbSuccess, w.mapPk fun p => { p with reach := p.reach.eraseIdx i })
    | none => (mbField, w)

/-- Code 3 with the operation that the block's FLAGS give. -/
def reachCmd : Command := fun w => if bitAt (fld (argBytes w 0 64) 4 1) 1 = 1 then reachAddCmd w else reachRemoveCmd w

/-- A REACH whose FLAGS say add. -/
def execReachAdd (s : State) : Host.Outcome State Fault Refusal :=
  .next (if bitAt (fld (argBytes (Work.start s) 0 64) 4 1) 1 = 1 then s.run (runCommand 3 (withArgs reachCmd)) else s)

/-- A REACH whose FLAGS say remove. -/
def execReachRemove (s : State) : Host.Outcome State Fault Refusal :=
  .next (if bitAt (fld (argBytes (Work.start s) 0 64) 4 1) 1 = 1 then s else s.run (runCommand 3 (withArgs reachCmd)))

/-! ## PUBNEW (R277, R353) -/

/-- The object's fields within their values, with both backings on the package of PBASE, which is this one (log entry 70). -/
def pubFieldsOk (p : Package) (a : List Byte) : Bool :=
  fld a 0 8 % 2 ^ 21 == 0 && fld a 8 8 % 4096 == 0 && decide (1 ≤ fld a 8 8 ∧ fld a 8 8 ≤ 2 ^ 30) && fld a 16 8 % 4096 == 0 &&
    fld a 24 8 % 4096 == 0 && allZero ((a.drop 32).take 32) && decide (fld a 64 2 ≤ 4095) && allZero ((a.drop 66).take 6) &&
    fld a 72 8 % 64 == 0 && allZero (a.drop 80) && paPackage (fld a 0 8) == p.no && paPackage (fld a 16 8) == p.no &&
    paPackage (fld a 24 8) == p.no

def pubnewCmd : Command := fun w =>
  let a := argBytes w 0 128
  let b (obj : Nat) : Pub := ⟨fld a 0 8, fld a 8 8, fld a 16 8, fld a 24 8, obj⟩
  let live := match w.ctx? (fld a 64 2) with
    | some c => c.st == .live
    | none => false
  if !pubFieldsOk w.pk a then (mbField, w)
  else if !live then (mbState, w)
  else if w.pk.pubs.any fun x => x.pbase < fld a 0 8 + fld a 8 8 && fld a 0 8 < x.pbase + x.len then (mbConflict, w)
  else
    match chkGlobal w (fld a 64 2) .load (fld a 72 8) 64 64 with
    | (.ok ks, w) =>
      let w := w.write ks (a.take 64)
      (mbSuccess, w.mapPk fun p => { p with pubs := p.pubs ++ [b (ks.headD 0)] })
    | _ => (mbField, w)

def execPubnew (s : State) : Host.Outcome State Fault Refusal := .next (s.run (runCommand 4 (withArgs pubnewCmd)))

/-! ## GETID, ATTEST (R370) -/

/-- Bytes that rest on secrets or images outside the manual (log entry 4). -/
def attestedBytes (field n : Nat) (bs : List Byte) : List Byte := (List.range n).map fun i => Config.attested field i bs

def argPut (w : Work) (off : Nat) (bs : List Byte) : Work := w.write (keysFrom (w.pk.mbarg.toNat + off) bs.length) bs

def getidCmd : Command := fun w => (mbSuccess, argPut w 0 (attestedBytes 4 57 [] ++ valBytes 7 0))

def execGetid (s : State) : Host.Outcome State Fault Refusal := .next (s.run (runCommand 5 (withArgs getidCmd)))

/-- A reach entry in the layout of the REACH argument block, up to its last field (R353, R361; log entry 115). -/
def reachBytes (e : Reach) : List Byte :=
  valBytes 2 e.domain ++ valBytes 2 e.target ++ valBytes 4 (b2n e.write) ++ valBytes 8 e.base ++ valBytes 8 e.len

/-- The report but for its signature. -/
def reportBody (w : Work) (cn : Nat) (c : Ctx) (nonce : List Byte) : List Byte :=
  valBytes 4 1 ++ valBytes 2 cn ++ valBytes 2 w.pk.no ++ valBytes 8 w.pk.cycle.toNat ++ nonce ++ attestedBytes 0 64 []
    ++ attestedBytes 1 64 []
    ++ shake256 64 (c.desc ++ (w.pk.reach.filter fun e => e.domain == c.domain).flatMap reachBytes)
    ++ valBytes 16 (ctxNum c.st)

def attestCmd : Command := fun w =>
  let a := argBytes w 0 128
  let cn := fld a 0 2
  if cn > 4095 ∨ !allZero ((a.drop 2).take 62) then (mbField, w)
  else
    match w.ctx? cn with
    | none => (mbState, w)
    | some c =>
      let body := reportBody w cn c (a.drop 64)
      (mbSuccess, argPut w 128 (body ++ attestedBytes 3 114 body ++ valBytes 110 0))

def execAttest (s : State) : Host.Outcome State Fault Refusal := .next (s.run (runCommand 6 (withArgs attestCmd)))

/-- A write of MBCMD: the command of its low byte, or an unknown one. -/
def mailbox (negDone : Bool) (x : Nat) (w : Work) : Work :=
  match x % 256 with
  | 1 => runCommand 1 (createCmd negDone) w
  | 2 => runCommand 2 (withArgs destroyCmd) w
  | 3 => runCommand 3 (withArgs reachCmd) w
  | 4 => runCommand 4 (withArgs pubnewCmd) w
  | 5 => runCommand 5 (withArgs getidCmd) w
  | 6 => runCommand 6 (withArgs attestCmd) w
  | n => runCommand n (fun w => (mbUnknown, w)) w

end Sys2Proof.Machine
end

