-- ==== Sys2Proof/Machine/HostCmds.lean ====
section
/-!
DEFINITION. The host's registers and commands: work-queue windows (R305), fault control (R384 to R389, R395), the firmware
doorbell (R375), trials (R325), and plain writes of the device control space (R4, R354).
-/
namespace Sys2Proof.Machine

/-! ## Queue windows (R305) -/

def queueCount : Nat := 16384

/-- A write of QPROD through a view. -/
def writeProd (q : Nat) (view : QView) (v : W64) (w : Work) : Work :=
  let x := queueOf w.pk q
  if q ≥ queueCount then w
  else if x.en then setQueue w q { x with prod := v }
  else
    match view with
    | .sub => w
    | .priv => setQueue w q { x with prod := v, cons := v }

def execQprodWrite (q : Nat) (view : QView) (v : W64) (s : State) : Host.Outcome State Fault Refusal :=
  .next (s.run (writeProd q view v))

/-- Enabled queues of a context. -/
def queuesOn (p : Package) (cn : Nat) : Nat := (p.queues.filter fun e => e.2.en && e.2.ctx.toNat == cn).length

/-- The fields of a queue, its context and its quota allow EN. -/
def queueLegal (p : Package) (x : Queue) : Bool :=
  canonical x.base.toNat && x.base.toNat % 256 == 0 && isPow2 x.cap.toNat && decide (x.cap.toNat ≤ 65536 ∧ x.ctx.toNat ≤ 4095) &&
    match p.ctxs.find? x.ctx.toNat with
    | some c => c.st == .live && queuesOn p x.ctx.toNat < c.queueQuota
    | none => false

/-- Setting EN through the privileged window. -/
def enableQueue (q : Nat) (w : Work) : Work :=
  let x := queueOf w.pk q
  if q ≥ queueCount ∨ x.en then w
  else if queueLegal w.pk x then setQueue w q { x with en := true, err := false, paused := none }
  else queueErr w q x

def execQueueEnable (q : Nat) (s : State) : Host.Outcome State Fault Refusal := .next (s.run (enableQueue q))

def disableQueue (q : Nat) (w : Work) : Work :=
  let x := queueOf w.pk q
  if q ≥ queueCount then w else setQueue w q { x with en := false, paused := none }

def execQueueDisable (q : Nat) (s : State) : Host.Outcome State Fault Refusal := .next (s.run (disableQueue q))

/-- A write of a register of the privileged window. -/
def writeQueue (q off : Nat) (v : W64) (w : Work) : Work :=
  let x := queueOf w.pk q
  match off with
  | 0x00 => if x.en then w else setQueue w q { x with base := v }
  | 0x08 => if x.en then w else setQueue w q { x with cap := v }
  | 0x10 => writeProd q .priv v w
  | 0x20 => if x.en then w else setQueue w q { x with ctx := v }
  | 0x28 => if v.getLsbD 0 then enableQueue q w else disableQueue q w
  | _ => w

/-! ## Fault control (R384 to R388, R395) -/

def ctxLive (p : Package) (cn : Nat) : Bool :=
  match p.ctxs.find? cn with
  | some c => c.st == .live
  | none => false

/-- The context is live and FLNCH names a launch of it. -/
def fctlLaunch (w : Work) (cn : Nat) (f : Nat → Launch → Work → Work) : Work :=
  let ln := w.pk.flnch.toNat
  match w.launch? ln with
  | some l => if ctxLive w.pk cn ∧ l.ctx = cn then f ln l w else w
  | none => w

/-- ... and FBLOCK a block of it that has begun. -/
def fctlBlock (w : Work) (cn : Nat) (f : Nat → Block → Work → Work) : Work :=
  fctlLaunch w cn fun _ l w =>
    match blockAt w.pk l (w.pk.fblock.toNat % 2 ^ 32) with
    | some (u, b) => if b.stat = .begun then f u b w else w
    | none => w

/-- A launch leaves the list of its task (R310). -/
def unpark (w : Work) (ln : Nat) : Work :=
  w.mapPk fun p => { p with tasks := p.tasks.mapVals fun _ t => { t with parked := t.parked.filter (· != ln) } }

/-- The turn of a block that has ended and not been released becomes void: none of its entries is applied (R224). -/
def voidTurn (w : Work) (u turn : Nat) : Work :=
  let open_ (b : Block) : Bool := b.stat == .ended && decide (turn ≤ b.lin)
  w.onBlock u fun b w =>
    if open_ b then
      putSlot (w.updBlock u fun b => { b with det := b.det.map fun d => { d with void := true, entries := [] } }) u
    else w

/-- Every block of a launch is killed, placed or not, every turn not yet released is void, and one record tells of it (R386,
R224, R319). -/
def killLaunchOp (w : Work) (ln : Nat) (code : Code) : Work :=
  w.onLaunch ln fun l w =>
    if l.stat = .done ∨ l.stat = .killed then w
    else
      let w := w.each l.blocks fun u w => w.onBlock u fun b w => if b.stat = .begun then killBlockRec w u none else w
      let w := if l.det then w.each l.blocks fun u w => voidTurn w u l.turn else w
      let w := unpark (freePending w ln) ln
      let w := w.updLaunch ln fun l => { l with
        stat := .killed, fatal := true, broken := l.det, readyItems := [], turn := if l.det then l.blockCount else l.turn
        killRecs := l.killRecs ++ [bareRec code .f l.ctx ln 0 0] }
      w.mapPk fun p => { p with
        items := p.items.filter fun e => e.2.lnch != ln
        flows := p.flows.filter fun f => f.lnch != ln }

def killLaunch (cn : Nat) (w : Work) : Work := fctlLaunch w cn fun ln _ w => killLaunchOp w ln .killed

def execKillLaunch (ctx : BitVec 12) (s : State) : Host.Outcome State Fault Refusal := .next (s.run (killLaunch ctx.toNat))

/-- The lanes of a group's current split, and its PC. -/
def curLanes (g : Group) : Mask :=
  match g.splits with
  | s :: _ => s.lanes
  | [] => Mask.none

/-- The lowest group of a block that has not ended. -/
def lowestGroup (p : Package) (b : Block) : Option (Nat × Group) :=
  (b.left p).foldl
    (fun (a : Option (Nat × Group)) e => match a with
      | some x => if e.2.gidx < x.2.gidx then some e else a
      | none => some e) none

def stopOp (cn : Nat) (w : Work) : Work :=
  fctlBlock w cn fun u b w =>
    match lowestGroup w.pk b with
    | some (_, g) =>
      let r := groupRec w g .stop .s (curLanes g) (pcVa (g.pcOf (curLanes g))) 0 0
      stopBlock w u .stop { r with block := true } true
    | none => w

def execStopBlock (ctx : BitVec 12) (s : State) : Host.Outcome State Fault Refusal := .next (s.run (stopOp ctx.toNat))

def resumeOp (cn : Nat) (w : Work) : Work :=
  fctlBlock w cn fun u b w => if b.stopped.isSome ∧ !blockStays w b then resumeBlockOp w u else w

def execResumeBlock (ctx : BitVec 12) (s : State) : Host.Outcome State Fault Refusal := .next (s.run (resumeOp ctx.toNat))

def killOp (cn : Nat) (w : Work) : Work :=
  fctlBlock w cn fun u b w =>
    killBlockRec w u (some { blockRec w b with code := .killed, cls := .f, core := 0xFF, block := true })

def execKillBlock (ctx : BitVec 12) (s : State) : Host.Outcome State Fault Refusal := .next (s.run (killOp ctx.toNat))

/-- Arms a stop before a lane's counted instruction; the launch may be still to come. -/
def armStop (cn : Nat) (w : Work) : Work :=
  let p := w.pk
  let mine := match w.launch? p.flnch.toNat with
    | some l => l.ctx == cn
    | none => true
  if !ctxLive p cn || !mine then w
  else
    let b := p.fblock.toNat
    let a : Armed := ⟨cn, p.flnch.toNat, b % 2 ^ 32, b / 2 ^ 32 % 2 ^ 10, b / 2 ^ 42 % 2 ^ 3, p.fcount⟩
    w.mapPk fun p => { p with armed := p.armed ++ [a] }

def execStopAtCount (ctx : BitVec 12) (s : State) : Host.Outcome State Fault Refusal := .next (s.run (armStop ctx.toNat))

/-- FCTL by its operation. -/
def fctl (v : W64) (w : Work) : Work :=
  let cn := v.toNat % 2 ^ 12
  match v.toNat / 2 ^ 16 % 16 with
  | 1 => killLaunch cn w
  | 2 => stopOp cn w
  | 3 => resumeOp cn w
  | 4 => killOp cn w
  | 5 => armStop cn w
  | _ => w

/-- FRETRY retries every suspended access of a live context. -/
def fretry (v : W64) (w : Work) : Work :=
  let cn := v.toNat % 2 ^ 12
  if ctxLive w.pk cn then retry w cn fun _ => true else w

def execFretry (v : W64) (s : State) : Host.Outcome State Fault Refusal := .next (s.run (fretry v))

def fwbell (w : Work) : Work := w.mapPk fun p => { p with evword := p.evword ||| 1 }

def execFwbell (_v : W64) (s : State) : Host.Outcome State Fault Refusal := .next (s.run fwbell)

/-! ## Trials (R325) -/

def trialOk (d : List Byte) : Bool :=
  fld d 8 8 % 4 == 0 && fld d 16 8 % 4 == 0 && decide (fld d 8 8 < fld d 16 8 ∧ 2 ^ 10 ≤ fld d 24 4 ∧ 1 ≤ fld d 28 1 ∧
    fld d 29 1 ≤ 15) && fld d 30 2 == 0 && allZero ((d.drop 52).take 12)

/-- A write of TRIAL: the descriptor, at a physical address, starts a trial or is abandoned. -/
def startTrial (v : W64) (w : Work) : Work :=
  let a := v.toNat
  if w.pk.trial.isSome ∨ a % 64 ≠ 0 then w
  else
    let d := w.bytes (keysFrom a 64)
    if !trialOk d then w.putNum (a + 30) 2 3
    else
      let t : Trial := ⟨a, fld d 0 8, BitVec.ofNat 64 (fld d 8 8), BitVec.ofNat 64 (fld d 16 8), fld d 24 4, fld d 28 1,
        fld d 29 1, false, fld d 24 4, 0, 0⟩
      (w.putNum (a + 30) 2 1).mapPk fun p => { p with trial := some t }

def execTrial (v : W64) (s : State) : Host.Outcome State Fault Refusal := .next (s.run (startTrial v))

/-! ## Plain registers of the device control space (R4, R354, R384, R389) -/

/-- The watchpoint that WPSEL names; each of the 4,096 context numbers has four. -/
def setWatch (w : Work) (f : WatchPt → WatchPt) : Work :=
  let cn := w.pk.wpsel.toNat % 2 ^ 12
  let n := w.pk.wpsel.toNat / 2 ^ 12 % 4
  w.mapPk fun p => { p with wps := FMap.put p.wps ⟨0, 0, 0⟩ (4 * cn + n) (f (p.watchPt cn n)) }

/-- A 64-bit write of the device control page. -/
def writePage (negDone : Bool) (off : Nat) (v : W64) (w : Work) : Work :=
  match off with
  | 0x080 => startTrial v w
  | 0x100 => mailbox negDone v.toNat w
  | 0x108 => w.mapPk fun p => { p with mbarg := v }
  | 0x120 => fwbell w
  | 0x180 => fretry v w
  | 0x188 => w.mapPk fun p => { p with flnch := v }
  | 0x190 => w.mapPk fun p => { p with fblock := v &&& 0x1FFFFFFFFFFF }
  | 0x198 => fctl v w
  | 0x1A0 => w.mapPk fun p => { p with fcount := v }
  | 0x1C0 => w.mapPk fun p => { p with wpsel := v &&& 0x3FFF }
  | 0x1C8 => setWatch w fun x => { x with cfg := v &&& 0x3FFFE1F0F }
  | 0x1D0 => setWatch w fun x => { x with lo := v }
  | 0x1D8 => setWatch w fun x => { x with hi := v }
  | _ => w

/-- A write of an accepted-features register, while it may be written. -/
def writeAccepted (s : State) (k : Nat) (v : W64) : State :=
  if negOpen s then
    let old := s.neg.accepted &&& ~~~((BitVec.ofNat 256 (2 ^ 64 - 1)) <<< (64 * k))
    { s with neg := { s.neg with accepted := old ||| (v.zeroExtend 256) <<< (64 * k) } }
  else s

/-- A write to the device control space: aligned 64-bit stores only. -/
def registerWrite (off width : Nat) (v : W64) (s : State) : State :=
  if width ≠ 8 ∨ off % 8 ≠ 0 then s
  else if 0x020 ≤ off ∧ off ≤ 0x038 then writeAccepted s ((off - 0x020) / 8) v
  else if off = 0x040 then (if v.getLsbD 0 then commitOp s else s)
  else if off < 0x1000 then s.run (writePage s.neg.done off v)
  else if 0x100000 ≤ off ∧ off < 0x200000 then s.run (writeQueue ((off - 0x100000) / 64) (off % 64) v)
  else if 0x200000 ≤ off ∧ off < 0x300000 ∧ off % 64 = 0x10 then s.run (writeProd ((off - 0x200000) / 64) .sub v)
  else s

def execRegisterWrite (off width : Nat) (v : W64) (s : State) : Host.Outcome State Fault Refusal :=
  .next (registerWrite off width v s)

end Sys2Proof.Machine
end

