-- ==== Sys2Proof/Machine/Narrow.lean ====
section
/-!
DEFINITION. Class 2: scales, single elements and block images (R165 to R171).
-/
namespace Sys2Proof.Machine

def scencNeed (f : ScencF) (_ : View) : Need := { reads := [f.a.rd 1 1], writes := [f.d.wr 1] }
def scencBody (f : ScencF) (v : View) (w : Work) : Done :=
  writeFl w v f.d fun L => scencVal f.bf f.rnd (v.src f.a 1 L)

def execScenc (f : ScencF) (s : State) : Host.Outcome State Fault Refusal := issue s f.h (scencNeed f) (scencBody f)

def daNeed (f : DA) (_ : View) : Need := { reads := [f.a.rd 1 1], writes := [f.d.wr 1] }
def scdecBody (f : DA) (v : View) (w : Work) : Done := done (w.writeV v f.d 1 fun L => scdecVal (v.src f.a 1 L))

def execScdec (f : DA) (s : State) : Host.Outcome State Fault Refusal := issue s f.h (daNeed f) (scdecBody f)

def qntNeed (f : QntF) (_ : View) : Need := { reads := f.a.rd 1 1 :: f.b.rds 1, writes := [f.d.wr 1] }

/-- The scale byte of `qnt` and `dqnt`. -/
def qntScale (f : QntF) (v : View) (L : Fin 8) : Nat := v.bop f.b 1 fimmVal L % 256

def qntBody (f : QntF) (v : View) (w : Work) : Done :=
  writeFl w v f.d fun L => quantElem f.bf f.rnd (v.src f.a 1 L) (qntScale f v L)

def execQnt (f : QntF) (s : State) : Host.Outcome State Fault Refusal := issue s f.h (qntNeed f) (qntBody f)

def dqntBody (f : QntF) (v : View) (w : Work) : Done :=
  writeFl w v f.d fun L => elemTimesScale f.bf (v.src f.a 1 L % 2 ^ bfmtBits f.bf) (qntScale f v L) .f32 f.rnd

def execDqnt (f : QntF) (s : State) : Host.Outcome State Fault Refusal := issue s f.h (qntNeed f) (dqntBody f)

/-! ## Block images (R166) -/

/-- The 64 bytes of the image in the pair r, r + 1: eight from each lane position. -/
def imageBytes (g : Group) (r : Nat) : List Byte := laneList.flatMap fun L => valBytes 8 (g.value r 2 L)

/-- The readers of whole images read the pair in all eight positions; an instruction with no active lane reads nothing
(log entry 23). -/
def imageNeed (d : VDst) (a : VSrc) (v : View) : Need :=
  { reads := [{ a.rd 2 1 with who := some (if v.act.any then Mask.full else Mask.none) }], writes := [d.wr 1] }

def anyFmt (_ : BFmt) : Bool := true

/-- A check of the image under R139, then the effect with its bytes and format. -/
def withImage (v : View) (a : VSrc) (w : Work) (f : BFmt → List Byte → Done) : Done :=
  let bs := imageBytes v.grp a.r.toNat
  if !v.act.any then done w
  else match blockFmt bs anyFmt with
    | some b => f b bs
    | none => .trap .blkFmt v.act 0 0

def blkhdBody (f : DA) (v : View) (w : Work) : Done :=
  withImage v f.a w fun b bs =>
    done (w.writeV v f.d 1 fun _ => (bs.getD 1 0).toNat * 2 ^ 16 + bfmtNum b * 2 ^ 8 + bfmtCount b)

def execBlkhd (f : DA) (s : State) : Host.Outcome State Fault Refusal := issue s f.h (imageNeed f.d f.a) (blkhdBody f)

def amaxBody (f : BlkAmaxF) (v : View) (w : Work) : Done :=
  withImage v f.a w fun b bs => writeFl w v f.d fun _ => blockAmax b bs f.rnd

def execAmax (f : BlkAmaxF) (s : State) : Host.Outcome State Fault Refusal :=
  issue s f.h (imageNeed f.d f.a) (amaxBody f)

def blkmkNeed (f : BlkmkF) (_ : View) : Need := { reads := f.a.rd 2 1 :: f.b.rds 1 2, writes := [f.d.wr 2] }

/-- R170: format code and scale into lane 0, zeros into the last two bytes of lane 7. -/
def blkmkBody (f : BlkmkF) (v : View) (w : Work) : Done :=
  let s := v.uni f.b 1 % 256
  done (w.writeV v f.d 2 fun L =>
    let x := v.src f.a 2 L
    if L = 0 then x / 2 ^ 16 * 2 ^ 16 + s * 2 ^ 8 + bfmtCode f.bf
    else if L = 7 then x % 2 ^ 48 else x)

def execBlkmk (f : BlkmkF) (s : State) : Host.Outcome State Fault Refusal := issue s f.h (blkmkNeed f) (blkmkBody f)

end Sys2Proof.Machine
end

