-- ==== Sys2Proof/Machine/Watch.lean ====
section
/-!
DEFINITION. The next instruction of a group as the machine finds it (R50, R66, R362), and the two stops that come before
it issues: watchpoints (R389, R390) and armed stops (R395).
-/
namespace Sys2Proof.Machine

/-! ## The next instruction -/

/-- What stands at a code address: an instruction, a word that is none, or a fetch that the tables do not allow. -/
inductive Fetched where
  | instr (i : Instr)
  | illegal (e : DecodeError)
  | fault (c : Chk)
  deriving DecidableEq, Repr

/-- A word that may follow a first word: its lowest cases for a `switch`, and the mask word that names nothing. -/
def plainAux (f : Fields) : BitVec 96 :=
  if f.isSwitch then
    let k (i : Nat) : BitVec 10 := if i ≤ f.mod / 16 % 8 then BitVec.ofNat 10 i else 0
    BitVec.ofNat 96 (caseWord ⟨k 0, k 1, k 2, k 3, k 4, k 5, k 6, k 7⟩)
  else BitVec.ofNat 96 (maskWord ⟨false, false, false, false, 0, 0, 0, 0, 0⟩)

/-- Whether the next word belongs to the instruction, as its mask word or case word. A first word that is no instruction
whatever follows it has none: it is illegal by itself (R66, R67). -/
def hasAux (x : BitVec 96) : Bool :=
  let f := fieldsOf x.toNat
  (f.sp == 1 || f.isSwitch) && (decode x (plainAux f)).toOption.isSome

/-- Fetches and decodes at a code address. -/
def fetchInstr (w : Work) (g : Group) (pc : PC) : Fetched :=
  match fetchWord w g pc with
  | .error c => .fault c
  | .ok x =>
    let aux := if hasAux x then fetchWord w g (pcPlus pc 1) else .ok 0
    match aux with
    | .error c => .fault c
    | .ok a =>
      match decode x a with
      | .ok i => .instr i
      | .error e => .illegal e

/-- The code address of a group's current split. -/
def Group.nextPc (g : Group) : PC :=
  match g.splits with
  | s :: _ => g.pcOf s.lanes
  | [] => 0

def headerOf (i : Instr) : Hdr := i.hdr.getD ⟨false, 7, 0, none⟩

/-- The needs of an instruction; an event has none. -/
def instrNeed (i : Instr) (v : View) : Need :=
  match i with
  | .iadd f | .isub f | .imul f | .imulh f | .idiv f | .irem f | .imin f | .imax f | .and f | .or f | .xor f
  | .shl f | .shr f | .sar f | .bfx f => ibinNeed f v
  | .imad f | .bfi f => itriNeed f v
  | .iabs f | .not f | .brev f | .mov f => iunNeed f (regsOf f.ty) v
  | .popc f | .clz f => iunNeed f 1 v
  | .lea f => leaNeed f v
  | .icmp f => icmpNeed f v
  | .sel f => selNeed f v
  | .movi f => movisNeed f v
  | .cvti f => cvtiNeed f v
  | .rng f => rngNeed f v
  | .fadd f | .fsub f | .fmul f | .fmin f | .fmax f | .fdiv f | .fscl f => fbinNeed f v
  | .ffma f => ftriNeed f v
  | .fabs f | .fneg f | .fclass f | .frcp f | .frsq f | .fsqrt f | .fexp2 f | .flog2 f | .ftanh f | .frnd f =>
    funNeed f v
  | .fcmp f => fcmpNeed f v
  | .cvtf f => cvtfNeed f v
  | .cvtif f => cvtifNeed f v
  | .cvtfi f => cvtfiNeed f v
  | .scenc f => scencNeed f v
  | .scdec f => daNeed f v
  | .blkhd f | .amax f => imageNeed f.d f.a v
  | .blkmk f => blkmkNeed f v
  | .qnt f | .dqnt f => qntNeed f v
  | .qswh f => exchNeed (.xor 1) f v
  | .qswv f => exchNeed (.xor 2) f v
  | .qswd f => exchNeed (.xor 3) f v
  | .qbc f => exchNeed .quad f v
  | .shfl f => exchNeed .idx f v
  | .shflx f => exchNeed .xorB f v
  | .shfld f => exchNeed .down f v
  | .gbc f => exchNeed .one f v
  | .ballot f => ballotNeed f v
  | .gred f | .gscan f => redNeed f v
  | .vmatch f => matchNeed f v
  | .actm f => actmNeed f v
  | .unif f => unifNeed f v
  | .rds f => rdsNeed f v
  | .brx f | .ret f => brxNeed f v
  | .call f => callNeed f v
  | .switch f => switchNeed f v
  | .sleep f => sleepNeed f v
  | .ld f | .ldl f | .ldp f | .ldw f => memNeed f true v
  | .st f | .stl f | .stp f | .stord f | .outq f => memNeed f false v
  | .prf f | .pin f | .unpin f => lineNeed f v
  | .aadd f => atomNeed 0 f v
  | .amin f => atomNeed 1 f v
  | .amaxAtomic f => atomNeed 2 f v
  | .aand f => atomNeed 3 f v
  | .aor f => atomNeed 4 f v
  | .axor f => atomNeed 5 f v
  | .axch f => atomNeed 6 f v
  | .acas f => atomNeed 7 f v
  | .ainc f => atomNeed 8 f v
  | .ared f => atomNeed 9 f v
  | .refinc f | .refdec f => refNeed f v
  | .hexp f => hexpNeed f v
  | .himp f => huniNeed f 3 v
  | .aflush _ => { feature := some 0 }
  | .frec f => frecNeed f v
  | .cpyk f => cpykNeed f v
  | .arrx f => arrxNeed f v
  | .bwait f => bwaitNeed f v
  | .chain f => chainNeed f v
  | .pub f => huniNeed f 8 v
  | .mxld f => mxldNeed f v
  | .mxkv f => mxkvNeed f v
  | .mxmul f => mxmulNeed f v
  | .mxz f => mxzNeed f v
  | .mxrd f => mxrdNeed f v
  | .mxwr f => mxwrNeed f v
  | .mxsv f | .mxrs f => mxsvNeed f v
  | .launch f => launchNeed f v
  | .lwait f => lwaitNeed f v
  | .relabel f => relabelNeed f v
  | .itemid f => itemidNeed f v
  | .idone _ | .tkt _ | .tkrel _ => itemsNeed v
  | .ienq f => ienqNeed f v
  | .xacq _ | .xrel _ => { feature := some 9 }
  | .fset f | .fclr f => fbitNeed f v
  | .ftake f => ftakeNeed f v
  | .ftest f => ftestNeed f v
  | .nacq _ | .nrel _ | .nlook _ | .frys _ => ferryNeed v
  | .fry f => fryNeed f v
  | .rdcc f => { writes := f.d.wrs 2 }
  | .trmk _ => { feature := some 7 }
  | .coll f | .collw f => huniNeed2 f.a v
  | .mcst f => mcstNeed f v
  | .vany _ | .vall _ | .elect _ | .helper _ | .sadd _ | .ssub _ | .smul _ | .sand _ | .sor _ | .sxor _ | .sshl _
  | .sshr _ | .scmp _ | .smov _ | .smovi _ | .sld _ | .sst _ | .smin _ | .smax _ | .sabs _ | .sneg _ | .snot _
  | .ssar _ | .spopc _ | .sclz _ | .sbrev _ | .smulh _ | .bra _ | .join _ | .waitj _ | .jrd _ | .jwr _ | .yield _
  | .exit _ | .brk _ | .trap _ | .nop _ | .fence _ | .hfork _ | .hjoin _ | .hwait _ | .bar _ | .bara _ | .barw _
  | .gbar _ | .chst _ | .mxq _ | .pmrd _ | .sysrd _ | .syswr _ | .tlbinv _ | .halt _
  | .quantumExpiry _ | .splitWaitEnd _ _ | .sleepWake _ _ | .loadDataReturn _ _ | .atomicAtHomeSlice _ _
  | .atomicReturn _ _ | .storePerform _ _ | .outqPush _ | .ienqPush _ | .remotePacketArrival _
  | .remoteAccessFailure _ _ _ | .backInvalidate _ | .pinRevoked _ | .mxCommandExecute _ _ | .xacqGrant _ _
  | .xacqSwapOut _ _ | .startGateApply _ | .copyRequestAccept _ _ | .land _ | .copyFault _ _ | .chainRecord _ _
  | .collectiveCommit _ _ | .collectiveAbort _ _ | .collectiveTimeout _ _ | .ferryDelivery _ | .ferryApply _ _
  | .ferryAck _ _ | .queueRecordTake _ | .launchEntryTake _ | .blockPlace _ _ | .groupRestore _ _
  | .parentSwapOut _ | .lwaitReread _ _ | .launchComplete _ | .watchdog _ | .launchTime _ | .itemTake _
  | .itemGroupStart _ _ _ | .atomicItemAdmit _ | .gateReached _ _ | .streamComplete _ | .dispatcherRetry _
  | .asyncFaultDelivery _ | .faultRingWrite _ | .pageReplay _ | .preemptTimeout _ | .groupSave _
  | .migration _ _ | .contextRunsWrite _ | .mogulWindowEnd | .commit | .create | .destroy | .reachAdd
  | .reachRemove | .pubnew | .getid | .attest | .trial _ | .fretry _ | .killLaunch _ | .stopBlock _
  | .resumeBlock _ | .killBlock _ | .stopAtCount _ | .fwbell _ | .qprodWrite _ _ _ | .queueEnable _
  | .queueDisable _ | .registerWrite _ _ _ | .watch _ _ | .uncorrectableError _ | .correctedError | .dieLost _
  | .portFailure _ _ | .packageReset | .promiseMiss _ _ | .liftLineSlotRetire _ _ => {}

/-! ## Watchpoints (R390) -/

/-- A range an instruction reads or writes: where, how much, and whether it reads and writes. -/
structure Touch where
  lo : Nat
  n : Nat
  rd : Bool
  wr : Bool
  deriving DecidableEq, Repr

/-- Ranges [x, x + n) of the active lanes. -/
def laneTouches (v : View) (m : MemRef) (n : Nat) (rd wr : Bool) : List Touch := v.act.lanes.map fun L => ⟨v.ea m L, n, rd, wr⟩

/-- The local bytes of an instruction that TYPE 1 watches. -/
def localTouches (i : Instr) (v : View) : List Touch :=
  let atom (f : AtomF) : List Touch := if f.loc then laneTouches v f.mem (akindBytes f.ty) true true else []
  match i with
  | .ldl f => laneTouches v f.mem (widthBytes f.width) true false
  | .stl f => laneTouches v f.mem (widthBytes f.width) false true
  | .aadd f | .amin f | .amaxAtomic f | .aand f | .aor f | .axor f | .axch f | .acas f | .ainc f | .ared f => atom f
  | .mxkv f => [⟨v.uni f.a 1, 64 * 1024, true, false⟩]
  | .mxmul f =>
    match f.src with
    | .mem a => [⟨v.uni a 1, 64 * (rowCount f * (if f.kind = .bf16 then 16 else 8)), true, false⟩]
    | .region _ => []
  | _ => []

/-- The accumulator entries of an instruction that TYPE 2 watches: region name and range. -/
def entryTouches (i : Instr) : List (Nat × Touch) :=
  match i with
  | .mxmul f =>
    (f.d.toNat, ⟨0, rowCount f * 64 * (maskNames 8 f.banks.toNat).length, false, true⟩) ::
      match f.src with
      | .region r => [(r.toNat, ⟨0, 480 * rowCount f, true, false⟩)]
      | .mem _ => []
  | .mxz f => [(f.d.toNat, ⟨0, 4096, false, true⟩)]
  | .mxrd f => [(f.a.toNat, ⟨f.e0.toNat, 8 * (f.n.toNat + 1), true, false⟩)]
  | .mxwr f => [(f.d.toNat, ⟨f.e0.toNat, 8 * (f.n.toNat + 1), false, true⟩)]
  | .mxsv f => (maskNames 16 f.regions.toNat).map fun r => (r, ⟨0, 4096, true, false⟩)
  | .mxrs f => (maskNames 16 f.regions.toNat).map fun r => (r, ⟨0, 4096, false, true⟩)
  | _ => []

/-- The registers of an instruction that TYPE 3 watches. -/
def regTouches (n : Need) : List Touch :=
  n.reads.map (fun x => ⟨x.r, x.n, true, false⟩) ++ n.writes.map fun x => ⟨x.r, x.n, false, true⟩

/-- The first number of a range, or of the watched range, that both hold. -/
def WatchPt.meets (x : WatchPt) (t : Touch) : Option Nat :=
  let on := (x.cfg.getLsbD 2 && t.rd) || (x.cfg.getLsbD 3 && t.wr)
  let a := max t.lo x.lo.toNat
  if on && decide (a < t.lo + t.n ∧ a ≤ x.hi.toNat) then some a else none

def WatchPt.field (x : WatchPt) (lo n : Nat) : Nat := x.cfg.toNat / 2 ^ lo % 2 ^ n

/-- What a watchpoint finds in an instruction. -/
def WatchPt.matched (x : WatchPt) (g : Group) (i : Instr) (v : View) : Option Nat :=
  match x.field 0 2 with
  | 1 => (localTouches i v).findSome? x.meets
  | 2 => ((entryTouches i).filter fun e => e.1 == x.field 8 5).findSome? fun e => x.meets e.2
  | 3 =>
    if x.field 26 8 = g.core ∧ x.field 17 9 = g.part * 128 + g.slot then (regTouches (instrNeed i v)).findSome? x.meets else none
  | _ => none

/-- The view of an instruction of a group. -/
def viewAt (w : Work) (gi : Nat) (i : Instr) : Option View :=
  viewOf { w with pk := { w.pk with cur := gi } } (headerOf i) i.words

/-- The view of an instruction that the group would issue now, with nothing left to wait for (R67). -/
def wouldIssue (neg : Negotiation) (w : Work) (gi : Nat) (i : Instr) : Option View :=
  match viewAt w gi i with
  | some v => if (preIssue (gateOpen neg v (instrNeed i v)) v (instrNeed i v)).isNone then some v else none
  | none => none

/-- The group's next word is an instruction of a feature that is not accepted, whatever follows it (R9, R67). -/
def featureOff (neg : Negotiation) (w : Work) (gi : Nat) (g : Group) : Bool :=
  match fetchWord w g g.nextPc with
  | .ok x =>
    match decode x (plainAux (fieldsOf x.toNat)) with
    | .ok i => match viewAt w gi i with
      | some v => !gateOpen neg v (instrNeed i v)
      | none => false
    | .error _ => false
  | .error _ => false

/-- The watchpoint n of a group's context matches its next instruction: the view and the number matched. A comparator
to be skipped once matches nothing; nor does an instruction without an active lane. -/
def watchHit (neg : Negotiation) (w : Work) (gi : Nat) (g : Group) (i : Instr) (n : Nat) : Option (View × Nat) :=
  if g.skipWatch.contains (n, g.nextPc) then none
  else
    match wouldIssue neg w gi i with
    | some v => if v.act.any then ((w.pk.watchPt g.ctx n).matched g i v).map fun a => (v, a) else none
    | none => none

/-- The block stops before the instruction issues, and the comparator is skipped once after the resume. -/
def watchStop (w : Work) (gi : Nat) (g : Group) (n : Nat) (v : View) (a : Nat) : Work :=
  let w := w.updGroup gi fun g => { g with skipWatch := (n, v.pc) :: g.skipWatch }
  stopBlock w g.blk .watch (groupRec w g .watch .s v.act (pcVa v.pc) (BitVec.ofNat 64 a) n) true

def watch (neg : Negotiation) (gi n : Nat) (w : Work) : Work :=
  w.onGroup gi fun g w =>
    match fetchInstr w g g.nextPc with
    | .instr i =>
      match watchHit neg w gi g i n with
      | some (v, a) => watchStop w gi g n v a
      | none => w
    | _ => w

def execWatch (g : Nat) (n : Fin 4) (s : State) : Host.Outcome State Fault Refusal := .next (s.run (watch s.neg g n.val))

/-! ## Armed stops (R395) -/

/-- The armed stop that the group's next instruction would pass: its lane is active and has issued its count. -/
def armedHit (neg : Negotiation) (w : Work) (gi : Nat) (g : Group) (i : Instr) : Option (Armed × View) :=
  match w.block? g.blk, wouldIssue neg w gi i with
  | some b, some v =>
    (w.pk.armed.find? fun (a : Armed) => a.ctx == g.ctx && a.lnch == g.lnch && a.lin == b.lin && a.gidx == g.gidx &&
      laneList.any fun L => L.val == a.lane && v.act.get L && (g.lane L).issued == a.count.toNat).map fun a => (a, v)
  | _, _ => none

/-- The stop fires: the record names the group and the lane. -/
def armedStop (w : Work) (g : Group) (a : Armed) (v : View) : Work :=
  let w := w.mapPk fun p => { p with armed := p.armed.erase a }
  let lane : Mask := Lanes.ofFn fun L => L.val == a.lane
  stopBlock w g.blk .stop (groupRec w g .stop .s lane (pcVa v.pc) 0 0) true

end Sys2Proof.Machine
end

