-- ==== Sys2Proof/Machine/Waits.lean ====
section
/-!
DEFINITION. The events of a group that stands at an instruction: the end of a split's quantum and of its waits (R25, R26,
R70, R72, R87), the retry of a suspended access (R385), and the delivery of pending records (R380, R382).
-/
namespace Sys2Proof.Machine

/-! ## Quantum (R72) -/

def quantum : Nat := 64

def quantumExpiry (gi : Nat) (w : Work) : Work :=
  w.updGroup gi fun g =>
    match g.splits with
    | s :: _ => if s.quant ≥ quantum ∧ g.stat ≠ .saved then g.switchPoint s.lanes else g
    | [] => g

def execQuantumExpiry (g : Nat) (s : State) : Host.Outcome State Fault Refusal := .next (s.run (quantumExpiry g))

/-! ## The end of a wait -/

/-- The listed registers satisfy a test in every listed lane that still runs. -/
def regsAre (g : Group) (rs : List (Nat × Byte)) (f : VReg → Mask → Bool) : Bool :=
  rs.all fun e => f (g.reg e.1) (Mask.inter (Mask.ofByte e.2) g.running)

/-- An access of a chain finds a free slot and a sequence number again. -/
def liftOver (p : Package) (g : Group) : Bool := (freeSlot p g.core).isSome && g.chains.all fun c => c.2.seq + 1 < 2 ^ 21

/-- The item may go on at its place: it has passed or holds its turn (R350). -/
def turnOver (p : Package) (n : Nat) : Bool :=
  match p.items.find? n with
  | some i => i.passed || holdsTurn p n i
  | none => true

/-- The gang member with a linear index has started, or will not, and does not stand saved. -/
def memberHere (p : Package) (g : Group) (lin : Nat) : Bool :=
  match p.launches.find? g.lnch with
  | some l => match blockAt p l lin with
    | some (_, b) => b.section_.isNone
    | none => false
  | none => true

/-- The STATUS of a collective's record is set, or cannot be read. -/
def collOver (w : Work) (cn : Nat) (a : W64) : Bool :=
  match readVirt w cn a.toNat 128 with
  | some r => fld r 40 4 != 0
  | none => true

/-- Whether a wait of group gi is over. The waits that end by an event of their own are not. -/
def waitOver (w : Work) (gi : Nat) (g : Group) (k : Wait) : Bool :=
  let p := w.pk
  match k with
  | .full rs => regsAre g rs fun x m => m.subset x.full
  | .idle rs => regsAre g rs fun x m => !(Mask.inter m x.pend).any
  | .txnRoom => decide ((groupEntries p gi).length < 32 ∧ partTxns p g.core g.part < 1024)
  | .mxRoom => (mxUnit p g.core g.part).queue.length < mxDepth
  | .liftRoom => liftOver p g
  | .engineRoom n => engineHolds p g.core + n ≤ engineSize
  | .launchRoom => g.plq.length < 4
  | .resultRoom items => resultRoom p g.core items.length || items.any fun n => !itemHolds p n
  | .txn t => (p.txns.find? t).isNone
  | .xacqTurn => g.xreq.isNone
  | .barRoom n => !arriveBlocked p g n
  | .bar n v | .barw n v => barrierPassed p g n v
  | .arrivals key => fld (w.bytes (keysFrom key 32)) 8 4 != 0
  | .bwait key v _ _ => barPhasePassed (w.bytes (keysFrom key 32)) v
  | .chanIdle core c => !(chanOf p core c).busy
  | .admission n => match p.items.find? n with
    | some i => i.admitted
    | none => true
  | .turn n => turnOver p n
  | .chainIdle h => (chainOpen p gi h).isEmpty
  | .performed r => r.met p
  | .returned ts => ts.all fun t => (p.txns.find? t).isNone
  | .member lin => memberHere p g lin
  | .refresh ds => !ds.contains (p.cycle.toNat / 2048 % 32)
  | .region die lo hi => !regionWait p g.lnch (die, lo, hi)
  | .collw a => collOver w g.ctx a
  | .pub obj h => pubReady p g obj h
  | .halt => p.evword != 0
  | .inval ts _ _ _ pins _ => invalOver p ts pins
  | .flowRoom labels => flowsFit p g.lnch labels
  | .sleep _ | .xacq | .lwait .. => false

/-- The barrier of a waiting `bwait` holds an error, which its instruction raises (R268). -/
def waitFails (w : Work) (g : Group) (s : Split) : Option (Code × Nat × Nat) :=
  match s.cond with
  | .blocked (.bwait key _ _ loc) =>
    let b := w.bytes (keysFrom key 32)
    if barErr b ∧ g.stat = .resident ∧ (g.handler.isNone ∨ g.mayIssue { s with cond := .ready }) then
      some (barFault w key b loc.toNat)
    else none
  | _ => none

/-- After a wait: a barrier's end is an acquire (R258), and that of an invalidation has the accesses it covers retried
(R374, R385). -/
def afterWait (w : Work) (gi : Nat) (k : Wait) : Work :=
  match k with
  | .bar n v | .barw n v => acquirePhase w gi n v
  | .inval _ cn va len _ _ => retry w cn (inRange va len)
  | _ => w

/-- The waits of a saved group stay as they are, and those of a parent while it is swapped out: what would end them makes the
group restorable (R334). -/
def Group.waitsStay (g : Group) : Bool :=
  match g.stat with
  | .saved => true
  | .saving _ => g.saveKind == .parentSwap
  | .resident => false

def splitWaitEnd (gi k : Nat) (w : Work) : Work :=
  w.onGroup gi fun g w =>
    match g.splits[k]? with
    | none => w
    | some s =>
      match s.cond with
      | .blocked x =>
        if g.waitsStay then w
        else if waitOver w gi g x then afterWait (w.updGroup gi fun g => g.finishSplit k) gi x
        else
          match waitFails w g s with
          | some (code, addr, info) => failWait w gi k code addr info
          | none => w
      | _ => w

def execSplitWaitEnd (g sp : Nat) (s : State) : Host.Outcome State Fault Refusal := .next (s.run (splitWaitEnd g sp))

/-- The cycle counter has reached a sleeper's value. -/
def sleepWake (gi k : Nat) (w : Work) : Work :=
  w.updGroup gi fun g =>
    match g.splits[k]? with
    | some s =>
      match s.cond with
      | .blocked (.sleep t) => if t.toNat ≤ w.pk.cycle.toNat ∧ !g.waitsStay then g.finishSplit k else g
      | _ => g
    | none => g

def execSleepWake (g sp : Nat) (s : State) : Host.Outcome State Fault Refusal := .next (s.run (sleepWake g sp))

/-! ## Suspended accesses (R385) -/

/-- The access is retried: the instruction is executed again whole. A group whose record has found the pending list full stays
until it has been written (R383). -/
def pageReplay (gi : Nat) (w : Work) : Work :=
  w.updGroup gi fun g =>
    if g.replay ∧ g.stat ≠ .saved ∧ !groupStays w g then { g with susp := none, replay := false } else g

def execPageReplay (g : Nat) (s : State) : Host.Outcome State Fault Refusal := .next (s.run (pageReplay g))

/-! ## Pending records (R380, R382, R388) -/

/-- The record is that of a watchdog stop whose lead group has been restored to take it. -/
def leadTakes (p : Package) (gi : Nat) (g : Group) (r : Rec) : Bool :=
  r.code == .watchdog && g.saveReq.isNone && match p.blocks.find? g.blk with
    | some b => b.lead == some gi
    | none => false

/-- The group stands at an instruction boundary where a pending record is delivered. -/
def takesRecord (p : Package) (gi : Nat) (g : Group) (r : Rec) : Bool :=
  g.stat == .resident && g.handler.isNone && g.susp.isNone && !sldPending p gi &&
    (!groupStopped p gi g || leadTakes p gi g r)

/-- The first pending record is delivered; its PC is the instruction that the group would issue next. -/
def asyncDelivery (gi : Nat) (w : Work) : Work :=
  w.onGroup gi fun g w =>
    match g.pendA with
    | [] => w
    | r :: rs =>
      if takesRecord w.pk gi g r then
        deliver (w.updGroup gi fun g => { g with pendA := rs }) gi { r with pc := pcVa g.nextPc, hmode := false } true
      else w

def execAsyncFaultDelivery (g : Nat) (s : State) : Host.Outcome State Fault Refusal := .next (s.run (asyncDelivery g))

/-! ## The watchdog and the launch time limit (R318, R319, R388) -/

/-- The first lane of a block whose count has reached its budget: by group index, then by lane. -/
def overBudget (w : Work) (b : Block) : Option (Group × Fin 8) :=
  match w.ctx? b.ctx with
  | none => none
  | some c =>
    let gs := sortBy (fun x y => decide (x.gidx ≤ y.gidx)) ((b.left w.pk).map Prod.snd)
    gs.findSome? fun g => (laneList.find? fun L => (g.lane L).wd ≥ c.wdog).map fun L => (g, L)

/-- The stop of a block by its watchdog: to the lead group's handler, or to the host. -/
def watchdog (blk : Nat) (w : Work) : Work :=
  w.onBlock blk fun b w =>
    if b.stat ≠ .begun ∨ b.stopped.isSome then w
    else
      match overBudget w b, lowestGroup w.pk b with
      | some (g, L), some (li, lead) =>
        let m := curLanes lead
        let r := groupRec w lead .watchdog .s m (pcVa (lead.pcOf m)) (pcVa (g.lane L).pc) (g.gidx + 1024 * L.val)
        if hasHandler w b.ctx && lead.handler.isNone then
          let w := (stopBlock w blk .watchdog r false).updBlock blk fun b => { b with lead := some li }
          updPend w li fun l => r :: l
        else stopBlock w blk .watchdog r true
      | _, _ => w

def execWatchdog (b : Nat) (s : State) : Host.Outcome State Fault Refusal := .next (s.run (watchdog b))

def launchTime (ln : Nat) (w : Work) : Work :=
  w.onLaunch ln fun l w =>
    match (w.ctx? l.ctx).bind Ctx.ltime with
    | some t => if l.placed ∧ l.cycles ≥ t then killLaunchOp w ln .launchTime else w
    | none => w

def execLaunchTime (l : Nat) (s : State) : Host.Outcome State Fault Refusal := .next (s.run (launchTime l))

end Sys2Proof.Machine
end

