-- ==== Sys2Proof/Machine/Errors.lean ====
section
/-!
DEFINITION. What happens to the machine: fault rings (R383, R368), soft errors (R391, R392), lost dies and ports (R393,
R394), package reset (R7), the windows of a trial (R325) and the retirement of lift-line slots (R248).
-/
namespace Sys2Proof.Machine

/-! ## The fault ring (R383, R368) -/

/-- The header keeps its layout. -/
def ringLegal (h : List Byte) : Bool :=
  fld h 0 8 % 64 == 0 && isPow2 (fld h 8 4) && allZero ((h.drop 12).take 4) && allZero (h.drop 40)

def ringRoom (h : List Byte) : Bool := (fld h 16 8 + 2 ^ 64 - fld h 24 8) % 2 ^ 64 < fld h 8 4

/-- The drops that the header does not yet count. -/
def flushDrops (w : Work) (cn : Nat) (hk : List Nat) : Work :=
  w.onCtx cn fun c w =>
    if c.drops = 0 then w
    else
      let n := (fld (w.bytes hk) 32 8 + c.drops) % 2 ^ 64
      (w.write ((hk.drop 32).take 8) (valBytes 8 n)).updCtx cn fun c => { c with drops := 0 }

/-- The ring counts as full: the notices that wait are dropped and counted. -/
def dropNotices (w : Work) (cn : Nat) : Work :=
  w.updCtx cn fun c =>
    let n := (c.pending.filter fun r => r.cls == .n).length
    { c with pending := c.pending.filter (fun r => r.cls != .n), drops := c.drops + n }

/-- A record takes its place in the ring, FPROD counts it, and the MSI follows. -/
def putRecord (w : Work) (cn : Nat) (c : Ctx) (hk : List Nat) (r : Rec) : Option Work :=
  let h := w.bytes hk
  match writeVirt w cn ((fld h 0 8 + 64 * (fld h 16 8 % fld h 8 4)) % 2 ^ 64) (r.bytes true) with
  | none => none
  | some w =>
    let w := w.write ((hk.drop 16).take 8) (valBytes 8 ((fld h 16 8 + 1) % 2 ^ 64))
    let w := w.updCtx cn fun c => { c with pending := c.pending.drop 1 }
    some (w.mapPk fun p => { p with msis := (BitVec.ofNat 64 c.hmsi, BitVec.ofNat 32 c.hmsid) :: p.msis })

/-- One try of the ring of a context: the oldest record that waits, and the drops. -/
def ringTry (cn : Nat) (w : Work) : Work :=
  w.onCtx cn fun c w =>
    if c.pending.isEmpty ∧ c.drops = 0 then w
    else
      match chkRange w cn .store c.fring 64 with
      | (.ok hk, w) =>
        let h := w.bytes hk
        let put : Option Work := match c.pending with
          | r :: _ => if ringLegal h && ringRoom h then putRecord w cn c hk r else none
          | [] => some w
        match put with
        | some w => flushDrops w cn hk
        | none => flushDrops (dropNotices w cn) cn hk
      | _ => dropNotices w cn

def execFaultRingWrite (ctx : Nat) (s : State) : Host.Outcome State Fault Refusal := .next (s.run (ringTry ctx))

/-! ## Soft errors (R391, R392) -/

/-- A unit fails at each read from now on. -/
def markBad (w : Work) (k : Nat) : Work :=
  if w.pk.badUnits.contains (k / 8 * 8) then w else w.mapPk fun p => { p with badUnits := k / 8 * 8 :: p.badUnits }

/-- The block of a group is killed by an error of the kind given, at a physical address where the place has one. -/
def killByError (w : Work) (gi kind addr : Nat) : Work :=
  w.onGroup gi fun g w => killBy w g.blk (groupRec w g .dataLost .f Mask.none 0 (BitVec.ofNat 64 addr) kind)

/-- The physical address of a group's save image. -/
def imageAddr (w : Work) (g : Group) : Nat :=
  match w.ctx? g.ctx with
  | some c => match chkRange w g.ctx .load (frameVa c g.frame) 1 with
    | (.ok (k :: _), _) => k
    | _ => 0
  | none => 0

/-- The group that owns a bank or region of a matrix unit. -/
def matrixOwner (p : Package) (core part : Nat) (region : Bool) (n : Nat) : Option Nat :=
  ((partGroups p core part).find? fun e => if region then e.2.regions.contains n else e.2.banks.contains n).map Prod.fst

def softError (site : ErrorSite) (w : Work) : Work :=
  match site with
  | .registers g => killByError w g 1 0
  | .matrix core part region n =>
    match matrixOwner w.pk core part region n with
    | some g => killByError w g 2 0
    | none => w
  | .localMem k => if k ≥ 2 ^ 58 then markBad w k else w
  | .cleanCopy pa => hostRec w (bareRec .dataLost .n Config.firmwareContext 0 pa 4)
  | .dirtyLine pa => if isGlobalKey pa then markBad w pa else w
  | .weightStore k => if 2 ^ 57 ≤ k ∧ k < 2 ^ 58 then markBad w k else w
  | .saveImage g => w.onGroup g fun x w => if x.stat = .saved then killByError w g 7 (imageAddr w x) else w
  | .buffer blk => w.onBlock blk fun b w => killBy w blk { blockRec w b with code := .dataLost, core := 0xFF, info := 8 }

def execUncorrectableError (site : ErrorSite) (s : State) : Host.Outcome State Fault Refusal := .next (s.run (softError site))

/-- A corrected error changes no result and no state. -/
def execCorrectedError (s : State) : Host.Outcome State Fault Refusal := .next s

/-! ## Die and port failure (R393, R394) -/

/-- Writes held dirty in the failed die's slices are lost: a line whose home slice lies there may hold any bytes. -/
def loseLines (w : Work) (die : Nat) : Work :=
  let lines := ((w.base.filter fun c => isGlobalKey c.1 && paPackage c.1 == w.pk.no &&
    Config.homeSlice w.pk.diesLost (c.1 / 128) / 12 == die).map fun c => c.1 / 128).eraseDups
  w.each lines fun line w =>
    let dirty := Config.lostDirty w.pk.free
    let w := w.mapPk fun p => { p with free := p.free + 1 }
    if dirty then
      w.each (keysFrom (128 * line) 128) fun k w =>
        let (b, w) := w.freeByte
        w.place [k] [b]
    else w

/-- A block that stands on the die. -/
def onDie (die : Nat) (b : Block) : Bool :=
  b.stat == .begun && b.section_.isNone && b.cores.any fun c => coreDie c == die

/-- What the cores of the die held is gone, with the rights to its weight store. -/
def clearDie (p : Package) (die : Nat) : Package :=
  let here (core : Nat) : Bool := coreDie core == die
  { p with
    txns := p.txns.filter fun e => !here e.2.core
    reqs := p.reqs.filter fun e => !here e.2.core
    chans := p.chans.filter fun e => !here (e.1 / 4)
    mx := p.mx.filter fun e => !here (e.1 / 4)
    leftovers := p.leftovers.filter fun l => !here l.core
    lift := p.lift.filter fun e => !here (e.1 / 2048)
    recCache := p.recCache.filter fun e => !here e.1
    inbound := p.inbound.filter fun e => match e.2.core with
      | some c => !here c
      | none => true
    seals := p.seals.filter fun s => s.die != die
    wsHeld := p.wsHeld.filter fun e => e.2.1 != die
    badUnits := p.badUnits.filter fun k => !(wsKey die 0 ≤ k && k < wsKey (die + 1) 0)
    launches := p.launches.mapVals fun _ l => if l.die = some die then { l with die := none } else l }

def dieLost (die : Nat) (w : Work) : Work :=
  if die ≥ 4 ∨ w.pk.diesLost.getLsbD die then w
  else
    let waiting := importers w.pk w.pk.no die
    let blks := (w.pk.blocks.filter fun e => onDie die e.2).map fun e => (e.1, e.2.ctx, e.2.lnch)
    let colls := w.pk.colls.filter fun e => blks.any fun b => b.2.2 == e.2.lnch
    let w := loseLines w die
    let w := w.mapPk fun p => { p with diesLost := p.diesLost ||| BitVec.ofNat 4 (2 ^ die), evword := p.evword ||| 4 }
    let w := w.each colls fun e w => abortColl w e.1 e.2 e.2.self
    let w := w.each blks fun e w => w.onBlock e.1 fun b w =>
      killBy w e.1 { blockRec w b with code := .dieLost, core := 0xFF, info := BitVec.ofNat 32 die }
    let w := w.each waiting fun gi w => raiseAsync w gi .dieLost Mask.none 0 die
    let w := w.mapPk fun p => clearDie p die
    let others := w.pk.ctxs.keysWhere fun cn c => c.st == .live && !(blks.any fun b => b.2.1 == cn)
    w.each others fun cn w => hostRec w (bareRec .dieLost .n cn 0 0 die)

def execDieLost (die : Nat) (s : State) : Host.Outcome State Fault Refusal := .next (s.run (dieLost die))

/-- A failed port: a fabric plane goes unused, which no state shows (36 ports), or the memory behind one of 8 CXL ports cannot
be reached. -/
def portFailure (cxl : Bool) (port : Nat) (w : Work) : Work :=
  if port ≥ (if cxl then 8 else 36) ∨ w.pk.portsDown.contains (cxl, port) then w
  else w.mapPk fun p => { p with portsDown := (cxl, port) :: p.portsDown }

def execPortFailure (cxl : Bool) (port : Nat) (s : State) : Host.Outcome State Fault Refusal :=
  .next (s.run (portFailure cxl port))

/-! ## Package reset (R7) -/

/-- Reset leaves the state right after reset; the pool's memory keeps its bytes. -/
def packageReset (s : State) : State :=
  { State.reset with mem := s.mem.filter fun c => isGlobalKey c.1, agenda := s.agenda }

def execPackageReset (s : State) : Host.Outcome State Fault Refusal := .next (packageReset s)

/-! ## Trials (R325) -/

/-- The speed-up that the counts predict. -/
def speedup (m0 m1 slow : Nat) : Nat :=
  if m0 = 0 then 0x7FC00000
  else
    let num : Int := (m1 : Int) * (256 + slow) - 256 * m0
    if num = 0 then 0
    else
      let (q, e, sticky) := quotMag num.natAbs 0 (256 * m0) 0
      (roundVal .f32 .rne false (num < 0) q e sticky).1

/-- The launch of a trial has ended. -/
def trialGone (p : Package) (t : Trial) : Bool :=
  match p.launches.find? t.lnch with
  | some l => l.stat == .done || l.stat == .killed
  | none => true

def endTrial (w : Work) (t : Trial) (st : Nat) : Work :=
  let w := w.putNum (t.desc + 32) 8 t.m0.toNat
  let w := w.putNum (t.desc + 40) 8 t.m1.toNat
  let w := if st = 2 then w.putNum (t.desc + 48) 4 (speedup t.m0.toNat t.m1.toNat t.slow) else w
  (w.putNum (t.desc + 30) 2 st).mapPk fun p => { p with
    trial := none
    groups := p.groups.mapVals fun _ g => { g with debt := 0 } }

/-- A window ends, or its launch has. -/
def windowEnd (w : Work) : Work :=
  match w.pk.trial with
  | none => w
  | some t =>
    if trialGone w.pk t then endTrial w t 3
    else if t.left > 0 then w
    else if t.second then endTrial w t 2
    else (w.putNum (t.desc + 32) 8 t.m0.toNat).mapPk fun p => { p with trial := some { t with second := true, left := t.win } }

def execMogulWindowEnd (s : State) : Host.Outcome State Fault Refusal := .next (s.run windowEnd)

/-! ## Lift-line slots (R248) -/

/-- A slot retires: its chain has nothing outstanding, and no young export. -/
def slotRetire (core slot : Nat) (w : Work) : Work :=
  match w.pk.lift.find? (slotKey core slot) with
  | none => w
  | some x =>
    match x.owner with
    | none => w
    | some (gi, h) =>
      let young := match x.expAge with
        | some a => a < 1024
        | none => false
      if young || x.held w.pk then w
      else
        let free : LiftSlot := { x with owner := none, pend := [], extra := [], expAge := none }
        let w := w.mapPk fun p => { p with lift := p.lift.insert (slotKey core slot) free }
        w.updGroup gi fun g => g.setChain h { g.chain h with slot := none, seq := 0 }

def execLiftLineSlotRetire (core slot : Nat) (s : State) : Host.Outcome State Fault Refusal :=
  .next (s.run (slotRetire core slot))

end Sys2Proof.Machine
end

