-- ==== Sys2Proof/Machine/Dispatch.lean ====
section
/-!
DEFINITION. The dispatch of every instruction and event to its meaning, one arm for each.
-/
namespace Sys2Proof.Machine

def exec (i : Instr) (s : State) : Host.Outcome State Fault Refusal :=
  match i with
  | .iadd f => Sys2Proof.Machine.execIadd f s
  | .isub f => Sys2Proof.Machine.execIsub f s
  | .imul f => Sys2Proof.Machine.execImul f s
  | .imulh f => Sys2Proof.Machine.execImulh f s
  | .imad f => Sys2Proof.Machine.execImad f s
  | .idiv f => Sys2Proof.Machine.execIdiv f s
  | .irem f => Sys2Proof.Machine.execIrem f s
  | .imin f => Sys2Proof.Machine.execImin f s
  | .imax f => Sys2Proof.Machine.execImax f s
  | .iabs f => Sys2Proof.Machine.execIabs f s
  | .and f => Sys2Proof.Machine.execAnd f s
  | .or f => Sys2Proof.Machine.execOr f s
  | .xor f => Sys2Proof.Machine.execXor f s
  | .not f => Sys2Proof.Machine.execNot f s
  | .shl f => Sys2Proof.Machine.execShl f s
  | .shr f => Sys2Proof.Machine.execShr f s
  | .sar f => Sys2Proof.Machine.execSar f s
  | .popc f => Sys2Proof.Machine.execPopc f s
  | .clz f => Sys2Proof.Machine.execClz f s
  | .brev f => Sys2Proof.Machine.execBrev f s
  | .bfx f => Sys2Proof.Machine.execBfx f s
  | .bfi f => Sys2Proof.Machine.execBfi f s
  | .lea f => Sys2Proof.Machine.execLea f s
  | .icmp f => Sys2Proof.Machine.execIcmp f s
  | .sel f => Sys2Proof.Machine.execSel f s
  | .mov f => Sys2Proof.Machine.execMov f s
  | .movi f => Sys2Proof.Machine.execMovi f s
  | .cvti f => Sys2Proof.Machine.execCvti f s
  | .rng f => Sys2Proof.Machine.execRng f s
  | .fadd f => Sys2Proof.Machine.execFadd f s
  | .fsub f => Sys2Proof.Machine.execFsub f s
  | .fmul f => Sys2Proof.Machine.execFmul f s
  | .ffma f => Sys2Proof.Machine.execFfma f s
  | .fmin f => Sys2Proof.Machine.execFmin f s
  | .fmax f => Sys2Proof.Machine.execFmax f s
  | .fabs f => Sys2Proof.Machine.execFabs f s
  | .fneg f => Sys2Proof.Machine.execFneg f s
  | .fcmp f => Sys2Proof.Machine.execFcmp f s
  | .fclass f => Sys2Proof.Machine.execFclass f s
  | .frcp f => Sys2Proof.Machine.execFrcp f s
  | .frsq f => Sys2Proof.Machine.execFrsq f s
  | .fsqrt f => Sys2Proof.Machine.execFsqrt f s
  | .fdiv f => Sys2Proof.Machine.execFdiv f s
  | .fexp2 f => Sys2Proof.Machine.execFexp2 f s
  | .flog2 f => Sys2Proof.Machine.execFlog2 f s
  | .ftanh f => Sys2Proof.Machine.execFtanh f s
  | .fscl f => Sys2Proof.Machine.execFscl f s
  | .frnd f => Sys2Proof.Machine.execFrnd f s
  | .cvtf f => Sys2Proof.Machine.execCvtf f s
  | .cvtif f => Sys2Proof.Machine.execCvtif f s
  | .cvtfi f => Sys2Proof.Machine.execCvtfi f s
  | .scenc f => Sys2Proof.Machine.execScenc f s
  | .scdec f => Sys2Proof.Machine.execScdec f s
  | .blkhd f => Sys2Proof.Machine.execBlkhd f s
  | .blkmk f => Sys2Proof.Machine.execBlkmk f s
  | .qnt f => Sys2Proof.Machine.execQnt f s
  | .dqnt f => Sys2Proof.Machine.execDqnt f s
  | .amax f => Sys2Proof.Machine.execAmax f s
  | .qswh f => Sys2Proof.Machine.execQswh f s
  | .qswv f => Sys2Proof.Machine.execQswv f s
  | .qswd f => Sys2Proof.Machine.execQswd f s
  | .qbc f => Sys2Proof.Machine.execQbc f s
  | .shfl f => Sys2Proof.Machine.execShfl f s
  | .shflx f => Sys2Proof.Machine.execShflx f s
  | .shfld f => Sys2Proof.Machine.execShfld f s
  | .gbc f => Sys2Proof.Machine.execGbc f s
  | .ballot f => Sys2Proof.Machine.execBallot f s
  | .vany f => Sys2Proof.Machine.execVany f s
  | .vall f => Sys2Proof.Machine.execVall f s
  | .gred f => Sys2Proof.Machine.execGred f s
  | .gscan f => Sys2Proof.Machine.execGscan f s
  | .vmatch f => Sys2Proof.Machine.execVmatch f s
  | .elect f => Sys2Proof.Machine.execElect f s
  | .helper f => Sys2Proof.Machine.execHelper f s
  | .actm f => Sys2Proof.Machine.execActm f s
  | .unif f => Sys2Proof.Machine.execUnif f s
  | .sadd f => Sys2Proof.Machine.execSadd f s
  | .ssub f => Sys2Proof.Machine.execSsub f s
  | .smul f => Sys2Proof.Machine.execSmul f s
  | .sand f => Sys2Proof.Machine.execSand f s
  | .sor f => Sys2Proof.Machine.execSor f s
  | .sxor f => Sys2Proof.Machine.execSxor f s
  | .sshl f => Sys2Proof.Machine.execSshl f s
  | .sshr f => Sys2Proof.Machine.execSshr f s
  | .scmp f => Sys2Proof.Machine.execScmp f s
  | .smov f => Sys2Proof.Machine.execSmov f s
  | .smovi f => Sys2Proof.Machine.execSmovi f s
  | .rds f => Sys2Proof.Machine.execRds f s
  | .sld f => Sys2Proof.Machine.execSld f s
  | .sst f => Sys2Proof.Machine.execSst f s
  | .smin f => Sys2Proof.Machine.execSmin f s
  | .smax f => Sys2Proof.Machine.execSmax f s
  | .sabs f => Sys2Proof.Machine.execSabs f s
  | .sneg f => Sys2Proof.Machine.execSneg f s
  | .snot f => Sys2Proof.Machine.execSnot f s
  | .ssar f => Sys2Proof.Machine.execSsar f s
  | .spopc f => Sys2Proof.Machine.execSpopc f s
  | .sclz f => Sys2Proof.Machine.execSclz f s
  | .sbrev f => Sys2Proof.Machine.execSbrev f s
  | .smulh f => Sys2Proof.Machine.execSmulh f s
  | .bra f => Sys2Proof.Machine.execBra f s
  | .brx f => Sys2Proof.Machine.execBrx f s
  | .call f => Sys2Proof.Machine.execCall f s
  | .ret f => Sys2Proof.Machine.execRet f s
  | .switch f => Sys2Proof.Machine.execSwitch f s
  | .join f => Sys2Proof.Machine.execJoin f s
  | .waitj f => Sys2Proof.Machine.execWaitj f s
  | .jrd f => Sys2Proof.Machine.execJrd f s
  | .jwr f => Sys2Proof.Machine.execJwr f s
  | .yield f => Sys2Proof.Machine.execYield f s
  | .exit f => Sys2Proof.Machine.execExit f s
  | .sleep f => Sys2Proof.Machine.execSleep f s
  | .brk f => Sys2Proof.Machine.execBrk f s
  | .trap f => Sys2Proof.Machine.execTrap f s
  | .nop f => Sys2Proof.Machine.execNop f s
  | .ld f => Sys2Proof.Machine.execLd f s
  | .st f => Sys2Proof.Machine.execSt f s
  | .ldl f => Sys2Proof.Machine.execLdl f s
  | .stl f => Sys2Proof.Machine.execStl f s
  | .ldp f => Sys2Proof.Machine.execLdp f s
  | .stp f => Sys2Proof.Machine.execStp f s
  | .ldw f => Sys2Proof.Machine.execLdw f s
  | .prf f => Sys2Proof.Machine.execPrf f s
  | .stord f => Sys2Proof.Machine.execStord f s
  | .outq f => Sys2Proof.Machine.execOutq f s
  | .pin f => Sys2Proof.Machine.execPin f s
  | .unpin f => Sys2Proof.Machine.execUnpin f s
  | .aadd f => Sys2Proof.Machine.execAadd f s
  | .amin f => Sys2Proof.Machine.execAmin f s
  | .amaxAtomic f => Sys2Proof.Machine.execAmaxAtomic f s
  | .aand f => Sys2Proof.Machine.execAand f s
  | .aor f => Sys2Proof.Machine.execAor f s
  | .axor f => Sys2Proof.Machine.execAxor f s
  | .axch f => Sys2Proof.Machine.execAxch f s
  | .acas f => Sys2Proof.Machine.execAcas f s
  | .ainc f => Sys2Proof.Machine.execAinc f s
  | .ared f => Sys2Proof.Machine.execAred f s
  | .refinc f => Sys2Proof.Machine.execRefinc f s
  | .refdec f => Sys2Proof.Machine.execRefdec f s
  | .fence f => Sys2Proof.Machine.execFence f s
  | .hfork f => Sys2Proof.Machine.execHfork f s
  | .hjoin f => Sys2Proof.Machine.execHjoin f s
  | .hexp f => Sys2Proof.Machine.execHexp f s
  | .himp f => Sys2Proof.Machine.execHimp f s
  | .hwait f => Sys2Proof.Machine.execHwait f s
  | .bar f => Sys2Proof.Machine.execBar f s
  | .bara f => Sys2Proof.Machine.execBara f s
  | .barw f => Sys2Proof.Machine.execBarw f s
  | .gbar f => Sys2Proof.Machine.execGbar f s
  | .aflush f => Sys2Proof.Machine.execAflush f s
  | .frec f => Sys2Proof.Machine.execFrec f s
  | .cpyk f => Sys2Proof.Machine.execCpyk f s
  | .arrx f => Sys2Proof.Machine.execArrx f s
  | .bwait f => Sys2Proof.Machine.execBwait f s
  | .chain f => Sys2Proof.Machine.execChain f s
  | .chst f => Sys2Proof.Machine.execChst f s
  | .pub f => Sys2Proof.Machine.execPub f s
  | .mxld f => Sys2Proof.Machine.execMxld f s
  | .mxkv f => Sys2Proof.Machine.execMxkv f s
  | .mxmul f => Sys2Proof.Machine.execMxmul f s
  | .mxz f => Sys2Proof.Machine.execMxz f s
  | .mxrd f => Sys2Proof.Machine.execMxrd f s
  | .mxwr f => Sys2Proof.Machine.execMxwr f s
  | .mxsv f => Sys2Proof.Machine.execMxsv f s
  | .mxrs f => Sys2Proof.Machine.execMxrs f s
  | .mxq f => Sys2Proof.Machine.execMxq f s
  | .launch f => Sys2Proof.Machine.execLaunch f s
  | .lwait f => Sys2Proof.Machine.execLwait f s
  | .relabel f => Sys2Proof.Machine.execRelabel f s
  | .itemid f => Sys2Proof.Machine.execItemid f s
  | .idone f => Sys2Proof.Machine.execIdone f s
  | .ienq f => Sys2Proof.Machine.execIenq f s
  | .tkt f => Sys2Proof.Machine.execTkt f s
  | .tkrel f => Sys2Proof.Machine.execTkrel f s
  | .xacq f => Sys2Proof.Machine.execXacq f s
  | .xrel f => Sys2Proof.Machine.execXrel f s
  | .fset f => Sys2Proof.Machine.execFset f s
  | .fclr f => Sys2Proof.Machine.execFclr f s
  | .ftake f => Sys2Proof.Machine.execFtake f s
  | .ftest f => Sys2Proof.Machine.execFtest f s
  | .nacq f => Sys2Proof.Machine.execNacq f s
  | .nrel f => Sys2Proof.Machine.execNrel f s
  | .nlook f => Sys2Proof.Machine.execNlook f s
  | .fry f => Sys2Proof.Machine.execFry f s
  | .frys f => Sys2Proof.Machine.execFrys f s
  | .rdcc f => Sys2Proof.Machine.execRdcc f s
  | .pmrd f => Sys2Proof.Machine.execPmrd f s
  | .trmk f => Sys2Proof.Machine.execTrmk f s
  | .sysrd f => Sys2Proof.Machine.execSysrd f s
  | .syswr f => Sys2Proof.Machine.execSyswr f s
  | .tlbinv f => Sys2Proof.Machine.execTlbinv f s
  | .halt f => Sys2Proof.Machine.execHalt f s
  | .coll f => Sys2Proof.Machine.execColl f s
  | .collw f => Sys2Proof.Machine.execCollw f s
  | .mcst f => Sys2Proof.Machine.execMcst f s
  | .quantumExpiry g => Sys2Proof.Machine.execQuantumExpiry g s
  | .splitWaitEnd g sp => Sys2Proof.Machine.execSplitWaitEnd g sp s
  | .sleepWake g sp => Sys2Proof.Machine.execSleepWake g sp s
  | .loadDataReturn t lane => Sys2Proof.Machine.execLoadDataReturn t lane s
  | .atomicAtHomeSlice t lane => Sys2Proof.Machine.execAtomicAtHomeSlice t lane s
  | .atomicReturn t lane => Sys2Proof.Machine.execAtomicReturn t lane s
  | .storePerform t lane => Sys2Proof.Machine.execStorePerform t lane s
  | .outqPush t => Sys2Proof.Machine.execOutqPush t s
  | .ienqPush t => Sys2Proof.Machine.execIenqPush t s
  | .pinRevoked inv => Sys2Proof.Machine.execPinRevoked inv s
  | .mxCommandExecute core part => Sys2Proof.Machine.execMxCommandExecute core part s
  | .promiseMiss g sp => Sys2Proof.Machine.execPromiseMiss g sp s
  | .xacqGrant core part => Sys2Proof.Machine.execXacqGrant core part s
  | .xacqSwapOut core part => Sys2Proof.Machine.execXacqSwapOut core part s
  | .startGateApply l => Sys2Proof.Machine.execStartGateApply l s
  | .liftLineSlotRetire core slot => Sys2Proof.Machine.execLiftLineSlotRetire core slot s
  | .copyRequestAccept core n => Sys2Proof.Machine.execCopyRequestAccept core n s
  | .land req => Sys2Proof.Machine.execLand req s
  | .copyFault req e => Sys2Proof.Machine.execCopyFault req e s
  | .chainRecord core chan => Sys2Proof.Machine.execChainRecord core chan s
  | .collectiveCommit tag others => Sys2Proof.Machine.execCollectiveCommit tag others s
  | .collectiveTimeout tag failed => Sys2Proof.Machine.execCollectiveTimeout tag failed s
  | .ferryDelivery d => Sys2Proof.Machine.execFerryDelivery d s
  | .ferryApply core n => Sys2Proof.Machine.execFerryApply core n s
  | .ferryAck id cause => Sys2Proof.Machine.execFerryAck id cause s
  | .queueRecordTake q => Sys2Proof.Machine.execQueueRecordTake q s
  | .launchEntryTake n => Sys2Proof.Machine.execLaunchEntryTake n s
  | .blockPlace l cores => Sys2Proof.Machine.execBlockPlace l cores s
  | .groupRestore g cores => Sys2Proof.Machine.execGroupRestore g cores s
  | .parentSwapOut g => Sys2Proof.Machine.execParentSwapOut g s
  | .lwaitReread g sp => Sys2Proof.Machine.execLwaitReread g sp s
  | .launchComplete l => Sys2Proof.Machine.execLaunchComplete l s
  | .watchdog b => Sys2Proof.Machine.execWatchdog b s
  | .launchTime l => Sys2Proof.Machine.execLaunchTime l s
  | .itemTake l => Sys2Proof.Machine.execItemTake l s
  | .itemGroupStart l n core => Sys2Proof.Machine.execItemGroupStart l n core s
  | .atomicItemAdmit item => Sys2Proof.Machine.execAtomicItemAdmit item s
  | .gateReached l label => Sys2Proof.Machine.execGateReached l label s
  | .streamComplete l => Sys2Proof.Machine.execStreamComplete l s
  | .dispatcherRetry l => Sys2Proof.Machine.execDispatcherRetry l s
  | .asyncFaultDelivery g => Sys2Proof.Machine.execAsyncFaultDelivery g s
  | .faultRingWrite ctx => Sys2Proof.Machine.execFaultRingWrite ctx s
  | .pageReplay g => Sys2Proof.Machine.execPageReplay g s
  | .preemptTimeout g => Sys2Proof.Machine.execPreemptTimeout g s
  | .groupSave g => Sys2Proof.Machine.execGroupSave g s
  | .contextRunsWrite ctx => Sys2Proof.Machine.execContextRunsWrite ctx s
  | .mogulWindowEnd => Sys2Proof.Machine.execMogulWindowEnd s
  | .remotePacketArrival p => Sys2Proof.Machine.execRemotePacketArrival p s
  | .remoteAccessFailure t lane refused => Sys2Proof.Machine.execRemoteAccessFailure t lane refused s
  | .backInvalidate pa => Sys2Proof.Machine.execBackInvalidate pa s
  | .collectiveAbort tag failed => Sys2Proof.Machine.execCollectiveAbort tag failed s
  | .migration l lin => Sys2Proof.Machine.execMigration l lin s
  | .commit => Sys2Proof.Machine.execCommit s
  | .create => Sys2Proof.Machine.execCreate s
  | .destroy => Sys2Proof.Machine.execDestroy s
  | .reachAdd => Sys2Proof.Machine.execReachAdd s
  | .reachRemove => Sys2Proof.Machine.execReachRemove s
  | .pubnew => Sys2Proof.Machine.execPubnew s
  | .getid => Sys2Proof.Machine.execGetid s
  | .attest => Sys2Proof.Machine.execAttest s
  | .trial v => Sys2Proof.Machine.execTrial v s
  | .fretry v => Sys2Proof.Machine.execFretry v s
  | .killLaunch ctx => Sys2Proof.Machine.execKillLaunch ctx s
  | .stopBlock ctx => Sys2Proof.Machine.execStopBlock ctx s
  | .resumeBlock ctx => Sys2Proof.Machine.execResumeBlock ctx s
  | .killBlock ctx => Sys2Proof.Machine.execKillBlock ctx s
  | .stopAtCount ctx => Sys2Proof.Machine.execStopAtCount ctx s
  | .fwbell v => Sys2Proof.Machine.execFwbell v s
  | .qprodWrite q view v => Sys2Proof.Machine.execQprodWrite q view v s
  | .queueEnable q => Sys2Proof.Machine.execQueueEnable q s
  | .queueDisable q => Sys2Proof.Machine.execQueueDisable q s
  | .registerWrite off width v => Sys2Proof.Machine.execRegisterWrite off width v s
  | .watch g n => Sys2Proof.Machine.execWatch g n s
  | .uncorrectableError site => Sys2Proof.Machine.execUncorrectableError site s
  | .correctedError => Sys2Proof.Machine.execCorrectedError s
  | .dieLost die => Sys2Proof.Machine.execDieLost die s
  | .portFailure cxl port => Sys2Proof.Machine.execPortFailure cxl port s
  | .packageReset => Sys2Proof.Machine.execPackageReset s

end Sys2Proof.Machine
end

