-- ==== Sys2Proof/Machine/Sched.lean ====
section
/-!
DEFINITION. How the machine moves: the issue of one instruction (R50, R303), the passing of cycles with everything that
counts them, the order of moves that the model takes where none is given, and the placing of one instruction where the
next step fetches.
-/
namespace Sys2Proof.Machine

/-! ## One instruction -/

/-- A fetch that the tables do not allow is a fault of the instruction (R362). -/
def fetchFault (gi : Nat) (g : Group) (c : Chk) (w : Work) : Work :=
  match c with
  | .bad _ code addr => raiseFault w gi g.nextPc code (curLanes g) addr (if code = .page then 2 else 0)
  | _ => w

/-- What stops the block before the instruction: an armed stop, or the first watchpoint that matches. -/
def stopBefore (neg : Negotiation) (w : Work) (gi : Nat) (g : Group) (i : Instr) : Option Work :=
  match armedHit neg w gi g i with
  | some (a, v) => some (armedStop w g a v)
  | none => (List.range 4).findSome? fun n => (watchHit neg w gi g i n).map fun e => watchStop w gi g n e.1 e.2

/-! ## The choice of a partition (R315) -/

/-- Effective priority. -/
def priority (p : Package) (g : Group) : Nat :=
  let prio := match p.launches.find? g.lnch with
    | some l => recPrio l.rec_
    | none => 0
  min 15 (prio + g.w / 4096)

/-- Group a is chosen before group b of its partition. -/
def chosenBefore (p : Package) (a b : Group) : Bool :=
  let x := priority p a
  let y := priority p b
  x > y || (x == y && (a.w > b.w || (a.w == b.w && a.slot < b.slot)))

/-- A group has been chosen in this cycle. -/
def isChosen (p : Package) (gi : Nat) : Bool := p.chosen.any fun e => e.2 == gi

/-- The waits of an instruction that cannot be accepted: for a table entry, the matrix queue, the lift line or an engine. -/
def Wait.notAccepted (k : Wait) : Bool :=
  match k with
  | .txnRoom | .mxRoom | .liftRoom | .engineRoom _ | .chanIdle .. => true
  | _ => false

/-- One of these is short for the group; only then can its next instruction be turned away. -/
def roomShort (w : Work) (gi : Nat) (g : Group) : Bool :=
  (([.txnRoom, .mxRoom, .liftRoom, .engineRoom 1] : List Wait) ++ (List.range 4).map (Wait.chanIdle g.core)).any fun k => !waitOver w gi g k

/-- An instruction has only blocked its split, in such a wait. -/
def leftWaiting (gi : Nat) (g : Group) (r : Host.Outcome State Fault Refusal) : Bool :=
  match r, g.splits with
  | .next t, x :: _ => (t.pk.groups.find? gi).any fun h => h.splits.any fun y =>
      y.lanes == x.lanes && y.only == x.only && match y.cond with
        | .blocked k => k.notAccepted
        | _ => false
  | _, _ => false

/-- The group's next instruction cannot be accepted: issued now, it would only wait. -/
def turnsAway (s : State) (gi : Nat) (g : Group) : Bool :=
  roomShort (Work.start s) gi g &&
    let s := { s with pk := { s.pk with cur := gi, groups := s.pk.groups.insert gi { g with debt := 0 } } }
    match fetchInstr (Work.start s) g g.nextPc with
    | .instr i => (stopBefore s.neg (Work.start s) gi g i).isNone && leftWaiting gi g (exec i s)
    | _ => false

/-- The group's next instruction can be accepted; the results it is to perform at a gate come first (R342). -/
def accepts (s : State) (gi : Nat) (g : Group) : Bool := !gateDue (Work.start s) g && !turnsAway s gi g

/-- A group is ready and has not been chosen in this cycle. -/
def mayChoose (s : State) (gi : Nat) (g : Group) : Bool := groupIssues s.pk gi g && !isChosen s.pk gi && accepts s gi g

/-- A partition takes a group next: one of its four pipes is left, and no group that may be chosen comes before. -/
def takesNext (s : State) (gi : Nat) (g : Group) : Bool :=
  let key := mxKey g.core g.part
  mayChoose s gi g && decide ((s.pk.chosen.filter fun e => e.1 == key).length < 4) &&
    !(s.pk.groups.any fun e => mxKey e.2.core e.2.part == key && mayChoose s e.1 e.2 && chosenBefore s.pk e.2 g)

/-- A group whose next instruction is not accepted: its split is blocked, and none of the partition's pipes is used. -/
def blocksNext (s : State) (gi : Nat) (g : Group) : Bool := groupIssues s.pk gi g && !isChosen s.pk gi && turnsAway s gi g

/-- The issuing group is named in the package, and is chosen for this cycle. -/
def State.withCur (s : State) (gi : Nat) (g : Group) : State :=
  { s with pk := { s.pk with cur := gi, chosen := (mxKey g.core g.part, gi) :: s.pk.chosen } }

/-- A group issues its next instruction, if its partition takes it next; an instruction that is not accepted blocks its split. -/
def issueMove (gi : Nat) (s : State) : Host.Outcome State Fault Refusal :=
  match s.pk.groups.find? gi with
  | none => .next s
  | some g =>
    let turned := blocksNext s gi g
    if !turned && !takesNext s gi g then .next s
    else
      let s := if turned then { s with pk := { s.pk with cur := gi } } else s.withCur gi g
      match fetchInstr (Work.start s) g g.nextPc with
      | .fault c =>
        if featureOff s.neg (Work.start s) gi g then .next (s.run fun w => raiseFault w gi g.nextPc .illOp (curLanes g) 0 0)
        else .next (s.run (fetchFault gi g c))
      | .illegal _ => .next (s.run fun w => raiseFault w gi g.nextPc .illOp (curLanes g) 0 0)
      | .instr i =>
        match stopBefore s.neg (Work.start s) gi g i with
        | some w => .next (s.finish w)
        | none => exec i s

/-! ## Time (R315, R318, R319, R323, R325) -/

/-- Every member of a gang has started, from when `gbar` counts. -/
def gangStarted (p : Package) (g : Group) : Bool :=
  match p.launches.find? g.lnch, p.blocks.find? g.blk with
  | some l, some b => (gangBlocks p l (b.lin / l.gangSize)).length == l.gangSize
  | _, _ => true

/-- The lanes whose watchdog count runs (R318, R381); that of an `lwait` pauses while the group is saved (R331). -/
def countedLanes (p : Package) (g : Group) : Mask :=
  g.splits.foldl
    (fun m s =>
      let counts := s.cond.counts && (match s.cond with
        | .blocked (.bar 17 _) => gangStarted p g
        | .blocked (.lwait ..) => g.stat != .saved
        | _ => true) && match g.handler with
          | some h => s.lanes.subset h.lanes
          | none => true
      if counts then Mask.union m s.lanes else m) Mask.none

/-- The context of a group is scheduled where the group stands, or anywhere for a saved group. -/
def groupScheduled (p : Package) (g : Group) : Bool :=
  if g.stat = .saved then (match p.ctxs.find? g.ctx with
    | some c => c.sched != 0
    | none => false)
  else scheduledOn p g.ctx (coreDie g.core)

/-- A blocked split waits for a transaction-table entry. -/
def waitsEntry (s : Split) : Bool := s.cond == .blocked .txnRoom

/-- n cycles of a resident group: its waits age, and its counters and its debt move. The cycle in which the group has issued
is none in which it was ready and not chosen, or held by its debt (R323, R325). -/
def ageResident (s : State) (gi n : Nat) (g : Group) : Group :=
  let p := s.pk
  let ready := groupIssues p gi { g with debt := 0 } && accepts s gi g
  let rest := if ready then n - b2n (isChosen p gi) else 0
  let paid := min rest (g.debt / 256)
  let passed := rest - paid
  let g := ((g.count 1 n).count 2 passed).count 3 (if g.splits.any g.mayIssue then 0 else n)
  let g := (g.count 5 (if g.splits.any waitsEntry then n else 0)).count 7 paid
  { g with
    debt := g.debt - 256 * paid
    w := g.w + passed
    splits := g.splits.map fun s => match s.cond with
      | .blocked _ => { s with age := s.age + n }
      | _ => s
    xreq := g.xreq.map fun x => { x with age := x.age + n }
    saveReq := g.saveReq.map fun q => { q with age := q.age + n } }

def ageGroup (s : State) (n gi : Nat) (g : Group) : Group :=
  let p := s.pk
  let stopped := match p.blocks.find? g.blk with
    | some b => b.stopped.isSome
    | none => false
  let m := if groupScheduled p g && !stopped then countedLanes p g else Mask.none
  let g := if g.stat = .saved then g else ageResident s gi n g
  if m.any then g.updLanes fun L l => if m.get L then { l with wd := l.wd + n } else l else g

def ctxRuns (p : Package) (cn : Nat) : Bool :=
  match p.ctxs.find? cn with
  | some c => c.sched != 0
  | none => false

def ageLaunch (p : Package) (n : Nat) (l : Launch) : Launch :=
  if ctxRuns p l.ctx then
    { l with cycles := if l.placed then l.cycles + n else l.cycles, waited := if l.waits then l.waited + n else l.waited }
  else l

def ageTrial (p : Package) (n : Nat) (t : Trial) : Trial :=
  match p.launches.find? t.lnch with
  | some l => if ctxRuns p l.ctx then { t with left := t.left - n } else t
  | none => t

/-- n cycles pass. -/
def elapse (n : Nat) (s : State) : Package :=
  let p := s.pk
  freeCtxs { p with
    cycle := p.cycle + BitVec.ofNat 64 n
    groups := p.groups.mapVals fun gi g => ageGroup s n gi g
    launches := p.launches.mapVals fun _ l => ageLaunch p n l
    colls := p.colls.mapVals fun _ c => { c with age := c.age + n }
    lift := p.lift.mapVals fun _ x => { x with expAge := x.expAge.map (· + n) }
    trial := p.trial.map (ageTrial p n)
    cur := 0
    chosen := [] }

/-! ## The order of moves where none is given -/

/-- The events that the state may have in store, in the model's order. -/
def txnEvents (p : Package) : List Instr :=
  p.txns.flatMap fun e =>
    match e.2.kind with
    | .load .. | .sload .. | .mread .. | .lrec .. | .lcnt .. => laneList.map (.loadDataReturn e.1)
    | .store | .sstore | .frec _ => laneList.map (.storePerform e.1)
    | .atom .. | .ref .. => laneList.flatMap fun L => [.atomicAtHomeSlice e.1 L, .atomicReturn e.1 L]
    | .outq _ => [.outqPush e.1]
    | .ienq => [.ienqPush e.1]
    | .ferry _ | .mx => []

def groupEvents (p : Package) : List Instr :=
  p.groups.flatMap fun e =>
    [.asyncFaultDelivery e.1, .pageReplay e.1] ++
      (List.range e.2.splits.length).flatMap (fun k =>
        [.splitWaitEnd e.1 k, .sleepWake e.1 k, .lwaitReread e.1 k, .promiseMiss e.1 k]) ++
      [.quantumExpiry e.1, .pinRevoked e.1, .preemptTimeout e.1, .groupSave e.1, .parentSwapOut e.1]

def partEvents (p : Package) : List Instr :=
  ((p.groups.map fun e => (e.2.core, e.2.part)).eraseDups).flatMap fun e => [.xacqGrant e.1 e.2, .xacqSwapOut e.1 e.2]

def engineEvents (p : Package) : List Instr :=
  (p.reqs.flatMap fun e =>
      [.copyRequestAccept e.2.core e.1, .land e.1] ++ ([.page, .prot, .blkFmt, .dataLost] : List CopyErr).map (.copyFault e.1))
    ++ p.chans.map (fun e => .chainRecord (e.1 / 4) (e.1 % 4)) ++ p.mx.map (fun e => .mxCommandExecute (e.1 / 4) (e.1 % 4))
    ++ p.sent.flatMap (fun e => .ferryDelivery (.own e.1) :: (e.2.acked.toList.map fun c => .ferryAck e.1 c))
    ++ p.inbound.filterMap (fun e => e.2.core.map fun c => .ferryApply c e.1)
    ++ p.colls.flatMap (fun e =>
      let other := if e.2.self = 0 ∧ e.2.nmem > 1 then 1 else 0
      [.collectiveCommit (cTag e.2.bytes) [], .collectiveTimeout (cTag e.2.bytes) other])
    ++ p.lift.map fun e => .liftLineSlotRetire (e.1 / 2048) (e.1 % 2048)

def hostEvents (p : Package) : List Instr :=
  p.ctxs.flatMap (fun e => [.faultRingWrite e.1, .contextRunsWrite e.1])
    ++ p.blocks.map (fun e => .watchdog e.1) ++ [.mogulWindowEnd] ++ p.queues.map fun e => .queueRecordTake e.1

/-- Dies in order, with the cores that an allocation finds there. -/
def onDies (f : Nat → Option (List Nat)) : List (List Nat) := (List.range 4).filterMap f

def launchEvents (w : Work) : List Instr :=
  let p := w.pk
  p.items.map (fun e => .atomicItemAdmit e.1) ++ p.flows.map (fun f => .gateReached f.lnch f.label)
    ++ p.launches.flatMap (fun e =>
      [.launchTime e.1, .launchEntryTake e.1, .startGateApply e.1, .launchComplete e.1, .streamComplete e.1,
        .dispatcherRetry e.1, .itemTake e.1])
    ++ p.groups.flatMap (fun e =>
      if e.2.stat = .saved then (onDies (restoreCores w e.1 e.2)).map (.groupRestore e.1) else [])
    ++ p.launches.flatMap fun e =>
      (onDies (nextCores w e.2)).map (.blockPlace e.1) ++
        (if e.2.readyItems.isEmpty then []
          else (onDies fun die => chooseCores p e.2.ctx (recLocal e.2.rec_) (seatsOf e.2.rec_) 1 die).map fun cs =>
            .itemGroupStart e.1 (min 8 e.2.readyItems.length) (cs.headD 0))

/-- A move changed the machine, but for what a translation leaves behind. -/
def moved (s : State) (r : Host.Outcome State Fault Refusal) : Bool :=
  match r with
  | .next t => decide ({ t.pk with tlb := s.pk.tlb, free := s.pk.free } ≠ s.pk) || decide (t.mem ≠ s.mem)
  | _ => true

/-- The first event of the state that changes anything. -/
def firstEvent (s : State) : Option Instr :=
  let p := s.pk
  (txnEvents p ++ engineEvents p ++ groupEvents p ++ partEvents p ++ launchEvents (Work.start s) ++ hostEvents p).find?
    fun i => moved s (exec i s)

/-- A group whose next instruction is not accepted; else one that its partition takes next. -/
def readyGroup (s : State) : Option Nat :=
  let first (f : Nat → Group → Bool) : Option Nat := (s.pk.groups.filter fun e => f e.1 e.2).head?.map Prod.fst
  (first (blocksNext s)).or (first (takesNext s))

/-- The move that follows when none is given: an event in store; else an instruction that this cycle still takes; else the
cycle passes. -/
def nextMove (s : State) : Move :=
  match firstEvent s with
  | some i => .event i
  | none =>
    match readyGroup s with
    | some g => .issue g
    | none => .elapse 1

/-- One move; no event is an instruction that a group issues. -/
def runMove (m : Move) (s : State) : Host.Outcome State Fault Refusal :=
  match m with
  | .issue g => issueMove g s
  | .event i => if i.hdr.isNone then exec i s else .next s
  | .elapse n => .next { s with pk := elapse n s }

/-- The first of the moves given, with the others left for the steps that follow. -/
def runFirst (ms : List Move) (s : State) : Host.Outcome State Fault Refusal :=
  match ms with
  | [] => .next s
  | m :: rest => runMove m { s with agenda := rest }

/-- The moves that stand in the agenda, or the one the model takes where it is empty. -/
def State.moves (s : State) : List Move := if s.agenda.isEmpty then [nextMove s] else s.agenda

/-! ## One instruction placed where the next step fetches -/

def placeVa : Nat := 0x10000

/-- A launch record of one block of one full group with everything a core partition gives one group. -/
def placeRec : List Byte :=
  let r := List.replicate 256 (0 : Byte)
  let r := setFld (setFld (setFld r 0 8 placeVa) 8 4 8) 12 4 1
  setFld (setFld (setFld (setFld (setFld r 16 4 1) 20 4 1) 24 1 1) 28 2 256) 30 2 0x1008

/-- Three levels of the service firmware's tables that map the first GiB onto itself, and the instruction's bytes. -/
def placeBytes (nbits w : Nat) : List Host.Cell :=
  let put (k : Nat) (bs : List Byte) : List Host.Cell := (keysFrom k bs.length).zip bs
  put 0x0 (valBytes 8 0x401) ++ put 0x1000 (valBytes 8 0x801) ++ put 0x2000 (valBytes 8 0xDF)
    ++ put placeVa (tableBytes nbits w)

/-- A group of the service firmware stands at an instruction, and the next move is its issue. -/
def placeWord (s : State) (nbits w : Nat) : State :=
  let n := s.pk.fresh
  let cn := Config.firmwareContext
  let l : Launch := { Launch.fresh cn placeRec 0 .queue none 0 with
    stat := .running, next := 1, blocks := [n + 1], placed := true }
  let b : Block := { Block.fresh cn (n + 2) 0 [0] 1 0 none with groups := [n] }
  let g := Group.fresh cn (n + 2) (n + 1) 0 0 0 0 0 256 (BitVec.ofNat 57 placeVa) 0 0 8 (List.range 8) (List.range 16) []
  { s with
    mem := Mem.writes s.mem (placeBytes nbits w)
    pk := { s.pk with
      fresh := n + 3
      chosen := []
      groups := s.pk.groups.insert n g
      blocks := s.pk.blocks.insert (n + 1) b
      launches := s.pk.launches.insert (n + 2) l }
    agenda := [.issue n] }

end Sys2Proof.Machine
end

