-- ==== Sys2Proof/Machine/Step.lean ====
section
/-!
DEFINITION. The step, and the placing of one instruction for it.
-/
namespace Sys2Proof.Machine

/-- One step: the first move of the agenda, or the model's own where it is empty. -/
def step (s : State) : Host.Outcome State Fault Refusal := runFirst s.moves s

/-- The state with one instruction placed so that the very next step runs it. -/
def State.withFetchWord (s : State) (nbits w : Nat) : State := placeWord s nbits w

end Sys2Proof.Machine
end

