-- ==== Sys2Proof/Safety.lean ====
section
/-!
DEFINITION. What counts as a safe state of the machine, and the terms in which the statements speak of an instruction that
issues: when it does, what the issue of any instruction may change, and what a vector write leaves.
-/
namespace Sys2Proof

/-- The number of words of an instruction (R50, R61). -/
def Hdr.words (h : Hdr) : Nat := if h.sp.isSome then 2 else 1

end Sys2Proof

namespace Sys2Proof.Machine

/-- Once the negotiation is done, every accepted feature is an offered one (R6). -/
def Negotiation.ok (n : Negotiation) : Bool := !n.done || n.accepted &&& offeredWord == n.accepted

/-- A safe state: memory stands in its canonical form, and the accepted features are offered ones. -/
def State.safe (s : State) : Bool := s.mem.wf && s.neg.ok

/-! ## An instruction that issues -/

/-- The issuing group issues the instruction, and v is what it sees: the group stands ready, nothing of R67's order
faults or waits before the instruction's own entry, and the group has a running lane. -/
structure Issues (s : State) (h : Hdr) (words : Nat) (n : Need) (v : View) : Prop where
  seen : viewOf (Work.start s) h words = some v
  free : preIssue (gateOpen s.neg v n) v n = none
  lanes : v.grp.running.any = true

/-- No other split of the group is held at a rejoin mask, so that the issue releases none. -/
def View.noneHeld (v : View) : Prop := ∀ x ∈ v.grp.splits.tail, ∀ j, x.cond ≠ .held j

/-- The state with another group in the place of one, and nothing else changed. -/
def State.withGroup (s : State) (gi : Nat) (g : Group) : State :=
  { s with pk := { s.pk with groups := s.pk.groups.insert gi g } }

/-- A lane without its place and its counts. -/
def Lane.rest (l : Lane) : Lane := { l with pc := 0, mr := 0, issued := 0, wd := 0 }

/-- Handler mode, which ends when none of its lanes runs (R381). -/
def Group.keptHandler (g : Group) : Option Handler :=
  match g.handler with
  | some h => if (Mask.inter h.lanes g.running).any then some h else none
  | none => none

/-- A group without its vector registers and without what the issue of any instruction may change: where its lanes stand,
the ring of splits with the masks and MRs that a release empties (R70 to R84), the bypass (R23), the counts of issues
(R315, R323, R325, R395), watchpoints skipped once, the save that a safe point begins, and a handler mode none of whose
lanes runs. -/
def Group.rest (g : Group) : Group := { g with
  lanes := g.lanes.map Lane.rest
  regs := []
  jmasks := []
  splits := []
  bypass := []
  pmc := []
  w := 0
  debt := 0
  skipWatch := []
  stat := .resident
  saveReq := none
  saveKind := .preempt
  handler := g.keptHandler }

/-- Where an instruction leaves the lanes of its group, when its issue releases no held lanes: their PCs and MRs, and the
rejoin masks; and, unless the instruction is a safe point, the group's save stands as it was. -/
structure StandsAt (v : View) (h : Hdr) (g' : Group) (pc mr : Fin 8 → PC) (masks : FMap (Byte × PC)) : Prop where
  pc : v.noneHeld → ∀ L, (g'.lane L).pc = pc L
  mr : v.noneHeld → ∀ L, (g'.lane L).mr = mr L
  masks : v.noneHeld → g'.jmasks = masks
  saves : h.sp = none → g'.stat = v.grp.stat ∧ g'.saveReq = v.grp.saveReq

/-- The PCs when the running lanes of the split go where f says, and to the next word where it does not say. -/
def View.goTo (v : View) (f : Fin 8 → Option PC) (L : Fin 8) : PC :=
  if v.m.get L && v.grp.running.get L then (f L).getD v.next else (v.grp.lane L).pc

/-- The MRs as they are. -/
def View.mrs (v : View) (L : Fin 8) : PC := (v.grp.lane L).mr

/-- The lanes go where f says, and MRs and rejoin masks stand. -/
def WentTo (v : View) (h : Hdr) (g' : Group) (f : Fin 8 → Option PC) : Prop := StandsAt v h g' (v.goTo f) v.mrs v.grp.jmasks

/-- The lanes of the split go straight on to the next word: what an instruction that neither branches nor waits does. -/
def WentOn (v : View) (h : Hdr) (g' : Group) : Prop := WentTo v h g' fun _ => none

/-- Every vector register is as it was. -/
def SameRegs (g g' : Group) : Prop := ∀ r, g'.reg r = g.reg r

/-- Word k of a value of several registers (R53). -/
def wordOf (x k : Nat) : W32 := BitVec.ofNat 32 (x / 2 ^ (32 * k))

/-- The n registers from d hold the words of the lanes' values in the lanes of m, full and not transient; a transient
result (t) only marks them, and every other register and lane is as it was (R22 to R24, R53). -/
def WroteRegs (g g' : Group) (d n : Nat) (t : Bool) (m : Mask) (f : Fin 8 → Nat) : Prop :=
  ∀ r L, let x := g.reg r; let y := g'.reg r
    if d ≤ r ∧ r < d + n ∧ m.get L = true then
      if t then y.mark.get L = true ∧ y.val.get L = x.val.get L ∧ y.full.get L = x.full.get L ∧ y.pend.get L = x.pend.get L
      else y.val.get L = wordOf (f L) (r - d) ∧ y.full.get L = true ∧ y.mark.get L = false ∧ y.pend.get L = false
    else y.val.get L = x.val.get L ∧ y.full.get L = x.full.get L ∧ y.mark.get L = x.mark.get L ∧ y.pend.get L = x.pend.get L

/-- The n registers from d are empty with a producer pending in the lanes of m, and every other register and lane is as it
was (R24). -/
def AwaitsRegs (g g' : Group) (d n : Nat) (m : Mask) : Prop :=
  ∀ r L, let x := g.reg r; let y := g'.reg r
    y.val.get L = x.val.get L ∧ y.mark.get L = x.mark.get L ∧
    if d ≤ r ∧ r < d + n ∧ m.get L = true then y.full.get L = false ∧ y.pend.get L = true
    else y.full.get L = x.full.get L ∧ y.pend.get L = x.pend.get L

/-- The running lanes of the split wait at the instruction, whose end of wait completes it (R70). -/
def WaitsFor (v : View) (g' : Group) (k : Wait) : Prop :=
  (Mask.inter v.m v.grp.running).any = true →
    ∃ x ∈ g'.splits, x.cond = .blocked k ∧ x.finish = true ∧ x.nxt = v.next ∧ x.lanes = Mask.inter v.m v.grp.running

/-- The group is as it was but for where its lanes stand. -/
def OnlyMoved (i : Instr) (s : State) (v : View) (h : Hdr) (dest : Fin 8 → Option PC) : Prop :=
  ∃ g', exec i s = .next (s.withGroup v.g g') ∧ SameRegs v.grp g' ∧ g'.rest = v.grp.rest ∧ WentTo v h g' dest

/-- The group goes on, or waits at the instruction for k where k is given. -/
def GoesOrWaits (v : View) (h : Hdr) (g' : Group) (k : Option Wait) : Prop :=
  match k with
  | none => WentOn v h g'
  | some k => WentTo v h g' (fun _ => some v.pc) ∧ WaitsFor v g' k

/-! ## An instruction that starts an access -/

/-- A package without its groups, its outstanding accesses and their numbers, and what a translation caches. -/
def Package.beside (p : Package) : Package :=
  { p with groups := [], txns := [], fresh := 0, free := 0, lift := [], tlb := [] }

/-- The machine t that is left when an instruction has started the access x on handle hd and gone on, its group being g':
the access stands in the tables and on its chain; memory, every other access, every other group and the rest of the
package are as they were; of its own group only its registers, the chain, and where its lanes stand can differ. -/
structure Started (s : State) (v : View) (h : Hdr) (hd : Nat) (t : State) (g' : Group) (x : Txn) : Prop where
  group : t.pk.groups.find? v.g = some g'
  access : t.pk.txns.find? s.pk.fresh = some x
  owner : x.g = v.g ∧ x.h = hd ∧ x.ctx = v.grp.ctx ∧ x.pc = v.pc
  chained : s.pk.fresh ∈ (g'.chain hd).hist
  groups : ∀ j, j ≠ v.g → t.pk.groups.find? j = s.pk.groups.find? j
  accesses : ∀ j, j ≠ s.pk.fresh → t.pk.txns.find? j = s.pk.txns.find? j
  chains : ∀ k, k ≠ hd → g'.chain k = v.grp.chain k
  mem : t.mem = s.mem
  neg : t.neg = s.neg
  beside : t.pk.beside = s.pk.beside
  rest : { g'.rest with chains := [] } = { v.grp.rest with chains := [] }

/-! ## An instruction that changes more than its group -/

/-- The instruction completes: the machine is then t and the group g', whose lanes have gone on; every other group and the
negotiation registers are as they were. -/
structure Completed (i : Instr) (s : State) (v : View) (h : Hdr) (t : State) (g' : Group) : Prop where
  runs : exec i s = .next t
  group : t.pk.groups.find? v.g = some g'
  others : ∀ j, j ≠ v.g → t.pk.groups.find? j = s.pk.groups.find? j
  went : WentOn v h g'
  neg : t.neg = s.neg

/-- The bytes have been written at the keys, one after another, and no other byte of memory has changed. -/
def WroteBytes (s t : State) (ks : List Nat) (bs : List Byte) : Prop :=
  t.mem = (s.run fun w => w.puts ks bs).mem ∧
    ∀ k, k ∉ ks.map (Work.start s).home → Mem.byte t.mem k = Mem.byte s.mem k

/-- A package but for what follows memory: the staged stores that blocks see, the dispatchers' reads of their descriptors, the
release sequences and the units with errors. -/
def Package.afterWrite (p : Package) : Package := { p with blocks := [], launches := [], notes := [], badUnits := [] }

/-- The registers and everything else of a group stand as they were, but for where its lanes stand. -/
def SameGroup (g g' : Group) : Prop := SameRegs g g' ∧ g'.rest = g.rest

end Sys2Proof.Machine
end

