-- ==== Sys2Proof/Certificates/Slice0/Obligations.lean ====
section
/-!
DEFINITION. The statements about the model, one definition for each, with the tables and terms that they share.
-/

open Sys2Proof Sys2Proof.Machine

/-! ## Class 0: integer instructions -/

namespace Sys2Proof.Machine

/-- Two-operand integer instructions: the exact integer each computes from the two patterns (R141 to R149). -/
def intBinary : List ((IBin → Instr) × (IType → Nat → Nat → Int)) := [
  (.iadd, fun t x y => readInt t x + readInt t y),
  (.isub, fun t x y => readInt t x - readInt t y),
  (.imul, fun t x y => readInt t x * readInt t y),
  (.imulh, fun t x y => readInt t x * readInt t y / 2 ^ itypeBits t),
  (.imin, fun t x y => min (readInt t x) (readInt t y)),
  (.imax, fun t x y => max (readInt t x) (readInt t y)),
  (.and, fun _ x y => (x &&& y : Nat)),
  (.or, fun _ x y => (x ||| y : Nat)),
  (.xor, fun _ x y => (x ^^^ y : Nat)),
  (.shl, fun t x y => readInt t x * 2 ^ shiftCount t y),
  (.shr, fun t x y => (lowBits (itypeBits t) x / 2 ^ shiftCount t y : Nat)),
  (.sar, fun t x y => readInt t x / 2 ^ shiftCount t y),
  (.bfx, bfxInt)]

def intUnary : List ((IUn → Instr) × (IType → Nat → Int)) := [
  (.iabs, fun t x => (readInt t x).natAbs),
  (.not, fun _ x => -(x : Int) - 1),
  (.brev, fun t x => reverseBits (itypeBits t) x),
  (.mov, fun t x => readInt t x)]

def intTernary : List ((ITri → Instr) × (IType → Nat → Nat → Nat → Int)) := [
  (.imad, fun t x y z => readInt t x * readInt t y + readInt t z),
  (.bfi, bfiInt)]

def intCounts : List ((IUn → Instr) × (Nat → Nat → Nat)) := [(.popc, popCount), (.clz, leadingZeros)]

/-- The divisions: the quotient truncated toward zero and its remainder, with a divisor of zero all ones in N bits and the dividend
(R145). -/
def intDivisions : List ((IBin → Instr) × (IType → Int → Int → Int)) := [
  (.idiv, fun t x y => if y = 0 then (if itypeSigned t then -1 else 2 ^ itypeBits t - 1) else Int.tdiv x y),
  (.irem, fun _ x y => if y = 0 then x else x - Int.tdiv x y * y)]

end Sys2Proof.Machine

/-- The two-operand integer instructions write, in every active lane, their exact result saturated or wrapped to the type
and extended to the register (R127, R149), and nothing else. -/
def Obligations.IntegerBinaryResults : Prop :=
  ∀ s v f, ∀ op ∈ intBinary, Issues s f.h f.h.words (ibinNeed f v) v →
    ∃ g', exec (op.1 f) s = .next (s.withGroup v.g g') ∧
      WroteRegs v.grp g' f.d.r.toNat (regsOf f.ty) f.d.t v.act (fun L =>
        intOut (vecBits f.ty) f.ty f.sat (op.2 f.ty (v.src f.a (regsOf f.ty) L) (v.bop f.b (regsOf f.ty) immBits L))) ∧
      g'.rest = v.grp.rest ∧ WentOn v f.h g'

/-- The integer instructions of one and of three operands write, in every active lane, their exact result saturated or wrapped to
the type and extended; the two counts always write one register (R127, R146, R149). -/
def Obligations.IntegerUnaryTernaryResults : Prop :=
  (∀ s v f, ∀ op ∈ intUnary, Issues s f.h f.h.words (iunNeed f (regsOf f.ty) v) v →
    ∃ g', exec (op.1 f) s = .next (s.withGroup v.g g') ∧
      WroteRegs v.grp g' f.d.r.toNat (regsOf f.ty) f.d.t v.act (fun L =>
        intOut (vecBits f.ty) f.ty f.sat (op.2 f.ty (v.src f.a (regsOf f.ty) L))) ∧
      g'.rest = v.grp.rest ∧ WentOn v f.h g') ∧
  (∀ s v f, ∀ op ∈ intTernary, Issues s f.h f.h.words (itriNeed f v) v →
    ∃ g', exec (op.1 f) s = .next (s.withGroup v.g g') ∧
      WroteRegs v.grp g' f.d.r.toNat (regsOf f.ty) f.d.t v.act (fun L =>
        intOut (vecBits f.ty) f.ty f.sat
          (op.2 f.ty (v.src f.a (regsOf f.ty) L) (v.src f.b (regsOf f.ty) L) (v.src f.c (regsOf f.ty) L))) ∧
      g'.rest = v.grp.rest ∧ WentOn v f.h g') ∧
  (∀ s v f, ∀ op ∈ intCounts, Issues s f.h f.h.words (iunNeed f 1 v) v →
    ∃ g', exec (op.1 f) s = .next (s.withGroup v.g g') ∧
      WroteRegs v.grp g' f.d.r.toNat 1 f.d.t v.act (fun L => op.2 (itypeBits f.ty) (v.src f.a (regsOf f.ty) L)) ∧
      g'.rest = v.grp.rest ∧ WentOn v f.h g')

/-- `lea`, `sel`, `movi`, `cvti` and `rng` write one value; `icmp` writes a predicate and no register (R143, R147, R148,
R150). -/
def Obligations.IntegerMovesAndCompares : Prop :=
  (∀ s v f, Issues s f.h f.h.words (leaNeed f v) v → ∃ g', exec (.lea f) s = .next (s.withGroup v.g g') ∧
    WroteRegs v.grp g' f.d.r.toNat (regsOf f.ty) f.d.t v.act (fun L => intOut (vecBits f.ty) f.ty f.sat
      (readInt f.ty (v.src f.a (regsOf f.ty) L) + leaIndex f.ty (v.src f.b 1 L) * 2 ^ f.k.toNat)) ∧
    g'.rest = v.grp.rest ∧ WentOn v f.h g') ∧
  (∀ s v f, Issues s f.h f.h.words (selNeed f v) v → ∃ g', exec (.sel f) s = .next (s.withGroup v.g g') ∧
    WroteRegs v.grp g' f.d.r.toNat (regsOf f.ty) f.d.t v.act (fun L => intOut (vecBits f.ty) f.ty false
      (readInt f.ty (if v.p f.p L then v.src f.a (regsOf f.ty) L else v.bop f.b (regsOf f.ty) immBits L))) ∧
    g'.rest = v.grp.rest ∧ WentOn v f.h g') ∧
  (∀ s v f, Issues s f.h f.h.words (movisNeed f v) v → ∃ g', exec (.movi f) s = .next (s.withGroup v.g g') ∧
    WroteRegs v.grp g' f.d.r.toNat (regsOf f.ty) f.d.t v.act (fun _ =>
      intOut (vecBits f.ty) f.ty false (readInt f.ty (immBits f.imm))) ∧
    g'.rest = v.grp.rest ∧ WentOn v f.h g') ∧
  (∀ s v f, Issues s f.h f.h.words (cvtiNeed f v) v → ∃ g', exec (.cvti f) s = .next (s.withGroup v.g g') ∧
    WroteRegs v.grp g' f.d.r.toNat (regsOf f.ty) f.d.t v.act (fun L =>
      intOut (vecBits f.ty) f.ty f.sat (readInt f.src (v.src f.a (regsOf f.src) L))) ∧
    g'.rest = v.grp.rest ∧ WentOn v f.h g') ∧
  (∀ s v f, Issues s f.h f.h.words (rngNeed f v) v → ∃ g', exec (.rng f) s = .next (s.withGroup v.g g') ∧
    WroteRegs v.grp g' f.d.r.toNat 1 f.d.t v.act (fun L =>
      (rngDraw (v.grp.sreg f.b.toNat) f.n (v.grp.word f.a.r.toNat L)).toNat) ∧
    g'.rest = v.grp.rest ∧ WentOn v f.h g') ∧
  (∀ s v f, Issues s f.h f.h.words (icmpNeed f v) v → ∃ g', exec (.icmp f) s = .next (s.withGroup v.g g') ∧
    SameRegs v.grp g' ∧ WentOn v f.h g' ∧
    g'.rest = (v.grp.setPred f.p.toNat v.act (Lanes.ofFn fun L => compareInt f.cond
      (readInt f.ty (v.src f.a (regsOf f.ty) L)) (readInt f.ty (v.bop f.b (regsOf f.ty) immBits L)))).rest)

/-- `idiv` and `irem` write their result and, for an active lane whose divisor is zero, the flag IDIV0; where the context's
descriptor enables the fault and such a lane is active, `IDIV0` is raised for those lanes (R145). -/
def Obligations.DivisionResults : Prop :=
  ∀ s v f, ∀ op ∈ intDivisions, Issues s f.h f.h.words (ibinNeed f v) v →
    ((divTraps s.pk v.grp.ctx && (zeroDivisors f v).any) = false →
      ∃ g', exec (op.1 f) s = .next (s.withGroup v.g g') ∧
        WroteRegs v.grp g' f.d.r.toNat (regsOf f.ty) f.d.t v.act (fun L =>
          intOut (vecBits f.ty) f.ty false (op.2 f.ty (dividend f v L) (divisor f v L))) ∧
        g'.rest = (v.grp.orFlags (if (zeroDivisors f v).any then flIDIV0 else 0)).rest ∧ WentOn v f.h g') ∧
    ((divTraps s.pk v.grp.ctx && (zeroDivisors f v).any) = true →
      exec (op.1 f) s = .next (s.run fun w => raiseFault w v.g v.pc .idiv0 (zeroDivisors f v) 0 0))

/-! ## Classes 1 and 2: floating point and narrow formats -/

namespace Sys2Proof.Machine

/-- Two-operand float instructions, by their operation on the elements' codes (R155, R158 to R162). -/
def floatBinary : List ((FBin → Instr) × (FBin → Nat → Nat → Nat × Flags)) := [
  (.fadd, fun f => arith2 f fun t x y => addF t f.rnd f.o.satf x y),
  (.fsub, fun f => arith2 f fun t x y => addF t f.rnd f.o.satf x (negF y)),
  (.fmul, fun f => arith2 f fun t x y => mulF t f.rnd f.o.satf x y),
  (.fdiv, fun f => arith2 f fun t x y => divF t f.rnd f.o.satf x y),
  (.fmin, fun f => minmaxF (elemFmt f.ty) false),
  (.fmax, fun f => minmaxF (elemFmt f.ty) true)]

def floatUnary : List ((FUn → Instr) × (FUn → Nat → Nat × Flags)) := [
  (.fabs, fun f x => (optSign (elemFmt f.ty) true false x, 0)),
  (.fneg, fun f x => (optSign (elemFmt f.ty) false true x, 0)),
  (.fclass, fun f x => (classF (elemFmt f.ty) x, 0)),
  (.frcp, fun f => arith1 f fun t _ x => rcpF t f.rnd f.o.satf x),
  (.frsq, fun f => arith1 f fun t _ x => rsqF t f.rnd f.o.satf x),
  (.fsqrt, fun f => arith1 f fun t _ x => sqrtF t f.rnd f.o.satf x),
  (.fexp2, fun f => arith1 f fun t c x => exp2F t f.rnd f.o.satf c x),
  (.flog2, fun f => arith1 f fun t c x => log2F t f.rnd f.o.satf c x),
  (.ftanh, fun f => arith1 f fun t c x => tanhF t f.rnd c x),
  (.frnd, fun f => arith1 f fun t _ x => rndF t f.rnd x)]

/-- The results of the three-operand and the scaling instruction in a lane. -/
def ffmaIn (f : FTri) (v : View) (L : Fin 8) : Nat × Flags :=
  packElems (zip3
    (fun x y z => nanFirst (elemFmt f.ty) [x, y, z]
      (fmaF (elemFmt f.ty) f.rnd f.o.satf (decodeF (elemFmt f.ty) x) (decodeF (elemFmt f.ty) y) (decodeF (elemFmt f.ty) z)))
    (opA f.ty f.o (v.src f.a 1 L)) (opB f.ty f.o (v.src f.b 1 L)) (elems f.ty (v.src f.c 1 L)))

def fsclIn (f : FBin) (v : View) (L : Fin 8) : Nat × Flags :=
  packElems (List.zipWith
    (fun x n => nanFirst (elemFmt f.ty) [x] (sclF (elemFmt f.ty) f.rnd f.o.satf (decodeF (elemFmt f.ty) x) n))
    (opA f.ty f.o (v.src f.a 1 L)) (scalesOf f.ty (v.bop f.b 1 fimmVal L)))

/-- What a float instruction leaves: one register with the result in every active lane, and `fpst` with the flags of the
active lanes ORed in (R32, R48). -/
def FloatResult (i : Instr) (s : State) (v : View) (h : Hdr) (d : VDst) (r : Fin 8 → Nat × Flags) : Prop :=
  ∃ g', exec i s = .next (s.withGroup v.g g') ∧ WroteRegs v.grp g' d.r.toNat 1 d.t v.act (fun L => (r L).1) ∧
    g'.rest = (v.grp.orFlags (laneFlags v.act fun L => (r L).2)).rest ∧ WentOn v h g'

end Sys2Proof.Machine

/-- Float arithmetic of one, two and three operands: each element after its options, NaNs first, then the value rounded once,
with its flags (R155 to R162). -/
def Obligations.FloatArithmeticResults : Prop :=
  (∀ s v f, ∀ op ∈ floatBinary, Issues s f.h f.h.words (fbinNeed f v) v →
    FloatResult (op.1 f) s v f.h f.d fun L =>
      packElems (List.zipWith (op.2 f) (opA f.ty f.o (v.src f.a 1 L)) (opB f.ty f.o (v.bop f.b 1 fimmVal L)))) ∧
  (∀ s v f, ∀ op ∈ floatUnary, Issues s f.h f.h.words (funNeed f v) v →
    FloatResult (op.1 f) s v f.h f.d fun L => packElems ((opA f.ty f.o (v.src f.a 1 L)).map (op.2 f))) ∧
  (∀ s v f, Issues s f.h f.h.words (ftriNeed f v) v → FloatResult (.ffma f) s v f.h f.d (ffmaIn f v)) ∧
  (∀ s v f, Issues s f.h f.h.words (fbinNeed f v) v → FloatResult (.fscl f) s v f.h f.d (fsclIn f v))

/-- Conversions write one value and its flags; `fcmp` writes a predicate and no register (R163, R164). -/
def Obligations.FloatConversionsAndCompare : Prop :=
  (∀ s v f, Issues s f.h f.h.words (cvtfNeed f v) v → FloatResult (.cvtf f) s v f.h f.d fun L =>
    packElems ((opA f.src f.o (v.src f.a 1 L)).map (convFloat (elemFmt f.src) (elemFmt f.ty) f.rnd f.o.satf))) ∧
  (∀ s v f, Issues s f.h f.h.words (cvtifNeed f v) v → FloatResult (.cvtif f) s v f.h f.d fun L =>
    convFromInt (elemFmt f.ty) f.rnd f.o.satf (readInt f.it (v.src f.a (regsOf f.it) L))) ∧
  (∀ s v f, Issues s f.h f.h.words (cvtfiNeed f v) v → ∃ g', exec (.cvtfi f) s = .next (s.withGroup v.g g') ∧
    WroteRegs v.grp g' f.d.r.toNat (regsOf f.it) f.d.t v.act (fun L =>
      intOut (vecBits f.it) f.it false (cvtfiIn f v L).1) ∧
    g'.rest = (v.grp.orFlags (laneFlags v.act fun L => (cvtfiIn f v L).2)).rest ∧ WentOn v f.h g') ∧
  (∀ s v f, Issues s f.h f.h.words (fcmpNeed f v) v → ∃ g', exec (.fcmp f) s = .next (s.withGroup v.g g') ∧
    SameRegs v.grp g' ∧ WentOn v f.h g' ∧
    g'.rest = ((v.grp.setPred f.p.toNat v.act (Lanes.ofFn fun L => (fcmpIn f v L).1)).orFlags
      (laneFlags v.act fun L => (fcmpIn f v L).2)).rest)

/-- Scales, single elements and block images: `scenc`, `scdec`, `qnt`, `dqnt` and `blkmk` (R165 to R170). -/
def Sys2Proof.Part.NarrowFormatResults : Prop :=
  (∀ s v f, Issues s f.h f.h.words (scencNeed f v) v →
    FloatResult (.scenc f) s v f.h f.d fun L => scencVal f.bf f.rnd (v.src f.a 1 L)) ∧
  (∀ s v f, Issues s f.h f.h.words (daNeed f v) v → ∃ g', exec (.scdec f) s = .next (s.withGroup v.g g') ∧
    WroteRegs v.grp g' f.d.r.toNat 1 f.d.t v.act (fun L => scdecVal (v.src f.a 1 L)) ∧
    g'.rest = v.grp.rest ∧ WentOn v f.h g') ∧
  (∀ s v f, Issues s f.h f.h.words (qntNeed f v) v →
    FloatResult (.qnt f) s v f.h f.d fun L => quantElem f.bf f.rnd (v.src f.a 1 L) (qntScale f v L)) ∧
  (∀ s v f, Issues s f.h f.h.words (qntNeed f v) v →
    FloatResult (.dqnt f) s v f.h f.d fun L =>
      elemTimesScale f.bf (v.src f.a 1 L % 2 ^ bfmtBits f.bf) (qntScale f v L) .f32 f.rnd) ∧
  (∀ s v f, Issues s f.h f.h.words (blkmkNeed f v) v → ∃ g', exec (.blkmk f) s = .next (s.withGroup v.g g') ∧
    WroteRegs v.grp g' f.d.r.toNat 2 f.d.t v.act (fun L =>
      if L = 0 then v.src f.a 2 L / 2 ^ 16 * 2 ^ 16 + v.uni f.b 1 % 256 * 2 ^ 8 + bfmtCode f.bf
      else if L = 7 then v.src f.a 2 L % 2 ^ 48 else v.src f.a 2 L) ∧
    g'.rest = v.grp.rest ∧ WentOn v f.h g')

/-- `blkhd` and `amax` read the whole image in the pair: with a lane active, an image whose first byte names a format gives
the header word or the largest magnitude in every active lane, and one that names none faults with `BLK_FMT` for the active
lanes; with no lane active nothing is written (R139, R166, R171). -/
def Sys2Proof.Part.BlockImageReaders : Prop :=
  (∀ s v f, Issues s f.h f.h.words (imageNeed f.d f.a v) v →
    (∀ b, v.act.any = true → blockFmt (imageBytes v.grp f.a.r.toNat) anyFmt = some b →
      ∃ g', exec (.blkhd f) s = .next (s.withGroup v.g g') ∧
        WroteRegs v.grp g' f.d.r.toNat 1 f.d.t v.act (fun _ =>
          ((imageBytes v.grp f.a.r.toNat).getD 1 0).toNat * 2 ^ 16 + bfmtNum b * 2 ^ 8 + bfmtCount b) ∧
        g'.rest = v.grp.rest ∧ WentOn v f.h g') ∧
    (v.act.any = false → ∃ g', exec (.blkhd f) s = .next (s.withGroup v.g g') ∧ SameRegs v.grp g' ∧
      g'.rest = v.grp.rest ∧ WentOn v f.h g') ∧
    (v.act.any = true → blockFmt (imageBytes v.grp f.a.r.toNat) anyFmt = none →
      exec (.blkhd f) s = .next (s.run fun w => raiseFault w v.g v.pc .blkFmt v.act 0 0))) ∧
  (∀ s v f, Issues s f.h f.h.words (imageNeed f.d f.a v) v →
    (∀ b, v.act.any = true → blockFmt (imageBytes v.grp f.a.r.toNat) anyFmt = some b →
      FloatResult (.amax f) s v f.h f.d fun _ => blockAmax b (imageBytes v.grp f.a.r.toNat) f.rnd) ∧
    (v.act.any = false → ∃ g', exec (.amax f) s = .next (s.withGroup v.g g') ∧ SameRegs v.grp g' ∧
      g'.rest = v.grp.rest ∧ WentOn v f.h g') ∧
    (v.act.any = true → blockFmt (imageBytes v.grp f.a.r.toNat) anyFmt = none →
      exec (.amax f) s = .next (s.run fun w => raiseFault w v.g v.pc .blkFmt v.act 0 0)))

/-- Together: `Sys2Proof.Part.NarrowFormatResults`, `Sys2Proof.Part.BlockImageReaders`. -/
def Obligations.FloatNarrowAndBlockResults : Prop :=
  Sys2Proof.Part.NarrowFormatResults ∧ Sys2Proof.Part.BlockImageReaders

/-! ## Class 3: exchanges, reductions and votes -/

namespace Sys2Proof.Machine

/-- The exchanges with the lane each reads (R175, R176). -/
def exchanges : List ((ExchF → Instr) × Exch) := [
  (.qswh, .xor 1), (.qswv, .xor 2), (.qswd, .xor 3), (.qbc, .quad), (.shfl, .idx), (.shflx, .xorB), (.shfld, .down),
  (.gbc, .one)]

/-- The votes: the predicate each writes (R182). -/
def votes : List ((VoteF → Instr) × (View → VoteF → Bool)) := [
  (.vany, fun v f => (voters v f.p).any),
  (.vall, fun v f => v.real.subset (voters v f.p))]

end Sys2Proof.Machine

/-- An exchange gives each active lane the value of its source lane, or zero where that lane is out of range or neither live
nor helper, and says so in the indicator predicate (R175, R176). -/
def Obligations.ExchangeResults : Prop :=
  ∀ s v f, ∀ op ∈ exchanges, Issues s f.h f.h.words (exchNeed op.2 f v) v →
    ∃ g', exec (op.1 f) s = .next (s.withGroup v.g g') ∧
      WroteRegs v.grp g' f.d.r.toNat (ltypeRegs f.ty) f.d.t v.act (fun L =>
        match exchSource op.2 f v L with
        | some k => v.src f.a (ltypeRegs f.ty) k
        | none => 0) ∧
      g'.rest = (v.grp.setPred f.ind.toNat v.act (Lanes.ofFn fun L => (exchSource op.2 f v L).isNone)).rest ∧
      WentOn v f.h g'

/-- Reductions give every active lane the root of the tree over the contributing lanes; scans give lane L the prefix up to
L, or before L with `.excl`; their flags go to `fpst` (R177 to R181). -/
def Obligations.ReductionAndScanResults : Prop :=
  (∀ s v f, Issues s f.h f.h.words (redNeed f v) v → ∃ g', exec (.gred f) s = .next (s.withGroup v.g g') ∧
    WroteRegs v.grp g' f.d.r.toNat (redRegs f) f.d.t v.act (fun _ =>
      redOut f.ty f.lop (prefixes f.ty f.lop (redLeaves f v)).l7.1) ∧
    g'.rest = (v.grp.orFlags (if v.act.any then (prefixes f.ty f.lop (redLeaves f v)).l7.2 else 0)).rest ∧
    WentOn v f.h g') ∧
  (∀ s v f, Issues s f.h f.h.words (redNeed f v) v → ∃ g', exec (.gscan f) s = .next (s.withGroup v.g g') ∧
    WroteRegs v.grp g' f.d.r.toNat (redRegs f) f.d.t v.act (fun L => redOut f.ty f.lop (scanPrefix f v L).1) ∧
    g'.rest = (v.grp.orFlags (laneFlags v.act fun L => (scanPrefix f v L).2)).rest ∧ WentOn v f.h g')

/-- `ballot`, `match` and `actm` write masks of lanes; the votes, `elect`, `helper` and `unif` write predicates and no
register (R182, R183). -/
def Obligations.VoteAndMaskResults : Prop :=
  (∀ s v f, Issues s f.h f.h.words (ballotNeed f v) v → ∃ g', exec (.ballot f) s = .next (s.withGroup v.g g') ∧
    WroteRegs v.grp g' f.d.r.toNat 1 f.d.t v.act (fun _ => (voters v f.p).toByte.toNat) ∧
    g'.rest = v.grp.rest ∧ WentOn v f.h g') ∧
  (∀ s v f, Issues s f.h f.h.words (matchNeed f v) v → ∃ g', exec (.vmatch f) s = .next (s.withGroup v.g g') ∧
    WroteRegs v.grp g' f.d.r.toNat 1 f.d.t v.act (fun L =>
      (Mask.toByte (Lanes.ofFn fun n => v.real.get n && cmpVal f.ty f.a v n == cmpVal f.ty f.a v L)).toNat) ∧
    g'.rest = v.grp.rest ∧ WentOn v f.h g') ∧
  (∀ s v f, Issues s f.h f.h.words (actmNeed f v) v → ∃ g', exec (.actm f) s = .next (s.withGroup v.g g') ∧
    WroteRegs v.grp g' f.d.r.toNat 1 f.d.t v.act (fun _ => v.act.toByte.toNat + v.m.toByte.toNat * 2 ^ 8 +
      v.grp.helpers.toByte.toNat * 2 ^ 16 + (exitedLanes v.grp).toByte.toNat * 2 ^ 24) ∧
    g'.rest = v.grp.rest ∧ WentOn v f.h g') ∧
  (∀ s v f, ∀ op ∈ votes, Issues s f.h f.h.words {} v → ∃ g', exec (op.1 f) s = .next (s.withGroup v.g g') ∧
    SameRegs v.grp g' ∧ WentOn v f.h g' ∧ g'.rest = (v.grp.setPred f.d.toNat v.act (Lanes.ofFn fun _ => op.2 v f)).rest) ∧
  (∀ s v f, Issues s f.h f.h.words {} v → ∃ g', exec (.elect f) s = .next (s.withGroup v.g g') ∧
    SameRegs v.grp g' ∧ WentOn v f.h g' ∧
    g'.rest = (v.grp.setPred f.d.toNat v.act (Lanes.ofFn fun L => v.real.lanes.head? == some L)).rest) ∧
  (∀ s v f, Issues s f.h f.h.words {} v → ∃ g', exec (.helper f) s = .next (s.withGroup v.g g') ∧
    SameRegs v.grp g' ∧ WentOn v f.h g' ∧
    g'.rest = (v.grp.setPred f.d.toNat v.act (Lanes.ofFn fun L => v.grp.helpers.get L)).rest) ∧
  (∀ s v f, Issues s f.h f.h.words (unifNeed f v) v → ∃ g', exec (.unif f) s = .next (s.withGroup v.g g') ∧
    SameRegs v.grp g' ∧ WentOn v f.h g' ∧
    g'.rest = (v.grp.setPred f.d.toNat v.act (Lanes.ofFn fun _ => v.judged.lanes.all fun L => v.judged.lanes.all fun K =>
      cmpVal f.ty f.a v L == cmpVal f.ty f.a v K)).rest)

/-! ## Class 4: scalars -/

namespace Sys2Proof.Machine

def scalarBinary : List ((SBin → Instr) × (IType → Nat → Nat → Int)) := [
  (.sadd, fun t x y => readInt t x + readInt t y),
  (.ssub, fun t x y => readInt t x - readInt t y),
  (.smul, fun t x y => readInt t x * readInt t y),
  (.smulh, fun t x y => readInt t x * readInt t y / 2 ^ itypeBits t),
  (.smin, fun t x y => min (readInt t x) (readInt t y)),
  (.smax, fun t x y => max (readInt t x) (readInt t y)),
  (.sand, fun _ x y => (x &&& y : Nat)),
  (.sor, fun _ x y => (x ||| y : Nat)),
  (.sxor, fun _ x y => (x ^^^ y : Nat)),
  (.sshl, fun t x y => readInt t x * 2 ^ shiftCount t y),
  (.sshr, fun t x y => (lowBits (itypeBits t) x / 2 ^ shiftCount t y : Nat)),
  (.ssar, fun t x y => readInt t x / 2 ^ shiftCount t y)]

def scalarUnary : List ((SUn → Instr) × (IType → Nat → Int)) := [
  (.smov, fun t x => readInt t x),
  (.sabs, fun t x => (readInt t x).natAbs),
  (.sneg, fun t x => -readInt t x),
  (.snot, fun _ x => -(x : Int) - 1),
  (.sbrev, fun t x => reverseBits (itypeBits t) x)]

def scalarCounts : List ((SUn → Instr) × (Nat → Nat → Nat)) := [(.spopc, popCount), (.sclz, leadingZeros)]

/-- What a scalar instruction leaves: the scalar register written once for the group when a lane is active, nothing when
none is, and no other register (R69, R151). -/
def ScalarResult (i : Instr) (s : State) (v : View) (h : Hdr) (d : BitVec 5) (x : Nat) : Prop :=
  ∃ g', exec i s = .next (s.withGroup v.g g') ∧ SameRegs v.grp g' ∧
    g'.rest = (if v.act.any then v.grp.setSreg d.toNat (BitVec.ofNat 64 x) else v.grp).rest ∧ WentOn v h g'

end Sys2Proof.Machine

/-- Scalar arithmetic: the exact result saturated or wrapped to the type and extended to 64 bits (R69, R151). -/
def Sys2Proof.Part.ScalarResults : Prop :=
  (∀ s v f, ∀ op ∈ scalarBinary, Issues s f.h f.h.words {} v →
    ScalarResult (op.1 f) s v f.h f.d (intOut 64 f.ty f.sat (op.2 f.ty (v.s f.a) (v.sop f.b)))) ∧
  (∀ s v f, ∀ op ∈ scalarUnary, Issues s f.h f.h.words {} v →
    ScalarResult (op.1 f) s v f.h f.d (intOut 64 f.ty f.sat (op.2 f.ty (v.s f.a)))) ∧
  (∀ s v f, ∀ op ∈ scalarCounts, Issues s f.h f.h.words {} v →
    ScalarResult (op.1 f) s v f.h f.d (op.2 (itypeBits f.ty) (v.s f.a))) ∧
  (∀ s v f, Issues s f.h f.h.words {} v →
    ScalarResult (.smovi f) s v f.h f.d (intOut 64 f.ty false (readInt f.ty (immBits f.imm))))

/-- `scmp` writes its predicate in each active lane; `rds` writes the special register's value into a scalar register, or into
the vector registers of every active lane (R28 to R31, R152, R153). -/
def Sys2Proof.Part.ScalarCompareAndSpecialReads : Prop :=
  (∀ s v f, Issues s f.h f.h.words {} v → ∃ g', exec (.scmp f) s = .next (s.withGroup v.g g') ∧
    SameRegs v.grp g' ∧ WentOn v f.h g' ∧
    g'.rest = (v.grp.setPred f.p.toNat v.act (Lanes.ofFn fun _ =>
      compareInt f.cond (readInt f.ty (v.s f.a)) (readInt f.ty (v.sop f.b)))).rest) ∧
  (∀ s v h sr d, Issues s h h.words (rdsNeed ⟨h, .s d, sr⟩ v) v →
    ScalarResult (.rds ⟨h, .s d, sr⟩) s v h d
      (specialReg (Work.start s) v.grp sr.toNat (v.act.lanes.headD 0) % 2 ^ 64)) ∧
  (∀ s v h sr r t, Issues s h h.words (rdsNeed ⟨h, .v r t, sr⟩ v) v →
    ∃ g', exec (.rds ⟨h, .v r t, sr⟩) s = .next (s.withGroup v.g g') ∧
      WroteRegs v.grp g' (uniReg r (srRegs sr.toNat)) (srRegs sr.toNat) t v.act (fun L =>
        specialReg (Work.start s) v.grp sr.toNat L) ∧
      g'.rest = v.grp.rest ∧ WentOn v h g')

/-- Together: `Sys2Proof.Part.ScalarResults`, `Sys2Proof.Part.ScalarCompareAndSpecialReads`. -/
def Obligations.ScalarResultsAndReads : Prop :=
  Sys2Proof.Part.ScalarResults ∧ Sys2Proof.Part.ScalarCompareAndSpecialReads

/-! ## Class 5: control -/

namespace Sys2Proof.Machine

/-- The active lanes go to the address in their own pair. -/
def ownTargets (f : BrxF) (v : View) (L : Fin 8) : Option PC :=
  if v.act.get L then some (pcOfVa (v.src f.a 2 L)) else none

def indirect : List (BrxF → Instr) := [.brx, .ret]

/-- The active lanes of the mask that `waitj` names. -/
def waitHeld (f : WaitjF) (v : View) : Mask := Mask.inter v.act (Mask.ofByte (v.grp.jmask f.j.toNat).1)

/-- The time for which `sleep` waits: the largest value of its active lanes (R87). -/
def sleepUntil (f : UniF) (v : View) : Nat := v.act.lanes.foldl (fun t L => max t (v.uniIn f.a 2 L)) 0

end Sys2Proof.Machine

/-- `bra` sends the active lanes to its target and the other lanes of the split to the next word; `call` does the same and
writes the address of the next word to its pair (R57, R75, R78). -/
def Obligations.BranchAndCallTargets : Prop :=
  (∀ s v f, Issues s f.h f.h.words {} v →
    OnlyMoved (.bra f) s v f.h fun L => if v.act.get L then some (v.target f.disp) else none) ∧
  (∀ s v f, Issues s f.h f.h.words (callNeed f v) v → ∃ g', exec (.call f) s = .next (s.withGroup v.g g') ∧
    WroteRegs v.grp g' f.d.r.toNat 2 f.d.t v.act (fun _ => (pcVa v.next).toNat) ∧ g'.rest = v.grp.rest ∧
    WentTo v f.h g' fun L => if v.act.get L then some (v.target f.disp) else none)

/-- `brx` and `ret` send each active lane to the address in its own pair, or fault with `PROT` for the lanes whose address is no
code address; the return transfer of a handler also ends handler mode, for a group that leads no stopped block and whose handler
set aside no instruction completed meanwhile (R77, R381). -/
def Obligations.IndirectTransfers : Prop :=
  ∀ s v f, ∀ mk ∈ indirect, Issues s f.h f.h.words (brxNeed f v) v →
    ((badTargets f v).any = false → isReturn v (byTarget (v.src f.a 2) v.act.lanes) = false →
      OnlyMoved (mk f) s v f.h (ownTargets f v)) ∧
    ((badTargets f v).any = true → exec (mk f) s = .next (s.run fun w =>
      raiseFault w v.g v.pc .prot (badTargets f v) (v.src f.a 2 ((badTargets f v).lanes.headD 0)) 0)) ∧
    ((badTargets f v).any = false → isReturn v (byTarget (v.src f.a 2) v.act.lanes) = true →
      (∀ b, s.pk.blocks.find? v.grp.blk = some b → b.lead ≠ some v.g) → (∀ x, v.grp.handler = some x → x.completed = none) →
      ∃ g', exec (mk f) s = .next (s.withGroup v.g g') ∧ SameRegs v.grp g' ∧
        g'.rest = { v.grp.rest with handler := none } ∧ WentTo v f.h g' (ownTargets f v))

/-- `switch` sends a lane that equals case k to arm k, and every other lane past the case word (R79). -/
def Obligations.SwitchArms : Prop :=
  ∀ s v f, switchWf f = true → Issues s f.h 2 (switchNeed f v) v →
    ∃ g', exec (.switch f) s = .next (s.withGroup v.g g') ∧ SameRegs v.grp g' ∧ g'.rest = v.grp.rest ∧
      (v.noneHeld → ∀ L, v.m.get L = true → v.grp.running.get L = true →
        (∀ k : Fin 8, v.act.get L = true → k.val ≤ f.ncase.toNat →
          (v.grp.word f.a.r.toNat L).toInt = (f.cases.get k).toInt →
          (g'.lane L).pc = pcPlus v.pc (f.disp.toInt + k.val * f.stride.toNat)) ∧
        ((v.act.get L = false ∨ ∀ k : Fin 8, k.val ≤ f.ncase.toNat →
          (v.grp.word f.a.r.toNat L).toInt ≠ (f.cases.get k).toInt) → (g'.lane L).pc = pcPlus v.pc 2))

/-- `join` and `jwr` set a rejoin mask, with the MR of the active lanes for `join`; `jrd` reads one (R80, R83). -/
def Obligations.RejoinMaskWrites : Prop :=
  (∀ s v f, Issues s f.h f.h.words {} v → ∃ g', exec (.join f) s = .next (s.withGroup v.g g') ∧
    SameRegs v.grp g' ∧ g'.rest = v.grp.rest ∧
    StandsAt v f.h g' (v.goTo fun _ => none)
      (fun L => if v.act.get L then v.target f.disp else v.mrs L)
      (v.grp.setJmask f.j.toNat (v.act.toByte, v.target f.disp)).jmasks) ∧
  (∀ s v f, Issues s f.h f.h.words {} v → ∃ g', exec (.jwr f) s = .next (s.withGroup v.g g') ∧
    SameRegs v.grp g' ∧ g'.rest = v.grp.rest ∧
    StandsAt v f.h g' (v.goTo fun _ => none) v.mrs
      (if v.act.any then v.grp.setJmask f.j.toNat (jmaskOf v.grp (v.s f.s)) else v.grp).jmasks) ∧
  (∀ s v f, Issues s f.h f.h.words {} v →
    ScalarResult (.jrd f) s v f.h f.s (jmaskWord (v.grp.jmask f.j.toNat)))

/-- `waitj` completes and changes no register. At another address than the mask's, or with no active lane in the mask, nothing
is held, and at the address of an empty mask the address becomes zero; lanes of the mask are held at the `waitj` while another
lane of it is missing, with those that are held there already; and when every lane of the mask has come they go on, with MR
zero and the mask cleared (R71, R81). -/
def Obligations.WaitjHoldsAndReleases : Prop :=
  ∀ s v f, Issues s f.h f.h.words {} v →
    (∃ g', exec (.waitj f) s = .next (s.withGroup v.g g') ∧ SameRegs v.grp g' ∧ g'.rest = v.grp.rest) ∧
    ((v.pc ≠ (v.grp.jmask f.j.toNat).2 ∨
        (waitHeld f v).any = false ∧ ((v.grp.jmask f.j.toNat).1 ≠ 0 ∨ v.act.any = false)) →
      OnlyMoved (.waitj f) s v f.h fun _ => none) ∧
    (v.pc = (v.grp.jmask f.j.toNat).2 → (v.grp.jmask f.j.toNat).1 = 0 → v.act.any = true →
      ∃ g', exec (.waitj f) s = .next (s.withGroup v.g g') ∧ SameRegs v.grp g' ∧ g'.rest = v.grp.rest ∧
        StandsAt v f.h g' (v.goTo fun _ => none) v.mrs (v.grp.setJmask f.j.toNat (0, 0)).jmasks) ∧
    (v.pc = (v.grp.jmask f.j.toNat).2 → (Mask.inter (waitHeld f v) v.grp.running).any = true → v.noneHeld →
      (∃ L : Fin 8, (v.grp.jmask f.j.toNat).1.getLsbD L.val = true ∧
        (v.act.get L = false ∨ v.grp.running.get L = false)) →
      ∃ g', exec (.waitj f) s = .next (s.withGroup v.g g') ∧ SameRegs v.grp g' ∧ g'.rest = v.grp.rest ∧
        WentTo v f.h g' (fun L => if (waitHeld f v).get L then some v.pc else none) ∧
        ∃ x ∈ g'.splits, x.cond = .held f.j ∧ x.lanes = Mask.inter (waitHeld f v) v.grp.running) ∧
    (v.pc = (v.grp.jmask f.j.toNat).2 → (waitHeld f v).any = true →
      (∀ L : Fin 8, (v.grp.jmask f.j.toNat).1.getLsbD L.val = true → v.act.get L = true ∧ v.grp.running.get L = true) →
      ∃ g', exec (.waitj f) s = .next (s.withGroup v.g g') ∧ SameRegs v.grp g' ∧ g'.rest = v.grp.rest ∧
        StandsAt v f.h g' (v.goTo fun _ => none)
          (fun L => if (v.grp.jmask f.j.toNat).1.getLsbD L.val then 0 else v.mrs L)
          (v.grp.setJmask f.j.toNat (0, 0)).jmasks) ∧
    (∀ t, v.pc = (v.grp.jmask f.j.toNat).2 → (Mask.inter (waitHeld f v) v.grp.running).any = true →
      v.grp.splits.tail.filter (fun x => x.cond.isHeld) = [t] → t.cond = .held f.j → t.nxt = v.next →
      (∀ L, t.lanes.get L = true → v.grp.running.get L = true ∧ v.m.get L = false ∧ (v.grp.lane L).pc = v.pc ∧
        (v.grp.jmask f.j.toNat).1.getLsbD L.val = true) →
      let come (L : Fin 8) : Bool := (Mask.inter (waitHeld f v) v.grp.running).get L || t.lanes.get L
      ((∃ L : Fin 8, (v.grp.jmask f.j.toNat).1.getLsbD L.val = true ∧ come L = false) →
        ∃ g', exec (.waitj f) s = .next (s.withGroup v.g g') ∧ g'.jmasks = v.grp.jmasks ∧
          (∀ L, (g'.lane L).mr = (v.grp.lane L).mr ∧
            (g'.lane L).pc = v.goTo (fun L => if (waitHeld f v).get L then some v.pc else none) L) ∧
          ∃ x ∈ g'.splits, x.cond = .held f.j ∧ ∀ L, x.lanes.get L = come L) ∧
      ((∀ L : Fin 8, (v.grp.jmask f.j.toNat).1.getLsbD L.val = true → come L = true) →
        ∃ g', exec (.waitj f) s = .next (s.withGroup v.g g') ∧ g'.jmasks = (v.grp.setJmask f.j.toNat (0, 0)).jmasks ∧
          ∀ L, if come L = true then (g'.lane L).pc = v.next ∧ (g'.lane L).mr = 0
            else (g'.lane L).pc = v.goTo (fun _ => none) L ∧ (g'.lane L).mr = (v.grp.lane L).mr))

/-- `nop` and `yield` change no state of the group but its place in the ring; `sleep` goes on when its time has come or no lane
is active, and else waits for it (R72, R85, R87). -/
def Sys2Proof.Part.NopYieldAndSleep : Prop :=
  (∀ s v f, Issues s f.h f.h.words {} v → OnlyMoved (.nop f) s v f.h fun _ => none) ∧
  (∀ s v f, Issues s f.h f.h.words {} v → OnlyMoved (.yield f) s v f.h fun _ => none) ∧
  (∀ s v f, Issues s f.h f.h.words (sleepNeed f v) v →
    ((v.act.any = false ∨ sleepUntil f v ≤ s.pk.cycle.toNat) → OnlyMoved (.sleep f) s v f.h fun _ => none) ∧
    (v.act.any = true → s.pk.cycle.toNat < sleepUntil f v →
      ∃ g', exec (.sleep f) s = .next (s.withGroup v.g g') ∧ SameRegs v.grp g' ∧ g'.rest = v.grp.rest ∧
        GoesOrWaits v f.h g' (some (.sleep (BitVec.ofNat 64 (sleepUntil f v))))))

/-- `exit` of lanes that run no items: the active lanes, and the helpers of a quad that keeps no live lane, are exited and out
of every rejoin mask; when no lane of the group is left the group is gone (R13, R82, R86). -/
def Obligations.ExitOfLanes : Prop :=
  ∀ s v f, Issues s f.h f.h.words {} v → (∀ L, v.act.get L = true → (v.grp.lane L).item = none) →
    ((v.grp.exit (v.grp.leaving v.act)).running.any = true →
      ∃ g', exec (.exit f) s = .next (s.withGroup v.g g') ∧ SameRegs v.grp g' ∧
        g'.rest = (v.grp.exit (v.grp.leaving v.act)).rest ∧
        ∀ L, (g'.lane L).st = if (v.grp.leaving v.act).get L then .exited else (v.grp.lane L).st) ∧
    ((v.grp.exit (v.grp.leaving v.act)).running.any = false →
      ∃ t, exec (.exit f) s = .next t ∧ t.pk.groups.find? v.g = none)

/-- `brk` with a lane active stops its block before it retires, and after the resume it is passed over; `trap` with a lane
active raises `TRAP` with its number; with no lane active both go on (R88, R387, R388). -/
def Sys2Proof.Part.BreakAndTrap : Prop :=
  (∀ s v f, Issues s f.h f.h.words {} v →
    (∀ b, v.act.any = true → v.grp.pastBrk ≠ some v.pc → s.pk.blocks.find? v.grp.blk = some b → b.stopped = none →
      b.stat = .begun → ∃ t, exec (.brk f) s = .next t ∧
        (∃ b', t.pk.blocks.find? v.grp.blk = some b' ∧ b'.stopped = some .brk) ∧
        ∃ g', t.pk.groups.find? v.g = some g' ∧ SameRegs v.grp g' ∧ (∀ L, (g'.lane L).pc = (v.grp.lane L).pc)) ∧
    (v.act.any = true → v.grp.pastBrk = some v.pc → ∃ g', exec (.brk f) s = .next (s.withGroup v.g g') ∧
      SameRegs v.grp g' ∧ g'.rest = { v.grp.rest with pastBrk := none } ∧ WentOn v f.h g') ∧
    (v.act.any = false → OnlyMoved (.brk f) s v f.h fun _ => none)) ∧
  (∀ s v f, Issues s f.h f.h.words {} v →
    (v.act.any = true → exec (.trap f) s = .next (s.run fun w => raiseFault w v.g v.pc .trap v.act 0 f.n.toNat)) ∧
    (v.act.any = false → OnlyMoved (.trap f) s v f.h fun _ => none))

/-- Together: `Sys2Proof.Part.NopYieldAndSleep`, `Sys2Proof.Part.BreakAndTrap`. -/
def Obligations.NopSleepBreakTrap : Prop :=
  Sys2Proof.Part.NopYieldAndSleep ∧ Sys2Proof.Part.BreakAndTrap

/-! ## Classes 6 and 7: memory -/

namespace Sys2Proof.Machine

def loads : List ((MemF → Instr) × Space) := [(.ld, .global), (.ldl, .loc), (.ldp, .priv)]
def stores : List ((MemF → Instr) × Space) := [(.st, .global), (.stl, .loc), (.stp, .priv)]

/-- The atomics with their operation numbers (R117). -/
def atomics : List ((AtomF → Instr) × Nat) := [
  (.aadd, 0), (.amin, 1), (.amaxAtomic, 2), (.aand, 3), (.aor, 4), (.axor, 5), (.axch, 6), (.acas, 7), (.ainc, 8), (.ared, 9)]

/-- The checks of the active lanes' accesses, once the instruction has been counted, and the machine with what their
translations cached (R108). -/
def accessChecks (s : State) (v : View) (n : Need) (sp : Space) (a : Acc) (m : MemRef) (bytes : Nat) :
    Lanes (Option Chk) × Work :=
  checkLanes ((Work.start s).issued v n) v fun L w => checkLane w v.grp sp a (v.ea m L) bytes L

/-- The active lanes' accesses are sound, and the tables and the lift line have room (R108, R109, R248). -/
abbrev accessGoes (v : View) (r : Lanes (Option Chk) × Work) (a : Acc) (hd : Nat) : Prop :=
  accessFault v r.1 a = none ∧ roomWait r.2.pk v hd = none

/-- One lane, as a mask. -/
def oneLane (L : Fin 8) : Mask := Mask.none.set L true

/-- The instruction completes and has no effect: memory, the accesses, the group and the rest of the package are as they were. -/
def NoEffect (i : Instr) (s : State) (v : View) (h : Hdr) : Prop :=
  ∃ t g', Completed i s v h t g' ∧ t.mem = s.mem ∧ SameGroup v.grp g' ∧ t.pk.txns = s.pk.txns ∧ t.pk.beside = s.pk.beside

/-- Of the group only a chain, the numbers of its lanes' buffered stores and places differ. -/
def SameButSeqs (g g' : Group) : Prop :=
  SameRegs g g' ∧ { g'.rest with lanes := g.lanes, chains := [] } = { g.rest with lanes := g.lanes, chains := [] } ∧
    ∀ L, { (g'.lane L).rest with dseq := 0 } = { (g.lane L).rest with dseq := 0 }

/-- The lane, address, bytes of memory and data of each lane of m that has a part of an access, in lane order. -/
def laneParts (m : Mask) (ops : Lanes (Option LaneOp)) : List (Nat × W64 × List Nat × List Byte) :=
  m.lanes.filterMap fun L => (ops.get L).map fun o => (L.val, o.va, o.keys, o.data)

/-- The block of the group, in a DET launch, has these entries more, in their order; no other block has changed (R213, R218). -/
def Buffered (s t : State) (v : View) (kind n atype : Nat) (l : List (Nat × W64 × List Nat × List Byte)) : Prop :=
  ∀ b d, s.pk.blocks.find? v.grp.blk = some b → b.det = some d →
    (∀ j, j ≠ v.grp.blk → t.pk.blocks.find? j = s.pk.blocks.find? j) ∧
    ∃ es, t.pk.blocks.find? v.grp.blk = some { b with det := some { d with entries := d.entries ++ es } } ∧
      es.map (fun e => (e.lane, e.addr, e.keys, e.data)) = l ∧
      ∀ e ∈ es, e.kind = kind ∧ e.width = n ∧ e.atype = atype ∧ e.gidx = v.grp.gidx ∧
        e.epoch = entryEpoch (Work.start s) v.grp d

/-- The spill slot of the block has room for an entry of every lane (R218). -/
abbrev slotRoom (w : Work) (v : View) (d : Det) : Prop := d.entries.length + 8 ≤ detCapacity w v.grp

end Sys2Proof.Machine

/-- A load with a lane active whose addresses are sound starts one access: each active lane's part reads the bytes at its
effective address, its destination registers are empty until the data comes, and nothing else of the machine changes; with no
lane active it does nothing (R95, R106). -/
def Obligations.LoadsStart : Prop :=
  ∀ s v f, ∀ op ∈ loads, Issues s f.h f.h.words (memNeed f true v) v →
    let n := widthBytes f.width
    let r := accessChecks s v (memNeed f true v) op.2 .load f.mem n
    (v.act.any = true → accessGoes v r .load f.hd.toNat →
      ∃ t g' x, exec (op.1 f) s = .next t ∧ Started s v f.h f.hd.toNat t g' x ∧
        x.kind = .load f.d.r.toNat (bytesRegs n) n ∧ x.scope = f.scope ∧ x.ord = f.ord ∧
        (∀ L, x.ops.get L = loadOp (v.ea f.mem L) (r.1.get L)) ∧
        AwaitsRegs v.grp g' f.d.r.toNat (bytesRegs n) v.act ∧ WentOn v f.h g') ∧
    (v.act.any = false → OnlyMoved (op.1 f) s v f.h fun _ => none)

/-- A store with a lane to store starts one access that holds, for each lane that stores, the bytes of its data and the bytes of
memory at its effective address; no register and no byte of memory changes until it performs (R95, R107). A helper's global or
local store is suppressed (R15). A global store in a DET launch is staged: its block's slot has an entry more for each lane (R213,
R214). -/
def Obligations.StoresStart : Prop :=
  ∀ s v f, ∀ op ∈ stores, Issues s f.h f.h.words (memNeed f false v) v →
    let n := widthBytes f.width
    let r := accessChecks s v (memNeed f false v) op.2 .store f.mem n
    let ops := storeOps (if op.2 = .priv then v.act else v.real) (v.ea f.mem) r.1 (storeData v f.d n)
    (v.act.any = true → accessGoes v r .store f.hd.toNat → (op.2 = .global → stagedBlk r.2 v.grp = none) →
      (∃ L, (ops.get L).isSome = true) →
      ∃ t g' x, exec (op.1 f) s = .next t ∧ Started s v f.h f.hd.toNat t g' x ∧ x.staged = none ∧
        x.kind = .store ∧ x.scope = f.scope ∧ x.ord = f.ord ∧ x.ops = ops ∧ SameRegs v.grp g' ∧ WentOn v f.h g') ∧
    (∀ d, v.act.any = true → accessGoes v r .store f.hd.toNat → op.2 = .global → detOf r.2 v.grp = some d → slotRoom r.2 v d →
      (∃ L, (ops.get L).isSome = true) →
      ∃ t g' x, Completed (op.1 f) s v f.h t g' ∧ t.mem = s.mem ∧ SameButSeqs v.grp g' ∧
        t.pk.txns.find? s.pk.fresh = some x ∧ x.kind = .store ∧ x.ops = ops ∧ x.staged = some v.grp.blk ∧
        (∀ j, j ≠ s.pk.fresh → t.pk.txns.find? j = s.pk.txns.find? j) ∧ Buffered s t v 0 n 0 (laneParts v.real ops) ∧
        { t.pk.beside with blocks := [] } = { s.pk.beside with blocks := [] }) ∧
    (v.act.any = true → accessGoes v r .store f.hd.toNat → (∀ L, ops.get L = none) → NoEffect (op.1 f) s v f.h) ∧
    (v.act.any = false → OnlyMoved (op.1 f) s v f.h fun _ => none)

/-- `sld` and `sst` with a lane active start one access for the group, at the address in their scalar registers; the split of
an `sld` stands at the instruction until its data is there, and no split of the group issues meanwhile. The `sld` of helper lanes
whose access fails writes zero, their `sst` has no effect, and the `sst` of a DET launch is staged (R15, R154, R213). -/
def Obligations.ScalarMemoryStarts : Prop :=
  (∀ s v f, Issues s f.h f.h.words {} v → v.act.any = true →
    let n := itypeBits f.ty / 8
    let r := chkGlobal ((Work.start s).issued v {}) v.grp.ctx .load (smemEa f v) n n
    ∀ ks, r.1 = .ok ks → roomWait r.2.pk v 0 = none →
      ∃ t g' x, exec (.sld f) s = .next t ∧ Started s v f.h 0 t g' x ∧ x.kind = .sload f.d.toNat f.ty v.act ∧
        x.ops = oneOp v.lead (plainOp (smemEa f v) ks []) ∧ SameRegs v.grp g' ∧
        GoesOrWaits v f.h g' (some (.txn s.pk.fresh)) ∧ sldPending t.pk v.g = true) ∧
  (∀ s v f, Issues s f.h f.h.words {} v → v.act.any = true → v.real.any = false →
    let n := itypeBits f.ty / 8
    ∀ step code addr, (chkGlobal ((Work.start s).issued v {}) v.grp.ctx .load (smemEa f v) n n).1 = .bad step code addr →
      ∃ t g', Completed (.sld f) s v f.h t g' ∧ t.mem = s.mem ∧ SameRegs v.grp g' ∧
        g'.rest = (v.grp.setSreg f.d.toNat 0).rest ∧ t.pk.txns = s.pk.txns ∧ t.pk.beside = s.pk.beside) ∧
  (∀ s v f, Issues s f.h f.h.words {} v → v.real.any = true →
    let n := itypeBits f.ty / 8
    let r := chkGlobal ((Work.start s).issued v {}) v.grp.ctx .store (smemEa f v) n n
    ∀ ks, r.1 = .ok ks → roomWait r.2.pk v 0 = none → detOf r.2 v.grp = none →
      ∃ t g' x, exec (.sst f) s = .next t ∧ Started s v f.h 0 t g' x ∧ x.kind = .sstore ∧ x.staged = none ∧
        x.ops = oneOp v.lead (plainOp (smemEa f v) ks (valBytes n (v.s f.d))) ∧ SameRegs v.grp g' ∧ WentOn v f.h g') ∧
  (∀ s v f, Issues s f.h f.h.words {} v → v.real.any = true →
    let n := itypeBits f.ty / 8
    let r := chkGlobal ((Work.start s).issued v {}) v.grp.ctx .store (smemEa f v) n n
    ∀ ks d, r.1 = .ok ks → roomWait r.2.pk v 0 = none → detOf r.2 v.grp = some d → slotRoom r.2 v d →
      let ops := oneOp v.lead (plainOp (smemEa f v) ks (valBytes n (v.s f.d)))
      ∃ t g' x, Completed (.sst f) s v f.h t g' ∧ t.mem = s.mem ∧ SameButSeqs v.grp g' ∧
        t.pk.txns.find? s.pk.fresh = some x ∧ x.kind = .sstore ∧ x.ops = ops ∧ x.staged = some v.grp.blk ∧
        (∀ j, j ≠ s.pk.fresh → t.pk.txns.find? j = s.pk.txns.find? j) ∧ Buffered s t v 0 n 0 (laneParts (oneLane v.lead) ops) ∧
        { t.pk.beside with blocks := [] } = { s.pk.beside with blocks := [] }) ∧
  ∀ s v f, Issues s f.h f.h.words {} v → v.real.any = false → OnlyMoved (.sst f) s v f.h fun _ => none

/-- `aadd`, `amin`, `amax`, `aand`, `aor`, `axor`, `axch`, `acas`, `ainc` and `ared` complete outside a DET launch, whatever their
lanes hold: each starts one access; those that return a value leave their registers empty until it comes.
In a DET launch one that returns a value, or whose target is local, faults with `DET_RET` for the active lanes that are no helpers,
and a global `ared` is buffered: its block's slot has an entry more for each lane. One of helper lanes alone is suppressed, and
gives them zero where it returns a value (R15, R108, R116 to R118, R122, R213). -/
def Obligations.AtomicsStart : Prop :=
  ∀ s v f, ∀ op ∈ atomics, Issues s f.h f.h.words (atomNeed op.2 f v) v →
    let n := akindBytes f.ty
    let sp := if f.loc then Space.loc else Space.global
    let r := accessChecks s v (atomNeed op.2 f v) sp .store f.mem n
    let ops : Lanes (Option LaneOp) := Lanes.ofFn fun L => atomOp op.2 f v (r.1.get L) L
    let det := detOf (Work.start s) v.grp
    (v.act.any = true → (det = none ∨ (atomReturns op.2 = true ∧ v.real.any = false)) →
      accessGoes v r .store f.hd.toNat → (∃ L, (ops.get L).isSome = true) →
      ∃ t g' x, exec (op.1 f) s = .next t ∧ Started s v f.h f.hd.toNat t g' x ∧
        x.kind = .atom (BitVec.ofNat 6 op.2) f.ty f.d.r.toNat (n / 4) (atomReturns op.2) ∧ x.scope = f.scope ∧
        x.ord = f.ord ∧ x.ops = ops ∧ WentOn v f.h g' ∧
        if atomReturns op.2 then AwaitsRegs v.grp g' f.d.r.toNat (n / 4) v.act else SameRegs v.grp g') ∧
    (v.real.any = true → det.isSome = true → (atomReturns op.2 = true ∨ f.loc = true) →
      exec (op.1 f) s = .next (s.run fun w => raiseFault w v.g v.pc .detRet v.real 0 0)) ∧
    (∀ d, v.real.any = true → det = some d → atomReturns op.2 = false → f.loc = false →
      accessGoes v r .store f.hd.toNat → slotRoom r.2 v d → (∃ L, (ops.get L).isSome = true) →
      ∃ t g', Completed (op.1 f) s v f.h t g' ∧ t.mem = s.mem ∧ SameButSeqs v.grp g' ∧ t.pk.txns = s.pk.txns ∧
        Buffered s t v 1 n (Machine.akindNum f.ty) (laneParts v.real ops) ∧
        { t.pk.beside with blocks := [] } = { s.pk.beside with blocks := [] }) ∧
    (v.act.any = true → (det = none ∨ v.real.any = false) → accessGoes v r .store f.hd.toNat → (∀ L, ops.get L = none) →
      NoEffect (op.1 f) s v f.h) ∧
    (v.act.any = false → OnlyMoved (op.1 f) s v f.h fun _ => none)

namespace Sys2Proof.Machine

def pageCounts : List ((RefF → Instr) × Bool) := [(.refinc, true), (.refdec, false)]

/-- The checks of the counters of `refinc` and `refdec`. -/
def refChecks (s : State) (v : View) (f : RefF) : Lanes (Option Chk) × Work :=
  checkLanes ((Work.start s).issued v (refNeed f v)) v fun L w => refChk f v w L

end Sys2Proof.Machine

/-- `refinc` and `refdec` with a lane that is no helper start one access to the page counters and wait at the instruction until
it returns; their register is empty until then. In a DET launch they fault with `DET_RET`; those of helper lanes alone go on, and
with no lane active they do nothing (R15, R121, R122). -/
def Obligations.PageCountsStart : Prop :=
  ∀ s v f, ∀ op ∈ pageCounts, Issues s f.h f.h.words (refNeed f v) v →
    (v.act.any = false → OnlyMoved (op.1 f) s v f.h fun _ => none) ∧
    (v.real.any = true → (detOf (Work.start s) v.grp).isSome = true →
      exec (op.1 f) s = .next (s.run fun w => raiseFault w v.g v.pc .detRet v.real 0 0)) ∧
    (v.act.any = true → v.real.any = false → accessGoes v (refChecks s v f) .store f.hd.toNat →
      ∃ t g' x, exec (op.1 f) s = .next t ∧ Started s v f.h f.hd.toNat t g' x ∧ (∀ L, x.openIn L = false) ∧
        AwaitsRegs v.grp g' f.d.toNat 1 v.act ∧ WentOn v f.h g') ∧
    (v.real.any = true → detOf (Work.start s) v.grp = none → accessGoes v (refChecks s v f) .store f.hd.toNat →
    ∃ t g' x, exec (op.1 f) s = .next t ∧ Started s v f.h f.hd.toNat t g' x ∧
      x.kind = .ref op.2 f.d.toNat (Lanes.ofFn fun L => BitVec.ofNat 64 (refHeader f v L)) (v.grp.reg f.d.toNat).full ∧
      (∀ L ks, v.real.get L = true → keysOf ((refChecks s v f).1.get L) = some ks →
        x.ops.get L = some (plainOp (refEa f v L) ks (valBytes 4 (refIndex f v L)))) ∧
      AwaitsRegs v.grp g' f.d.toNat 1 v.act ∧ GoesOrWaits v f.h g' (some (.txn s.pk.fresh)))

namespace Sys2Proof.Machine

/-- The checks of the lines of `pin` and `unpin`, and the room for their entry of the transaction tables (R109, R114). -/
def lineChecks (s : State) (v : View) (f : LineF) (a : Acc) : Lanes (Option Chk) × Work :=
  checkLanes ((Work.start s).issued v (lineNeed f v)) v fun L w => chkGlobal w v.grp.ctx a (v.ea f.mem L) 4 4
def lineWait (v : View) (r : Lanes (Option Chk) × Work) : Option Wait := if v.act.any then tableWait r.2.pk v else none

/-- The instruction changes the pins, what a translation caches and, of its group, what g says. -/
def ChangesPins (i : Instr) (s : State) (v : View) (h : Hdr) (t : State) (g : Group) : Prop :=
  ∃ g', Completed i s v h t g' ∧ t.mem = s.mem ∧ t.pk.txns = s.pk.txns ∧ SameRegs v.grp g' ∧ g'.rest = g.rest ∧
    { t.pk.beside with pins := [] } = { s.pk.beside with pins := [] }

end Sys2Proof.Machine

/-- `prf` completes and changes nothing; `pin` and `unpin` of lanes that are all sound, with an entry of the transaction
tables free, change only the context's pins, what a translation caches, and the predicate that says which lines are held; with
the tables full they wait (R109, R110, R114). -/
def Obligations.PrefetchPinUnpin : Prop :=
  (∀ s v f, Issues s f.h f.h.words (lineNeed f v) v → (∃ g', exec (.prf f) s = .next (s.withGroup v.g g') ∧ SameGroup v.grp g') ∧
    OnlyMoved (.prf f) s v f.h fun _ => none) ∧
  (∀ s v f, Issues s f.h f.h.words (lineNeed f v) v →
    let r := lineChecks s v f .pin
    accessFault v r.1 .load = none →
    (lineWait v r = none → ∃ t m, exec (.pin f) s = .next t ∧ ChangesPins (.pin f) s v f.h t (v.grp.setPred f.p.toNat v.act m) ∧
      ∀ L line, v.act.get L = true → m.get L = true → lineOf (r.1.get L) = some line →
        ∃ x ∈ t.pk.pins, x.ctx = v.grp.ctx ∧ x.line = line) ∧
    ∀ k, lineWait v r = some k → exec (.pin f) s = .next (s.withGroup v.g (v.grp.blockCurrent k))) ∧
  (∀ s v f, Issues s f.h f.h.words (lineNeed f v) v →
    let r := lineChecks s v f .load
    accessFault v r.1 .load = none →
    (lineWait v r = none → ∃ t, exec (.unpin f) s = .next t ∧ ChangesPins (.unpin f) s v f.h t v.grp ∧
      (∀ x ∈ t.pk.pins, ∃ y ∈ s.pk.pins, x.ctx = y.ctx ∧ x.line = y.line ∧ x.count ≤ y.count) ∧
      ∀ L line, v.act.lanes = [L] → lineOf (r.1.get L) = some line →
        (∀ y ∈ s.pk.pins, y.ctx = v.grp.ctx → y.line = line → y.count ≤ 1) →
        ∀ x ∈ t.pk.pins, ¬(x.ctx = v.grp.ctx ∧ x.line = line)) ∧
    ∀ k, lineWait v r = some k → exec (.unpin f) s = .next (s.withGroup v.g (v.grp.blockCurrent k)))

/-! ## Classes 8 and 12: handles, barriers, registers -/

namespace Sys2Proof.Machine

/-- The accesses of a group that have not performed. -/
def groupOpen (p : Package) (g : Nat) : List Nat := openTxns p (groupTxns p g)

/-- Only the chains of the group's handles differ besides where its lanes stand. -/
def SameButChains (g g' : Group) : Prop := SameRegs g g' ∧ { g'.rest with chains := [] } = { g.rest with chains := [] }

/-- The reads among ts acquire at the scope from now on, and nothing else of any access has changed (R247). -/
def Acquired (s t : State) (sc : Scope) (ts : List Nat) : Prop :=
  ∀ i, t.pk.txns.find? i = (s.pk.txns.find? i).map fun x =>
    if i ∈ ts ∧ x.kind.isRead = true then
      { x with facq := some (match x.facq with
        | some y => widerScope y sc
        | none => sc) }
    else x

/-- Memory and everything of the package but the group and the accesses is as it was. -/
def OnlyGroup (s : State) (v : View) (t : State) (g' : Group) : Prop :=
  t.pk.groups.find? v.g = some g' ∧ (∀ j, j ≠ v.g → t.pk.groups.find? j = s.pk.groups.find? j) ∧ t.mem = s.mem ∧
    t.neg = s.neg ∧ t.pk.beside = s.pk.beside

/-- The arrivals at barrier n were one fewer, and of the group nothing else but chains and places differs. -/
def Arrived (g g' : Group) (n : Nat) : Prop :=
  (∀ k, g'.arr.getD 0 k = g.arr.getD 0 k + if k = n then 1 else 0) ∧
    { g'.rest with chains := [], arr := [] } = { g.rest with chains := [], arr := [] }

end Sys2Proof.Machine

/-- `fence` puts every access of the group that has not performed before every later access on every handle, and holds the
split until the group's reads have returned (R250, R251); a read that a release has performed before returns first, which is the
model's reading (log entry 12). -/
def Obligations.FenceOrdersEveryHandle : Prop :=
  ∀ s v f, Issues s f.h f.h.words {} v → v.act.any = true →
    let passed := overtaken s.pk (groupTxns s.pk v.g)
    (passed ≠ [] → exec (.fence f) s = .next (s.withGroup v.g (v.grp.blockCurrent (.returned passed)))) ∧
    (passed = [] → ∃ t g', exec (.fence f) s = .next t ∧ OnlyGroup s v t g' ∧ Acquired s t f.scope (groupOpen s.pk v.g) ∧
      SameButChains v.grp g' ∧
      (∀ k, k < 16 → groupOpen s.pk v.g ≠ [] →
        (g'.chain k).hist = groupOpen s.pk v.g ∧ ∀ i ∈ groupOpen s.pk v.g, (i, f.scope) ∈ (g'.chain k).jord) ∧
      GoesOrWaits v f.h g' (if (openReads s.pk v.g).isEmpty then none else some (.returned (openReads s.pk v.g))))

/-- `hfork` gives handle hd what handle hs has to wait for, once hd has no access outstanding, and takes nothing of what a fence or
join has ordered before it; `hjoin` puts the accesses of both before every later one on hd, and those of their own in its local
order, once a read of theirs that a release has performed before has returned (log entry 12);
`hwait` holds the split until the accesses of its handle have performed at its scope (R249, R251, R255). -/
def Obligations.HandleForkJoinWait : Prop :=
  (∀ s v f, Issues s f.h f.h.words {} v → v.act.any = true →
    (chainOpen s.pk v.g f.hd.toNat = [] → ∃ g', exec (.hfork f) s = .next (s.withGroup v.g g') ∧ SameButChains v.grp g' ∧
      WentOn v f.h g' ∧ (∀ k, k ≠ f.hd.toNat → g'.chain k = v.grp.chain k) ∧
      (g'.chain f.hd.toNat).jord = (v.grp.chain f.hd.toNat).jord ∧
      (f.hd ≠ f.hs → (g'.chain f.hd.toNat).hist = openTxns s.pk (v.grp.chain f.hs.toNat).hist ∧
        (g'.chain f.hd.toNat).imports =
          ((v.grp.chain f.hd.toNat).imports ++ (v.grp.chain f.hs.toNat).imports).eraseDups)) ∧
    (chainOpen s.pk v.g f.hd.toNat ≠ [] →
      exec (.hfork f) s = .next (s.withGroup v.g (v.grp.blockCurrent (.chainIdle f.hd.toNat))))) ∧
  (∀ s v f, Issues s f.h f.h.words {} v → v.act.any = true →
    let both := openTxns s.pk (((v.grp.chain f.hd.toNat).hist ++ (v.grp.chain f.ha.toNat).hist).eraseDups)
    let passed := overtaken s.pk ((v.grp.chain f.hd.toNat).hist ++ (v.grp.chain f.ha.toNat).hist)
    (passed ≠ [] → exec (.hjoin f) s = .next (s.withGroup v.g (v.grp.blockCurrent (.returned passed)))) ∧
    (passed = [] → ∃ t g', exec (.hjoin f) s = .next t ∧ OnlyGroup s v t g' ∧ Acquired s t f.scope both ∧ SameButChains v.grp g' ∧
      WentOn v f.h g' ∧ (∀ k, k ≠ f.hd.toNat → g'.chain k = v.grp.chain k) ∧ (g'.chain f.hd.toNat).hist = both ∧
      ∀ i ∈ both, ∀ x, s.pk.txns.find? i = some x → x.h = f.hd.toNat ∨ x.h = f.ha.toNat →
        (i, f.scope) ∈ (g'.chain f.hd.toNat).jord)) ∧
  (∀ s v f, Issues s f.h f.h.words {} v → v.act.any = true →
    ∃ g', exec (.hwait f) s = .next (s.withGroup v.g g') ∧ SameRegs v.grp g' ∧ g'.rest = v.grp.rest ∧
      let ts := openAt s.pk (Machine.scopeNum f.scope) (chainOpen s.pk v.g f.ha.toNat)
      GoesOrWaits v f.h g' (if ts.isEmpty then none else some (.performed ⟨ts, []⟩)))

/-- `hexp` writes at its issue the token of its chain's last access that has not performed; `himp` makes later accesses on its
handle wait for a token that is not satisfied, and faults with `PROT` on a token that names no scope, core or reachable
package (R252 to R254). -/
def Obligations.TokensExportAndImport : Prop :=
  (∀ s v h sc d ha, Issues s h h.words (hexpNeed ⟨h, sc, .s d, ha⟩ v) v → v.act.any = true →
    ∃ t g', exec (.hexp ⟨h, sc, .s d, ha⟩) s = .next t ∧ t.mem = s.mem ∧ t.pk.groups.find? v.g = some g' ∧
      g'.rest = (v.grp.setSreg d.toNat (BitVec.ofNat 64 ((chainToken s.pk v.grp ha.toNat sc).word % 2 ^ 64))).rest ∧
      SameRegs v.grp g' ∧ WentOn v h g' ∧ t.pk.beside = s.pk.beside) ∧
  (∀ s v h sc r x ha, Issues s h h.words (hexpNeed ⟨h, sc, .v r x, ha⟩ v) v → v.act.any = true →
    ∃ t g', exec (.hexp ⟨h, sc, .v r x, ha⟩) s = .next t ∧ t.mem = s.mem ∧ t.pk.groups.find? v.g = some g' ∧
      WroteRegs v.grp g' (uniReg r 2) 2 x v.act (fun _ => (chainToken s.pk v.grp ha.toNat sc).word) ∧
      g'.rest = v.grp.rest ∧ WentOn v h g' ∧ t.pk.beside = s.pk.beside) ∧
  (∀ s v f, Issues s f.h f.h.words (huniNeed f 3 v) v → v.act.any = true →
    let x := v.uni f.a 2
    let k := tokenOf x
    let bad := k.scope > 5 ∨ k.core > 191 ∨ !inDomain s.pk (domainOf (Work.start s) v.grp.ctx) k.pkg
    (¬bad → tokenLost s.pk k = false →
      ∃ g', exec (.himp f) s = .next (s.withGroup v.g g') ∧ SameButChains v.grp g' ∧ WentOn v f.h g' ∧
        (∀ j, j ≠ f.hd.toNat → g'.chain j = v.grp.chain j) ∧
        (g'.chain f.hd.toNat).imports = (v.grp.chain f.hd.toNat).imports ++
          (if tokenMet s.pk (BitVec.ofNat 64 x) then [] else [BitVec.ofNat 64 x])) ∧
    (bad → exec (.himp f) s = .next (s.run fun w => raiseFault w v.g v.pc .prot v.act x 0)))

/-- An arrival at a barrier is counted once for the group. With the group alone in its block, the phase is complete at once and `bar`
goes on; where another group of the block has arrived less often, the split
waits for the phase. `bara` writes the phase's number and goes on, and `gbar` counts at the gang's barrier (R257 to R259). -/
def Obligations.BarrierArrivals : Prop :=
  (∀ s v f, Issues s f.h f.h.words {} v → v.act.any = true → arriveBlocked s.pk v.grp f.n.toNat = false →
    ∃ t g', exec (.bar f) s = .next t ∧ t.mem = s.mem ∧ t.pk.groups.find? v.g = some g' ∧ SameRegs v.grp g' ∧
      Arrived v.grp g' f.n.toNat ∧
      ∀ b, s.pk.blocks.find? v.grp.blk = some b →
        (b.groups = [v.g] → b.phases.getD 0 f.n.toNat ≤ v.grp.arr.getD 0 f.n.toNat → WentOn v f.h g') ∧
        (∀ j y, j ∈ b.groups → j ≠ v.g → s.pk.groups.find? j = some y →
          y.arr.getD 0 f.n.toNat ≤ v.grp.arr.getD 0 f.n.toNat →
          b.phases.getD 0 f.n.toNat ≤ v.grp.arr.getD 0 f.n.toNat → v.grp.arr.getD 0 f.n.toNat < b.phases.getD 0 f.n.toNat + 32768 →
          WaitsFor v g' (.bar f.n.toNat (v.grp.arr.getD 0 f.n.toNat % 2 ^ 16)))) ∧
  (∀ s v f, Issues s f.h f.h.words {} v → v.act.any = true → arriveBlocked s.pk v.grp f.n.toNat = false →
    ∃ t g', exec (.bara f) s = .next t ∧ t.mem = s.mem ∧ t.pk.groups.find? v.g = some g' ∧ SameRegs v.grp g' ∧
      Arrived (v.grp.setSreg f.s.toNat (BitVec.ofNat 64 (v.grp.arr.getD 0 f.n.toNat % 2 ^ 16))) g' f.n.toNat ∧
      WentOn v f.h g') ∧
  (∀ s v f, Issues s f.h f.h.words {} v → v.act.any = true → arriveBlocked s.pk v.grp 17 = false →
    ∃ t g', exec (.gbar f) s = .next t ∧ t.mem = s.mem ∧ t.pk.groups.find? v.g = some g' ∧ SameRegs v.grp g' ∧
      Arrived v.grp g' 17) ∧
  (∀ s v f, Issues s f.h f.h.words {} v → v.act.any = true →
    ∃ g', exec (.barw f) s = .next (s.withGroup v.g g') ∧ SameButChains v.grp g' ∧
      GoesOrWaits v f.h g' (if barrierPassed s.pk v.grp f.n.toNat (v.s f.s % 2 ^ 16) then none
        else some (.barw f.n.toNat (v.s f.s % 2 ^ 16))))

/-- `aflush` counts an arrival at its block's flush point, and the last arrival seals the open epoch and opens the next, as
the header of the block's slot then says; `frec` puts on its handle's chain the invalidation of the shape records that its
lanes name, and faults with `PROT` for lanes whose address is not aligned or not canonical (R217, R220, R221, R250, R260). -/
def Obligations.FlushPointsAndRecordCache : Prop :=
  (∀ s v f b d, Issues s f.h f.h.words { feature := some 0 } v → v.act.any = true → arriveBlocked s.pk v.grp 16 = false →
    s.pk.blocks.find? v.grp.blk = some b → b.groups = [v.g] → b.det = some d → d.opened + 1 < 65536 →
    b.phases.getD 0 16 = v.grp.arr.getD 0 16 →
    let d1 : Det := { d with opened := d.opened + 1, sealed := d.sealed + 1 }
    ∃ t g' b' d', exec (.aflush f) s = .next t ∧ t.pk.groups.find? v.g = some g' ∧ SameRegs v.grp g' ∧
      (∀ k, g'.arr.getD 0 k = v.grp.arr.getD 0 k + if k = 16 then 1 else 0) ∧ (∀ L, (g'.lane L).dseq = 0) ∧
      t.pk.blocks.find? v.grp.blk = some b' ∧ b'.det = some d' ∧ { d' with own := [] } = { d1 with own := [] } ∧
      ∀ c ks w, s.pk.ctxs.find? b.ctx = some c →
        chkRange (Work.start s) b.ctx .store (slotVa c d.slot + 8) 8 = (.ok ks, w) → WroteBytes s t ks (slotState s.pk b d1)) ∧
  (∀ s v f, Issues s f.h f.h.words (frecNeed f v) v → v.act.any = true →
    let ea (L : Fin 8) : Nat := v.uniIn f.a 2 L
    let bad : Mask := Lanes.ofFn fun L => v.act.get L && (ea L % 64 != 0 || !canonical (ea L))
    (bad.any = false → ∃ t g' x, exec (.frec f) s = .next t ∧ Started s v f.h f.hd.toNat t g' x ∧
      x.kind = .frec (v.act.lanes.map fun L => recKey v.grp.ctx (ea L)) ∧ (laneList.any fun L => x.openIn L) = true ∧
      SameRegs v.grp g' ∧ WentOn v f.h g') ∧
    (bad.any = true → exec (.frec f) s = .next (s.run fun w => raiseFault w v.g v.pc .prot bad (ea (bad.lanes.headD 0)) 0)))

namespace Sys2Proof.Machine

/-- The partition has no request before and admits k units more for the group. -/
def grantsNow (s : State) (v : View) (k : Nat) : Bool :=
  let p := ((Work.start s).issued v { feature := some 9 }).pk
  (partRequests p v.grp.core v.grp.part).isEmpty && admits p v.grp.ctx v.grp.core v.grp.part (64 * k)

end Sys2Proof.Machine

/-- `xacq` that would pass 1,024 registers faults; `xacq.try` grants at once or not at all and says which; a plain `xacq` is
granted at once when no request stands before it and there is room, and else its split waits with a request of its own, or for the
group's earlier request to be granted. Granted registers are zero and full (R20, R90, R91). -/
def Sys2Proof.Part.RegisterBlocksAcquired : Prop :=
  ∀ s v f, Issues s f.h f.h.words { feature := some 9 } v → v.act.any = true →
    (v.grp.alloc + 64 * f.k.toNat > 1024 →
      exec (.xacq f) s = .next (s.run fun w => raiseFault w v.g v.pc .regRange v.act 0 v.grp.alloc)) ∧
    (∀ p, v.grp.alloc + 64 * f.k.toNat ≤ 1024 → f.tryP = some p →
      let ok := v.grp.xreq.isNone && grantsNow s v f.k.toNat
      ∃ g', exec (.xacq f) s = .next (s.withGroup v.g g') ∧ WentOn v f.h g' ∧
        g'.rest = ((if ok then v.grp.grant f.k.toNat else v.grp).setPred p.toNat v.act (Lanes.ofFn fun _ => ok)).rest ∧
        (∀ r, r < v.grp.alloc → g'.reg r = v.grp.reg r) ∧
        (ok = true → g'.alloc = v.grp.alloc + 64 * f.k.toNat ∧ ∀ r, v.grp.alloc ≤ r → g'.reg r = VReg.fresh)) ∧
    (v.grp.alloc + 64 * f.k.toNat ≤ 1024 → f.tryP = none → v.grp.xreq.isSome = true →
      exec (.xacq f) s = .next (s.withGroup v.g (v.grp.blockCurrent .xacqTurn))) ∧
    (v.grp.alloc + 64 * f.k.toNat ≤ 1024 → f.tryP = none → v.grp.xreq = none → grantsNow s v f.k.toNat = true →
      ∃ g', exec (.xacq f) s = .next (s.withGroup v.g g') ∧ WentOn v f.h g' ∧ g'.rest = (v.grp.grant f.k.toNat).rest ∧
        (∀ r, r < v.grp.alloc → g'.reg r = v.grp.reg r) ∧ ∀ r, v.grp.alloc ≤ r → g'.reg r = VReg.fresh) ∧
    (v.grp.alloc + 64 * f.k.toNat ≤ 1024 → f.tryP = none → v.grp.xreq = none → grantsNow s v f.k.toNat = false →
      ∃ t g', exec (.xacq f) s = .next t ∧ t.mem = s.mem ∧ t.pk.groups.find? v.g = some g' ∧ SameRegs v.grp g' ∧
        g'.xreq = some ⟨f.k.toNat, s.pk.fresh, 0⟩ ∧ { g'.rest with xreq := none } = v.grp.rest ∧
        GoesOrWaits v f.h g' (some .xacq))

/-- `xrel` gives up the top units of the group's registers, and faults when it holds fewer; the registers below keep their
values (R27, R90). -/
def Sys2Proof.Part.RegisterBlocksReleased : Prop :=
  ∀ s v f, Issues s f.h f.h.words { feature := some 9 } v → v.act.any = true →
    (f.k.toNat ≤ v.grp.ext → ∃ t g', exec (.xrel f) s = .next t ∧ t.mem = s.mem ∧ t.pk.groups.find? v.g = some g' ∧
      g'.ext = v.grp.ext - f.k.toNat ∧ g'.rest = { v.grp.rest with ext := v.grp.ext - f.k.toNat } ∧ WentOn v f.h g' ∧
      ∀ r, r < v.grp.alloc - 64 * f.k.toNat → g'.reg r = v.grp.reg r) ∧
    (v.grp.ext < f.k.toNat → exec (.xrel f) s = .next (s.run fun w => raiseFault w v.g v.pc .regRange v.act 0 v.grp.alloc))

/-- Together: `Sys2Proof.Part.RegisterBlocksAcquired`, `Sys2Proof.Part.RegisterBlocksReleased`. -/
def Obligations.RegisterBlocks : Prop :=
  Sys2Proof.Part.RegisterBlocksAcquired ∧ Sys2Proof.Part.RegisterBlocksReleased


/-- `fset` and `fclr` change the full bits of one register in the active lanes, `ftest` reads them into a predicate, and `ftake`
moves a register's value and leaves the source empty (R92). -/
def Obligations.FullBitInstructions : Prop :=
  (∀ s v f, Issues s f.h f.h.words (fbitNeed f v) v →
    ∃ g', exec (.fset f) s = .next (s.withGroup v.g g') ∧ g'.rest = v.grp.rest ∧ WentOn v f.h g' ∧
      ∀ r, g'.reg r = if r = f.d.toNat then { v.grp.reg r with full := Mask.union (v.grp.reg r).full v.act } else v.grp.reg r) ∧
  (∀ s v f, Issues s f.h f.h.words (fbitNeed f v) v →
    ∃ g', exec (.fclr f) s = .next (s.withGroup v.g g') ∧ g'.rest = v.grp.rest ∧ WentOn v f.h g' ∧
      ∀ r, g'.reg r = if r = f.d.toNat then { v.grp.reg r with full := Mask.diff (v.grp.reg r).full v.act } else v.grp.reg r) ∧
  (∀ s v f, Issues s f.h f.h.words (ftestNeed f v) v → ∃ g', exec (.ftest f) s = .next (s.withGroup v.g g') ∧
    SameRegs v.grp g' ∧ WentOn v f.h g' ∧
    g'.rest = (v.grp.setPred f.p.toNat v.act (Lanes.ofFn fun L => (v.grp.reg f.a.toNat).full.get L)).rest) ∧
  (∀ s v f, Issues s f.h f.h.words (ftakeNeed f v) v → f.a.r ≠ f.d.r →
    ∃ g', exec (.ftake f) s = .next (s.withGroup v.g g') ∧ g'.rest = v.grp.rest ∧ WentOn v f.h g' ∧
      g'.reg f.a.r.toNat =
        { v.grp.reg f.a.r.toNat with full := Mask.diff (v.grp.reg f.a.r.toNat).full v.act } ∧
      (∀ L, v.act.get L = true → f.d.t = false →
        (g'.reg f.d.r.toNat).val.get L = v.grp.word f.a.r.toNat L ∧ (g'.reg f.d.r.toNat).full.get L = true) ∧
      ∀ r, r ≠ f.a.r.toNat → r ≠ f.d.r.toNat → g'.reg r = v.grp.reg r)

/-- A group-wide instruction with no active lane has no effect: the split goes on (R151, R255, R257 to R259, R90, R91, R220). -/
def Obligations.NoLaneNoGroupEffect : Prop :=
  ∀ s v, v.act.any = false →
    (∀ f, Issues s f.h f.h.words {} v → OnlyMoved (.fence f) s v f.h fun _ => none) ∧
    (∀ f, Issues s f.h f.h.words {} v → OnlyMoved (.hfork f) s v f.h fun _ => none) ∧
    (∀ f, Issues s f.h f.h.words {} v → OnlyMoved (.hjoin f) s v f.h fun _ => none) ∧
    (∀ f, Issues s f.h f.h.words {} v → OnlyMoved (.hwait f) s v f.h fun _ => none) ∧
    (∀ f, Issues s f.h f.h.words (hexpNeed f v) v → OnlyMoved (.hexp f) s v f.h fun _ => none) ∧
    (∀ f, Issues s f.h f.h.words (huniNeed f 3 v) v → OnlyMoved (.himp f) s v f.h fun _ => none) ∧
    (∀ f, Issues s f.h f.h.words {} v → OnlyMoved (.bar f) s v f.h fun _ => none) ∧
    (∀ f, Issues s f.h f.h.words {} v → OnlyMoved (.gbar f) s v f.h fun _ => none) ∧
    (∀ f, Issues s f.h f.h.words {} v → OnlyMoved (.bara f) s v f.h fun _ => none) ∧
    (∀ f, Issues s f.h f.h.words {} v → OnlyMoved (.barw f) s v f.h fun _ => none) ∧
    (∀ f, Issues s f.h f.h.words { feature := some 0 } v → OnlyMoved (.aflush f) s v f.h fun _ => none) ∧
    (∀ f, Issues s f.h f.h.words { feature := some 9 } v → OnlyMoved (.xacq f) s v f.h fun _ => none) ∧
    (∀ f, Issues s f.h f.h.words { feature := some 9 } v → OnlyMoved (.xrel f) s v f.h fun _ => none) ∧
    (∀ f, Issues s f.h f.h.words {} v → OnlyMoved (.sld f) s v f.h fun _ => none)

/-! ## Class 9: engines -/

namespace Sys2Proof.Machine

/-- `cpyk` has handed the requests of the lanes of m to the core's engine, and no other: each with the record as its lane reads it,
what its chain has to wait for and a promise, a free value; the pair of registers is empty in those lanes, and holds zero in the
active helpers'. Nothing else has changed but where the lanes stand. -/
def Kicked (s t : State) (v : View) (f : CpykF) (g' : Group) (m : Mask) : Prop :=
  let w := (Work.start s).issued v (cpykNeed f v)
  t.pk.groups.find? v.g = some g' ∧ (∀ j, j ≠ v.g → t.pk.groups.find? j = s.pk.groups.find? j) ∧ t.neg = s.neg ∧
    t.mem = s.mem ∧ t.pk.txns = s.pk.txns ∧ g'.rest = v.grp.rest ∧
    { t.pk.beside with reqs := [] } = { s.pk.beside with reqs := [] } ∧
    (∃ y, WroteRegs v.grp y f.d.toNat 2 false (Mask.diff v.act v.real) (fun _ => 0) ∧ AwaitsRegs y g' f.d.toNat 2 m) ∧
    (∀ j, j < s.pk.fresh → t.pk.reqs.find? j = s.pk.reqs.find? j) ∧
    (∀ L r, m.get L = true → cpykRec f v w L = .ok r → ∃ id k, s.pk.fresh ≤ id ∧
      t.pk.reqs.find? id = some ⟨v.grp.core, v.g, v.grp.blk, v.grp.ctx, r, (v.grp.word f.a.r.toNat L).setWidth 64, L.val,
        f.scope, chainRelease s.pk v.grp f.hd.toNat, false, [], fld r 40 8, some (f.d.toNat, Config.freeTime k), none⟩) ∧
    ∀ id q, s.pk.fresh ≤ id → t.pk.reqs.find? id = some q → s.pk.reqs.find? id = some q ∨ ∃ L, m.get L = true ∧ q.lane = L.val

/-- The first n of the lanes that have a request. -/
def firstLanes (v : View) (n : Nat) : Mask := Lanes.ofFn fun L => (v.real.lanes.take n).contains L

end Sys2Proof.Machine

/-- `cpyk` hands one request of each active lane that is no helper to the core's request engine, in lane order, each with the
record as its lane reads it, what its chain has to wait for and a promise, a free value, that the engine is to write; the pair of
registers is empty in those lanes until then, and holds zero in the active helpers'. It waits for what its reads have to follow. An
engine that has room for some lanes only takes those, and the split waits at the instruction for the others, of which a full engine
takes none (R262 to R264, R403). -/
def Sys2Proof.Part.CopyRequestsKicked : Prop :=
  ∀ s v f, Issues s f.h f.h.words (cpykNeed f v) v →
    let w := (Work.start s).issued v (cpykNeed f v)
    let after := accessWait s.pk v f.hd.toNat (v.real.lanes.flatMap (cpykKeys f v w)) false
    (∀ L, v.real.get L = true → ∃ r, cpykRec f v w L = .ok r) →
    (∀ k, after = some k → exec (.cpyk f) s = .next (s.withGroup v.g (v.grp.blockCurrent k))) ∧
    (after = none → engineHolds s.pk v.grp.core + v.real.count ≤ 256 →
      ∃ t g', Completed (.cpyk f) s v f.h t g' ∧ Kicked s t v f g' v.real) ∧
    (after = none → v.real.any = true → 256 ≤ engineHolds s.pk v.grp.core →
      exec (.cpyk f) s = .next (s.withGroup v.g (v.grp.blockCurrent (.engineRoom 1)))) ∧
    (after = none → engineHolds s.pk v.grp.core < 256 → 256 < engineHolds s.pk v.grp.core + v.real.count →
      let now := firstLanes v (256 - engineHolds s.pk v.grp.core)
      ∃ t g', exec (.cpyk f) s = .next t ∧ Kicked s t v f g' now ∧
        ∃ x ∈ g'.splits, x.lanes = v.m ∧ x.cond = .blocked (.engineRoom 1) ∧ x.finish = false ∧
          x.only = some (Mask.diff v.real now))

/-- `arrx` counts one arrival and its bytes at a byte barrier of local memory and writes the phase before it, once the barrier has
an arrival left and the accesses before it at those bytes have performed; a count of 2^40 bytes or more faults with `PROT`, a read of
lost data with `DATA_LOST`, and helper lanes alone get zero (R15, R265, R267, R412). -/
def Sys2Proof.Part.ArrivalsAtByteBarriers : Prop :=
  ∀ s v f, Issues s f.h f.h.words (arrxNeed f v) v →
    let w := (Work.start s).issued v (arrxNeed f v)
    let a := v.uni f.a 1
    let n := v.sop f.b
    (v.real.any = true → ∀ ks, chkLocal w v.grp.blk a 32 = .ok ks →
      (n < 2 ^ 40 → w.badAt ks = none → accessWait s.pk v 0 ks true = none →
        (fld (w.bytes ks) 8 4 ≠ 0 →
          ∃ t g', Completed (.arrx f) s v f.h t g' ∧ WroteBytes s t ks (barArrive (w.bytes ks) n) ∧ SameRegs v.grp g' ∧
            g'.rest = (v.grp.setSreg f.d.toNat (BitVec.ofNat 64 (fld (w.bytes ks) 12 4 % 2 ^ 31))).rest ∧
            t.pk.txns = s.pk.txns ∧ t.pk.beside.afterWrite = s.pk.beside.afterWrite) ∧
        (fld (w.bytes ks) 8 4 = 0 →
          exec (.arrx f) s = .next (s.withGroup v.g (v.grp.blockCurrent (.arrivals (ks.headD 0)))))) ∧
      (∀ k, n < 2 ^ 40 → accessWait s.pk v 0 ks true = some k →
        exec (.arrx f) s = .next (s.withGroup v.g (v.grp.blockCurrent k))) ∧
      (∀ u k, n < 2 ^ 40 → accessWait s.pk v 0 ks true = none → w.badAt ks = some (u, k) →
        exec (.arrx f) s = .next (s.run fun w => raiseFault w v.g v.pc .dataLost v.act u k)) ∧
      (2 ^ 40 ≤ n → exec (.arrx f) s = .next (s.run fun w => raiseFault w v.g v.pc .prot v.act a 0))) ∧
    (v.act.any = true → v.real.any = false → ScalarResult (.arrx f) s v f.h f.d 0) ∧
    (v.act.any = false → OnlyMoved (.arrx f) s v f.h fun _ => none)

namespace Sys2Proof.Machine

/-- The promise of a `bwait` was missed before it issues. -/
def promiseLate (s : State) (v : View) (f : BwaitF) : Bool :=
  match f.prom with
  | some u => v.grp.resume != some v.pc && decide (s.pk.cycle.toNat ≥ promiseOf v u + graceOf (Work.start s) v.grp.ctx)
  | none => false

end Sys2Proof.Machine

/-- `bwait` goes on when the phase has passed; a barrier that holds an error gives its fault, with the error word; else the split
waits, unless the promise with its period of grace is over, which faults with `PROMISE_MISS`. An issue at the resume mark makes no
such check and clears the mark. The read waits for what it has to follow, and one that meets lost data faults (R268, R379, R382). -/
def Sys2Proof.Part.WaitsAtByteBarriers : Prop :=
  ∀ s v f, Issues s f.h f.h.words (bwaitNeed f v) v → v.act.any = true →
    let w := (Work.start s).issued v (bwaitNeed f v)
    let a := v.uni f.a 1
    let n := v.sop f.b
    let marked := v.grp.resume == some v.pc
    n < 2 ^ 31 → ∀ ks, chkLocal w v.grp.blk a 32 = .ok ks →
      (∀ k, accessWait s.pk v f.hd.toNat ks false = some k →
        exec (.bwait f) s = .next (s.withGroup v.g (v.grp.blockCurrent k))) ∧
      (∀ u k, accessWait s.pk v f.hd.toNat ks false = none → w.badAt ks = some (u, k) →
        exec (.bwait f) s = .next (s.run fun w => raiseFault w v.g v.pc .dataLost v.act u k)) ∧
      (accessWait s.pk v f.hd.toNat ks false = none → w.badAt ks = none →
      let b := w.bytes ks
      ((barPhasePassed b n = true ∨ (barErr b = false ∧ promiseLate s v f = false)) →
        ∃ g', exec (.bwait f) s = .next (s.withGroup v.g g') ∧ SameRegs v.grp g' ∧
          g'.rest = ({ v.grp with resume := if marked then none else v.grp.resume } : Group).rest ∧
          GoesOrWaits v f.h g' (if barPhasePassed b n then none else
            some (.bwait (ks.headD 0) n (if marked then none else f.prom.map fun u => BitVec.ofNat 64 (promiseOf v u))
              (BitVec.ofNat 64 a)))) ∧
      (barPhasePassed b n = false → barErr b = true →
        let e := barFault (Work.start s) (ks.headD 0) b a
        exec (.bwait f) s = .next (s.run fun w => raiseRec w v.g v.pc e.1 v.act e.2.1 e.2.2 false)) ∧
      (∀ u, f.prom = some u → barPhasePassed b n = false → barErr b = false → promiseLate s v f = true →
        exec (.bwait f) s = .next (s.run fun w => raiseFault w v.g v.pc .promiseMiss v.act (promiseOf v u) a)))

/-- Together: `Sys2Proof.Part.CopyRequestsKicked`, `Sys2Proof.Part.ArrivalsAtByteBarriers`, `Sys2Proof.Part.WaitsAtByteBarriers`. -/
def Obligations.CopiesAndByteBarriers : Prop :=
  Sys2Proof.Part.CopyRequestsKicked ∧ Sys2Proof.Part.ArrivalsAtByteBarriers ∧ Sys2Proof.Part.WaitsAtByteBarriers


/-- `chain` starts an idle or stopped channel of the core at the record its address names, or faults with `PROT` for an address
that is no multiple of 128; `chst` reads a channel's register, which shows the reset state after another context's walk (R274 to
R276, R352). -/
def Sys2Proof.Part.ChannelsStartAndRead : Prop :=
  (∀ s v f, Issues s f.h f.h.words (chainNeed f v) v → v.real.any = true →
    let a := v.uni f.a 2
    let x := chanOf s.pk v.grp.core f.c.toNat
    (a % 128 = 0 → canonical a = true → x.busy = false →
      ∃ t g', Completed (.chain f) s v f.h t g' ∧ t.mem = s.mem ∧ t.pk.txns = s.pk.txns ∧ SameGroup v.grp g' ∧
        { t.pk.beside with chans := [] } = { s.pk.beside with chans := [] } ∧
        chanOf t.pk v.grp.core f.c.toNat = { x with
          st := .walking, next := BitVec.ofNat 64 a, ctx := v.grp.ctx, lnch := v.grp.lnch
          preds := chainRelease s.pk v.grp f.hd.toNat } ∧
        ∀ core c, chanKey core c ≠ chanKey v.grp.core f.c.toNat → chanOf t.pk core c = chanOf s.pk core c) ∧
    ((a % 128 ≠ 0 ∨ canonical a = false) →
      exec (.chain f) s = .next (s.run fun w => raiseFault w v.g v.pc .prot v.act a 0)) ∧
    (a % 128 = 0 → canonical a = true → x.busy = true →
      exec (.chain f) s = .next (s.withGroup v.g (v.grp.blockCurrent (.chanIdle v.grp.core f.c.toNat))))) ∧
  (∀ s v f, Issues s f.h f.h.words {} v →
    let x := chanOf s.pk v.grp.core f.c.toNat
    ScalarResult (.chst f) s v f.h f.d (if x.ctx = v.grp.ctx then chanStatus x else 0))

/-- `pub` of a buffer whose shadow no engine request writes, once what its chain orders before it has performed, inverts CUR and
counts in PUBS, and changes no other byte; for an object that itself stands in no published range, bit 0 of its state word is the
other one then. Before that it waits, and an operand that names no object faults (R278). -/
def Sys2Proof.Part.BuffersPublished : Prop :=
  ∀ s v f, Issues s f.h f.h.words (huniNeed f 8 v) v → v.real.any = true →
    let o := pubOperand ((Work.start s).issued v (huniNeed f 8 v)) v.grp.ctx (v.uni f.a 2)
    (∀ b w, o = (.ok b, w) → pubReady w.pk v.grp b.obj f.hd.toNat = true →
      ∃ t g', Completed (.pub f) s v f.h t g' ∧ t.mem = (s.finish (publish w b.obj)).mem ∧ SameGroup v.grp g' ∧
        t.pk.txns = s.pk.txns ∧ t.pk.beside.afterWrite = s.pk.beside.afterWrite ∧
        ((∀ x ∈ s.pk.pubs, ∀ i, i < 40 → ¬(x.pbase ≤ b.obj + i ∧ b.obj + i < x.pbase + x.len)) →
          (Mem.byte t.mem (b.obj + 32)).getLsbD 0 = !(Mem.byte s.mem (b.obj + 32)).getLsbD 0)) ∧
    (∀ b w, o = (.ok b, w) → pubReady w.pk v.grp b.obj f.hd.toNat = false →
      exec (.pub f) s = .next (s.withGroup v.g (v.grp.blockCurrent (.pub b.obj f.hd.toNat)))) ∧
    ∀ step code addr w, o = (.error (.bad step code addr), w) →
      exec (.pub f) s = .next (s.run fun w => raiseFault w v.g v.pc code v.act addr 0)

/-- `ldw` reads the weight store of its die like a load, and seals for its launch the regions it touches (R99, R106, R369). -/
def Sys2Proof.Part.WeightLoadsStart : Prop :=
  ∀ s v f, Issues s f.h f.h.words (ldwNeed f v) v →
    let n := widthBytes f.width
    let die := coreDie v.grp.core
    let r := checkLanes ((Work.start s).issued v (ldwNeed f v)) v fun L w => (chkWs w v.grp.ctx die (v.ea f.mem L) n n, w)
    let rs := v.act.lanes.flatMap fun L => match r.1.get L with
      | some (.ok _) => wsRegions r.2 v.grp.ctx die (v.ea f.mem L) n
      | _ => []
    (v.act.any = true → accessGoes v r .load f.hd.toNat → ∀ w, touchRegions r.2 v.grp rs.eraseDups = .ok w →
      ∃ t g' x, Completed (.ldw f) s v f.h t g' ∧ t.mem = s.mem ∧ t.pk.txns.find? s.pk.fresh = some x ∧
        (∀ j, j ≠ s.pk.fresh → t.pk.txns.find? j = s.pk.txns.find? j) ∧
        x.kind = .load f.d.r.toNat (bytesRegs n) n ∧ (∀ L, x.ops.get L = loadOp (v.ea f.mem L) (r.1.get L)) ∧
        AwaitsRegs v.grp g' f.d.r.toNat (bytesRegs n) v.act ∧
        { g'.rest with chains := [] } = { v.grp.rest with chains := [] } ∧
        { t.pk.beside with seals := [], blocks := [] } = { s.pk.beside with seals := [], blocks := [] } ∧
        (∀ q ∈ rs, ∃ e ∈ t.pk.seals, e.lnch = v.grp.lnch ∧ e.die = q.1 ∧ e.lo = q.2.1) ∧
        ∀ e ∈ s.pk.seals, e ∈ t.pk.seals) ∧
    (∀ k, v.act.any = true → accessGoes v r .load f.hd.toNat → touchRegions r.2 v.grp rs.eraseDups = .error k →
      exec (.ldw f) s = .next (s.withGroup v.g (v.grp.blockCurrent k))) ∧
    (v.act.any = false → OnlyMoved (.ldw f) s v f.h fun _ => none)

/-- Together: `Sys2Proof.Part.ChannelsStartAndRead`, `Sys2Proof.Part.BuffersPublished`, `Sys2Proof.Part.WeightLoadsStart`. -/
def Obligations.ChannelsBuffersWeights : Prop :=
  Sys2Proof.Part.ChannelsStartAndRead ∧ Sys2Proof.Part.BuffersPublished ∧ Sys2Proof.Part.WeightLoadsStart


/-! ## Class 10: matrices -/

namespace Sys2Proof.Machine

/-- The command stands at the end of the queue of the group's unit, and every other unit is as it was. -/
def Enters (s : State) (v : View) (t : State) (c : MxCmd) : Prop :=
  let u := mxUnit s.pk v.grp.core v.grp.part
  mxUnit t.pk v.grp.core v.grp.part = { u with queue := u.queue ++ [c] } ∧
    ∀ k p, mxKey k p ≠ mxKey v.grp.core v.grp.part → mxUnit t.pk k p = mxUnit s.pk k p

/-- The unit's queue has an entry free. -/
abbrev unitRoom (s : State) (v : View) : Prop := (mxUnit s.pk v.grp.core v.grp.part).queue.length < 16

/-- The split waits for an entry of the unit's queue, and nothing else has changed. -/
def WaitsForUnit (i : Instr) (s : State) (v : View) : Prop :=
  exec i s = .next (s.withGroup v.g (v.grp.blockCurrent .mxRoom))

/-- The instruction puts a command in its unit's queue and goes on, its registers being left as regs says, or waits for room. -/
def Queues (i : Instr) (s : State) (v : View) (h : Hdr) (c : MxCmd) (regs : Group → Prop) : Prop :=
  (unitRoom s v → ∃ t g', Completed i s v h t g' ∧ t.mem = s.mem ∧ g'.rest = v.grp.rest ∧ regs g' ∧ t.pk.txns = s.pk.txns ∧
    Enters s v t c ∧ { t.pk.beside with mx := [] } = { s.pk.beside with mx := [] }) ∧
  (¬unitRoom s v → WaitsForUnit i s v)

/-- The same for an instruction whose reads, a plain access on h0, have taken their number on the chain and have performed; the
regions of the weight store take what a first read gives them. -/
def QueuesAfterReads (i : Instr) (s : State) (v : View) (h : Hdr) (c : MxCmd) : Prop :=
  (unitRoom s v → ∃ t g', Completed i s v h t g' ∧ t.mem = s.mem ∧ SameButChains v.grp g' ∧
    (∀ j, j ≠ s.pk.fresh → t.pk.txns.find? j = s.pk.txns.find? j) ∧ Enters s v t c ∧
    { t.pk.beside with mx := [], seals := [], blocks := [], notes := [] } =
      { s.pk.beside with mx := [], seals := [], blocks := [], notes := [] }) ∧
  (¬unitRoom s v → WaitsForUnit i s v)

/-- The reads of an issue part meet nothing: the tables have room, nothing is ordered before them, no refresh and no
uncorrectable unit stands in their way. -/
abbrev readsNow (w : Work) (v : View) (used : List Nat) : Prop :=
  roomWait w.pk v 0 = none ∧ (readAfter w (readTxn v (.sload 0 .i64 v.act) 0 used)).1 = ⟨[], []⟩ ∧
    refreshing w.pk used = false ∧ w.badAt used = none

/-- The bytes as the issuing block sees them. -/
abbrev seenBytes (w : Work) (v : View) (ks : List Nat) : List Byte := blockBytes w (detOf w v.grp) ks

/-- The reads of n blocks of local memory of one format meet nothing. -/
abbrev blocksNow (w : Work) (v : View) (a n : Nat) (f : BFmt) (ks : List Nat) : Prop :=
  localBlocks w v a n = .ok ks ∧ readsNow w v ks ∧
    badBlock (seenBytes w v ks) ((List.range n).map (64 * ·)) (fun _ x => x == f) = none

/-- What a load of an image does once its addresses are in order. Bytes of this package are read at once: the command that they
give enters the queue, or a block of another format faults. Where some lie at another package the split waits for an access that
asks for all of them, and that will put the command there. The regions and the block stand as w has them. -/
def LoadsImage (i : Instr) (s : State) (v : View) (h : Hdr) (n : Need) (c : MxCmd) (a : Nat) (ps rs : List Nat) (w : Work)
    (ks : List Nat) : Prop :=
  let used := usedKeys w (detOf w v.grp) ps.length ks
  (anyAbroad w.pk ks = false → readsNow w v used →
    (badSlots (seenBytes w v ks) ps.length = none →
      QueuesAfterReads i s v h { c with op := imageOp (seenBytes w v ks) ps rs }) ∧
    ∀ o, badSlots (seenBytes w v ks) ps.length = some o →
      exec i s = .next (s.run fun w => raiseFault (w.readsStore v n) v.g v.pc .blkFmt v.act ((a + o) % 2 ^ 64) 0)) ∧
  (anyAbroad w.pk ks = true → roomWait w.pk v 0 = none →
    ∃ t g' x, exec i s = .next t ∧
      Started { s with pk := { s.pk with blocks := w.pk.blocks, seals := w.pk.seals } } v h 0 t g' x ∧ x.kind = .mread a ps rs c ∧
      x.ops = oneOp v.lead (plainOp a ks []) ∧ SameRegs v.grp g' ∧ GoesOrWaits v h g' (some (.txn s.pk.fresh)))

end Sys2Proof.Machine

/-- `mxz`, `mxrd`, `mxwr` and `mxmul` from a region put their command in the unit's queue; `mxrd` leaves its registers empty until
the command has run, and `mxwr` takes the words of all eight lane positions; a full queue makes the split wait, and a `mxmul` whose
source is its destination faults (R185, R192, R197, R198). -/
def Sys2Proof.Part.MatrixRegionCommands : Prop :=
  (∀ s v f, Issues s f.h f.h.words (mxzNeed f v) v →
    Queues (.mxz f) s v f.h (mxCmd v (.mxz f) 0 0 (.zero ((physRegions v.grp [f.d.toNat]).headD 0))) (SameRegs v.grp)) ∧
  (∀ s v f, Issues s f.h f.h.words (mxrdNeed f v) v →
    Queues (.mxrd f) s v f.h
      (mxCmd v (.mxrd f) 0 0
        (.read f.d.toNat ((physRegions v.grp [f.a.toNat]).headD 0) f.e0.toNat (f.n.toNat + 1) f.conv v.act))
      (fun g' => AwaitsRegs v.grp g' f.d.toNat (f.n.toNat + 1) v.act)) ∧
  (∀ s v f, Issues s f.h f.h.words (mxwrNeed f v) v →
    ∃ vals, Queues (.mxwr f) s v f.h
        (mxCmd v (.mxwr f) 0 0 (.write ((physRegions v.grp [f.d.toNat]).headD 0) f.e0.toNat vals)) (SameRegs v.grp) ∧
      vals.length = 8 * (f.n.toNat + 1) ∧
      ∀ i L, i ≤ f.n.toNat → vals[8 * i + L.val]? = some (v.grp.word (f.a.r.toNat + i) L)) ∧
  (∀ s v f r, f.src = .region r → Issues s f.h f.h.words (mxmulNeed f v) v →
    (r ≠ f.d → Queues (.mxmul f) s v f.h
      (mxCmd v (.mxmul f) f.gran.toNat 0
        (.mul ((physRegions v.grp [f.d.toNat]).headD 0) (some ((physRegions v.grp [r.toNat]).headD 0)) [] false (f.rows.toNat + 1)
          f.align (physBanks v.grp (maskNames 8 f.banks.toNat)))) (SameRegs v.grp)) ∧
    (r = f.d → exec (.mxmul f) s = .next (s.run fun w => raiseFault w v.g v.pc .tileOverlap v.act 0 r.toNat)))

/-- `mxmul` and `mxkv` read their blocks from local memory when they issue, and put them with their command in the queue; `mxld`
and `mxrs` do so with the slots of an image in the weight store or in global memory, of which those at other packages are asked for
(R185, R186, R189 to R192, R199, R290). -/
def Obligations.MatrixMemoryCommands : Prop :=
  (∀ s v f a ks, f.src = .mem a → Issues s f.h f.h.words (mxmulNeed f v) v →
    let w := (Work.start s).issued v (mxmulNeed f v)
    let bf := decide (f.kind = .bf16)
    blocksNow w v (v.uni a 1) ((f.rows.toNat + 1) * (if bf then 16 else 8)) (if bf then .bf16 else .e4m3) ks →
    QueuesAfterReads (.mxmul f) s v f.h (mxCmd v (.mxmul f) f.gran.toNat (v.uni a 1)
      (.mul ((physRegions v.grp [f.d.toNat]).headD 0) none (seenBytes w v ks) bf (f.rows.toNat + 1) f.align
        (physBanks v.grp (maskNames 8 f.banks.toNat))))) ∧
  (∀ s v f ks, Issues s f.h f.h.words (mxkvNeed f v) v →
    let w := (Work.start s).issued v (mxkvNeed f v)
    blocksNow w v (v.uni f.a 1) 1024 .bf16 ks →
    QueuesAfterReads (.mxkv f) s v f.h (mxCmd v (.mxkv f) 0 (v.uni f.a 1)
      (.keys ((physBanks v.grp [f.bank.toNat]).headD 0) (seenBytes w v ks)))) ∧
  (∀ s v f ks w w', Issues s f.h f.h.words (mxldNeed f v) v →
    let a := v.uni f.a 2
    let ns := maskNames 8 f.banks.toNat
    mxldCheck f v ((Work.start s).issued v (mxldNeed f v)) a ns.length = (.ok ks, w) →
    touchRegions w v.grp (if f.glob then [] else wsRegions w v.grp.ctx (coreDie v.grp.core) a (16384 * ns.length)) = .ok w' →
    LoadsImage (.mxld f) s v f.h (mxldNeed f v) (mxCmd v (.mxld f) f.gran.toNat a (.load [])) a (physBanks v.grp ns) [] w' ks) ∧
  (∀ s v f ks w, Issues s f.h f.h.words (mxsvNeed f v) v →
    let a := v.uni f.a 2
    imageCheck f v ((Work.start s).issued v (mxsvNeed f v)) a .load = (.ok ks, w) →
    LoadsImage (.mxrs f) s v f.h (mxsvNeed f v) (mxCmd v (.mxrs f) f.gran.toNat a (.load [])) a
      (physBanks v.grp (maskNames 8 f.banks.toNat)) (physRegions v.grp (maskNames 16 f.regions.toNat)) w ks)

/-- `mxsv` starts one access that its command in the queue performs; in a DET launch it is staged, with an entry of the block's slot
for each 32 bytes. A full queue makes it wait. `mxq` reads the state of the group's commands, banks and regions (R199, R200,
R213). -/
def Sys2Proof.Part.MatrixSaveAndStatus : Prop :=
  (∀ s v f ks w, Issues s f.h f.h.words (mxsvNeed f v) v →
    let a := v.uni f.a 2
    let c := mxCmd v (.mxsv f) f.gran.toNat a
      (.save (physBanks v.grp (maskNames 8 f.banks.toNat)) (physRegions v.grp (maskNames 16 f.regions.toNat)) s.pk.fresh)
    imageCheck f v ((Work.start s).issued v (mxsvNeed f v)) a .store = (.ok ks, w) → roomWait w.pk v 0 = none →
    (unitRoom s v → (∀ d, detOf w v.grp = some d → d.entries.length + ks.length / 32 ≤ detCapacity w v.grp) →
      ∃ t g' x, Completed (.mxsv f) s v f.h t g' ∧ t.mem = s.mem ∧ SameButSeqs v.grp g' ∧
        t.pk.txns.find? s.pk.fresh = some x ∧ x.kind = .mx ∧ x.ops = oneOp v.lead (plainOp a ks []) ∧
        x.staged = stagedBlk w v.grp ∧ (∀ j, j ≠ s.pk.fresh → t.pk.txns.find? j = s.pk.txns.find? j) ∧ Enters s v t c ∧
        { t.pk.beside with mx := [], blocks := [] } = { s.pk.beside with mx := [], blocks := [] } ∧
        Buffered s t v 0 32 0 ((List.range (ks.length / 32)).map fun i =>
          (0, BitVec.ofNat 64 ((a + 32 * i) % 2 ^ 64), (ks.drop (32 * i)).take 32, []))) ∧
    (¬unitRoom s v → (∀ d, detOf w v.grp = some d → d.entries.length + ks.length / 32 ≤ detCapacity w v.grp) →
      WaitsForUnit (.mxsv f) s v)) ∧
  (∀ s v f, Issues s f.h f.h.words {} v →
    ScalarResult (.mxq f) s v f.h f.d (mxStatus (mxUnit s.pk v.grp.core v.grp.part) v.grp v.g))

/-- Together: `Sys2Proof.Part.MatrixRegionCommands`, `Sys2Proof.Part.MatrixSaveAndStatus`. -/
def Obligations.MatrixRegionsAndSaves : Prop :=
  Sys2Proof.Part.MatrixRegionCommands ∧ Sys2Proof.Part.MatrixSaveAndStatus

/-! ## Classes 11 and 12: launches and items -/

/-- `launch` appends a copy of the record at its address, as its block sees it, to the group's pending-launch queue, once what its
chain orders before it has performed; with four entries it waits, a record at another package is asked for and the split waits for
it, and an address that is no multiple of 64 faults with `PROT` (R290, R326 to R328). -/
def Sys2Proof.Part.LaunchesAppended : Prop :=
  ∀ s v f, Issues s f.h f.h.words (launchNeed f v) v → v.real.any = true →
    let a := v.uni f.a 2
    (∀ ks w, a % 64 = 0 → canonical a = true →
      chkRange ((Work.start s).issued v (launchNeed f v)) v.grp.ctx .load a 256 = (.ok ks, w) →
      let rel := chainRelease s.pk v.grp f.hd.toNat
      (v.grp.plq.length < 4 → rel.met s.pk = true → anyAbroad s.pk ks = false →
          accessWait s.pk v f.hd.toNat ks false = none → w.badAt ks = none →
        ∃ t g', Completed (.launch f) s v f.h t g' ∧ t.mem = s.mem ∧ t.pk.txns = s.pk.txns ∧ SameRegs v.grp g' ∧
          { g'.rest with chains := [] } = ({ v.grp with plq := v.grp.plq ++ [s.pk.fresh], chains := [] } : Group).rest ∧
          t.pk.launches.find? s.pk.fresh = some (Launch.fresh v.grp.ctx (seenBytes w v ks) (BitVec.ofNat 64 a) (.group v.g)
            (some (coreDie v.grp.core)) v.grp.lnch) ∧
          (∀ j, j ≠ s.pk.fresh → t.pk.launches.find? j = s.pk.launches.find? j) ∧
          { t.pk.beside with launches := [] } = { s.pk.beside with launches := [] }) ∧
      (v.grp.plq.length < 4 → rel.met s.pk = false →
        exec (.launch f) s = .next (s.withGroup v.g (v.grp.blockCurrent (.performed rel)))) ∧
      (∀ k, v.grp.plq.length < 4 → rel.met s.pk = true → anyAbroad s.pk ks = false →
          accessWait s.pk v f.hd.toNat ks false = some k →
        exec (.launch f) s = .next (s.withGroup v.g (v.grp.blockCurrent k))) ∧
      (∀ u k, v.grp.plq.length < 4 → rel.met s.pk = true → anyAbroad s.pk ks = false →
          accessWait s.pk v f.hd.toNat ks false = none → w.badAt ks = some (u, k) →
        exec (.launch f) s = .next (s.run fun w => raiseFault w v.g v.pc .dataLost v.act u k)) ∧
      (v.grp.plq.length < 4 → rel.met s.pk = true → anyAbroad s.pk ks = true → roomWait s.pk v f.hd.toNat = none →
        ∃ t g' x, exec (.launch f) s = .next t ∧ Started s v f.h f.hd.toNat t g' x ∧ x.kind = .lrec (BitVec.ofNat 64 a) v.act ∧
          x.ops = oneOp v.lead (plainOp a ks []) ∧ SameRegs v.grp g' ∧ GoesOrWaits v f.h g' (some (.txn s.pk.fresh))) ∧
      (4 ≤ v.grp.plq.length →
        exec (.launch f) s = .next (s.withGroup v.g (v.grp.blockCurrent .launchRoom)))) ∧
    ((a % 64 ≠ 0 ∨ canonical a = false) →
      exec (.launch f) s = .next (s.run fun w => raiseFault w v.g v.pc .prot v.act a 0))

/-- `lwait` goes on when the counter, as its block sees it, has reached its target, and waits else; as an acquire it first waits for
what its read follows, a counter at another package is asked for and the split waits for it, and an address that is no multiple of
8 faults with `PROT` (R290, R330, R331). -/
def Sys2Proof.Part.LaunchCountersAwaited : Prop :=
  ∀ s v f, Issues s f.h f.h.words (lwaitNeed f v) v → v.act.any = true →
    let p := v.uni f.a 2
    (∀ ks w, p % 8 = 0 → canonical p = true →
      chkGlobal ((Work.start s).issued v (lwaitNeed f v)) v.grp.ctx .load p 8 8 = (.ok ks, w) →
      (anyAbroad s.pk ks = true → roomWait s.pk v f.hd.toNat = none →
        ∃ t g' x, exec (.lwait f) s = .next t ∧ Started s v f.h f.hd.toNat t g' x ∧ x.ord = .acq ∧
          x.kind = .lcnt (BitVec.ofNat 64 p) (BitVec.ofNat 64 (lwaitTarget f v)) v.act ∧ x.ops = oneOp v.lead (plainOp p ks []) ∧
          SameRegs v.grp g' ∧ GoesOrWaits v f.h g' (some (.txn s.pk.fresh))) ∧
      (∀ k, anyAbroad s.pk ks = false → acquireWait s.pk v f.hd.toNat .sys ks = some k →
        exec (.lwait f) s = .next (s.withGroup v.g (v.grp.blockCurrent k))) ∧
      (∀ u k, anyAbroad s.pk ks = false → acquireWait s.pk v f.hd.toNat .sys ks = none → w.badAt ks = some (u, k) →
        exec (.lwait f) s = .next (s.run fun w => raiseFault w v.g v.pc .dataLost v.act u k)) ∧
      (anyAbroad s.pk ks = false → acquireWait s.pk v f.hd.toNat .sys ks = none → w.badAt ks = none →
        (lwaitTarget f v ≤ bytesVal (seenBytes w v ks) →
          ∃ t g', Completed (.lwait f) s v f.h t g' ∧ t.mem = s.mem ∧ SameGroup v.grp g' ∧ t.pk.txns = s.pk.txns ∧
            t.pk.beside = s.pk.beside) ∧
        (bytesVal (seenBytes w v ks) < lwaitTarget f v → exec (.lwait f) s = .next (s.withGroup v.g
          (v.grp.blockCurrent (.lwait (BitVec.ofNat 64 p) (BitVec.ofNat 64 (lwaitTarget f v)))))))) ∧
    ((p % 8 ≠ 0 ∨ canonical p = false) →
      exec (.lwait f) s = .next (s.run fun w => raiseFault w v.g v.pc .prot v.act p 0))

/-- Together: `Sys2Proof.Part.LaunchesAppended`, `Sys2Proof.Part.LaunchCountersAwaited`. -/
def Obligations.LaunchInstructions : Prop :=
  Sys2Proof.Part.LaunchesAppended ∧ Sys2Proof.Part.LaunchCountersAwaited


namespace Sys2Proof.Machine

/-- An active lane's item has to wait for its turn: it has neither passed nor reached its gate. -/
def awaitsTurn (s : State) (v : View) (L : Fin 8) : Bool :=
  v.real.get L && match (v.grp.lane L).item with
    | some n =>
      match s.pk.items.find? n with
      | some i => !i.passed && !holdsTurn s.pk n i
      | none => false
    | none => false

/-- A split of lane L alone waits at the instruction for k. -/
def LaneWaits (v : View) (g' : Group) (L : Fin 8) (k : Wait) : Prop :=
  ∃ x ∈ g'.splits, x.cond = .blocked k ∧ x.lanes = Mask.none.set L true ∧ x.finish = true ∧ x.nxt = v.next

/-- Every table but those of items and flows is as it was. -/
def OnlyItems (s t : State) : Prop :=
  t.mem = s.mem ∧ t.pk.txns = s.pk.txns ∧
    { t.pk.beside with items := [], flows := [] } = { s.pk.beside with items := [], flows := [] }

/-- The lanes of a `relabel` move one after another; the lanes that a full flow table leaves. -/
def lanesLeft (s : State) (v : View) (f : RelabelF) : List (Fin 8 × Nat) :=
  (relabelLanes v.grp.lnch (fun L => v.grp.word f.a.r.toNat L) f.cls (laneItems v)
    ((Work.start s).issued v (relabelNeed f v))).2

/-- The split waits at the instruction, to issue it for the lanes of m only (R403). -/
def WaitsForLanes (v : View) (g' : Group) (k : Wait) (m : Mask) : Prop :=
  (∀ L, (g'.lane L).pc = (v.grp.lane L).pc) ∧
    ∃ x ∈ g'.splits, x.cond = .blocked k ∧ x.only = some m ∧ x.lanes = v.m ∧ x.finish = false

end Sys2Proof.Machine

/-- `itemid` writes what its lanes' items are; `tkt` holds the lanes whose item has not its turn, each alone, and lets the others go
on; `tkrel` passes the items of its lanes; a lane without an item faults with `PROT` (R341, R347 to R350). -/
def Sys2Proof.Part.TurnsOfItems : Prop :=
  (∀ s v f, Issues s f.h f.h.words (itemidNeed f v) v → ∃ g' x, exec (.itemid f) s = .next (s.withGroup v.g g') ∧
    WroteRegs v.grp g' f.d.toNat 4 false v.act x ∧ g'.rest = v.grp.rest ∧ WentOn v f.h g' ∧
    (∀ L n i, (v.grp.lane L).st = .live → (v.grp.lane L).item = some n → s.pk.items.find? n = some i →
      x L = itemWord s.pk n i) ∧
    ∀ L, (v.grp.lane L).item = none → x L = 0) ∧
  (∀ s v f, Issues s f.h f.h.words (itemsNeed v) v →
    ((itemless v).any = false → ∃ g', exec (.tkt f) s = .next (s.withGroup v.g g') ∧ SameGroup v.grp g' ∧
      WentTo v f.h g' (fun L => if awaitsTurn s v L then some v.pc else none) ∧
      ∀ L n, awaitsTurn s v L = true → v.grp.running.get L = true → (v.grp.lane L).item = some n →
        LaneWaits v g' L (.turn n)) ∧
    ((itemless v).any = true →
      exec (.tkt f) s = .next (s.run fun w => raiseFault w v.g v.pc .prot (itemless v) 0 0))) ∧
  (∀ s v f, Issues s f.h f.h.words (itemsNeed v) v →
    ((itemless v).any = false → ∃ t g', Completed (.tkrel f) s v f.h t g' ∧ SameGroup v.grp g' ∧ OnlyItems s t ∧
      ∀ L n i, v.real.get L = true → (v.grp.lane L).item = some n → t.pk.items.find? n = some i → i.passed = true) ∧
    ((itemless v).any = true →
      exec (.tkrel f) s = .next (s.run fun w => raiseFault w v.g v.pc .prot (itemless v) 0 0)))

/-- `relabel`, lane by lane, passes the lane's item and gives it a new place: its label, class and turn are new, and an atomic item
that is not admitted at once makes its lane wait. A lane that finds the flow table full leaves the split waiting, to issue the
instruction for the lanes left (R348). -/
def Sys2Proof.Part.ItemsRelabelled : Prop :=
  ∀ s v f, Issues s f.h f.h.words (relabelNeed f v) v → (itemless v).any = false →
    (lanesLeft s v f = [] →
      ∃ t g', exec (.relabel f) s = .next t ∧ t.pk.groups.find? v.g = some g' ∧ SameGroup v.grp g' ∧ OnlyItems s t ∧
        (∀ j, j ≠ v.g → t.pk.groups.find? j = s.pk.groups.find? j) ∧
        (f.cls ≠ .a → (∀ L n i, v.m.get L = true → (v.grp.lane L).item = some n → s.pk.items.find? n = some i →
          i.admitted = true) → WentOn v f.h g') ∧
        ∀ L n i, v.real.get L = true → v.grp.running.get L = true → (v.grp.lane L).item = some n →
          (∀ K, v.real.get K = true → (v.grp.lane K).item = some n → K = L) → s.pk.items.find? n = some i →
          i.lane.isSome = true →
          ∃ i', t.pk.items.find? n = some i' ∧ i'.label = v.grp.word f.a.r.toNat L ∧ i'.cls = f.cls ∧ i'.passed = false ∧
            i'.args = i.args ∧ i'.lane = i.lane ∧ i'.lnch = i.lnch ∧ (i'.admitted = true ∨ LaneWaits v g' L (.admission n))) ∧
    ∀ e es, lanesLeft s v f = e :: es →
      ∃ t g', exec (.relabel f) s = .next t ∧ t.pk.groups.find? v.g = some g' ∧ SameRegs v.grp g' ∧ OnlyItems s t ∧
        WaitsForLanes v g' (.flowRoom [v.grp.word f.a.r.toNat e.1])
          ((e :: es).foldl (fun m x => m.set x.1 true) Mask.none)

/-- `idone` ends the items of its lanes and the lanes with them, the group too when none is left (R86, R347, R350). -/
def Sys2Proof.Part.ItemsDone : Prop :=
  ∀ s v f, Issues s f.h f.h.words (itemsNeed v) v →
    ((itemless v).any = false → (v.grp.exit (v.grp.leaving v.act)).running.any = true →
      ∃ t g', exec (.idone f) s = .next t ∧ t.pk.groups.find? v.g = some g' ∧ SameRegs v.grp g' ∧ OnlyItems s t ∧
        g'.rest = (v.grp.exit (v.grp.leaving v.act)).rest ∧
        ∀ L n i, v.act.get L = true → (v.grp.lane L).item = some n → t.pk.items.find? n = some i →
          i.passed = true ∧ i.lane = none) ∧
    ((itemless v).any = true →
      exec (.idone f) s = .next (s.run fun w => raiseFault w v.g v.pc .prot (itemless v) 0 0))

/-- Together: `Sys2Proof.Part.TurnsOfItems`, `Sys2Proof.Part.ItemsRelabelled`, `Sys2Proof.Part.ItemsDone`. -/
def Obligations.ItemInstructions : Prop :=
  Sys2Proof.Part.TurnsOfItems ∧ Sys2Proof.Part.ItemsRelabelled ∧ Sys2Proof.Part.ItemsDone


namespace Sys2Proof.Machine

/-- The checks of the addresses of `stord`, and of the descriptors of `outq` and `ienq`. -/
def stordChecks (s : State) (v : View) (f : MemF) : Lanes (Option Chk) × Work :=
  accessChecks s v (memNeed f false v) .global .store f.mem (widthBytes f.width)
def descChecks (s : State) (v : View) (n : Need) (m : MemRef) : Lanes (Option Chk) × Work :=
  checkLanes ((Work.start s).issued v n) v fun L w => descCheck w v (v.ea m L)

/-- No active lane's result is to be held, or every one is. -/
abbrev noneHolds (s : State) (v : View) : Prop := ∀ L, v.real.get L = true → holdsResults s.pk v.grp L = none
abbrev allHold (s : State) (v : View) : Prop := ∀ L, v.real.get L = true → (holdsResults s.pk v.grp L).isSome = true

/-- The results of the lanes of m stand with their items, and of the tables only that of items has changed (R342). -/
def ResultsHeld (s t : State) (v : View) (f : MemF) (kind : Nat) (m : Mask) (cs : Lanes (Option Chk)) : Prop :=
  { t.pk.beside with items := [] } = { s.pk.beside with items := [] } ∧
    ∀ L n i ks, m.get L = true → holdsResults s.pk v.grp L = some n → s.pk.items.find? n = some i →
      keysOf (cs.get L) = some ks → ∃ i', t.pk.items.find? n = some i' ∧ ∃ e ∈ i'.held, e.kind = kind ∧ e.keys = ks ∧
        e.label = i.label ∧ e.seq = i.seq ∧ e.addr = BitVec.ofNat 64 (v.ea f.mem L) ∧
        e.data = storeData v f.d (widthBytes f.width) L

/-- What `stord` and `outq` do in lanes whose results are all to be held: they leave them with the items where the result buffer of
the core has room for all, and wait for it where it has not (R342, R344). -/
def HoldsAll (i : Instr) (s : State) (v : View) (f : MemF) (kind : Nat) (cs : Lanes (Option Chk)) : Prop :=
  (resultRoom s.pk v.grp.core v.real.count = true → ∃ t g', Completed i s v f.h t g' ∧ SameGroup v.grp g' ∧ t.mem = s.mem ∧
    t.pk.txns = s.pk.txns ∧ ResultsHeld s t v f kind v.real cs) ∧
  (resultRoom s.pk v.grp.core v.real.count = false → exec i s = .next (s.withGroup v.g (v.grp.blockCurrent
    (.resultRoom (v.real.lanes.filterMap fun L => holdsResults s.pk v.grp L)))))

end Sys2Proof.Machine

/-- `stord` stores, in a DET launch staged, for the lanes whose items hold their turn or are not ordered, and leaves the results of
the others with their items where the result buffer has room for all of these; where it has not, the split waits to issue the
instruction for those lanes (R111, R213, R342, R344). -/
def Sys2Proof.Part.OrderedStores : Prop :=
  ∀ s v f, Issues s f.h f.h.words (memNeed f false v) v →
    let n := widthBytes f.width
    let r := stordChecks s v f
    let held : Mask := Lanes.ofFn fun L => v.real.get L && (holdsResults s.pk v.grp L).isSome
    let now := Mask.diff v.real held
    let ops := storeOps now (v.ea f.mem) r.1 (storeData v f.d n)
    (v.real.any = true → accessGoes v r .store f.hd.toNat → noneHolds s v → stagedBlk r.2 v.grp = none →
      resultRoom s.pk v.grp.core 0 = true →
      ∃ t g' x, exec (.stord f) s = .next t ∧ Started s v f.h f.hd.toNat t g' x ∧ x.kind = .store ∧ x.scope = f.scope ∧
        x.ord = f.ord ∧ x.ops = storeOps v.real (v.ea f.mem) r.1 (storeData v f.d n) ∧ SameRegs v.grp g' ∧ WentOn v f.h g') ∧
    (v.real.any = true → accessGoes v r .store f.hd.toNat → allHold s v → HoldsAll (.stord f) s v f 0 r.1) ∧
    (now.any = true → accessGoes v r .store f.hd.toNat → stagedBlk r.2 v.grp = none →
      (resultRoom s.pk v.grp.core held.count = true →
        ∃ t g' x, Completed (.stord f) s v f.h t g' ∧ t.mem = s.mem ∧ SameButChains v.grp g' ∧
          t.pk.txns.find? s.pk.fresh = some x ∧ x.kind = .store ∧ x.scope = f.scope ∧ x.ord = f.ord ∧ x.ops = ops ∧
          (∀ j, j ≠ s.pk.fresh → t.pk.txns.find? j = s.pk.txns.find? j) ∧ ResultsHeld s t v f 0 held r.1) ∧
      (resultRoom s.pk v.grp.core held.count = false →
        ∃ t g' x, exec (.stord f) s = .next t ∧ OnlyGroup s v t g' ∧ SameRegs v.grp g' ∧
          t.pk.txns.find? s.pk.fresh = some x ∧ x.kind = .store ∧ x.ops = ops ∧
          (∀ j, j ≠ s.pk.fresh → t.pk.txns.find? j = s.pk.txns.find? j) ∧
          WaitsForLanes v g' (.resultRoom (held.lanes.filterMap fun L => holdsResults s.pk v.grp L)) held)) ∧
    (∀ d, v.real.any = true → accessGoes v r .store f.hd.toNat → noneHolds s v → detOf r.2 v.grp = some d → slotRoom r.2 v d →
      resultRoom s.pk v.grp.core 0 = true →
      ∃ t g' x, Completed (.stord f) s v f.h t g' ∧ t.mem = s.mem ∧ SameButSeqs v.grp g' ∧
        t.pk.txns.find? s.pk.fresh = some x ∧ x.kind = .store ∧ x.staged = some v.grp.blk ∧
        (∀ j, j ≠ s.pk.fresh → t.pk.txns.find? j = s.pk.txns.find? j) ∧ Buffered s t v 0 n 0 (laneParts v.real x.ops) ∧
        { t.pk.beside with blocks := [] } = { s.pk.beside with blocks := [] }) ∧
    (v.act.any = true → v.real.any = false → accessGoes v r .store f.hd.toNat → resultRoom s.pk v.grp.core 0 = true →
      NoEffect (.stord f) s v f.h) ∧
    (v.act.any = false → OnlyMoved (.stord f) s v f.h fun _ => none)

/-- `outq` and `ienq` of lanes whose results are not held start pushes that hold the split until they are made; `outq` in a DET
launch is buffered, and of items that do not hold their turn leaves its results with them (R112, R113, R213, R342, R351). -/
def Sys2Proof.Part.Pushes : Prop :=
  (∀ s v f, Issues s f.h f.h.words (memNeed f false v) v →
    let n := widthBytes f.width
    let r := descChecks s v (memNeed f false v) f.mem
    let ops := storeOps v.real (v.ea f.mem) r.1 (storeData v f.d n)
    (v.real.any = true → accessGoes v r .store f.hd.toNat → noneHolds s v → detOf r.2 v.grp = none →
      resultRoom s.pk v.grp.core 0 = true →
      ∃ t g' x, exec (.outq f) s = .next t ∧ Started s v f.h f.hd.toNat t g' x ∧ x.kind = .outq n ∧ x.scope = f.scope ∧
        x.ord = f.ord ∧ x.ops = ops ∧ SameRegs v.grp g' ∧ GoesOrWaits v f.h g' (some (.txn s.pk.fresh))) ∧
    (v.real.any = true → accessGoes v r .store f.hd.toNat → allHold s v → detOf r.2 v.grp = none →
      HoldsAll (.outq f) s v f 1 r.1) ∧
    (∀ d, v.real.any = true → accessGoes v r .store f.hd.toNat → detOf r.2 v.grp = some d → slotRoom r.2 v d →
      ∃ t g', Completed (.outq f) s v f.h t g' ∧ t.mem = s.mem ∧ SameButSeqs v.grp g' ∧ t.pk.txns = s.pk.txns ∧
        Buffered s t v 2 n 0 (laneParts v.real ops) ∧
        { t.pk.beside with blocks := [] } = { s.pk.beside with blocks := [] }) ∧
    (v.act.any = true → v.real.any = false → accessGoes v r .store f.hd.toNat → resultRoom s.pk v.grp.core 0 = true →
      NoEffect (.outq f) s v f.h) ∧
    (v.act.any = false → OnlyMoved (.outq f) s v f.h fun _ => none)) ∧
  (∀ s v f, Issues s f.h f.h.words (ienqNeed f v) v →
    let r := descChecks s v (ienqNeed f v) f.mem
    (v.real.any = true → accessGoes v r .store f.hd.toNat →
      ∃ t g' x, exec (.ienq f) s = .next t ∧ Started s v f.h f.hd.toNat t g' x ∧ x.kind = .ienq ∧ x.scope = .sys ∧
        x.ord = .rel ∧ (x.ops = storeOps v.real (v.ea f.mem) r.1 fun L => valBytes 32 (v.src f.d 8 L)) ∧ SameRegs v.grp g' ∧
        GoesOrWaits v f.h g' (some (.txn s.pk.fresh))) ∧
    (v.act.any = true → v.real.any = false → accessGoes v r .store f.hd.toNat → NoEffect (.ienq f) s v f.h) ∧
    (v.act.any = false → OnlyMoved (.ienq f) s v f.h fun _ => none))

/-- Together: `Sys2Proof.Part.OrderedStores`, `Sys2Proof.Part.Pushes`. -/
def Obligations.OrderedOutputs : Prop :=
  Sys2Proof.Part.OrderedStores ∧ Sys2Proof.Part.Pushes

/-! ## Class 13: names and ferry stores -/

/-- `nacq` gives the group a name, or reads the one it has; `nrel` gives it up; `nlook` reads the name of the group at a block and
index of the launch, zero where none stands there, and faults with `PROT` past the grid; `frys` reads the group's ferry word
(R291 to R294, R302). -/
def Sys2Proof.Part.NamesOfGroups : Prop :=
  (∀ s v f, Issues s f.h f.h.words (ferryNeed v) v → v.act.any = true →
    (∀ x, groupName s.pk v.grp = some x → ScalarResult (.nacq f) s v f.h f.d x) ∧
    (groupName s.pk v.grp = none → nextName s.pk = none → ScalarResult (.nacq f) s v f.h f.d 0) ∧
    (∀ k, groupName s.pk v.grp = none → nextName s.pk = some k →
      ∃ t g' gen, Completed (.nacq f) s v f.h t g' ∧ t.mem = s.mem ∧ SameRegs v.grp g' ∧ 1 ≤ gen ∧ gen < 2 ^ 20 ∧
        g'.rest = ({ v.grp.setSreg f.d.toNat (BitVec.ofNat 64 (nameWord s.pk k gen)) with name := some k } : Group).rest ∧
        t.pk.names.find? k = some ⟨gen, some v.g, v.grp.ctx, domainOf (Work.start s) v.grp.ctx, groupMoves s.pk v.g v.grp⟩ ∧
        { t.pk.beside with names := [], freedNames := [] } = { s.pk.beside with names := [], freedNames := [] })) ∧
  (∀ s v f, Issues s f.h f.h.words (ferryNeed v) v → v.act.any = true →
    ∃ t g', Completed (.nrel f) s v f.h t g' ∧ t.mem = s.mem ∧ SameRegs v.grp g' ∧
      g'.rest = ({ v.grp with name := none } : Group).rest ∧
      (∀ k e, v.grp.name = some k → s.pk.names.find? k = some e →
        t.pk.names.find? k = some { e with g := none, moving := false }) ∧
      { t.pk.beside with names := [], freedNames := [], inbound := [], sent := [] } =
        { s.pk.beside with names := [], freedNames := [], inbound := [], sent := [] }) ∧
  (∀ s v f l, Issues s f.h f.h.words (ferryNeed v) v → v.act.any = true → s.pk.launches.find? v.grp.lnch = some l →
    let x := v.s f.a
    let past := l.isItems = true ∨ x / 2 ^ 42 ≠ 0 ∨ l.blockCount ≤ x % 2 ^ 32 ∨ l.groupCount ≤ x / 2 ^ 32 % 2 ^ 10
    (past → exec (.nlook f) s = .next (s.run fun w => raiseFault w v.g v.pc .prot v.act x 0)) ∧
    (¬past → groupOfLaunch s.pk l (x % 2 ^ 32) (x / 2 ^ 32 % 2 ^ 10) = none → ScalarResult (.nlook f) s v f.h f.d 0) ∧
    (∀ gi g n, ¬past → groupOfLaunch s.pk l (x % 2 ^ 32) (x / 2 ^ 32 % 2 ^ 10) = some (gi, g) → groupName s.pk g = some n →
      ScalarResult (.nlook f) s v f.h f.d n)) ∧
  (∀ s v f, Issues s f.h f.h.words (ferryNeed v) v → ScalarResult (.frys f) s v f.h f.d v.grp.frysWord)

/-- `fry` sends one delivery with the words of its active lanes that are no helpers, counts it in flight, and takes an entry of the
tables for it; a word that is no name faults with `PROT` (R291, R295). -/
def Sys2Proof.Part.FerryStoresSent : Prop :=
  ∀ s v f, Issues s f.h f.h.words (fryNeed f v) v → v.real.any = true →
    let x := v.uni f.a 2
    (x / 2 ^ 48 = 0 → roomWait s.pk v f.hd.toNat = none →
      ∃ t g' m y, Completed (.fry f) s v f.h t g' ∧ t.mem = s.mem ∧ SameRegs v.grp g' ∧
        { g'.rest with chains := [] } = { v.grp.rest with chains := [], inflight := v.grp.inflight + 1 } ∧
        t.pk.sent.find? s.pk.fresh = some m ∧ m.d.name = BitVec.ofNat 64 x ∧ m.d.target = f.target.toNat ∧ m.d.m = v.real ∧
        m.d.sender = v.g ∧ m.d.handle = f.hd.toNat ∧ (∀ L, m.d.data.get L = v.grp.word f.b.r.toNat L) ∧ m.arrived = false ∧
        m.acked = none ∧ m.preds = chainRelease s.pk v.grp f.hd.toNat ∧ m.txn = s.pk.fresh + 1 ∧
        t.pk.txns.find? m.txn = some y ∧ y.kind = .ferry s.pk.fresh ∧
        (∀ j, j ≠ m.txn → t.pk.txns.find? j = s.pk.txns.find? j) ∧
        { t.pk.beside with sent := [] } = { s.pk.beside with sent := [] }) ∧
    (x / 2 ^ 48 ≠ 0 → exec (.fry f) s = .next (s.run fun w => raiseFault w v.g v.pc .prot v.act x 0))

/-- Together: `Sys2Proof.Part.NamesOfGroups`, `Sys2Proof.Part.FerryStoresSent`. -/
def Obligations.FerryInstructions : Prop :=
  Sys2Proof.Part.NamesOfGroups ∧ Sys2Proof.Part.FerryStoresSent


/-! ## Class 14: counters and system instructions -/

/-- `rdcc` reads the cycle counter, `pmrd` a counter of the group or a free value of the core's where its context has selected an
event, and `trmk` counts its lanes on a mark of the launch (R321 to R324). -/
def Obligations.CountersAndMarks : Prop :=
  (∀ s v h d, Issues s h h.words { writes := UDst.wrs (.s d) 2 } v →
    ScalarResult (.rdcc ⟨h, .s d⟩) s v h d (s.pk.cycle.toNat % 2 ^ 64)) ∧
  (∀ s v h r x, Issues s h h.words { writes := UDst.wrs (.v r x) 2 } v →
    ∃ g', exec (.rdcc ⟨h, .v r x⟩) s = .next (s.withGroup v.g g') ∧
      WroteRegs v.grp g' (uniReg r 2) 2 x v.act (fun _ => s.pk.cycle.toNat) ∧ g'.rest = v.grp.rest ∧ WentOn v h g') ∧
  (∀ s v f, Issues s f.h f.h.words {} v →
    (f.n.toNat < 8 → ScalarResult (.pmrd f) s v f.h f.s (FMap.getD v.grp.pmc 0 f.n.toNat).toNat) ∧
    (∀ c, 8 ≤ f.n.toNat → s.pk.ctxs.find? v.grp.ctx = some c →
      (FMap.getD c.pmev 0 f.n.toNat = 0 → ScalarResult (.pmrd f) s v f.h f.s 0) ∧
      (FMap.getD c.pmev 0 f.n.toNat ≠ 0 → v.act.any = true →
        ∃ t g', Completed (.pmrd f) s v f.h t g' ∧ t.mem = s.mem ∧ SameRegs v.grp g' ∧ t.pk.beside = s.pk.beside ∧
          g'.rest = (v.grp.setSreg f.s.toNat (Config.telemetry f.n.toNat s.pk.free)).rest))) ∧
  (∀ s v f, Issues s f.h f.h.words { feature := some 7 } v → v.act.any = true →
    ∃ t g', Completed (.trmk f) s v f.h t g' ∧ SameGroup v.grp g' ∧ t.pk.txns = s.pk.txns ∧
      (∀ l, s.pk.launches.find? v.grp.lnch = some l → ∃ l', t.pk.launches.find? v.grp.lnch = some l' ∧
        ∀ k, l'.marks.getD 0 k = l.marks.getD 0 k + if k = f.n.toNat then BitVec.ofNat 64 v.real.count else 0) ∧
      { t.pk.beside.afterWrite with trial := none } = { s.pk.beside.afterWrite with trial := none } ∧
      ((∀ b c, s.pk.blocks.find? v.grp.blk = some b → s.pk.ctxs.find? b.ctx = some c → c.tring = 0) → t.mem = s.mem))

namespace Sys2Proof.Machine

/-- The issuing context has the right that a bit of its OPTS gives (R356, R372). -/
def hasRight (s : State) (v : View) (bit : Nat) : Bool :=
  match s.pk.ctxs.find? v.grp.ctx with
  | some c => c.opt bit
  | none => false

/-- The group once its earlier accesses are put before every later one, as a `fence.sys` does (R371). -/
def fenced (s : State) (v : View) : Group :=
  ((fenceChains ((Work.start s).issued v {}) v.g (some .sys)).group? v.g).getD v.grp

end Sys2Proof.Machine

/-- Without the right in its context's OPTS a system instruction raises `PROT`, whatever its operands; with it, once the accesses of
the group are done, `sysrd` reads and `syswr` writes a system register, `syswr` of a read-only one raises `PROT`, and `halt` waits
for the event word or takes it (R371 to R373, R375). -/
def Sys2Proof.Part.SystemInstructions : Prop :=
  (∀ s v h, Issues s h h.words {} v → v.act.any = true →
    (hasRight s v 3 = false → ∀ reg r, exec (.sysrd ⟨h, reg, r⟩) s = exec (.syswr ⟨h, reg, r⟩) s ∧
      exec (.sysrd ⟨h, reg, r⟩) s = .next (s.run fun w => raiseFault w v.g v.pc .prot v.act 0 0)) ∧
    (hasRight s v 4 = false → ∀ r,
      exec (.tlbinv ⟨h, r⟩) s = .next (s.run fun w => raiseFault w v.g v.pc .prot v.act 0 0)) ∧
    (hasRight s v 5 = false → ∀ r,
      exec (.halt ⟨h, r⟩) s = .next (s.run fun w => raiseFault w v.g v.pc .prot v.act 0 0))) ∧
  (∀ s v f, Issues s f.h f.h.words {} v → v.act.any = true → hasRight s v 3 = true → groupTxns s.pk v.g = [] →
    ∃ t g', Completed (.sysrd f) s v f.h t g' ∧ t.mem = s.mem ∧ SameRegs v.grp g' ∧ t.pk.beside = s.pk.beside ∧
      g'.rest = ((fenced s v).setSreg f.s.toNat
        (BitVec.ofNat 64 (sysregRead ((Work.start s).issued v {}) f.reg.toNat).1)).rest) ∧
  (∀ s v f, Issues s f.h f.h.words {} v → v.act.any = true → hasRight s v 3 = true → groupTxns s.pk v.g = [] →
    let x := v.s f.s
    (sysregReadOnly f.reg.toNat = true →
      exec (.syswr f) s = .next (s.run fun w => raiseFault w v.g v.pc .prot v.act 0 0)) ∧
    (sysregReadOnly f.reg.toNat = false → ∃ t, exec (.syswr f) s = .next t ∧ t.mem = s.mem ∧ t.neg = s.neg ∧
      t.pk.ctxsel = (if f.reg = 0x020 then BitVec.ofNat 12 x else s.pk.ctxsel) ∧
      t.pk.tasksel = (if f.reg = 0x030 then BitVec.ofNat 16 x else s.pk.tasksel) ∧
      (∀ c, f.reg = 0x021 → s.pk.ctxs.find? s.pk.ctxsel.toNat = some c →
        t.pk.ctxs.find? s.pk.ctxsel.toNat = some { c with sched := BitVec.ofNat 4 x }) ∧
      (f.reg = 0x031 → x / 2 ^ 63 % 2 = 0 →
        (t.pk.tasks.getD Task.fresh s.pk.tasksel.toNat).count = BitVec.ofNat 32 x) ∧
      (∀ c, 0x058 ≤ f.reg.toNat → f.reg.toNat < 0x060 → s.pk.ctxs.find? s.pk.ctxsel.toNat = some c →
        ∃ c', t.pk.ctxs.find? s.pk.ctxsel.toNat = some c' ∧ c'.pmev.getD 0 (f.reg.toNat - 0x050) = BitVec.ofNat 64 x))) ∧
  (∀ s v f, Issues s f.h f.h.words {} v → v.act.any = true → hasRight s v 5 = true → groupTxns s.pk v.g = [] →
    (s.pk.evword ≠ 0 → ∃ t g', Completed (.halt f) s v f.h t g' ∧ t.mem = s.mem ∧ SameRegs v.grp g' ∧ t.pk.evword = 0 ∧
      g'.rest = ((fenced s v).setSreg f.d.toNat (BitVec.ofNat 64 s.pk.evword.toNat)).rest ∧
      { t.pk.beside with evword := 0 } = { s.pk.beside with evword := 0 }) ∧
    (s.pk.evword = 0 → exec (.halt f) s = .next (s.withGroup v.g (v.grp.blockCurrent .halt))))

/-- `tlbinv` of a live context's range that no access still uses and no pin holds, while no group of that context is suspended,
leaves no entry of the range in the TLB and no byte of memory changed (R366, R374, R385). -/
def Sys2Proof.Part.TranslationsInvalidated : Prop :=
  ∀ s v f ks w c, Issues s f.h f.h.words {} v → v.act.any = true → hasRight s v 4 = true → groupTxns s.pk v.g = [] →
    v.s f.a % 32 = 0 → canonical (v.s f.a) = true →
    chkGlobal (fenceChains ((Work.start s).issued v {}) v.g (some .sys)) v.grp.ctx .load (v.s f.a) 32 32 = (.ok ks, w) →
    w.badAt ks = none →
    let r := w.bytes ks
    let cn := fld r 16 2
    s.pk.ctxs.find? cn = some c → c.st = .live → fld r 20 1 % 2 = 0 →
    usersOf s.pk cn (w.pk.tlb.filter fun e => e.hit cn (fld r 18 2) (fld r 0 8) (fld r 8 8)) = [] →
    (∀ d ∈ s.pk.dropped, d.entry.hit cn (fld r 18 2) (fld r 0 8) (fld r 8 8) = true → openTxns s.pk d.txns = []) →
    (∀ e ∈ s.pk.groups, e.2.ctx = cn → e.2.susp = none) →
    ∃ t g', Completed (.tlbinv f) s v f.h t g' ∧ t.mem = s.mem ∧ SameRegs v.grp g' ∧ g'.rest = (fenced s v).rest ∧
      (∀ e ∈ t.pk.tlb, e.hit cn (fld r 18 2) (fld r 0 8) (fld r 8 8) = false) ∧
      ∀ e ∈ w.pk.tlb, e.hit cn (fld r 18 2) (fld r 0 8) (fld r 8 8) = false → e ∈ t.pk.tlb

/-- Together: `Sys2Proof.Part.SystemInstructions`, `Sys2Proof.Part.TranslationsInvalidated`. -/
def Obligations.SystemAndTlbInstructions : Prop :=
  Sys2Proof.Part.SystemInstructions ∧ Sys2Proof.Part.TranslationsInvalidated


/-! ## Class 15: collectives -/

namespace Sys2Proof.Machine

/-- An instruction reads n aligned bytes of global memory at its issue, once what its chain orders before the read has performed:
r is what its block sees there, and w' the machine with the releases that the read has met (R214, R232, R247). -/
def ReadsRecord (w : Work) (v : View) (h va n al : Nat) (r : List Byte) (w' : Work) : Prop :=
  va % al = 0 ∧ ∃ ks w1, chkRange w v.grp.ctx .load va n = (.ok ks, w1) ∧ accessWait w1.pk v h ks false = none ∧
    w1.badAt ks = none ∧ r = seenBytes w1 v ks ∧ w' = noteMet w1 v.g h v.grp.core ks

end Sys2Proof.Machine

/-- `coll` hands an instance to the unit once its record, its member set and its buffer object have been read and found in order;
`collw` goes on when the record says that it has committed, waits while it is pending, and faults with `COLL_ABORT` when it was
aborted; `mcst` starts one access that writes each lane's word at every member. Each reads its records as its block sees them, once
what is ordered before the read has performed (R214, R279 to R285). -/
def Obligations.CollectiveInstructions : Prop :=
  (∀ s v f r m w1 w2 w3 b, Issues s f.h f.h.words (huniNeed2 f.a v) v → v.real.any = true →
    ReadsRecord ((Work.start s).issued v (huniNeed2 f.a v)) v f.hd.toNat (v.uni f.a 2) 128 128 r w1 →
    ReadsRecord w1 v f.hd.toNat (cMset r) 64 64 m w2 → collOk f.kind r m = true →
    (∀ e ∈ s.pk.colls, cTag e.2.bytes ≠ cTag r) →
    pubObject w2 v.grp.ctx (cDst r) = (.ok b, w3) →
    outCount f.kind (fld m 0 2) (cCount r) * elemBytes f.kind (cType r) ≤ b.len →
    ∃ t g', Completed (.coll f) s v f.h t g' ∧ t.mem = s.mem ∧ SameButChains v.grp g' ∧ t.pk.txns = s.pk.txns ∧
      t.pk.colls.find? s.pk.fresh = some ⟨v.grp.ctx, v.grp.lnch, f.kind, BitVec.ofNat 64 (v.uni f.a 2), r, fld m 0 2,
        fld m 2 2, b.obj, w3.shadow b, false, none, 0, chainRelease s.pk v.grp f.hd.toNat, none⟩ ∧
      (∀ j, j ≠ s.pk.fresh → t.pk.colls.find? j = s.pk.colls.find? j) ∧
      { t.pk.beside with colls := [] } = { s.pk.beside with colls := [] }) ∧
  (∀ s v f, Issues s f.h f.h.words (huniNeed2 f.a v) v → v.act.any = true →
    let w0 := (Work.start s).issued v (huniNeed2 f.a v)
    (∀ ks w k, v.uni f.a 2 % 128 = 0 → chkRange w0 v.grp.ctx .load (v.uni f.a 2) 128 = (.ok ks, w) →
      accessWait w.pk v f.hd.toNat ks false = some k →
      exec (.collw f) s = .next (s.withGroup v.g (v.grp.blockCurrent k))) ∧
    ∀ r w, ReadsRecord w0 v f.hd.toNat (v.uni f.a 2) 128 128 r w →
      (fld r 40 4 = 1 → ∃ t g', Completed (.collw f) s v f.h t g' ∧ t.mem = s.mem ∧ SameButChains v.grp g' ∧
        t.pk.txns = s.pk.txns ∧ t.pk.beside = s.pk.beside) ∧
      (fld r 40 4 = 0 →
        exec (.collw f) s = .next (s.withGroup v.g (v.grp.blockCurrent (.collw (BitVec.ofNat 64 (v.uni f.a 2)))))) ∧
      (2 ≤ fld r 40 4 →
        exec (.collw f) s = .next (s.run fun w => raiseFault w v.g v.pc .collAbort v.act (fld r 44 2) 0))) ∧
  (∀ s v f m list w1 w2, Issues s f.h f.h.words (mcstNeed f v) v → v.real.any = true →
    ReadsRecord ((Work.start s).issued v (mcstNeed f v)) v f.hd.toNat (v.s f.set) 64 64 m w1 → msetOk m = true →
    ReadsRecord w1 v f.hd.toNat (fld m 8 8) (8 * fld m 0 2) 8 list w2 →
    let bases := (List.range (fld m 0 2)).map fun i => fld list (8 * i) 8
    let c := checkLanes w2 v fun L w => mcstLane w v.grp.ctx m bases (mcstEa f v L)
    accessGoes v c .store f.hd.toNat →
    ∃ t g' x, exec (.mcst f) s = .next t ∧ Started s v f.h f.hd.toNat t g' x ∧ x.kind = .store ∧
      x.ops = storeOps v.real (mcstEa f v) c.1 (fun L => (bases.map fun _ => valBytes 4 (v.src f.d 1 L)).flatten) ∧
      SameRegs v.grp g' ∧ WentOn v f.h g')

/-! ## Events of the host: negotiation, queues, fault control, the mailbox -/

namespace Sys2Proof.Machine

/-- Of the machine only queue q has changed, with the bits ev set in the event word. -/
def OnlyQueue (s t : State) (q : Nat) (x : Queue) (ev : BitVec 5) : Prop :=
  (∀ j, queueOf t.pk j = if j = q then x else queueOf s.pk j) ∧ t.mem = s.mem ∧ t.neg = s.neg ∧
    { t.pk with queues := [] } = { s.pk with queues := [], evword := s.pk.evword ||| ev }

/-- The package without the mailbox's own registers. -/
def Package.unmailed (p : Package) : Package := { p with mbcmd := 0, mbresult := 0, mbseq := 0 }

/-- Register k of the accepted word. -/
def Negotiation.faccw (n : Negotiation) (k : Nat) : W64 := n.accepted.extractLsb' (64 * k) 64

end Sys2Proof.Machine

/-- Writes to the negotiation registers take effect while DONE is 0 and no context but the service firmware's exists, which exists
from reset. Then a commit fixes an accepted word all of whose bits are offered, and clears one that names a bit that is not, and a
write of FACCW k is what that register then holds, the other three keeping theirs; else none of them has an effect. Writes to FOFFW
never have one, and while DONE is 0 a CREATE ends with RESULT 3 and changes nothing else (R6, R7). -/
def Obligations.NegotiationCommits : Prop :=
  (∃ c, State.reset.pk.ctxs.find? Config.firmwareContext = some c ∧ c.st = .live) ∧
  ∀ s, (negOpen s = true ↔ s.neg.done = false ∧ ∀ e ∈ s.pk.ctxs, e.1 ≠ Config.firmwareContext → e.2.st = .free) ∧
    (negOpen s = true → s.neg.accepted &&& offeredWord = s.neg.accepted →
      exec .commit s = .next { s with neg := { accepted := s.neg.accepted, done := true, err := false } }) ∧
    (negOpen s = true → s.neg.accepted &&& offeredWord ≠ s.neg.accepted →
      exec .commit s = .next { s with neg := { accepted := 0, done := false, err := true } }) ∧
    (∀ k v, negOpen s = true → k < 4 → ∃ t, exec (.registerWrite (0x020 + 8 * k) 8 v) s = .next t ∧ t.pk = s.pk ∧ t.mem = s.mem ∧
      t.neg.done = s.neg.done ∧ t.neg.err = s.neg.err ∧
      ∀ j, j < 4 → t.neg.faccw j = if j = k then v else s.neg.faccw j) ∧
    (∀ v : W64, exec (.registerWrite 0x040 8 v) s = if v.getLsbD 0 then exec .commit s else .next s) ∧
    (negOpen s = false → exec .commit s = .next s ∧
      ∀ k v, k < 4 → exec (.registerWrite (0x020 + 8 * k) 8 v) s = .next s ∧ exec (.registerWrite 0x040 8 v) s = .next s) ∧
    (∀ k v, k < 4 → exec (.registerWrite (8 * k) 8 v) s = .next s) ∧
    (s.neg.done = false → ∃ t, exec .create s = .next t ∧ t.mem = s.mem ∧ t.neg = s.neg ∧ t.pk.mbresult = 3 ∧
      t.pk.unmailed = s.pk.unmailed)

/-- QPROD moves the producer index of an enabled queue through either view; a disabled queue takes the write only through the
privileged view, which empties it there. Setting EN of a queue whose fields, context and quota are in order enables it and clears
ERR, and of any other leaves it disabled with ERR and the firmware's event; clearing EN disables it. QBASE, QCAP and QCTX are
written while EN is 0 only (R305, R375). -/
def Sys2Proof.Part.QueueRegisters : Prop :=
  ∀ s q, q < 16384 →
    let x := queueOf s.pk q
    (∀ view v, x.en = true → ∃ t, exec (.qprodWrite q view v) s = .next t ∧ OnlyQueue s t q { x with prod := v } 0) ∧
    (∀ v, x.en = false → exec (.qprodWrite q .sub v) s = .next s ∧
      ∃ t, exec (.qprodWrite q .priv v) s = .next t ∧ OnlyQueue s t q { x with prod := v, cons := v } 0) ∧
    (x.en = true → exec (.queueEnable q) s = .next s) ∧
    (x.en = false → queueLegal s.pk x = true → ∃ t, exec (.queueEnable q) s = .next t ∧
      OnlyQueue s t q { x with en := true, err := false, paused := none } 0) ∧
    (x.en = false → queueLegal s.pk x = false → ∃ t, exec (.queueEnable q) s = .next t ∧
      OnlyQueue s t q { x with err := true } 8) ∧
    (∃ t, exec (.queueDisable q) s = .next t ∧ OnlyQueue s t q { x with en := false, paused := none } 0) ∧
    ∀ v, let at_ (o : Nat) : Nat := 0x100000 + 64 * q + o
      (x.en = true → exec (.registerWrite (at_ 0x00) 8 v) s = .next s ∧ exec (.registerWrite (at_ 0x08) 8 v) s = .next s ∧
        exec (.registerWrite (at_ 0x20) 8 v) s = .next s) ∧
      exec (.registerWrite (at_ 0x18) 8 v) s = .next s ∧
      (x.en = false → (∃ t, exec (.registerWrite (at_ 0x00) 8 v) s = .next t ∧ OnlyQueue s t q { x with base := v } 0) ∧
        (∃ t, exec (.registerWrite (at_ 0x08) 8 v) s = .next t ∧ OnlyQueue s t q { x with cap := v } 0) ∧
        ∃ t, exec (.registerWrite (at_ 0x20) 8 v) s = .next t ∧ OnlyQueue s t q { x with ctx := v } 0)

namespace Sys2Proof.Machine

/-- FLNCH names a launch of the live context, and FBLOCK a block of it that has begun: its number and the block. -/
def Names (s : State) (cn : Nat) (l : Launch) (u : Nat) (b : Block) : Prop :=
  ctxLive s.pk cn = true ∧ s.pk.launches.find? s.pk.flnch.toNat = some l ∧ l.ctx = cn ∧
    blockAt s.pk l (s.pk.fblock.toNat % 2 ^ 32) = some (u, b) ∧ s.pk.blocks.find? u = some b ∧ b.stat = .begun

end Sys2Proof.Machine

/-- A stop halts the block that FLNCH and FBLOCK name, and each of its groups that has not been saved gets a request to be saved;
resume lets it run again; a kill of the block or of the launch leaves it killed, with a record to the host; a stop at a count is
armed; a retry marks every suspended access of the context for its replay (R384 to R388, R395). -/
def Sys2Proof.Part.FaultControl : Prop :=
  (∀ s (cn : BitVec 12) l u b, Names s cn.toNat l u b →
    (b.stopped = none → lowestGroup s.pk b ≠ none → ∃ t b', exec (.stopBlock cn) s = .next t ∧ t.neg = s.neg ∧
      t.pk.blocks.find? u = some b' ∧ b'.stopped = some .stop ∧ b'.stat = .begun ∧
      ∀ gi ∈ b.groups, ∀ g, s.pk.groups.find? gi = some g → g.stat ≠ .saved → ∃ g' age, t.pk.groups.find? gi = some g' ∧
        g'.saveReq = some ⟨.stop, age, false, false⟩ ∧ (g.saveReq = none → age = 0) ∧
        (g.stat = .resident → g' = { g with saveReq := g'.saveReq }) ∧ (g.stat ≠ .resident → g'.stat = .saving none)) ∧
    (b.stopped.isSome = true → exec (.stopBlock cn) s = .next s ∧
      (blockStays (Work.start s) b = true → exec (.resumeBlock cn) s = .next s)) ∧
    (b.stopped.isSome = true → blockStays (Work.start s) b = false → ∃ t b', exec (.resumeBlock cn) s = .next t ∧ t.neg = s.neg ∧
      t.pk.blocks.find? u = some b' ∧ b'.stopped = none ∧ b'.lead = none ∧ b'.stat = .begun) ∧
    (∃ t b', exec (.killBlock cn) s = .next t ∧ t.neg = s.neg ∧ t.pk.blocks.find? u = some b' ∧ b'.stat = .killed ∧
      b'.noLocal = true ∧ b'.kill.map Rec.code = some .killed ∧ ∀ gi ∈ b.groups, t.pk.groups.find? gi = none)) ∧
  (∀ s (cn : BitVec 12) l, ctxLive s.pk cn.toNat = true → s.pk.launches.find? s.pk.flnch.toNat = some l → l.ctx = cn.toNat →
    l.stat ≠ .done → l.stat ≠ .killed → ∃ t l', exec (.killLaunch cn) s = .next t ∧ t.neg = s.neg ∧
      t.pk.launches.find? s.pk.flnch.toNat = some l' ∧ l'.stat = .killed ∧
      (∃ r ∈ l'.killRecs, r.code = .killed ∧ r.ctx = cn.toNat) ∧
      (∀ e ∈ t.pk.items, e.2.lnch ≠ s.pk.flnch.toNat) ∧ ∀ f ∈ t.pk.flows, f.lnch ≠ s.pk.flnch.toNat) ∧
  (∀ s (cn : BitVec 12), ctxLive s.pk cn.toNat = true →
    (∀ l, s.pk.launches.find? s.pk.flnch.toNat = some l → l.ctx = cn.toNat) →
    exec (.stopAtCount cn) s = .next { s with pk := { s.pk with armed := s.pk.armed ++
      [⟨cn.toNat, s.pk.flnch.toNat, s.pk.fblock.toNat % 2 ^ 32, s.pk.fblock.toNat / 2 ^ 32 % 2 ^ 10,
        s.pk.fblock.toNat / 2 ^ 42 % 2 ^ 3, s.pk.fcount⟩] } }) ∧
  (∀ s v, ctxLive s.pk (v.toNat % 2 ^ 12) = true → ∃ t, exec (.fretry v) s = .next t ∧ t.neg = s.neg ∧
    ∀ gi g, s.pk.groups.find? gi = some g → g.ctx = v.toNat % 2 ^ 12 → g.susp.isSome = true →
      ∃ g', t.pk.groups.find? gi = some g' ∧ (g.stat ≠ .saved → g'.replay = true) ∧ (g.stat = .saved → g'.susp = none))

/-- A write of the doorbell sets its bit of the event word; MBARG, FLNCH and the other plain registers take the value written; a
write narrower than 64 bits or of a register that is not writable has no effect; and a write of TRIAL reads a descriptor and starts
its first window, or refuses it with status 3 (R4, R325, R354, R375). -/
def Sys2Proof.Part.DevicePage : Prop :=
  (∀ s v, exec (.fwbell v) s = .next { s with pk := { s.pk with evword := s.pk.evword ||| 1 } }) ∧
  (∀ s v, exec (.registerWrite 0x108 8 v) s = .next { s with pk := { s.pk with mbarg := v } } ∧
    exec (.registerWrite 0x188 8 v) s = .next { s with pk := { s.pk with flnch := v } } ∧
    exec (.registerWrite 0x1A0 8 v) s = .next { s with pk := { s.pk with fcount := v } } ∧
    exec (.registerWrite 0x120 8 v) s = exec (.fwbell v) s ∧ exec (.registerWrite 0x180 8 v) s = exec (.fretry v) s ∧
    (∀ q, q < 16384 → exec (.registerWrite (0x200010 + 64 * q) 8 v) s = exec (.qprodWrite q .sub v) s) ∧
    (∀ off w, w ≠ 8 → exec (.registerWrite off w v) s = .next s) ∧
    ∀ off, off < 0x020 ∨ 0x300000 ≤ off → exec (.registerWrite off 8 v) s = .next s) ∧
  (∀ s v, s.pk.trial = none → v.toNat % 64 = 0 →
    let d := (Work.start s).bytes (keysFrom v.toNat 64)
    ∃ t, exec (.trial v) s = .next t ∧ t.neg = s.neg ∧ { t.pk.afterWrite with trial := none } = s.pk.afterWrite ∧
      WroteBytes s t (keysFrom (v.toNat + 30) 2) (valBytes 2 (if trialOk d then 1 else 3)) ∧
      (trialOk d = false → t.pk.trial = none) ∧
      (trialOk d = true → ∃ x, t.pk.trial = some x ∧ x.desc = v.toNat ∧ x.lnch = fld d 0 8 ∧ x.win = fld d 24 4 ∧
        x.left = fld d 24 4 ∧ x.slow = fld d 28 1 ∧ x.mark = fld d 29 1 ∧ x.second = false ∧ x.lo.toNat = fld d 8 8 ∧
        x.hi.toNat = fld d 16 8)) ∧
  ∀ s v, (s.pk.trial ≠ none ∨ v.toNat % 64 ≠ 0) → exec (.trial v) s = .next s

/-- Together: `Sys2Proof.Part.QueueRegisters`, `Sys2Proof.Part.FaultControl`, `Sys2Proof.Part.DevicePage`. -/
def Obligations.HostCommands : Prop :=
  Sys2Proof.Part.QueueRegisters ∧ Sys2Proof.Part.FaultControl ∧ Sys2Proof.Part.DevicePage

namespace Sys2Proof.Machine

/-- The commands of the mailbox that an event of the table names: the event, its code and what it does. -/
def mailboxCommands (s : State) : List (Instr × Nat × Command) :=
  [(.create, 1, createCmd s.neg.done), (.destroy, 2, withArgs destroyCmd), (.pubnew, 4, withArgs pubnewCmd),
    (.getid, 5, withArgs getidCmd), (.attest, 6, withArgs attestCmd)]

/-- The argument block of the mailbox. -/
def mailArgs (s : State) (n : Nat) : List Byte := argBytes (Work.start s) 0 n

/-- The command is done: its code and success stand in the mailbox. -/
def Mailed (s t : State) (code : Nat) : Prop :=
  t.pk.mbcmd = BitVec.ofNat 64 code ∧ t.pk.mbresult = 0 ∧ t.neg = s.neg

end Sys2Proof.Machine

/-- A mailbox command that fails changes nothing but the mailbox registers, which count it. A CREATE of a context that does not
exist, with a legal descriptor, a readable header and no conflict, makes it live, its tasks at zero; a DESTROY of a live context
leaves no request, walk, pin or cached translation of it, and the context draining or free; REACH appends or takes out an entry;
PUBNEW writes the object and enters its range; GETID and ATTEST write 64 and 512 bytes, the hash of the descriptor and the entries of
its domain among them (log entry 115) (R353, R355, R359, R361, R370). -/
def Obligations.MailboxCommands : Prop :=
  (∀ s, ∀ c ∈ mailboxCommands s, ∃ t, exec c.1 s = .next t ∧ t.neg = s.neg ∧
    let r := (c.2.2 (Work.start s)).1
    t.pk.mbcmd = BitVec.ofNat 64 c.2.1 ∧ t.pk.mbresult = r ∧
      (r ≠ 0 → t.mem = s.mem ∧ t.pk.mbseq = s.pk.mbseq + 1 ∧ t.pk.unmailed = s.pk.unmailed)) ∧
  (∀ s ks w, s.pk.mbarg.toNat % 64 = 0 →
    let a := mailArgs s 320
    let cn := fld a 0 2
    let c := Ctx.fresh ((a.drop 64).take 256)
    s.neg.done = true → cn ≤ 4095 → allZero ((a.drop 2).take 62) = true → descFieldsOk cn c = true → s.pk.ctxs.find? cn = none →
    chkRange ((Work.start s).setCtx cn c) cn .load c.save 4096 = (.ok ks, w) → 0 < fld ((Work.start s).bytes ks) 0 4 →
    fld ((Work.start s).bytes ks) 0 4 ≤ 131072 → grantConflict s.pk c = false →
    ∃ t, exec .create s = .next t ∧ Mailed s t 1 ∧ t.pk.ctxs.find? cn = some c ∧
      (∀ j, j ≠ cn → t.pk.ctxs.find? j = s.pk.ctxs.find? j) ∧
      ∀ j, c.taskLo ≤ j → j < c.taskLo + c.taskN → (t.pk.tasks.getD Task.fresh j).count = 0) ∧
  (∀ s c, s.pk.mbarg.toNat % 64 = 0 →
    let a := mailArgs s 64
    let cn := fld a 0 2
    cn ≤ 4095 → allZero (a.drop 2) = true → s.pk.ctxs.find? cn = some c → c.st = .live →
    ∃ t, exec .destroy s = .next t ∧ Mailed s t 2 ∧ (∀ x, t.pk.ctxs.find? cn = some x → x.st = .draining) ∧
      (∀ e ∈ t.pk.reqs, e.2.ctx ≠ cn) ∧ (∀ e ∈ t.pk.chans, e.2.ctx ≠ cn) ∧ (∀ e ∈ t.pk.pins, e.ctx ≠ cn) ∧
      ∀ e ∈ t.pk.tlb, e.ctx ≠ cn) ∧
  (∀ s, s.pk.mbarg.toNat % 64 = 0 →
    let a := mailArgs s 64
    let e := reachOf a
    reachOk a = true →
    (bitAt (fld a 4 1) 1 = 1 → meetsControl e.base e.len = false → s.pk.reach.length < 1024 →
      ∃ t, exec .reachAdd s = .next t ∧ Mailed s t 3 ∧ t.mem = s.mem ∧
        t.pk.unmailed = { s.pk.unmailed with reach := s.pk.reach ++ [e] }) ∧
    (∀ i, bitAt (fld a 4 1) 1 ≠ 1 → s.pk.reach.findIdx? (sameReach e) = some i →
      ∃ t, exec .reachRemove s = .next t ∧ Mailed s t 3 ∧ t.mem = s.mem ∧
        t.pk.unmailed = { s.pk.unmailed with reach := s.pk.reach.eraseIdx i }) ∧
    (bitAt (fld a 4 1) 1 = 1 → 1024 ≤ s.pk.reach.length → meetsControl e.base e.len = false →
      ∃ t, exec .reachAdd s = .next t ∧ t.pk.mbresult = 5 ∧ t.mem = s.mem ∧ t.pk.unmailed = s.pk.unmailed)) ∧
  (∀ s c ks w, s.pk.mbarg.toNat % 64 = 0 →
    let a := mailArgs s 128
    pubFieldsOk s.pk a = true → s.pk.ctxs.find? (fld a 64 2) = some c → c.st = .live →
    (∀ x ∈ s.pk.pubs, fld a 0 8 + fld a 8 8 ≤ x.pbase ∨ x.pbase + x.len ≤ fld a 0 8) →
    chkGlobal (Work.start s) (fld a 64 2) .load (fld a 72 8) 64 64 = (.ok ks, w) →
    ∃ t, exec .pubnew s = .next t ∧ Mailed s t 4 ∧ WroteBytes s t ks (a.take 64) ∧
      t.pk.pubs = s.pk.pubs ++ [⟨fld a 0 8, fld a 8 8, fld a 16 8, fld a 24 8, ks.headD 0⟩]) ∧
  (∀ s, s.pk.mbarg.toNat % 64 = 0 → ∃ t bs, exec .getid s = .next t ∧ Mailed s t 5 ∧
    t.pk.unmailed.afterWrite = s.pk.unmailed.afterWrite ∧
    bs.length = 57 ∧ WroteBytes s t (keysFrom s.pk.mbarg.toNat 64) (bs ++ List.replicate 7 0)) ∧
  (∀ s c, s.pk.mbarg.toNat % 64 = 0 →
    let a := mailArgs s 128
    fld a 0 2 ≤ 4095 → allZero ((a.drop 2).take 62) = true → s.pk.ctxs.find? (fld a 0 2) = some c →
    ∃ t bs, exec .attest s = .next t ∧ Mailed s t 6 ∧ t.pk.unmailed.afterWrite = s.pk.unmailed.afterWrite ∧ bs.length = 512 ∧
      WroteBytes s t (keysFrom (s.pk.mbarg.toNat + 128) 512) bs ∧ bs.take 4 = valBytes 4 1 ∧ fld bs 4 2 = fld a 0 2 ∧
      fld bs 6 2 = s.pk.no % 2 ^ 16 ∧ fld bs 8 8 = s.pk.cycle.toNat ∧ (bs.drop 16).take 64 = a.drop 64 ∧
      (bs.drop 208).take 64 =
        shake256 64 (c.desc ++ (s.pk.reach.filter fun e => e.domain == c.domain).flatMap reachBytes) ∧
      fld bs 272 16 = ctxNum c.st ∧ allZero (bs.drop 402) = true)

/-! ## Events of a group that stands at an instruction, of faults and of saves -/

namespace Sys2Proof.Machine

/-- The event ends the wait of split x of group gi, and of the group nothing else changes but, where the wait was at a barrier, what
its chains follow: the lanes stand at the next word where the end of the wait completes the instruction, and at the instruction
where not, in a ready split. -/
def WaitEnded (i : Instr) (s : State) (gi : Nat) (g : Group) (x : Split) : Prop :=
  ∃ g', exec i s = .next (s.withGroup gi g') ∧ SameButChains g g' ∧
    ((∀ n v, x.cond ≠ .blocked (.bar n v) ∧ x.cond ≠ .blocked (.barw n v)) → g'.chains = g.chains) ∧
    (∀ L, (g'.lane L).pc = if x.finish = true ∧ x.lanes.get L = true then x.nxt else (g.lane L).pc) ∧
    ∃ y ∈ g'.splits, y.cond = .ready ∧ x.lanes.subset y.lanes = true

/-- A wait that ends an invalidation. -/
def Wait.invalidates (k : Wait) : Bool :=
  match k with
  | .inval .. => true
  | _ => false

end Sys2Proof.Machine

/-- After 64 instructions of a split the next split of the ring that may issue is current, and the split that ran stands at its place
in the round (R72). A wait that is over ends, unless the group stands in its image or a swapped-out parent is on its way there: of
registers, rooms and barriers by the test of its kind, of `sleep` when the cycle counter reaches its value, of `lwait` when the
counter in memory does (R70, R87, R329, R334). The split waits with a lane at least, and its lanes have one MR, as the merging of
the ring leaves them (R16). -/
def Obligations.SplitsTakeTurnsAndWake : Prop :=
  (∀ s gi g x bef y aft, s.pk.groups.find? gi = some g → g.splits = x :: (bef ++ y :: aft) → 64 ≤ x.quant → g.stat ≠ .saved →
    (∀ z ∈ bef, g.mayIssue z = false) → g.mayIssue y = true →
    ∃ g', exec (.quantumExpiry gi) s = .next (s.withGroup gi g') ∧ SameRegs g g' ∧ g'.rest = g.rest ∧ g'.lanes = g.lanes ∧
      g'.splits = { y with quant := 0 } :: (aft ++ x :: bef) ∧ (y.lanes ≠ x.lanes → g'.bypass = [])) ∧
  (∀ s gi g x xs, s.pk.groups.find? gi = some g → g.splits = x :: xs → x.quant < 64 →
    exec (.quantumExpiry gi) s = .next (s.withGroup gi g)) ∧
  (∀ s gi k g x wt, s.pk.groups.find? gi = some g → g.splits[k]? = some x → x.cond = .blocked wt → g.waitsStay = false →
    x.lanes.any = true → (∀ L M, x.lanes.get L = true → x.lanes.get M = true → (g.lane L).mr = (g.lane M).mr) →
    (wt.invalidates = false → waitOver (Work.start s) gi g wt = true → WaitEnded (.splitWaitEnd gi k) s gi g x) ∧
    (∀ t, wt = .sleep t → t.toNat ≤ s.pk.cycle.toNat → WaitEnded (.sleepWake gi k) s gi g x) ∧
    (∀ p t, wt = .lwait p t → counterReached (Work.start s) g p t = true → g.stat = .resident →
      WaitEnded (.lwaitReread gi k) s gi g x))

/-- A precise fault of class P in a group with a handler, not in handler mode, whose trap slot can be written: the record is in the
trap slot, the lanes of the split stand at TVEC with s31 at the slot, and the saved PC is the faulting instruction's (R380, R381).
With TVEC zero, or in handler mode, the block is killed instead (R376, R382). A replayable `PAGE` suspends the group, and its record
goes to the host (R385). An instruction of the machine that takes an exception does it by these. -/
def Obligations.ExceptionsTaken : Prop :=
  (∀ (s : State) gi pc code lanes addr info g c x xs ks w1, s.pk.groups.find? gi = some g → s.pk.ctxs.find? g.ctx = some c →
    code ≠ .page → (code = .dataLost → info = 0) → c.tvec ≠ 0 → g.handler = none → g.splits = x :: xs →
    (∀ k, x.cond ≠ .blocked k) → x.only = none →
    let r := groupRec (Work.start s) g code .p lanes (pcVa pc) (BitVec.ofNat 64 addr) info
    chkRange (Work.start s) g.ctx .store (trapSlot c g) (r.bytes false).length = (.ok ks, w1) →
    let t := s.run fun w => raiseFault w gi pc code lanes addr info
    ∃ g' h, t.pk.groups.find? gi = some g' ∧ t.neg = s.neg ∧ WroteBytes s t ks (r.bytes false) ∧ SameRegs g g' ∧
      (∀ L, (g'.lane L).pc = if x.lanes.get L then BitVec.ofNat 57 c.tvec else (g.lane L).pc) ∧
      g'.sreg 31 = BitVec.ofNat 64 (trapSlot c g) ∧ (∀ k, k ≠ 31 → g'.sreg k = g.sreg k) ∧
      g'.handler = some h ∧ h.lanes = x.lanes ∧ h.pc = pc ∧ (h.next = pcPlus pc 1 ∨ h.next = pcPlus pc 2) ∧
      g'.susp = g.susp ∧ (code = .promiseMiss → g'.resume = some pc) ∧ (code ≠ .promiseMiss → g'.resume = g.resume) ∧
      ∀ j, j ≠ gi → t.pk.groups.find? j = s.pk.groups.find? j) ∧
  (∀ (s : State) gi pc code lanes addr info g c b, s.pk.groups.find? gi = some g → s.pk.ctxs.find? g.ctx = some c → code ≠ .page →
    c.tvec = 0 ∨ g.handler.isSome = true → s.pk.blocks.find? g.blk = some b → b.stat = .begun → gi ∈ b.groups →
    let t := s.run fun w => raiseFault w gi pc code lanes addr info
    ∃ b', t.pk.blocks.find? g.blk = some b' ∧ b'.stat = .killed ∧ t.pk.groups.find? gi = none ∧
      ∃ r, b'.kill = some r ∧ r.code = code ∧ r.cls = .f ∧ r.block = true) ∧
  (∀ (s : State) gi pc lanes addr info g c, s.pk.groups.find? gi = some g → s.pk.ctxs.find? g.ctx = some c →
    let t := s.run fun w => raiseFault w gi pc .page lanes addr info
    t.mem = s.mem ∧ t.pk.groups.find? gi = some { g with susp := some (BitVec.ofNat 64 addr) } ∧
      (∀ j, j ≠ gi → t.pk.groups.find? j = s.pk.groups.find? j) ∧
      ∃ c' r, t.pk.ctxs.find? g.ctx = some c' ∧ c'.pending = c.pending ++ [r] ∧ r.code = .page ∧ r.cls = .r ∧
        r.lnch = BitVec.ofNat 64 g.lnch ∧ r.pc = pcVa pc ∧ r.addr = BitVec.ofNat 64 addr ∧ r.info = BitVec.ofNat 32 info) ∧
  (∀ s gi g r rs, s.pk.groups.find? gi = some g → g.pendA = r :: rs → takesRecord s.pk gi g r = true →
    exec (.asyncFaultDelivery gi) s = .next (s.run fun w =>
      deliver (w.updGroup gi fun g => { g with pendA := rs }) gi { r with pc := pcVa g.nextPc, hmode := false } true)) ∧
  (∀ s gi k g x key v p loc, s.pk.groups.find? gi = some g → g.splits[k]? = some x → x.cond = .blocked (.bwait key v (some p) loc) →
    p.toNat + graceOf (Work.start s) g.ctx ≤ s.pk.cycle.toNat → g.stat = .resident → g.handler = none →
    let b := (Work.start s).bytes (keysFrom key 32)
    barPhasePassed b v = false → barErr b = false →
    exec (.promiseMiss gi k) s = .next (s.run fun w => raiseRec (w.updGroup gi fun g => g.wakeAt k) gi (g.pcOf x.lanes)
      .promiseMiss (guardLanes w g x.lanes) p.toNat loc.toNat false)) ∧
  (∀ s gi g, s.pk.groups.find? gi = some g → groupStays (Work.start s) g = true →
    exec (.pageReplay gi) s = .next (s.withGroup gi g)) ∧
  (∀ s gi g, s.pk.groups.find? gi = some g → g.replay = true → g.stat ≠ .saved → groupStays (Work.start s) g = false →
    exec (.pageReplay gi) s = .next (s.withGroup gi { g with susp := none, replay := false })) ∧
  (∀ s cn c r rs hk ks w1 w2, s.pk.ctxs.find? cn = some c → c.pending = r :: rs → c.drops = 0 →
    chkRange (Work.start s) cn .store c.fring 64 = (.ok hk, w1) →
    let h := (Work.start s).bytes hk
    ringLegal h = true → ringRoom h = true →
    chkRange w1 cn .store ((fld h 0 8 + 64 * (fld h 16 8 % fld h 8 4)) % 2 ^ 64) (r.bytes true).length = (.ok ks, w2) →
    ∃ t, exec (.faultRingWrite cn) s = .next t ∧ t.neg = s.neg ∧ t.pk.groups = s.pk.groups ∧
      t.pk.ctxs.find? cn = some { c with pending := rs } ∧
      t.pk.msis = (BitVec.ofNat 64 c.hmsi, BitVec.ofNat 32 c.hmsid) :: s.pk.msis ∧
      t.mem = (s.run fun w =>
        (w.puts ks (r.bytes true)).puts ((hk.drop 16).take 8) (valBytes 8 ((fld h 16 8 + 1) % 2 ^ 64))).mem)

/-- A block whose watchdog budget a lane has used up, or one of whose groups is to issue an instruction that a watchpoint matches,
stops; and a launch past its time limit is killed (R318, R319, R388 to R390). -/
def Sys2Proof.Part.StopsByTheMachine : Prop :=
  (∀ s u b g L e, s.pk.blocks.find? u = some b → b.stat = .begun → b.stopped = none →
    overBudget (Work.start s) b = some (g, L) → lowestGroup s.pk b = some e →
    ∃ t b', exec (.watchdog u) s = .next t ∧ t.neg = s.neg ∧ t.pk.blocks.find? u = some b' ∧ b'.stopped = some .watchdog ∧
      b'.stat = .begun ∧ t.pk.evword.getLsbD 4 = true) ∧
  (∀ s gi (n : Fin 4) g i v a b, s.pk.groups.find? gi = some g → fetchInstr (Work.start s) g g.nextPc = .instr i →
    watchHit s.neg (Work.start s) gi g i n.val = some (v, a) → s.pk.blocks.find? g.blk = some b → b.stat = .begun →
    b.stopped = none → ∃ t b' g', exec (.watch gi n) s = .next t ∧ t.neg = s.neg ∧ t.pk.blocks.find? g.blk = some b' ∧
      b'.stopped = some .watch ∧ t.pk.groups.find? gi = some g' ∧ (n.val, v.pc) ∈ g'.skipWatch ∧ SameRegs g g' ∧ g'.lanes = g.lanes) ∧
  ∀ s ln l c lim, s.pk.launches.find? ln = some l → s.pk.ctxs.find? l.ctx = some c → c.ltime = some lim → l.placed = true →
    lim ≤ l.cycles → l.stat ≠ .done → l.stat ≠ .killed →
    ∃ t l', exec (.launchTime ln) s = .next t ∧ t.neg = s.neg ∧ t.pk.launches.find? ln = some l' ∧ l'.stat = .killed ∧
      ∃ r ∈ l'.killRecs, r.code = .launchTime

/-- A save request that has waited 2^20 cycles is forced; a request that does not wait for a safe point, or that finds its group at
rest and its image with room, halts the group, and one whose reason has gone is dropped; a halted group with nothing outstanding,
whose image has room, is saved and leaves its slot; a saved group whose turn it is on a core that takes it stands there again; a
migrating block asks every group to be saved (R334, R396 to R400, R409). -/
def Sys2Proof.Part.GroupsSavedAndRestored : Prop :=
  (∀ s gi g q, s.pk.groups.find? gi = some g → g.saveReq = some q → 2 ^ 20 ≤ q.age →
    exec (.preemptTimeout gi) s = .next (s.withGroup gi { g with saveReq := some { q with forced := true } })) ∧
  (∀ s gi g q, s.pk.groups.find? gi = some g → g.stat = .resident → g.saveReq = some q →
    (q.kind.lapsed g = true → exec (.groupSave gi) s = .next (s.withGroup gi { g with saveReq := none })) ∧
    (q.kind.lapsed g = false →
      (q.kind.yields = false ∨ (g.atRest = true ∨ q.forced = true) ∧ saveFits (Work.start s) gi g none = true) →
      ∃ t g', exec (.groupSave gi) s = .next t ∧ t.mem = s.mem ∧ t.neg = s.neg ∧ t.pk.groups.find? gi = some g' ∧
        g'.stat = .saving none ∧ g'.saveKind = q.kind ∧ g'.saveReq = some q ∧ SameRegs g g' ∧ g'.lanes = g.lanes)) ∧
  (∀ s gi g m b bulk sect w1, s.pk.groups.find? gi = some g → g.stat = .saving m → s.pk.blocks.find? g.blk = some b →
    groupQuiet s.pk gi g = true → (lastResident s.pk gi b = true → localBusy s.pk g.blk = false) →
    requestsRest s.pk gi g b = true →
    runsFor (Work.start s) gi g m = .ok bulk sect w1 →
    ∃ t g', exec (.groupSave gi) s = .next t ∧ t.neg = s.neg ∧ t.pk.groups.find? gi = some g' ∧ g'.stat = .saved ∧
      g'.bulk = some bulk ∧ g'.saveSeq = w1.pk.fresh ∧ g'.saveReq = none ∧
      (∀ h, { g'.chain h with jord := [], awaits := [], seen := [] } = Chain.idle) ∧
      (lastResident s.pk gi b = true → ∃ b', t.pk.blocks.find? g.blk = some b' ∧ b'.section_ = some sect ∧
        ∀ e ∈ t.pk.reqs, e.2.blk ≠ g.blk)) ∧
  (∀ s gi g b core part f bulk, s.pk.groups.find? gi = some g → s.pk.blocks.find? g.blk = some b → b.section_ = none →
    restoreTurn (Work.start s) gi g (coreDie core) = true → restoreFirst (Work.start s) g (coreDie core) = true →
    seatOn s.pk g core = some part → groupTakes s.pk g b core = true → readFrame (Work.start s) g = some f →
    readBulk (Work.start s) g f = some bulk →
    (setFState (Work.start s) g.ctx g.frame 3).badAt (imageKeys (setFState (Work.start s) g.ctx g.frame 3) g f) = none →
    (∀ e ∈ s.pk.inbound, e.2.g ≠ gi) →
    ∃ t g', exec (.groupRestore gi [core]) s = .next t ∧ t.neg = s.neg ∧ t.pk.groups.find? gi = some g' ∧ g'.stat = .resident ∧
      g'.core = core ∧ g'.part = part ∧ g'.saveReq = none ∧ g'.bulk = none) ∧
  (∀ s ln lin l u b, s.pk.launches.find? ln = some l → blockAt s.pk l lin = some (u, b) → s.pk.blocks.find? u = some b →
    b.stat = .begun → b.migrating = false → b.stopped = none →
    ∃ t b', exec (.migration ln lin) s = .next t ∧ t.neg = s.neg ∧ t.pk.blocks.find? u = some b' ∧ b'.migrating = true ∧
      b'.stat = .begun ∧
      ∀ gi ∈ b.groups, ∀ g, s.pk.groups.find? gi = some g → g.stat ≠ .saved → gi ∈ b'.toMove ∧
        t.pk.groups.find? gi = some { g with saveReq := some (match g.saveReq with
          | some q => { q with kind := .migrate }
          | none => ⟨.migrate, 0, false, false⟩) }) ∧
  ∀ s gi g, s.pk.groups.find? gi = some g → parentGoes (Work.start s) gi g = true →
    exec (.parentSwapOut gi) s = .next (s.withGroup gi { g with saveReq := some ⟨.parentSwap, 0, true, false⟩ })

/-- `contextRunsWrite` writes FLOWRUN and HELDRUN once a context is descheduled on every die and none of its groups is resident: the
flow entries and the held results go into runs of the pool, the header gets their numbers and addresses (NFLOW, FLOWRUN, NHELD,
HELDRUN), the entries leave the flow table and the results their buffers; where either run has no room or cannot be written, neither
is, and nothing changes. When the context is scheduled again and the table has room, the entries return and FLOWRUN is given back.
(R345, R406 to R408.) -/
def Sys2Proof.Part.ContextRunsWritten : Prop :=
  (∀ s cn c, s.pk.ctxs.find? cn = some c → c.sched = 0 → haltedWalks s.pk cn = [] →
    let fs := (ctxFlows s.pk cn).filter fun f => !f.saved && f.holds s.pk
    let hs := ctxHeld s.pk cn
    let flow := fs.flatMap (flowBytes s.pk)
    let held := hs.flatMap fun e => heldBytes e.1 e.2.1 e.2.2
    (ctxResident s.pk cn = true ∨ fs = [] → exec (.contextRunsWrite cn) s = .next s) ∧
    (ctxResident s.pk cn = false → fs ≠ [] →
      (writeRun (Work.start s) cn flow = none → exec (.contextRunsWrite cn) s = .next s) ∧
      ∀ rf w1, writeRun (Work.start s) cn flow = some (rf, w1) →
        (writeRun w1 cn held = none → exec (.contextRunsWrite cn) s = .next s) ∧
        ∀ rh w2, writeRun w1 cn held = some (rh, w2) →
          ∃ t c' w3 w4, exec (.contextRunsWrite cn) s = .next t ∧ t.neg = s.neg ∧ t.pk.groups = s.pk.groups ∧
            t.pk.ctxs.find? cn = some c' ∧ c'.flowRun = some rf ∧ c'.heldRun = (if rh.2 = 0 then none else some rh) ∧
            w3.wr = (dropRun w2 cn c.heldRun).wr ∧ w4 = setHeader (setHeader w3 cn 28 4 fs.length) cn 32 8 (runVa w3 cn rf) ∧
            t.mem = (s.finish (setHeader (setHeader w4 cn 40 4 hs.length) cn 48 8 (runVa w4 cn rh))).mem ∧
            (t.pk.flows = s.pk.flows.map fun f => if f ∈ fs then { f with saved := true } else f) ∧
            ∀ e ∈ ctxHeld t.pk cn, e.2.2.run = true)) ∧
  ∀ s cn c, s.pk.ctxs.find? cn = some c → c.sched ≠ 0 →
    flowEntries s.pk + ((ctxFlows s.pk cn).filter fun f => f.saved).length ≤ flowTableSize →
    ∃ t c', exec (.contextRunsWrite cn) s = .next t ∧ t.neg = s.neg ∧ t.pk.ctxs.find? cn = some c' ∧
      (∀ f ∈ ctxFlows t.pk cn, f.saved = false) ∧ ((∃ f ∈ ctxFlows s.pk cn, f.saved = true) → c'.flowRun = none)

/-- The oldest request of a partition is granted once room and quota admit it, with its registers zero and full and its split going
on; after 4,096 cycles without room the youngest other request's group is to be swapped out (R20, R91). -/
def Sys2Proof.Part.RegisterRequests : Prop :=
  (∀ s core part gi x rest g, partRequests s.pk core part = (gi, x) :: rest → s.pk.groups.find? gi = some g → g.xreq = some x →
    admits s.pk g.ctx core part (64 * x.k) = true →
    ∃ g', exec (.xacqGrant core part) s = .next (s.withGroup gi g') ∧ g'.xreq = none ∧ g'.alloc = g.alloc + 64 * x.k ∧
      (∀ r, r < g.alloc → g'.reg r = g.reg r) ∧ (∀ r, g.alloc ≤ r → g'.reg r = VReg.fresh) ∧
      ∀ k y, g.xacqSplit = some k → g.splits[k]? = some y →
        ∀ L, (g'.lane L).pc = if y.finish = true ∧ y.lanes.get L = true then y.nxt else (g.lane L).pc) ∧
  ∀ s core part gi x bef gj y g h, partRequests s.pk core part = (gi, x) :: (bef ++ [(gj, y)]) → s.pk.groups.find? gi = some g →
    4096 ≤ x.age → admits s.pk g.ctx core part (64 * x.k) = false →
    (∀ e ∈ bef, ∃ z, s.pk.groups.find? e.1 = some z ∧ z.saveReq = none ∧ z.stat = .resident) →
    s.pk.groups.find? gj = some h → h.saveReq = none → h.stat = .resident →
    ∃ t, exec (.xacqSwapOut core part) s = .next t ∧ t.mem = s.mem ∧ t.neg = s.neg ∧
      t.pk.groups.find? gj = some { h with saveReq := some ⟨.xacqSwap, 0, true, false⟩ }

/-- Together: `Sys2Proof.Part.StopsByTheMachine`, `Sys2Proof.Part.GroupsSavedAndRestored`, `Sys2Proof.Part.ContextRunsWritten`,
`Sys2Proof.Part.RegisterRequests`. -/
def Obligations.StopsSavesAndRestores : Prop :=
  Sys2Proof.Part.StopsByTheMachine ∧ Sys2Proof.Part.GroupsSavedAndRestored ∧ Sys2Proof.Part.ContextRunsWritten ∧
    Sys2Proof.Part.RegisterRequests

/-! ## Events of the memory system -/

namespace Sys2Proof.Machine

/-- The part of lane L of access t, which stands in the tables as x, is o: it has not performed and may perform now. -/
abbrev Performs (s : State) (t : Nat) (x : Txn) (L : Fin 8) (o : LaneOp) : Prop :=
  s.pk.txns.find? t = some x ∧ x.ops.get L = some o ∧ o.phase = 0 ∧ mayPerform s.pk t x L = true

/-- No part of the access is left in lane L. -/
def LaneOver (s : State) (t : Nat) (L : Fin 8) : Prop := ∀ x, s.pk.txns.find? t = some x → x.openIn L = false

/-- None of the keys lies in local memory or in a unit with an error. -/
abbrev sound (s : State) (ks : List Nat) : Prop := (∀ k ∈ ks, k < 2 ^ 58) ∧ (Work.start s).badKey ks = none

/-- Of the groups only gi has changed, to g' as f says, and in the releases that its chains have met (R247). -/
def OnlyMet (s t : State) (gi : Nat) (f : Group → Group → Prop) : Prop :=
  (∀ j, j ≠ gi → t.pk.groups.find? j = s.pk.groups.find? j) ∧
    ∀ g, s.pk.groups.find? gi = some g → ∃ g', t.pk.groups.find? gi = some g' ∧ f g { g' with chains := g.chains } ∧
      ∀ h, { g'.chain h with seen := [] } = { g.chain h with seen := [] }

/-- The value has landed in n registers from d of lane L of group gi, and of the groups nothing else has changed. -/
def Landed (s t : State) (gi d n : Nat) (L : Fin 8) (val : Nat) : Prop :=
  t.mem = s.mem ∧ t.neg = s.neg ∧ OnlyMet s t gi fun g g' =>
    WroteRegs g g' d n false (oneLane L) (fun _ => val) ∧ { g' with regs := [] } = { g with regs := [] }

/-- A record of the code is the last of the context's that wait for the fault ring. -/
def HostTold (s t : State) (cn : Nat) (code : Code) (addr : Nat) : Prop :=
  ∀ c, s.pk.ctxs.find? cn = some c → ∃ c' r, t.pk.ctxs.find? cn = some c' ∧ c'.pending = c.pending ++ [r] ∧ r.code = code ∧
    r.addr = BitVec.ofNat 64 addr

end Sys2Proof.Machine

/-- When a lane of a load performs, its registers hold the bytes and are full; when a lane of a store performs, its bytes are
in memory; when a lane of an atomic that no other is combined with performs at its home slice, memory holds the new value and
the access the old one, which the return writes to the lane's registers; and when a `frec` performs, its core's cache has the
records no longer (R106, R107, R116 to R121, R260). -/
def Sys2Proof.Part.AccessesPerform : Prop :=
  (∀ s t x L o d n wd g, Performs s t x L o → x.kind = .load d n wd → d < 1024 → s.pk.groups.find? x.g = some g →
    refreshing s.pk o.keys = false → (Work.start s).badKey o.keys = none →
    ∃ u, exec (.loadDataReturn t L) s = .next u ∧ LaneOver u t L ∧
      Landed s u x.g d n L (bytesVal (blockBytes (Work.start s) (detOf (Work.start s) g) o.keys))) ∧
  (∀ s t x L o d ty act g, Performs s t x L o → x.kind = .sload d ty act → s.pk.groups.find? x.g = some g →
    refreshing s.pk o.keys = false → (Work.start s).badKey o.keys = none →
    ∃ u, exec (.loadDataReturn t L) s = .next u ∧ LaneOver u t L ∧ u.mem = s.mem ∧
      OnlyMet s u x.g fun g g' => g' = g.setSreg d (BitVec.ofNat 64
        (extendTo 64 ty (bytesVal (blockBytes (Work.start s) (detOf (Work.start s) g) o.keys))))) ∧
  (∀ s t x L o, Performs s t x L o → x.kind = .store ∨ x.kind = .sstore → x.staged = none → sound s o.keys →
    ∃ u, exec (.storePerform t L) s = .next u ∧ LaneOver u t L ∧ WroteBytes s u o.keys o.data ∧ u.neg = s.neg ∧
      u.pk.groups = s.pk.groups) ∧
  (∀ s t x L o ks, Performs s t x L o → x.kind = .frec ks →
    ∃ u, exec (.storePerform t L) s = .next u ∧ LaneOver u t L ∧ u.mem = s.mem ∧ u.neg = s.neg ∧ u.pk.groups = s.pk.groups ∧
      u.pk.recCache = s.pk.recCache.filter fun e => !(e.1 == x.core && ks.contains e.2.1)) ∧
  (∀ s t x L o op k d n ret, Performs s t x L o → x.kind = .atom op k d n ret → x.performSet L = [L] → sound s o.keys →
    let old := (Work.start s).bytes o.keys
    ∃ u, exec (.atomicAtHomeSlice t L) s = .next u ∧ u.neg = s.neg ∧ OnlyMet s u x.g (fun g g' => g' = g) ∧
      WroteBytes s u o.keys
        (valBytes (akindBytes k) (atomNew op.toNat k (bytesVal old) (bytesVal o.data) (bytesVal o.cmp))) ∧ LaneOver u t L ∧
      (ret = true → ∃ x', u.pk.txns.find? t = some x' ∧ x'.ops.get L = some { o with phase := 1, old := old })) ∧
  (∀ s t x L o op k d n ret, s.pk.txns.find? t = some x → x.ops.get L = some o → o.phase = 1 → x.kind = .atom op k d n ret →
    d < 1024 → ∃ u, exec (.atomicReturn t L) s = .next u ∧ Landed s u x.g d n L (bytesVal o.old)) ∧
  (∀ s t x L o inc d hdr was, Performs s t x L o → x.kind = .ref inc d hdr was → x.judged = true →
    x.performSet L = [L] → sound s o.keys →
    let cnt := bytesVal ((Work.start s).bytes o.keys)
    (inc = true ∧ cnt ≠ 2 ^ 32 - 1) ∨ (inc = false ∧ 1 < cnt) →
    ∃ u x', exec (.atomicAtHomeSlice t L) s = .next u ∧ u.neg = s.neg ∧ OnlyMet s u x.g (fun g g' => g' = g) ∧
      WroteBytes s u o.keys (valBytes 4 (if inc then cnt + 1 else cnt - 1)) ∧
      u.pk.txns.find? t = some x' ∧ x'.ops.get L = some { o with phase := 1, old := (Work.start s).bytes o.keys })

/-- A push of the lowest lane left is one indivisible step once the queue has room: the entry stands at its place, and the producer
index has advanced; a full queue keeps it (R113, R351). -/
def Sys2Proof.Part.PushesMade : Prop :=
  ∀ s t x L o i dk w0, Performs s t x L o → x.judged = true → x.paused = none →
    (laneList.find? fun K => x.openIn K) = some L →
    ((∃ wd, x.kind = .outq wd) ∧ i = Instr.outqPush t) ∨ (x.kind = .ienq ∧ i = Instr.ienqPush t) →
    chkGlobal (Work.start s) x.ctx .store o.va.toNat 64 64 = (.ok dk, w0) → (Work.start s).badKey dk = none →
    let d := (Work.start s).bytes dk
    let e := if x.kind = .ienq then o.data else outEntry o.data
    (queueRoom d = false → ∃ u x', exec i s = .next u ∧ u.mem = s.mem ∧ u.neg = s.neg ∧ u.pk.groups = s.pk.groups ∧
      u.pk.txns.find? t = some x' ∧ x'.ops.get L = some { o with keys := dk } ∧ { x' with ops := x.ops } = x) ∧
    (∀ ks w1, queueRoom d = true →
      chkGlobal w0 x.ctx .store ((fld d 0 8 + 32 * (fld d 16 8 % fld d 8 4)) % 2 ^ 64) 32 32 = (.ok ks, w1) →
      ∃ u, exec i s = .next u ∧ LaneOver u t L ∧ u.neg = s.neg ∧ u.pk.groups = s.pk.groups ∧
        u.mem = (s.run fun w =>
          (w.puts ks e).puts ((dk.drop 16).take 8) (valBytes 8 ((fld d 16 8 + 1) % 2 ^ 64))).mem)

/-- An invalidation that has waited 2^20 cycles takes every pin on the lines it waits for, and tells the group that made the oldest
of them, or the host where that has ended (R115); a lift-line slot whose accesses have performed, with no young export, is free
again (R248). -/
def Sys2Proof.Part.PinsAndSlots : Prop :=
  (∀ s gi g y ys ts cn va len ls tm x k ln gj, s.pk.groups.find? gi = some g → g.splits = y :: ys →
    y.cond = .blocked (.inval ts cn va len ls tm) → tm.toNat ≤ s.pk.cycle.toNat →
    let hit (p : Pin) : Bool := ls.contains (p.ctx * 2 ^ 64 + p.line)
    x ∈ s.pk.pins → hit x = true → (k, ln, gj) ∈ x.owners →
    (∀ p ∈ s.pk.pins, hit p = true → ∀ o ∈ p.owners, (p.ctx = x.ctx ∧ p.line = x.line ∧ o = (k, ln, gj)) ∨ k < o.1) →
    (s.pk.groups.find? gj = none → ∃ t, exec (.pinRevoked gi) s = .next t ∧ t.mem = s.mem ∧ t.neg = s.neg ∧
      t.pk.pins = s.pk.pins.filter (fun p => !hit p) ∧ HostTold s t x.ctx .pinRevoked (128 * x.line)) ∧
    (∀ h c, s.pk.groups.find? gj = some h → s.pk.ctxs.find? h.ctx = some c → c.tvec ≠ 0 → h.pendA.length < 32 →
      ∃ t r, exec (.pinRevoked gi) s = .next t ∧ t.mem = s.mem ∧ t.neg = s.neg ∧
        t.pk.pins = s.pk.pins.filter (fun p => !hit p) ∧
        t.pk.groups.find? gj = some { h with pendA := h.pendA ++ [r] } ∧ r.code = .pinRevoked ∧ r.cls = .a ∧
        r.addr = BitVec.ofNat 64 (128 * x.line))) ∧
  ∀ s core slot x gi h, s.pk.lift.find? (slotKey core slot) = some x → x.owner = some (gi, h) →
    (∀ a, x.expAge = some a → 1024 ≤ a) → x.held s.pk = false →
    ∃ t, exec (.liftLineSlotRetire core slot) s = .next t ∧ t.mem = s.mem ∧ t.neg = s.neg ∧
      t.pk.lift.find? (slotKey core slot) = some { x with owner := none, pend := [], extra := [], expAge := none } ∧
      ∀ g, s.pk.groups.find? gi = some g →
        t.pk.groups.find? gi = some (g.setChain h { g.chain h with slot := none, seq := 0 })

namespace Sys2Proof.Machine

/-- The packet reports a token satisfied or a die lost, and stands in no chain. -/
def isReport (o : PacketOp) : Bool :=
  match o with
  | .token _ | .dieLost _ => true
  | _ => false

/-- What has come is the next of its chain, and nothing that waits in the reorder buffers can be applied before it or after it. -/
abbrev AppliedAlone (s : State) (a : FarArrival) : Prop :=
  a.place.src ≠ s.pk.no ∧ a.place.next s.pk = true ∧
    ∀ b ∈ s.pk.reorder, b.place.next s.pk = false ∧ b.place.next (noteApplied (Work.start s) a.place).pk = false

end Sys2Proof.Machine

/-- A packet of another package waits in the reorder buffer of its slot for what its chain has sent before it. In its turn one
that an entry of the reach table admits is applied, a push as soon as its queue has room, and any other changes nothing but
what the reorder buffer knows; a report of a token there satisfies it here, and one of a lost die there tells the groups that
wait for it. A remote access that cannot be made ends: a store of one package with a notice to the host, a load with zero in
its registers and a pending record of its group, or none in a lane that was a helper. Lines that another device takes back
change no state (R94, R101, R113, R121, R254, R288 to R290, R361; the reorder buffer as log entry 62 says). -/
def Sys2Proof.Part.RemoteEvents : Prop :=
  (∀ s x, let a := FarArrival.packet x
    (x.src = s.pk.no ∨ (isReport x.op = false ∧ x.seq ≤ lastApplied s.pk a.place) → exec (.remotePacketArrival x) s = .next s) ∧
    (x.src ≠ s.pk.no → isReport x.op = false → lastApplied s.pk a.place < x.seq → x.prev ≠ lastApplied s.pk a.place →
      a ∉ s.pk.reorder → (∀ b ∈ s.pk.reorder, b.place.next s.pk = false) →
      exec (.remotePacketArrival x) s = .next { s with pk := { s.pk with reorder := s.pk.reorder ++ [a] } })) ∧
  (∀ s x, AppliedAlone s (.packet x) →
    (∀ data, x.op = .write data → x.addr + data.length ≤ 2 ^ 56 →
      (admitsPacket s.pk x.domain x.addr data.length true = true → (Work.start s).badKey (keysFrom x.addr data.length) = none →
        ∃ t, exec (.remotePacketArrival x) s = .next t ∧ WroteBytes s t (keysFrom x.addr data.length) data ∧ t.neg = s.neg ∧
          t.pk.groups = s.pk.groups) ∧
      (admitsPacket s.pk x.domain x.addr data.length true = false → ∃ t, exec (.remotePacketArrival x) s = .next t ∧
        t.mem = s.mem ∧ t.neg = s.neg ∧ { t.pk with applied := [] } = { s.pk with applied := [] })) ∧
    (∀ op ty data cmp, x.op = .atomic op ty data cmp → x.addr + 8 ≤ 2 ^ 56 →
      let ks := keysFrom x.addr (akindBytes ty)
      let m := 2 ^ (8 * akindBytes ty)
      admitsPacket s.pk x.domain x.addr (akindBytes ty) true = true → (Work.start s).badKey ks = none →
      ∃ t, exec (.remotePacketArrival x) s = .next t ∧ t.neg = s.neg ∧ t.pk.groups = s.pk.groups ∧
        WroteBytes s t ks (valBytes (akindBytes ty)
          (atomNew op.toNat ty (bytesVal ((Work.start s).bytes ks)) (data.toNat % m) (cmp.toNat % m)))) ∧
    (∀ inc hdr idx entry, x.op = .refcount inc hdr idx entry → x.addr + 4 ≤ 2 ^ 56 →
      admitsPacket s.pk x.domain x.addr 4 true = true → admitsPacket s.pk x.domain hdr 64 true = true →
      poolOk ((Work.start s).bytes (keysFrom hdr 64)) idx.toNat = true →
      (Work.start s).badKey (keysFrom hdr 64 ++ keysFrom x.addr 4) = none →
      let ks := keysFrom x.addr 4
      let cnt := bytesVal ((Work.start s).bytes ks)
      (inc = true ∧ cnt ≠ 2 ^ 32 - 1) ∨ (inc = false ∧ 1 < cnt) →
      ∃ t, exec (.remotePacketArrival x) s = .next t ∧ t.neg = s.neg ∧ t.pk.groups = s.pk.groups ∧
        WroteBytes s t ks (valBytes 4 (if inc then cnt + 1 else cnt - 1))) ∧
    ∀ item bytes pa, x.op = .push item bytes (some pa) → x.addr % 64 = 0 → pa % 32 = 0 →
      admitsPacket s.pk x.domain x.addr 64 true = true → admitsPacket s.pk x.domain pa 32 true = true →
      (Work.start s).badKey (keysFrom x.addr 64) = none →
      let d := (Work.start s).bytes (keysFrom x.addr 64)
      (if item then iqOk d && itemEntryOk bytes else oqOk d) = true →
      (queueRoom d = true → ∃ t, exec (.remotePacketArrival x) s = .next t ∧ t.neg = s.neg ∧ t.pk.groups = s.pk.groups ∧
        t.mem = (s.run fun w => (w.write (keysFrom pa 32) (outEntry bytes)).write (((keysFrom x.addr 64).drop 16).take 8)
          (valBytes 8 ((fld d 16 8 + 1) % 2 ^ 64))).mem) ∧
      (queueRoom d = false → exec (.remotePacketArrival x) s =
        .next { s with pk := { s.pk with reorder := s.pk.reorder ++ [.packet x] } })) ∧
  (∀ s x, x.src ≠ s.pk.no →
    (∀ k, x.op = .token k → (tokenOf k.toNat).pkg ≠ s.pk.no →
      ∃ t, exec (.remotePacketArrival x) s = .next t ∧ tokenMet t.pk k = true ∧ t.mem = s.mem ∧
        { t.pk with tokensMet := [] } = { s.pk with tokensMet := [] }) ∧
    ∀ die gi g, x.op = .dieLost die → gi ∈ importers s.pk x.src die → s.pk.groups.find? gi = some g → g.pendA.length < 32 →
      (∀ gj ∈ importers s.pk x.src die, ∀ h, s.pk.groups.find? gj = some h →
        ∃ c, s.pk.ctxs.find? h.ctx = some c ∧ c.tvec ≠ 0) →
      ∃ t g' r, exec (.remotePacketArrival x) s = .next t ∧ t.pk.groups.find? gi = some g' ∧ r ∈ g'.pendA ∧
        r.code = .dieLost ∧ r.cls = .a ∧ (x.src, die) ∈ t.pk.farLost) ∧
  (∀ s t x L o pkg pa ks refused, Performs s t x L o → pkg ≠ s.pk.no → onPackage pkg o = pa :: ks →
    let code := if refused then Code.prot else Code.dataLost
    let addr := if refused then o.va.toNat else pa
    (x.kind = .store → (∀ k ∈ o.keys, k ∈ pa :: ks) → ∃ u, exec (.remoteAccessFailure t L ⟨refused, pkg⟩) s = .next u ∧
      LaneOver u t L ∧ u.mem = s.mem ∧ u.neg = s.neg ∧ u.pk.groups = s.pk.groups ∧ HostTold s u x.ctx code addr) ∧
    (∀ d n wd g c, x.kind = .load d n wd → d < 1024 → s.pk.groups.find? x.g = some g → s.pk.ctxs.find? g.ctx = some c →
      c.tvec ≠ 0 → g.pendA.length < 32 → ∃ u g', exec (.remoteAccessFailure t L ⟨refused, pkg⟩) s = .next u ∧ LaneOver u t L ∧
        u.mem = s.mem ∧ u.neg = s.neg ∧ u.pk.groups.find? x.g = some g' ∧ WroteRegs g g' d n false (oneLane L) (fun _ => 0) ∧
        (x.quiet.get L = true → g'.pendA = g.pendA) ∧
        (x.quiet.get L = false → ∃ r, g'.pendA = g.pendA ++ [r] ∧ r.code = code ∧ r.addr = BitVec.ofNat 64 addr))) ∧
  ∀ s pa, exec (.backInvalidate pa) s = .next s

/-- Together: `Sys2Proof.Part.AccessesPerform`, `Sys2Proof.Part.PushesMade`, `Sys2Proof.Part.PinsAndSlots`,
`Sys2Proof.Part.RemoteEvents`. -/
def Obligations.MemoryEvents : Prop :=
  Sys2Proof.Part.AccessesPerform ∧ Sys2Proof.Part.PushesMade ∧ Sys2Proof.Part.PinsAndSlots ∧ Sys2Proof.Part.RemoteEvents

/-! ## Events of the engines and the fabric -/

namespace Sys2Proof.Machine

/-- The machine t has the memory of the working copy w. -/
def HasMem (s t : State) (w : Work) : Prop := t.mem = (s.finish w).mem ∧ t.neg = s.neg

/-- The reason that a fault of a copy leaves on its byte barrier (R266, R272). -/
def copyReason (e : CopyErr) : Nat :=
  match e with
  | .page => 0 | .prot => 2 | .blkFmt => 3 | .dataLost => 4

/-- A command that changes nothing but its matrix unit. -/
def MxOp.inUnit (o : MxOp) : Bool :=
  match o with
  | .read .. | .save .. => false
  | _ => true

end Sys2Proof.Machine

/-- The engine promises for a request before it takes it; it takes one whose addresses are in order, and fails the barrier of one
whose addresses are not; bytes of an accepted request land, as far as no piece meets a fault, and are counted on its barrier; a fault
met by the next piece pauses the request on a page, and ends it with an error on its barrier otherwise. What the request does to a
barrier whose block has not started, or is saved, waits for that (R97, R264, R266, R271, R272; the promise as log entry 110 says). -/
def Sys2Proof.Part.CopiesCarriedOut : Prop :=
  (∀ s core n q d p, s.pk.reqs.find? n = some q → q.core = core → q.promise = some (d, p) → d < 1024 →
    ∃ t, exec (.copyRequestAccept core n) s = .next t ∧ t.pk.reqs.find? n = some { q with promise := none } ∧
      t.mem = s.mem ∧ t.neg = s.neg ∧ OnlyMet s t q.g fun g g' =>
        WroteRegs g g' d 2 false (Lanes.ofFn fun L => L.val == q.lane) (fun _ => p.toNat) ∧
          { g' with regs := [] } = { g with regs := [] }) ∧
  (∀ s core n q sh w1, s.pk.reqs.find? n = some q → q.core = core → q.promise = none → q.accepted = false → q.paused = none →
    q.preds.met s.pk = true → firstToTake s.pk core n = true →
    (if fld q.rec_ 0 1 = 0 then (.ok [], Work.start s) else shapeRead (Work.start s) core q.ctx (fld q.rec_ 24 8)) = (.ok sh, w1) →
    let q' : Req := { q with accepted := true, shape := sh }
    let x := q'.xfer (lnchOf (Work.start s) q.blk)
    (x.refused w1 = none → ∃ t, exec (.copyRequestAccept core n) s = .next t ∧ t.mem = s.mem ∧ t.neg = s.neg ∧
      t.pk.groups = s.pk.groups ∧ t.pk.reqs.find? n = some q') ∧
    (∀ r, x.refused w1 = some r → barAway (Work.start s) q = false →
      ∃ t, exec (.copyRequestAccept core n) s = .next t ∧ t.pk.groups = s.pk.groups ∧
      t.pk.reqs.find? n = none ∧ HasMem s t (onBar (Work.start s) q.blk q.bar fun b => barFail b r q.loc.toNat))) ∧
  (∀ s id q n r w1, s.pk.reqs.find? id = some q → reqMoves s.pk id q = true →
    let x := q.xfer (lnchOf (Work.start s) q.blk)
    x.advance (Work.start s) q.done = (n, r, w1) → n ≠ 0 ∨ r = none → barAway (Work.start s) q = false →
    ∃ t, exec (.land id) s = .next t ∧ t.pk.groups = s.pk.groups ∧ HasMem s t (onBar w1 q.blk q.bar fun b => barLand b n) ∧
      t.pk.reqs.find? id = if x.total ≤ q.done + n then none else some { q with done := q.done + n }) ∧
  (∀ s id q, s.pk.reqs.find? id = some q → barAway (Work.start s) q = true → exec (.land id) s = .next s) ∧
  (∀ s id q e w1 addr kind, s.pk.reqs.find? id = some q → reqMoves s.pk id q = true → barAway (Work.start s) q = false →
    (q.xfer (lnchOf (Work.start s) q.blk)).advance (Work.start s) q.done = (0, some (.bad e addr kind), w1) →
    ∃ t, exec (.copyFault id e) s = .next t ∧ t.pk.groups = s.pk.groups ∧
      (e = .page → t.mem = s.mem ∧ t.pk.reqs.find? id = some { q with paused := some (BitVec.ofNat 64 addr) } ∧
        HostTold s t q.ctx .page addr) ∧
      (e ≠ .page → t.pk.reqs.find? id = none ∧
        HasMem s t (onBar (Work.start s) q.blk q.bar fun b => barFail b (copyReason e) q.loc.toNat)) ∧
      (e = .dataLost → HostTold s t q.ctx .dataLost addr))

/-- A walking channel reads its record, once the accesses before the release that wrote it have performed: one that is not
owned ends the walk, one with a field outside its values stops it, and a transfer that is made is closed with status 1, counts
its task down, and goes on to the next record or ends (R236, R274 to R276). -/
def Sys2Proof.Part.ChainRecordsWalked : Prop :=
  ∀ s core c ks w1, let x := chanOf s.pk core c
  x.st = .walking → x.hand = none → x.preds.met s.pk = true → scheduledOn s.pk x.ctx (coreDie core) = true →
  chkRange (Work.start s) x.ctx .load x.next.toNat 128 = (.ok ks, w1) → w1.badKey ks = none →
  (recordWaits w1 core ks = true → ∃ t, exec (.chainRecord core c) s = .next t ∧ t.mem = s.mem ∧ t.neg = s.neg ∧
    t.pk.groups = s.pk.groups ∧ chanOf t.pk core c = x) ∧
  (recordWaits w1 core ks = false →
  let r := (Work.start s).bytes ks
  (bitAt (fld r 8 4) 0 = 0 → ∃ t, exec (.chainRecord core c) s = .next t ∧ t.mem = s.mem ∧ t.neg = s.neg ∧
    t.pk.groups = s.pk.groups ∧ chanOf t.pk core c = { x with st := .idle, preds := ⟨[], []⟩ }) ∧
  ∀ ks' w2, bitAt (fld r 8 4) 0 ≠ 0 → chkRange w1 x.ctx .store x.next.toNat 128 = (.ok ks', w2) → w2.badKey ks' = none →
    (xrecOk (s.pk.ctxs.find? x.ctx) r = false → ∃ t, exec (.chainRecord core c) s = .next t ∧ t.pk.groups = s.pk.groups ∧
      HasMem s t (closeRecord (Work.start s) ks' 3) ∧ (chanOf t.pk core c).st = .stopped ∧ (chanOf t.pk core c).cur = x.next) ∧
    (∀ n w3, let xf := recXfer core x r []
      xrecOk (s.pk.ctxs.find? x.ctx) r = true → fld r 12 1 = 0 → xf.dspace ≠ 2 → xf.dspace ≠ 3 → xf.refused w2 = none →
      xf.move w2 (xf.pieces (fld r 56 8) xf.total) = (n, none, w3) →
      ∃ t, exec (.chainRecord core c) s = .next t ∧ t.pk.groups = s.pk.groups ∧ HasMem s t (closeRecord w3 ks' 1) ∧
        (fld r 48 4 < 65536 → (t.pk.tasks.getD Task.fresh (fld r 48 4)).count =
          ((s.pk.tasks.getD Task.fresh (fld r 48 4)).minus 1).count) ∧
        (chanOf t.pk core c).st = (if fld r 0 8 = 0 then .idle else .walking) ∧
        (fld r 0 8 ≠ 0 → (chanOf t.pk core c).next = BitVec.ofNat 64 (fld r 0 8)) ∧ (chanOf t.pk core c).cur = x.next))

/-- A matrix unit executes the command at the head of its queue as far as the next boundary of its split granule, and takes it
off the queue when it is done: it changes banks and regions, or writes the registers of the active lanes of an `mxrd` (R185,
R188, R201, R202). -/
def Sys2Proof.Part.MatrixCommandsExecuted : Prop :=
  ∀ s core part c cs, let u := mxUnit s.pk core part
    let left := if c.stop < c.op.size then { c with done := c.stop } :: cs else cs
    u.queue = c :: cs →
    (c.op.inUnit = true → ∃ t, exec (.mxCommandExecute core part) s = .next t ∧ t.mem = s.mem ∧ t.neg = s.neg ∧
      t.pk.groups = s.pk.groups ∧ mxUnit t.pk core part = MxUnit.settle { c.op.run u c.done c.stop with queue := left }) ∧
    (∀ r a e0 n conv m g, c.op = .read r a e0 n conv m → r + n ≤ 1024 → s.pk.groups.find? c.g = some g →
      ∃ t g', exec (.mxCommandExecute core part) s = .next t ∧ t.mem = s.mem ∧ t.neg = s.neg ∧
        t.pk.groups.find? c.g = some g' ∧ { g' with regs := [] } = { g with regs := [] } ∧
        mxUnit t.pk core part = MxUnit.settle { u with queue := left } ∧
        ∀ q L, let y := g'.reg q
          if r ≤ q ∧ q < r + n ∧ m.get L = true then
            y.val.get L = BitVec.ofNat 32 (convOut conv (u.entry a (e0 + 8 * (q - r) + L.val))) ∧ y.full.get L = true
          else y.val.get L = (g.reg q).val.get L ∧ y.full.get L = (g.reg q).full.get L)

/-- The start gate of a DET launch applies the next entry of the block whose turn it is, ends an epoch with none left, and passes the
turn on from a block that has ended or is void (R219, R222 to R224). -/
def Sys2Proof.Part.StartGates : Prop :=
  ∀ s ln l u b d, s.pk.launches.find? ln = some l → blockAt s.pk l l.turn = some (u, b) → s.pk.blocks.find? u = some b →
    b.det = some d →
    (b.stat = .killed ∨ d.void = true ∨ (b.stat = .ended ∧ d.sealed ≤ d.applied ∧ d.paused = none) →
      ∃ t l', exec (.startGateApply ln) s = .next t ∧ t.neg = s.neg ∧ t.pk.groups = s.pk.groups ∧
        (blockAt s.pk l (l.turn + 1) = none → t.mem = s.mem) ∧
        t.pk.launches.find? ln = some l' ∧ l'.turn = l.turn + 1 ∧ l'.blocks = l.blocks) ∧
    (b.stat ≠ .killed → d.void = false → d.paused = none → d.applied < d.sealed →
      (d.nextEntry = none →
        ∃ t, exec (.startGateApply ln) s = .next t ∧ t.mem = s.mem ∧ t.neg = s.neg ∧ t.pk.groups = s.pk.groups ∧
          t.pk.blocks.find? u = some { b with det := some { d with applied := d.applied + 1 } }) ∧
      ∀ e ks w1, d.nextEntry = some e → e.kind ≤ 1 → entryWaits s.pk e [] = false → entryWaits s.pk e ks = false →
        chkGlobal (Work.start s) b.ctx .store e.addr.toNat e.width 1 = (.ok ks, w1) → sound s ks →
        ∃ t b' d', exec (.startGateApply ln) s = .next t ∧ t.neg = s.neg ∧ t.pk.groups = s.pk.groups ∧
          WroteBytes s t ks (if e.kind = 0 then e.data else
            valBytes (akindBytes (Machine.akindOf e.atype)) (atomNew 9 (Machine.akindOf e.atype) (bytesVal ((Work.start s).bytes ks))
              (bytesVal e.data) 0)) ∧
          t.pk.blocks.find? u = some b' ∧ b'.det = some d' ∧ d'.entries = d.entries.erase e ∧ d'.applied = d.applied)

/-- A collective commits once every contribution stands ready: its output stands in the shadow of the buffer, which is published once
no other engine request still targets that, and its record says so; an abort or a timeout before that ends it with the member that
failed (R282, R283). -/
def Sys2Proof.Part.CollectivesEnd : Prop :=
  ∀ s tag id c, collOf s.pk tag = some (id, c) → c.committed = false → c.ending = none →
    (∀ failed ks w1, failed < c.nmem → chkRange (Work.start s) c.ctx .store c.place.toNat 128 = (.ok ks, w1) →
      let ended := (((Work.start s).write ((ks.drop 44).take 2) (valBytes 2 failed)).write ((ks.drop 40).take 4) (valBytes 4 2))
      (∃ t, exec (.collectiveAbort tag failed) s = .next t ∧ t.pk.groups = s.pk.groups ∧ t.pk.colls.find? id = none ∧
        HasMem s t ended) ∧
      (cTimeout c.bytes ≠ 0 → cTimeout c.bytes ≤ c.age →
        ∃ t, exec (.collectiveTimeout tag failed) s = .next t ∧ t.pk.groups = s.pk.groups ∧ t.pk.colls.find? id = none ∧
          HasMem s t ended)) ∧
    ∀ others own w1, (∀ m, m < c.nmem → c.has others m = true) → c.preds.met s.pk = true → c.page = none →
      ownPart (Work.start s) c = (.ok own, w1) →
      let out := collOut c ((List.range c.nmem).map fun m =>
        if m = c.self then own else ((others.find? fun o => o.1 == m).map Prod.snd).getD [])
      let w2 := setColl (w1.write (keysFrom c.shadow out.length) out) id { c with committed := true }
      (shadowBusy w2.pk c.obj = true → ∃ t, exec (.collectiveCommit tag others) s = .next t ∧ t.pk.groups = s.pk.groups ∧
        HasMem s t w2 ∧ t.pk.colls.find? id = some { c with committed := true }) ∧
      ∀ ks w3, shadowBusy w2.pk c.obj = false →
        chkRange (publish w2 c.obj) c.ctx .store c.place.toNat 128 = (.ok ks, w3) →
        ∃ t, exec (.collectiveCommit tag others) s = .next t ∧ t.pk.groups = s.pk.groups ∧ t.pk.colls.find? id = none ∧
          HasMem s t ((publish w2 c.obj).write ((ks.drop 40).take 4) (valBytes 4 1))

/-- A delivery that reaches the group of its name, after its chain's earlier ones, writes its register in its lanes, when those are
empty there, and is acknowledged with cause 0; at a group that is being saved it waits; one whose name is gone is acknowledged with
cause 1; and the acknowledgement takes it off the sender's count (R295, R296, R301, R302, R410). -/
def Sys2Proof.Part.DeliveriesApplied : Prop :=
  (∀ s id x, s.pk.sent.find? id = some x → x.arrived = false → namePkg x.d.name.toNat = s.pk.no → x.preds.met s.pk = true →
    sentBefore s.pk id x.d = false →
    (∀ e gi g, s.pk.names.find? (nameSlot x.d.name.toNat) = some e → e.g = some gi → e.gen = nameGen x.d.name.toNat →
      e.domain = x.d.domain → e.moving = false → s.pk.groups.find? gi = some g → g.stat = .resident →
      earlierWaits s.pk s.pk.fresh x.d gi = false → ferryJudge g x.d = .apply →
      ∃ t, exec (.ferryDelivery (.own id)) s = .next t ∧ t.mem = s.mem ∧ t.neg = s.neg ∧
        t.pk.sent.find? id = some { x with arrived := true, acked := some 0 } ∧
        t.pk.groups.find? gi = some (g.setReg x.d.target ((g.reg x.d.target).write x.d.m x.d.data))) ∧
    (s.pk.names.find? (nameSlot x.d.name.toNat) = none →
      ∃ t, exec (.ferryDelivery (.own id)) s = .next t ∧ t.mem = s.mem ∧ t.neg = s.neg ∧ t.pk.groups = s.pk.groups ∧
        t.pk.sent.find? id = some { x with arrived := true, acked := some 1 })) ∧
  (∀ s core n i g, s.pk.inbound.find? n = some i → i.core = some core → s.pk.groups.find? i.g = some g →
    (g.stat ≠ .resident → exec (.ferryApply core n) s = .next s) ∧
    (g.stat = .resident → earlierWaits s.pk n i.d i.g = false →
    (ferryJudge g i.d = .apply → ∃ t, exec (.ferryApply core n) s = .next t ∧ t.mem = s.mem ∧ t.neg = s.neg ∧
      t.pk.inbound.find? n = none ∧
      t.pk.groups.find? i.g = some (g.setReg i.d.target ((g.reg i.d.target).write i.d.m i.d.data)) ∧
      ∀ k x, i.own = some k → s.pk.sent.find? k = some x → t.pk.sent.find? k = some { x with acked := some 0 }) ∧
    (∀ c, ferryJudge g i.d = .discard c → ∃ t, exec (.ferryApply core n) s = .next t ∧ t.mem = s.mem ∧ t.neg = s.neg ∧
      t.pk.inbound.find? n = none ∧ t.pk.groups = s.pk.groups ∧
      ∀ k x, i.own = some k → s.pk.sent.find? k = some x → t.pk.sent.find? k = some { x with acked := some c }))) ∧
  ∀ s id x cause g c, s.pk.sent.find? id = some x → namePkg x.d.name.toNat = s.pk.no → x.acked = some cause →
    s.pk.groups.find? x.d.sender = some g → s.pk.ctxs.find? g.ctx = some c → c.nakT = false →
    ∃ t, exec (.ferryAck id cause) s = .next t ∧ t.mem = s.mem ∧ t.neg = s.neg ∧ t.pk.sent.find? id = none ∧
      t.pk.txns.find? x.txn = none ∧ t.pk.groups.find? x.d.sender = some { g with
        inflight := g.inflight - 1
        frysLast := if cause = 0 then g.frysLast else cause
        frysNaks := if cause = 0 then g.frysNaks else g.frysNaks + 1 }

/-- Together: `Sys2Proof.Part.CopiesCarriedOut`, `Sys2Proof.Part.ChainRecordsWalked`, `Sys2Proof.Part.MatrixCommandsExecuted`,
`Sys2Proof.Part.StartGates`, `Sys2Proof.Part.CollectivesEnd`, `Sys2Proof.Part.DeliveriesApplied`. -/
def Obligations.EngineEvents : Prop :=
  Sys2Proof.Part.CopiesCarriedOut ∧ Sys2Proof.Part.ChainRecordsWalked ∧ Sys2Proof.Part.MatrixCommandsExecuted ∧
    Sys2Proof.Part.StartGates ∧ Sys2Proof.Part.CollectivesEnd ∧ Sys2Proof.Part.DeliveriesApplied

/-! ## Events of launches, items and trials -/

namespace Sys2Proof.Machine

/-- The dependency of a record is met: no task, or one with no count left. -/
def taskFree (s : State) (r : List Byte) : Prop := ∀ k, taskOf (recDep r) = some k → (s.pk.tasks.getD Task.fresh k).count = 0

/-- The counter at DONE of the record can be written, where it names one. -/
def doneWritable (s : State) (l : Launch) : Prop :=
  recDone l.rec_ = 0 ∨ ∃ ks w, chkGlobal (Work.start s) l.ctx .store (recDone l.rec_) 8 8 = (.ok ks, w) ∧ sound s ks

/-- The launch is complete: it has left the tables, DONE has gained one, and its task has lost one (R317). -/
def LaunchOver (s t : State) (ln : Nat) (l : Launch) : Prop :=
  t.pk.launches.find? ln = none ∧ t.neg = s.neg ∧ (∀ e ∈ t.pk.blocks, e.2.lnch ≠ ln) ∧
    (recDone l.rec_ = 0 → t.mem = s.mem) ∧
    (∀ ks w, recDone l.rec_ ≠ 0 → chkGlobal (Work.start s) l.ctx .store (recDone l.rec_) 8 8 = (.ok ks, w) →
      WroteBytes s t ks (valBytes 8 ((bytesVal ((Work.start s).bytes ks) + 1) % 2 ^ 64))) ∧
    ∀ k, taskOf (recNtask l.rec_) = some k →
      (t.pk.tasks.getD Task.fresh k).count = ((s.pk.tasks.getD Task.fresh k).minus 1).count

end Sys2Proof.Machine

/-- A work queue gives up the record at its consumer index: a legal one becomes a launch, ready or parked on its task, and an illegal
one an `ILL_OP` record for the host; a queue whose indices differ by more than its capacity stops with ERR. An entry that a group
appended becomes ready in the order of appending (R306, R308, R310, R328). -/
def Sys2Proof.Part.RecordsTaken : Prop :=
  (∀ s q, let x := queueOf s.pk q
    x.en = true → x.paused = none → x.prod ≠ x.cons →
    (x.prod - x.cons > x.cap → ∃ t, exec (.queueRecordTake q) s = .next t ∧
      OnlyQueue s t q { x with en := false, err := true } 8) ∧
    (∀ ks w1 c, x.prod - x.cons ≤ x.cap →
      let addr := (x.base.toNat + 256 * (x.cons.toNat % x.cap.toNat)) % 2 ^ 64
      chkRange (Work.start s) x.ctx.toNat .load addr 256 = (.ok ks, w1) → s.pk.ctxs.find? x.ctx.toNat = some c →
      let r := (Work.start s).bytes ks
      ∃ t, exec (.queueRecordTake q) s = .next t ∧ t.mem = s.mem ∧ t.neg = s.neg ∧
        queueOf t.pk q = { x with cons := x.cons + 1 } ∧
        (recOk s.neg x.ctx.toNat c r = true → taskFree s r → ∃ l, t.pk.launches.find? s.pk.fresh = some l ∧ l.stat = .ready ∧
          l.rec_ = r ∧ l.ctx = x.ctx.toNat ∧ l.src = .queue ∧ l.addr = BitVec.ofNat 64 addr) ∧
        (∀ k, recOk s.neg x.ctx.toNat c r = true → taskOf (recDep r) = some k →
          (s.pk.tasks.getD Task.fresh k).count ≠ 0 → ∃ l, t.pk.launches.find? s.pk.fresh = some l ∧ l.stat = .parked ∧
            l.rec_ = r ∧ (t.pk.tasks.getD Task.fresh k).parked = (s.pk.tasks.getD Task.fresh k).parked ++ [s.pk.fresh]) ∧
        (recOk s.neg x.ctx.toNat c r = false → t.pk.launches.find? s.pk.fresh = none ∧
          HostTold s t x.ctx.toNat .illOp addr))) ∧
  ∀ s ln l c, s.pk.launches.find? ln = some l → l.stat = .appended →
    (∀ e ∈ s.pk.launches, e.1 < ln → e.2.stat = .appended → e.2.die ≠ l.die) → s.pk.ctxs.find? l.ctx = some c →
    recOk s.neg l.ctx c l.rec_ = true → taskFree s l.rec_ → ∃ t, exec (.launchEntryTake ln) s = .next t ∧ t.mem = s.mem ∧
      t.neg = s.neg ∧ t.pk.launches.find? ln = some { l with stat := .ready, readySeq := s.pk.fresh }

/-- The next block of a launch whose turn it is starts on cores that take it: its groups stand resident at the entry point, and the
launch goes on to its next block; items that are ready start as one group in the same way (R311 to R314, R335, R339). -/
def Sys2Proof.Part.BlocksPlaced : Prop :=
  (∀ s ln l cores fs ps slot, let die := coreDie (cores.headD 0)
    s.pk.launches.find? ln = some l → l.waits = true → l.isItems = false → liveOn s.pk l.ctx die = true → nextOn s.pk l die = true →
    otherFirst (Work.start s) ln l die = false → savedFirst (Work.start s) l die = false →
    coresTake s.pk l.ctx (recLocal l.rec_) (seatsOf l.rec_) (recCores l.rec_) die cores = true →
    blockExtras (Work.start s) l = some (fs, ps, slot) →
    ∃ t b l', exec (.blockPlace ln cores) s = .next t ∧ t.neg = s.neg ∧ t.pk.blocks.find? s.pk.fresh = some b ∧
      b.stat = .begun ∧ b.lin = l.next ∧ b.cores = cores ∧ b.ctx = l.ctx ∧ b.lnch = ln ∧
      b.groups.length = recGroups l.rec_ ∧
      t.pk.launches.find? ln = some l' ∧ l'.stat = .running ∧ l'.next = l.next + 1 ∧ l'.blocks = l.blocks ++ [s.pk.fresh] ∧
      ∀ gi ∈ b.groups, ∃ g, t.pk.groups.find? gi = some g ∧ g.stat = .resident ∧ g.ctx = l.ctx ∧ g.lnch = ln ∧
        g.blk = s.pk.fresh ∧ g.base = recBase l.rec_ ∧ g.sreg 0 = BitVec.ofNat 64 (recParam l.rec_) ∧
        ∀ L, (g.lane L).st ≠ .inactive → (g.lane L).pc = BitVec.ofNat 57 (fld l.rec_ 0 8)) ∧
  ∀ s ln n core l fs ps slot, s.pk.launches.find? ln = some l → streamOpen (Work.start s) l = true → 1 ≤ n → n ≤ 8 →
    n ≤ l.readyItems.length → streamRoom s.pk l = true → liveOn s.pk l.ctx (coreDie core) = true →
    (∀ d, l.die = some d → d = coreDie core) → otherFirst (Work.start s) ln l (coreDie core) = false →
    savedFirst (Work.start s) l (coreDie core) = false →
    coresTake s.pk l.ctx (recLocal l.rec_) (seatsOf l.rec_) 1 (coreDie core) [core] = true →
    blockExtras (Work.start s) l = some (fs, ps, slot) → recGroups l.rec_ = 1 →
    ∃ t b l' gi g, exec (.itemGroupStart ln n core) s = .next t ∧ t.neg = s.neg ∧ t.pk.blocks.find? s.pk.fresh = some b ∧
      b.groups = [gi] ∧ b.cores = [core] ∧ t.pk.launches.find? ln = some l' ∧ l'.readyItems = l.readyItems.drop n ∧
      t.pk.groups.find? gi = some g ∧ g.stat = .resident ∧ g.core = core ∧
      ∀ L, (g.lane L).item = (l.readyItems.take n)[L.val]?

/-- A launch all of whose blocks are over, with nothing outstanding, completes: its counter gains one, its task loses one, and it
leaves the tables; the records of its kills go to the host instead where it was killed. A stream completes once its queue is closed
and empty and no item is in flight (R317, R346, R386). -/
def Sys2Proof.Part.LaunchesComplete : Prop :=
  (∀ s ln l, s.pk.launches.find? ln = some l → l.stat = .ready ∨ l.stat = .running → l.isItems = false → blocksOver l = true →
    l.fatal = false → l.donePage = none → launchDrained s.pk ln = true → (l.det = true → l.blockCount ≤ l.turn) →
    doneWritable s l → ∃ t, exec (.launchComplete ln) s = .next t ∧ LaunchOver s t ln l) ∧
  (∀ s ln l c, s.pk.launches.find? ln = some l →
    l.stat = .killed ∨ (l.fatal = true ∧ (l.stat = .ready ∨ l.stat = .running) ∧ l.isItems = false) →
    blocksOver l = true → launchDrained s.pk ln = true → turnsOver l = true →
    s.pk.ctxs.find? l.ctx = some c → (∀ r ∈ l.killRecs, r.ctx = l.ctx) → l.donePage = none →
    ∃ t c', exec (.launchComplete ln) s = .next t ∧ t.mem = s.mem ∧ t.neg = s.neg ∧ t.pk.launches.find? ln = none ∧
      t.pk.ctxs.find? l.ctx = some c' ∧ c'.pending = c.pending ++ l.killRecs) ∧
  ∀ s ln l, s.pk.launches.find? ln = some l → l.stat = .ready ∨ l.stat = .running → l.isItems = true → l.dispPage = none →
    l.fatal = false → l.donePage = none →
    let w := settleItems (Work.start s)
    streamOver w ln l = true → launchDrained w.pk ln = true → doneWritable s l →
    ∃ t, exec (.streamComplete ln) s = .next t ∧ LaunchOver s t ln l

/-- The dispatcher takes the entry at its queue's consumer index, which advances, as an item with the next number of its flow; an
atomic item is admitted when its flow's busy bit is free; a result held at the gate is performed; and a descriptor found unusable is
read again once its line has been written or a retry condition holds (R336, R338, R340 to R342, R413). -/
def Sys2Proof.Part.ItemsDispatched : Prop :=
  (∀ s ln l dk w1 ks w2, s.pk.launches.find? ln = some l → streamOpen (Work.start s) l = true → l.dispPage = none →
    l.dispNoted = false → readIq (Work.start s) l = (.ok dk, w1) →
    let d := (Work.start s).bytes dk
    let cons := fld d 24 8
    cons < fld d 16 8 → prodOpen s.pk ((dk.drop 16).take 8) = false →
    chkGlobal w1 l.ctx .load ((fld d 0 8 + 32 * (cons % fld d 8 4)) % 2 ^ 64) 32 32 = (.ok ks, w2) →
    let e := (Work.start s).bytes ks
    itemEntryOk e = true → flowRoom s.pk ln (BitVec.ofNat 32 (fld e 0 4)) = true →
    ∃ t i l', exec (.itemTake ln) s = .next t ∧ t.neg = s.neg ∧ t.pk.groups = s.pk.groups ∧
      WroteBytes s t ((dk.drop 24).take 8) (valBytes 8 ((cons + 1) % 2 ^ 64)) ∧ t.pk.items.find? s.pk.fresh = some i ∧
      i.lnch = ln ∧ i.label = BitVec.ofNat 32 (fld e 0 4) ∧ i.cls = iclsOf (fld e 4 1) ∧ i.held = [] ∧ i.lane = none ∧
      i.args = [BitVec.ofNat 64 (fld e 8 8), BitVec.ofNat 64 (fld e 16 8), BitVec.ofNat 64 (fld e 24 8)] ∧
      t.pk.launches.find? ln = some l' ∧ l'.readyItems = l.readyItems ++ if i.cls = .a then [] else [s.pk.fresh]) ∧
  (∀ s n i, s.pk.items.find? n = some i → mayAdmit s.pk n = true → ∃ t f, exec (.atomicItemAdmit n) s = .next t ∧
    t.mem = s.mem ∧ t.neg = s.neg ∧ t.pk.groups = s.pk.groups ∧
    t.pk.items.find? n = some { i with admitted := true, busy := true } ∧ flow? t.pk i.lnch i.label = some f ∧
    f.busy = some (n, i.seq) ∧ ∀ l, i.lane = none → s.pk.launches.find? i.lnch = some l →
      t.pk.launches.find? i.lnch = some { l with readyItems := l.readyItems ++ [n] }) ∧
  (∀ s ln label f pl i h hs ks w1, flow? s.pk ln label = some f → f.saved = false → f.gate? s.pk = some pl →
    s.pk.items.find? pl.item = some i → i.heldAt label pl.seq = h :: hs → h.paused = none → h.kind = 0 →
    heldMay s.pk i h = true →
    chkGlobal (Work.start s) h.ctx .store h.addr.toNat h.width 1 = (.ok ks, w1) → sound s ks →
    ∃ t, exec (.gateReached ln label) s = .next t ∧ WroteBytes s t ks h.data ∧ t.neg = s.neg ∧ t.pk.groups = s.pk.groups ∧
      ∀ i', t.pk.items.find? pl.item = some i' → i'.held = i.held.erase h) ∧
  ∀ s ln l, s.pk.launches.find? ln = some l → l.dispNoted = true → l.dispPage = none →
    (l.dispDue = false → exec (.dispatcherRetry ln) s = .next s) ∧
    ∀ dk w1, l.dispDue = true → readIq (Work.start s) l = (.ok dk, w1) →
      ∃ t, exec (.dispatcherRetry ln) s = .next t ∧ t.mem = s.mem ∧ t.neg = s.neg ∧
        t.pk.launches.find? ln = some { l with
          dispNoted := false, dispDue := false, dispTold := if l.dispTold = 1 then 0 else l.dispTold }

/-- The first window of a trial ends with its count in the descriptor, and the second starts; the second ends with both counts, the
speed-up and status 2, and no group owes anything (R325). -/
def Sys2Proof.Part.TrialWindows : Prop :=
  ∀ s x, s.pk.trial = some x → trialGone s.pk x = false → x.left = 0 →
    (x.second = false → ∃ t, exec .mogulWindowEnd s = .next t ∧ t.neg = s.neg ∧
      WroteBytes s t (keysFrom (x.desc + 32) 8) (valBytes 8 x.m0.toNat) ∧
      t.pk.afterWrite = { s.pk.afterWrite with trial := some { x with second := true, left := x.win } }) ∧
    (x.second = true → ∃ t, exec .mogulWindowEnd s = .next t ∧ t.neg = s.neg ∧ t.pk.trial = none ∧
      (∀ gi g, s.pk.groups.find? gi = some g → t.pk.groups.find? gi = some { g with debt := 0 }) ∧
      HasMem s t (((((Work.start s).putNum (x.desc + 32) 8 x.m0.toNat).putNum (x.desc + 40) 8 x.m1.toNat).putNum
        (x.desc + 48) 4 (speedup x.m0.toNat x.m1.toNat x.slow)).putNum (x.desc + 30) 2 2))

/-- Together: `Sys2Proof.Part.RecordsTaken`, `Sys2Proof.Part.BlocksPlaced`, `Sys2Proof.Part.LaunchesComplete`,
`Sys2Proof.Part.ItemsDispatched`, `Sys2Proof.Part.TrialWindows`. -/
def Obligations.LaunchEvents : Prop :=
  Sys2Proof.Part.RecordsTaken ∧ Sys2Proof.Part.BlocksPlaced ∧ Sys2Proof.Part.LaunchesComplete ∧
    Sys2Proof.Part.ItemsDispatched ∧ Sys2Proof.Part.TrialWindows

/-! ## Errors and package reset -/

/-- An uncorrectable error of memory marks the unit, whose next read fails, and one of a group's registers kills its block; a
corrected error changes nothing; a lost die's bit is set and its blocks are killed, and a failed port is down; a package reset
leaves the state after reset and the bytes of the memory pool (R7, R391 to R394). -/
def Obligations.ErrorsAndReset : Prop :=
  (∀ s, exec .correctedError s = .next s) ∧
  (∀ s k, 2 ^ 58 ≤ k → ∃ t, exec (.uncorrectableError (.localMem k)) s = .next t ∧ t.mem = s.mem ∧ t.neg = s.neg ∧
    k / 8 * 8 ∈ t.pk.badUnits ∧ { t.pk with badUnits := [] } = { s.pk with badUnits := [] }) ∧
  (∀ s k, 2 ^ 57 ≤ k → k < 2 ^ 58 → ∃ t, exec (.uncorrectableError (.weightStore k)) s = .next t ∧ t.mem = s.mem ∧
    t.neg = s.neg ∧ k / 8 * 8 ∈ t.pk.badUnits ∧ { t.pk with badUnits := [] } = { s.pk with badUnits := [] }) ∧
  (∀ s k, k < 2 ^ 56 → ∃ t, exec (.uncorrectableError (.dirtyLine k)) s = .next t ∧ t.mem = s.mem ∧ t.neg = s.neg ∧
    k / 8 * 8 ∈ t.pk.badUnits ∧ { t.pk with badUnits := [] } = { s.pk with badUnits := [] }) ∧
  (∀ s gi g b, s.pk.groups.find? gi = some g → s.pk.blocks.find? g.blk = some b → b.stat = .begun → gi ∈ b.groups →
    ∃ t b' r, exec (.uncorrectableError (.registers gi)) s = .next t ∧ t.neg = s.neg ∧ t.pk.blocks.find? g.blk = some b' ∧
      b'.stat = .killed ∧ t.pk.groups.find? gi = none ∧ b'.kill = some r ∧ r.code = .dataLost ∧ r.cls = .f) ∧
  (∀ s die, die < 4 → s.pk.diesLost.getLsbD die = false →
    ∃ t, exec (.dieLost die) s = .next t ∧ t.neg = s.neg ∧ t.pk.diesLost.getLsbD die = true ∧
      (∀ e ∈ t.pk.txns, coreDie e.2.core ≠ die) ∧ (∀ e ∈ t.pk.reqs, coreDie e.2.core ≠ die) ∧
      ∀ u b, s.pk.blocks.find? u = some b → onDie die b = true →
        ∃ b', t.pk.blocks.find? u = some b' ∧ b'.stat = .killed ∧ b'.kill.map Rec.code = some .dieLost) ∧
  (∀ s cxl port, port < (if cxl then 8 else 36) → ∃ t, exec (.portFailure cxl port) s = .next t ∧ t.mem = s.mem ∧
    t.neg = s.neg ∧ (cxl, port) ∈ t.pk.portsDown ∧ { t.pk with portsDown := [] } = { s.pk with portsDown := [] }) ∧
  ∀ s, ∃ t, exec .packageReset s = .next t ∧ t.neg = Negotiation.reset ∧ t.pk = Package.reset ∧
    ∀ k, Mem.byte t.mem k = if k < 2 ^ 56 then Mem.byte s.mem k else Config.unwrittenByte

/-! ## The machine as a whole -/

namespace Sys2Proof.Machine

/-- A group that is to issue: the move at the head of the agenda, and the machine in which it issues. Its partition takes the group
next; or its next instruction is turned away, which blocks its split and uses no pipe of the partition. -/
structure IssueDue (s : State) (gi : Nat) (g : Group) (s' : State) : Prop where
  group : s.pk.groups.find? gi = some g
  agenda : ∃ rest, s.agenda = .issue gi :: rest ∧
    let z : State := { s with agenda := rest }
    (takesNext z gi g = true ∧ s' = z.withCur gi g) ∨ (blocksNext z gi g = true ∧ s' = { z with pk := { z.pk with cur := gi } })

/-- The group's next word x and, where one belongs to the instruction, the word a after it can be fetched (R50, R362). -/
def Fetches (s : State) (g : Group) (x a : BitVec 96) : Prop :=
  fetchWord (Work.start s) g g.nextPc = .ok x ∧
    if hasAux x then fetchWord (Work.start s) g (pcPlus g.nextPc 1) = .ok a else a = 0

/-- A word that the group's next instruction needs cannot be fetched: the first word, or the one after it (R362). -/
def FetchFails (s : State) (g : Group) (code : Code) (addr : Nat) : Prop :=
  ∃ n, fetchWord (Work.start s) g g.nextPc = .error (.bad n code addr) ∨
    ∃ x, fetchWord (Work.start s) g g.nextPc = .ok x ∧ hasAux x = true ∧
      fetchWord (Work.start s) g (pcPlus g.nextPc 1) = .error (.bad n code addr)

/-- An instruction's worked words: the first word, and the word after it in the upper half of the number. -/
def word2 (x a : Nat) : Nat := x + a * 2 ^ 96

/-- The guard that is always true, with no hint and no safe point. -/
def plainHdr : Hdr := ⟨false, 7, 0, none⟩

/-- The words that the manual works out, with the lines they stand for. -/
def workedWords : List (Nat × Instr) := [
  (0x100C0401_40601200_00000000, .fadd ⟨⟨false, 3, 1, none⟩, .bf16, .rne, ⟨false, false, false, false, false⟩, ⟨4, false⟩, ⟨5, false⟩,
    .reg ⟨6, false⟩⟩),
  (0x00280301_00004280_FFFFFFFB, .iadd ⟨⟨true, 2, 0, none⟩, .i32, true, ⟨3, false⟩, ⟨4, false⟩, .imm 0xFFFFFFFB⟩),
  (0x071C0300_80400200_00000000, .rng ⟨plainHdr, ⟨3, false⟩, ⟨2, false⟩, 4, 0⟩),
  (0x10DC0A02_C0C00020_0000040D, .ffma ⟨plainHdr, .f32, .rtz, ⟨false, false, false, false, false⟩, ⟨10, false⟩, ⟨11, false⟩,
    ⟨12, false⟩, ⟨13, true⟩⟩),
  (0x211C0500_C0004000_00000068, .qnt ⟨plainHdr, .w4, .rne, ⟨5, false⟩, ⟨3, false⟩, .imm 104⟩),
  (0x32DC0902_00000800_00000000, .gred ⟨plainHdr, .f32, .add, false, ⟨9, false⟩, ⟨8, false⟩⟩),
  (0x44DC0702_00004200_00000003, .ssar ⟨plainHdr, .i32, false, 7, 8, .imm 3⟩),
  (0x505C000F_80000000_00000000, .brx ⟨plainHdr, ⟨62, false⟩⟩),
  (0x515C0000_00000000_00000008, .join ⟨plainHdr, 0, 8⟩),
  (word2 0x511C0000_00000012_00000004 0xFF800000_00000000_00050040,
    .switch ⟨plainHdr, ⟨0, false⟩, 4, 1, 2, ⟨1, 5, 0, 0, 0, 0, 0, 0⟩⟩),
  (word2 0x065C1000_00010200_00000000 0xFFC00000_00000000_00000001,
    .mov ⟨⟨false, 7, 0, some ⟨false, false, false, false, 0, 0, 0, 0, 1⟩⟩, .i32, false, ⟨16, false⟩, ⟨0, false⟩⟩),
  (0x601C0801_E020028B_40000040, .ld ⟨plainHdr, 2, .pod, .acq, .w8, ⟨8, false⟩, ⟨.s 2, some ⟨7, false⟩, 0x40⟩, 1⟩),
  (0x625C1000_200000A4_01000000, .outq ⟨plainHdr, 0, .sys, .plain, .w16, ⟨16, false⟩, ⟨.s 0, none, 0⟩, 0⟩),
  (0x701C0C01_6030017A_04000008, .aadd ⟨plainHdr, 1, .pkg, .acqrel, false, .n32, ⟨12, false⟩, ⟨.s 3, some ⟨5, false⟩, 8⟩, 0⟩),
  (0x72F82E0A_60400072_00000000, .refdec ⟨⟨true, 6, 0, none⟩, 0, .pkg, .rel, 46, .s 4, ⟨41, false⟩, 0⟩),
  (0x809C0000_00000216_00000000, .hjoin ⟨plainHdr, .pkg, 2, 1⟩),
  (0x80DE0500_00000108_00000000, .hexp ⟨plainHdr, .pod, .s 5, 1⟩),
  (0x811C0081_40000300_00000000, .himp ⟨plainHdr, 3, .s 5⟩),
  (0x811C0005_40000300_00000000, .himp ⟨plainHdr, 3, .v 21 false⟩),
  (0x819C0000_00004000_00000003, .bar ⟨plainHdr, 3⟩),
  (0xA09C0281_40000010_00000000, .mxmul ⟨plainHdr, 2, .mem (.s 5), 1, .a8, 0, 0, .e4m3⟩),
  (0xA11C5000_00000000_0000F080, .mxrd ⟨plainHdr, 80, 0, 128, 15, .f32⟩),
  (0xB05C0080_80400000_00000000, .lwait ⟨plainHdr, 0, .s 2, .reg 4⟩),
  (0xB09C0002_40000040_00000000, .relabel ⟨plainHdr, .o, ⟨9, false⟩⟩),
  (0xB15C1000_20300100_01000020, .ienq ⟨plainHdr, 1, ⟨16, false⟩, ⟨.s 3, none, 0x20⟩⟩),
  (0xC01C0200_00004001_00000002, .xacq ⟨plainHdr, some 2, 2⟩),
  (0xD0DC2880_80200000_00000000, .fry ⟨plainHdr, 0, 40, .s 2, ⟨2, false⟩⟩),
  (0xE05C0400_00004000_00000002, .pmrd ⟨plainHdr, 2, 4⟩),
  (0xE0DC0300_00000021_00000000, .sysrd ⟨plainHdr, 0x21, 3⟩),
  (0xE11C0000_80000021_00000000, .syswr ⟨plainHdr, 0x21, 2⟩),
  (0xF01C0082_40000080_00000000, .coll ⟨plainHdr, 0, .samp, .s 9⟩)]

end Sys2Proof.Machine

/-- The move of a group that its partition takes next, or whose next instruction is turned away for want of room, runs the
instruction whose words stand at its next PC, when no stop is due before it. It raises `ILL_OP` where they stand for none, and
the fetch's fault where a word of it cannot be fetched, but `ILL_OP` where its first word is already an instruction of a
feature that is not accepted. An event at the head of the agenda happens, and a time passes; and a move of any other group, or
of one that is not there, changes nothing. The order of the moves is the model's (log entry 15). -/
def Obligations.StepRunsDecoded : Prop :=
  (∀ s gi g s' x a, IssueDue s gi g s' → Fetches s' g x a →
    (∀ i, decode x a = .ok i → stopBefore s.neg (Work.start s') gi g i = none → step s = exec i s') ∧
    (∀ i w, decode x a = .ok i → stopBefore s.neg (Work.start s') gi g i = some w → step s = .next (s'.finish w)) ∧
    ∀ e, decode x a = .error e → step s = .next (s'.run fun w => raiseFault w gi g.nextPc .illOp (curLanes g) 0 0)) ∧
  (∀ s gi g s' code addr, IssueDue s gi g s' → FetchFails s' g code addr →
    step s = .next (s'.run fun w =>
      if featureOff s.neg (Work.start s') gi g then raiseFault w gi g.nextPc .illOp (curLanes g) 0 0
      else raiseFault w gi g.nextPc code (curLanes g) addr (if code = .page then 2 else 0))) ∧
  (∀ s i rest, s.agenda = .event i :: rest → i.hdr = none → step s = exec i { s with agenda := rest }) ∧
  (∀ s n rest, s.agenda = .elapse n :: rest →
    step s = .next { s with agenda := rest, pk := elapse n { s with agenda := rest } }) ∧
  (∀ s gi rest, s.agenda = .issue gi :: rest → (∀ g, s.pk.groups.find? gi = some g →
      takesNext { s with agenda := rest } gi g = false ∧ blocksNext { s with agenda := rest } gi g = false) →
    step s = .next { s with agenda := rest }) ∧
  ∀ s, s.agenda = [] → step s = runFirst [nextMove s] s

/-- What the checks before an instruction find is what happens: the fault is raised at the instruction's PC with nothing of the
instruction done, and the wait blocks the split, which issues afresh. The checks pass only when the instruction's feature is
accepted, its registers are aligned and allocated, no source is transient and lost or empty, and no producer is pending on a
destination; the feature comes first and the alignment next (R9, R25, R26, R67). -/
def Obligations.FaultsAndWaitsBeforeIssue : Prop :=
  (∀ s i h v, i.hdr = some h → viewOf (Work.start s) h i.words = some v →
    (∀ c m a x, preIssue (gateOpen s.neg v (instrNeed i v)) v (instrNeed i v) = some (.trap c m a x) →
      exec i s = .next (s.run fun w => raiseFault (w.readsStore v (instrNeed i v)) v.g v.pc c m a x)) ∧
    ∀ k, preIssue (gateOpen s.neg v (instrNeed i v)) v (instrNeed i v) = some (.wait k) →
      exec i s = .next (s.withGroup v.g (v.grp.blockCurrent k))) ∧
  ∀ v n, preIssue false v n = some (.trap .illOp v.m 0 0) ∧
    (∀ x ∈ n.named, x.1 % x.2 ≠ 0 → ∃ r, preIssue true v n = some (.trap .regAlign v.act 0 r)) ∧
    ((∀ x ∈ n.named, x.1 % x.2 = 0) → ∀ x ∈ n.named, v.grp.alloc < x.1 + x.2 →
      ∃ r, v.grp.alloc ≤ r ∧ preIssue true v n = some (.trap .regRange v.act 0 r)) ∧
    ∀ f, preIssue f v n = none → f = true ∧ (∀ x ∈ n.named, x.1 % x.2 = 0 ∧ x.1 + x.2 ≤ v.grp.alloc) ∧
      (∀ x ∈ n.reads, ∀ k, k < x.n → (v.grp.lostIn (x.r + k) (x.who.getD v.act)).any = false ∧
        ∀ L, (x.who.getD v.act).get L = true → (v.grp.reg (x.r + k)).full.get L = true) ∧
      ∀ x ∈ n.writes, x.t = false → ∀ k, k < x.n → ∀ L, v.act.get L = true → (v.grp.reg (x.r + k)).pend.get L = false

/-- The words that the manual works out decode to the lines they stand for, with the word that follows a `switch` or a safe point;
a mask word and a case word are no instructions (R61 to R64). -/
def Obligations.WorkedWordsDecode : Prop :=
  (∀ x ∈ workedWords, decodeTableWord 192 x.1 = some x.2) ∧
    decodeTableWord 96 0xFFC00000_00000000_00000001 = none ∧ decodeTableWord 96 0xFF800000_00000000_00050040 = none

/-- After reset the accepted word is zero with DONE and ERR clear, the cycle counter is zero, no group, launch or access is
there and no queue enabled, the mailbox and event registers are zero, and the one context is the service firmware's, which is
live; the state is safe. Its number, and what memory reads as, are the model's (log entries 6 and 7). -/
def Obligations.ResetLeaves : Prop :=
  let s := State.reset
  s.safe = true ∧ s.neg.accepted = 0 ∧ s.neg.done = false ∧ s.neg.err = false ∧ s.pk.cycle = 0 ∧ s.pk.groups = [] ∧
    s.pk.blocks = [] ∧ s.pk.launches = [] ∧ s.pk.txns = [] ∧ s.pk.reach = [] ∧ s.pk.tlb = [] ∧ s.pk.diesLost = 0 ∧
    s.pk.mbcmd = 0 ∧ s.pk.mbarg = 0 ∧ s.pk.mbresult = 0 ∧ s.pk.mbseq = 0 ∧ s.pk.evword = 0 ∧ s.pk.flnch = 0 ∧ s.pk.fblock = 0 ∧
    s.pk.fcount = 0 ∧ (∀ q, (queueOf s.pk q).en = false) ∧ (∀ t, (s.pk.tasks.getD Task.fresh t).count = 0) ∧
    (∀ k, Mem.byte s.mem k = Config.unwrittenByte) ∧
    ∀ n c, s.pk.ctxs.find? n = some c ↔ n = Config.firmwareContext ∧ c = firmwareCtx

/-- Decoding and encoding agree: every well-formed instruction has words that decode to it, and words that decode to an
instruction are the words of that well-formed instruction, the second where it belongs to it; an event has no words (R49 to R66). -/
def Obligations.DecodeAndEncodeAgree : Prop :=
  (∀ i, wf i = true → i.hdr.isSome = true → ∃ w a, encode i = some (w, a) ∧ decode w a = .ok i) ∧
  (∀ i, i.hdr = none → encode i = none) ∧
  ∀ w a i, decode w a = .ok i → wf i = true ∧ ∃ a', encode i = some (w, a') ∧ (i.words = 2 → a' = a)

/-- Every step keeps a safe state safe: memory keeps its canonical form, and once DONE is set every accepted feature is an offered
one (R6). -/
def Obligations.StepKeepsSafe : Prop :=
  ∀ s t, s.safe = true → step s = .next t → t.safe = true

/-- Once DONE is set, only a package reset changes the negotiation registers (R6, R7). -/
def Obligations.AcceptedWordStaysFixed : Prop :=
  (∀ s t i, s.neg.done = true → exec i s = .next t → i ≠ .packageReset → t.neg = s.neg) ∧
  ∀ s t, s.neg.done = true → step s = .next t → (∀ m ∈ s.moves, m ≠ .event .packageReset) → t.neg = s.neg
end

