-- ==== Sys2Proof/Laws/Map.lean ====
section
/-!
SUPPORT. The laws of the two containers: lanes, and plain data by key.
-/
namespace Sys2Proof

/-! ## Lanes -/

namespace Lanes

@[simp] theorem get_ofFn {α : Type} (f : Fin 8 → α) (i : Fin 8) : (ofFn f).get i = f i := by
  match i with
  | 0 | 1 | 2 | 3 | 4 | 5 | 6 | 7 => rfl

theorem ext_get {α : Type} {a b : Lanes α} (h : ∀ i, a.get i = b.get i) : a = b := by
  cases a; cases b
  have h0 := h 0; have h1 := h 1; have h2 := h 2; have h3 := h 3
  have h4 := h 4; have h5 := h 5; have h6 := h 6; have h7 := h 7
  simp only [get] at h0 h1 h2 h3 h4 h5 h6 h7
  simp [h0, h1, h2, h3, h4, h5, h6, h7]

@[simp] theorem get_splat {α : Type} (x : α) (i : Fin 8) : (splat x).get i = x := by simp [splat]
@[simp] theorem get_map {α β : Type} (f : α → β) (v : Lanes α) (i : Fin 8) : (v.map f).get i = f (v.get i) := by simp [map]
@[simp] theorem get_set {α : Type} (v : Lanes α) (i j : Fin 8) (x : α) :
    (v.set i x).get j = if j = i then x else v.get j := by simp [set]
@[simp] theorem ofFn_get {α : Type} (v : Lanes α) : ofFn (fun i => v.get i) = v := ext_get (by simp)

end Lanes

namespace Mask

@[simp] theorem get_none (i : Fin 8) : none.get i = false := by simp [none]
@[simp] theorem get_full (i : Fin 8) : full.get i = true := by simp [full]
@[simp] theorem get_inter (a b : Mask) (i : Fin 8) : (inter a b).get i = (a.get i && b.get i) := by simp [inter]
@[simp] theorem get_union (a b : Mask) (i : Fin 8) : (union a b).get i = (a.get i || b.get i) := by simp [union]
@[simp] theorem get_diff (a b : Mask) (i : Fin 8) : (diff a b).get i = (a.get i && !b.get i) := by simp [diff]

theorem mem_laneList (i : Fin 8) : i ∈ laneList := by revert i; decide

theorem any_iff (a : Mask) : a.any = true ↔ ∃ i, a.get i = true := by
  simp only [any, List.any_eq_true]
  exact ⟨fun ⟨i, _, h⟩ => ⟨i, h⟩, fun ⟨i, h⟩ => ⟨i, mem_laneList i, h⟩⟩

@[simp] theorem any_none : none.any = false := by decide

theorem mem_lanes (a : Mask) (i : Fin 8) : i ∈ a.lanes ↔ a.get i = true := by
  simp [lanes, mem_laneList]

end Mask

/-! ## Plain data by key -/

namespace FMap
variable {α : Type}

@[simp] theorem find?_nil (j : Nat) : find? ([] : FMap α) j = .none := rfl

theorem find?_insert (m : FMap α) (j k : Nat) (x : α) :
    find? (m.insert j x) k = if k = j then some x else find? m k := by
  induction m with
  | nil => simp [insert, find?]
  | cons e m ih =>
    obtain ⟨a, v⟩ := e
    simp only [insert]
    split
    · simp [find?]
    · split
      · subst j; simp only [find?]; split <;> rfl
      · simp only [find?, ih]
        by_cases h : k = a
        · have : k ≠ j := by omega
          simp [h] at this ⊢; omega
        · simp [h]

@[simp] theorem find?_insert_self (m : FMap α) (j : Nat) (x : α) : find? (m.insert j x) j = some x := by simp [find?_insert]

theorem find?_insert_ne {m : FMap α} {j k : Nat} {x : α} (h : k ≠ j) : find? (m.insert j x) k = find? m k := by
  simp [find?_insert, h]

@[simp] theorem insert_insert (m : FMap α) (j : Nat) (x y : α) : (m.insert j x).insert j y = m.insert j y := by
  induction m with
  | nil => simp [insert]
  | cons e m ih =>
    obtain ⟨a, v⟩ := e
    simp only [insert]
    split
    · simp [insert]
    · split
      · simp [insert]
      · simp_all [insert]

/-- Writing what a key already holds leaves the first entries in place. -/
theorem adjust_of_find {m : FMap α} {k : Nat} {v : α} (f : α → α) (h : find? m k = some v) : m.adjust k f = m.insert k (f v) := by
  simp [adjust, h]

theorem adjust_of_none {m : FMap α} {k : Nat} (f : α → α) (h : find? m k = .none) : m.adjust k f = m := by simp [adjust, h]

theorem find?_adjust (m : FMap α) (k j : Nat) (f : α → α) :
    find? (m.adjust k f) j = if j = k then (find? m k).map f else find? m j := by
  unfold adjust
  cases h : find? m k with
  | none => simp only [Option.map_none]; split <;> simp_all
  | some v => simp [find?_insert]

/-- The keys of a sorted list lie above a bound. -/
def above (b : Nat) (m : FMap α) : Prop := ∀ e ∈ m, b < e.1

theorem sorted_cons {a : Nat} {x : α} {m : FMap α} : sorted ((a, x) :: m) = true ↔ above a m ∧ sorted m = true := by
  induction m generalizing a x with
  | nil => simp [sorted, above]
  | cons e m ih =>
    obtain ⟨b, y⟩ := e
    simp only [sorted, Bool.and_eq_true, decide_eq_true_eq, above, List.mem_cons, forall_eq_or_imp]
    constructor
    · rintro ⟨h, hs⟩
      refine ⟨⟨h, fun e he => ?_⟩, hs⟩
      exact Nat.lt_trans h ((ih.1 hs).1 e he)
    · rintro ⟨⟨h, _⟩, hs⟩
      exact ⟨h, hs⟩

theorem above_insert {m : FMap α} {b j : Nat} {x : α} (hb : b < j) (h : above b m) : above b (m.insert j x) := by
  induction m with
  | nil => intro e he; simp [insert] at he; subst he; exact hb
  | cons e m ih =>
    obtain ⟨a, v⟩ := e
    have ha : b < a := h (a, v) (by simp)
    have hm : above b m := fun e he => h e (List.mem_cons_of_mem _ he)
    intro e he
    simp only [insert] at he
    split at he
    · rcases List.mem_cons.1 he with rfl | he
      · exact hb
      · exact h e he
    · split at he
      · rcases List.mem_cons.1 he with rfl | he
        · exact hb
        · exact hm e he
      · rcases List.mem_cons.1 he with rfl | he
        · exact ha
        · exact ih hm e he

theorem sorted_insert {m : FMap α} {j : Nat} {x : α} (h : sorted m = true) : sorted (m.insert j x) = true := by
  induction m with
  | nil => rfl
  | cons e m ih =>
    obtain ⟨a, v⟩ := e
    obtain ⟨ha, hm⟩ := sorted_cons.1 h
    simp only [insert]
    split
    · refine sorted_cons.2 ⟨?_, h⟩
      intro e he
      rcases List.mem_cons.1 he with rfl | he
      · assumption
      · have := ha e he; omega
    · split
      · subst j; exact sorted_cons.2 ⟨ha, hm⟩
      · exact sorted_cons.2 ⟨above_insert (by omega) ha, ih hm⟩

theorem mem_erase {m : FMap α} {j : Nat} {e : Nat × α} (h : e ∈ m.erase j) : e ∈ m := by
  induction m with
  | nil => simp [erase] at h
  | cons c m ih =>
    simp only [erase] at h
    split at h
    · exact List.mem_cons_of_mem _ (ih h)
    · rcases List.mem_cons.1 h with rfl | h
      · simp
      · exact List.mem_cons_of_mem _ (ih h)

theorem sorted_erase {m : FMap α} {j : Nat} (h : sorted m = true) : sorted (m.erase j) = true := by
  induction m with
  | nil => rfl
  | cons e m ih =>
    obtain ⟨a, v⟩ := e
    obtain ⟨ha, hm⟩ := sorted_cons.1 h
    simp only [erase]
    split
    · exact ih hm
    · exact sorted_cons.2 ⟨fun e he => ha e (mem_erase he), ih hm⟩

theorem find?_erase (m : FMap α) (j k : Nat) : find? (m.erase j) k = if k = j then .none else find? m k := by
  induction m with
  | nil => simp [erase]
  | cons e m ih =>
    obtain ⟨a, v⟩ := e
    simp only [erase]
    by_cases hj : j = a
    · subst hj
      simp only [if_true, ih, find?]
      split <;> rfl
    · simp only [hj, if_false, find?, ih]
      by_cases hk : k = a
      · have : ¬k = j := fun e => hj (e.symm.trans hk)
        simp [hk]; intro e; exact absurd e.symm hj
      · simp [hk]

theorem mem_insert {m : FMap α} {j : Nat} {x : α} {e : Nat × α} (h : e ∈ m.insert j x) : e = (j, x) ∨ e ∈ m := by
  induction m with
  | nil => simp [insert] at h; exact .inl h
  | cons c m ih =>
    obtain ⟨a, v⟩ := c
    simp only [insert] at h
    split at h
    · exact List.mem_cons.1 h
    · split at h
      · rcases List.mem_cons.1 h with h | h
        · exact .inl h
        · exact .inr (List.mem_cons_of_mem _ h)
      · rcases List.mem_cons.1 h with h | h
        · exact .inr (h ▸ List.mem_cons_self ..)
        · exact (ih h).imp_right (List.mem_cons_of_mem _)

variable [DecidableEq α]

theorem getD_put (m : FMap α) (d x : α) (k j : Nat) : getD (m.put d k x) d j = if j = k then x else getD m d j := by
  unfold put getD
  split
  · rw [find?_erase]; split <;> simp_all
  · rw [find?_insert]; split <;> simp

theorem sorted_put {m : FMap α} {d x : α} {k : Nat} (h : sorted m = true) : sorted (m.put d k x) = true := by
  unfold put
  split
  · exact sorted_erase h
  · exact sorted_insert h

end FMap

end Sys2Proof
end

