-- ==== Sys2Proof/Laws/State.lean ====
section
/-!
SUPPORT. One lemma per field for each named update of a state, a working copy and a group: an update changes its own field
and no other.
-/
namespace Sys2Proof.Machine

/-! ## The machine -/

section
variable (s : State) (w : Work) (f : Work → Work) (g : Nat)

@[simp] theorem State.finish_mem : (s.finish w).mem = Mem.writes s.mem w.wr.reverse := rfl
@[simp] theorem State.finish_pk : (s.finish w).pk = w.pk := rfl
@[simp] theorem State.finish_neg : (s.finish w).neg = s.neg := rfl
@[simp] theorem State.finish_agenda : (s.finish w).agenda = s.agenda := rfl
@[simp] theorem State.run_mem : (s.run f).mem = Mem.writes s.mem (f (Work.start s)).wr.reverse := rfl
@[simp] theorem State.run_pk : (s.run f).pk = (f (Work.start s)).pk := rfl
@[simp] theorem State.run_neg : (s.run f).neg = s.neg := rfl
@[simp] theorem State.run_agenda : (s.run f).agenda = s.agenda := rfl
end

/-! ## The working copy -/

section
variable (s : State) (w : Work) (f : Package → Package) (ks : List Nat) (bs : List Byte) (k n v : Nat)

@[simp] theorem Work.start_base : (Work.start s).base = s.mem := rfl
@[simp] theorem Work.start_wr : (Work.start s).wr = [] := rfl
@[simp] theorem Work.start_pk : (Work.start s).pk = s.pk := rfl
@[simp] theorem Work.mapPk_base : (w.mapPk f).base = w.base := rfl
@[simp] theorem Work.mapPk_wr : (w.mapPk f).wr = w.wr := rfl
@[simp] theorem Work.mapPk_pk : (w.mapPk f).pk = f w.pk := rfl
@[simp] theorem Work.puts_base : (w.puts ks bs).base = w.base := rfl
@[simp] theorem Work.puts_pk : (w.puts ks bs).pk = w.pk := rfl
end

/-! ## Writes: their bytes, and nothing of the package but what follows memory -/

section
variable (w : Work) (ks : List Nat) (bs : List Byte) (k n v : Nat)

theorem Work.overwriteOwn_eq : ∃ p, w.overwriteOwn ks = { w with pk := p } ∧ p.afterWrite = w.pk.afterWrite := by
  unfold Work.overwriteOwn; dsimp only; split <;> exact ⟨_, rfl, rfl⟩
theorem Work.noteLine_eq : ∃ p, w.noteLine ks = { w with pk := p } ∧ p.afterWrite = w.pk.afterWrite := by
  unfold Work.noteLine; dsimp only; split <;> exact ⟨_, rfl, rfl⟩
theorem Work.endSequences_eq : ∃ p, w.endSequences ks = { w with pk := p } ∧ p.afterWrite = w.pk.afterWrite := by
  unfold Work.endSequences; split <;> exact ⟨_, rfl, rfl⟩
theorem Work.mendUnits_eq : ∃ p, w.mendUnits ks = { w with pk := p } ∧ p.afterWrite = w.pk.afterWrite := by
  unfold Work.mendUnits; split <;> exact ⟨_, rfl, rfl⟩

theorem Work.home_of_pk {p : Package} (h : p.afterWrite = w.pk.afterWrite) : ({ w with pk := p } : Work).home = w.home := by
  have hp : p.afterWrite.pubs = w.pk.afterWrite.pubs := by rw [h]
  change p.pubs = w.pk.pubs at hp
  funext k; unfold Work.home Work.backing Work.raw; simp only [hp]

theorem Work.puts_of_pk {p : Package} (h : p.afterWrite = w.pk.afterWrite) :
    ({ w with pk := p } : Work).puts ks bs = { w.puts ks bs with pk := p } := by
  unfold Work.puts; rw [Work.home_of_pk w h]

/-- A write puts its bytes and, of the package, changes only what follows memory. -/
theorem Work.place_eq : ∃ p, w.place ks bs = { w.puts ks bs with pk := p } ∧ p.afterWrite = w.pk.afterWrite := by
  obtain ⟨p, h, e⟩ := w.mendUnits_eq ks
  obtain ⟨q, h', e'⟩ := ({ w with pk := p } : Work).overwriteOwn_eq ks
  obtain ⟨r, h'', e''⟩ := ({ w with pk := q } : Work).noteLine_eq ks
  have e3 : r.afterWrite = w.pk.afterWrite := e''.trans (e'.trans e)
  refine ⟨r, ?_, e3⟩
  unfold Work.place; rw [h, h', h'', Work.puts_of_pk w ks bs e3]

theorem Work.write_eq : ∃ p, w.write ks bs = { w.puts ks bs with pk := p } ∧ p.afterWrite = w.pk.afterWrite := by
  obtain ⟨p, h, e⟩ := w.endSequences_eq ks
  obtain ⟨q, h', e'⟩ := ({ w with pk := p } : Work).place_eq ks bs
  have e3 : q.afterWrite = w.pk.afterWrite := e'.trans e
  exact ⟨q, by unfold Work.write; rw [h, h', Work.puts_of_pk w ks bs e], e3⟩

@[simp] theorem Work.place_base : (w.place ks bs).base = w.base := by obtain ⟨p, h, -⟩ := w.place_eq ks bs; rw [h]; rfl
@[simp] theorem Work.place_wr : (w.place ks bs).wr = (w.puts ks bs).wr := by obtain ⟨p, h, -⟩ := w.place_eq ks bs; rw [h]
@[simp] theorem Work.place_groups : (w.place ks bs).pk.groups = w.pk.groups := by
  obtain ⟨p, h, e⟩ := w.place_eq ks bs
  have hg : p.afterWrite.groups = w.pk.afterWrite.groups := by rw [e]
  rw [h]; exact hg
@[simp] theorem Work.write_base : (w.write ks bs).base = w.base := by obtain ⟨p, h, -⟩ := w.write_eq ks bs; rw [h]; rfl
@[simp] theorem Work.write_wr : (w.write ks bs).wr = (w.puts ks bs).wr := by obtain ⟨p, h, -⟩ := w.write_eq ks bs; rw [h]
@[simp] theorem Work.write_groups : (w.write ks bs).pk.groups = w.pk.groups := by
  obtain ⟨p, h, e⟩ := w.write_eq ks bs
  have hg : p.afterWrite.groups = w.pk.afterWrite.groups := by rw [e]
  rw [h]; exact hg
@[simp] theorem Work.putNum_base : (w.putNum k n v).base = w.base := w.write_base _ _
@[simp] theorem Work.putNum_groups : (w.putNum k n v).pk.groups = w.pk.groups := w.write_groups _ _
end

section
variable (w : Work) (k : Nat)

@[simp] theorem Work.setGroup_wr (x : Group) : (w.setGroup k x).wr = w.wr := rfl
@[simp] theorem Work.setGroup_base (x : Group) : (w.setGroup k x).base = w.base := rfl
@[simp] theorem Work.setGroup_pk (x : Group) : (w.setGroup k x).pk = { w.pk with groups := w.pk.groups.insert k x } := rfl
@[simp] theorem Work.setBlock_wr (x : Block) : (w.setBlock k x).wr = w.wr := rfl
@[simp] theorem Work.setBlock_base (x : Block) : (w.setBlock k x).base = w.base := rfl
@[simp] theorem Work.setBlock_pk (x : Block) : (w.setBlock k x).pk = { w.pk with blocks := w.pk.blocks.insert k x } := rfl
@[simp] theorem Work.setLaunch_wr (x : Launch) : (w.setLaunch k x).wr = w.wr := rfl
@[simp] theorem Work.setLaunch_base (x : Launch) : (w.setLaunch k x).base = w.base := rfl
@[simp] theorem Work.setLaunch_pk (x : Launch) : (w.setLaunch k x).pk = { w.pk with launches := w.pk.launches.insert k x } := rfl
@[simp] theorem Work.setTxn_wr (x : Txn) : (w.setTxn k x).wr = w.wr := rfl
@[simp] theorem Work.setTxn_base (x : Txn) : (w.setTxn k x).base = w.base := rfl
@[simp] theorem Work.setTxn_pk (x : Txn) : (w.setTxn k x).pk = { w.pk with txns := w.pk.txns.insert k x } := rfl
@[simp] theorem Work.setCtx_wr (x : Ctx) : (w.setCtx k x).wr = w.wr := rfl
@[simp] theorem Work.setCtx_base (x : Ctx) : (w.setCtx k x).base = w.base := rfl
@[simp] theorem Work.setCtx_pk (x : Ctx) : (w.setCtx k x).pk = { w.pk with ctxs := w.pk.ctxs.insert k x } := rfl
@[simp] theorem Work.updGroup_wr (x : Group → Group) : (w.updGroup k x).wr = w.wr := rfl
@[simp] theorem Work.updGroup_base (x : Group → Group) : (w.updGroup k x).base = w.base := rfl
@[simp] theorem Work.updGroup_pk (x : Group → Group) : (w.updGroup k x).pk = { w.pk with groups := w.pk.groups.adjust k x } := rfl
@[simp] theorem Work.updBlock_wr (x : Block → Block) : (w.updBlock k x).wr = w.wr := rfl
@[simp] theorem Work.updBlock_base (x : Block → Block) : (w.updBlock k x).base = w.base := rfl
@[simp] theorem Work.updBlock_pk (x : Block → Block) : (w.updBlock k x).pk = { w.pk with blocks := w.pk.blocks.adjust k x } := rfl
@[simp] theorem Work.updLaunch_wr (x : Launch → Launch) : (w.updLaunch k x).wr = w.wr := rfl
@[simp] theorem Work.updLaunch_base (x : Launch → Launch) : (w.updLaunch k x).base = w.base := rfl
@[simp] theorem Work.updLaunch_pk (x : Launch → Launch) : (w.updLaunch k x).pk = { w.pk with launches := w.pk.launches.adjust k x } := rfl
@[simp] theorem Work.updTxn_wr (x : Txn → Txn) : (w.updTxn k x).wr = w.wr := rfl
@[simp] theorem Work.updTxn_base (x : Txn → Txn) : (w.updTxn k x).base = w.base := rfl
@[simp] theorem Work.updTxn_pk (x : Txn → Txn) : (w.updTxn k x).pk = { w.pk with txns := w.pk.txns.adjust k x } := rfl
@[simp] theorem Work.updCtx_wr (x : Ctx → Ctx) : (w.updCtx k x).wr = w.wr := rfl
@[simp] theorem Work.updCtx_base (x : Ctx → Ctx) : (w.updCtx k x).base = w.base := rfl
@[simp] theorem Work.updCtx_pk (x : Ctx → Ctx) : (w.updCtx k x).pk = { w.pk with ctxs := w.pk.ctxs.adjust k x } := rfl
@[simp] theorem Work.updItem_wr (x : Item → Item) : (w.updItem k x).wr = w.wr := rfl
@[simp] theorem Work.updItem_base (x : Item → Item) : (w.updItem k x).base = w.base := rfl
@[simp] theorem Work.updItem_pk (x : Item → Item) : (w.updItem k x).pk = { w.pk with items := w.pk.items.adjust k x } := rfl
end

/-! ## The group -/

section
variable (g : Group) (r : Nat)

@[simp] theorem Group.setReg_ctx (x : VReg) : (g.setReg r x).ctx = g.ctx := rfl
@[simp] theorem Group.setReg_lnch (x : VReg) : (g.setReg r x).lnch = g.lnch := rfl
@[simp] theorem Group.setReg_blk (x : VReg) : (g.setReg r x).blk = g.blk := rfl
@[simp] theorem Group.setReg_gidx (x : VReg) : (g.setReg r x).gidx = g.gidx := rfl
@[simp] theorem Group.setReg_core (x : VReg) : (g.setReg r x).core = g.core := rfl
@[simp] theorem Group.setReg_part (x : VReg) : (g.setReg r x).part = g.part := rfl
@[simp] theorem Group.setReg_slot (x : VReg) : (g.setReg r x).slot = g.slot := rfl
@[simp] theorem Group.setReg_frame (x : VReg) : (g.setReg r x).frame = g.frame := rfl
@[simp] theorem Group.setReg_base (x : VReg) : (g.setReg r x).base = g.base := rfl
@[simp] theorem Group.setReg_ext (x : VReg) : (g.setReg r x).ext = g.ext := rfl
@[simp] theorem Group.setReg_lanes (x : VReg) : (g.setReg r x).lanes = g.lanes := rfl
@[simp] theorem Group.setReg_sregs (x : VReg) : (g.setReg r x).sregs = g.sregs := rfl
@[simp] theorem Group.setReg_jmasks (x : VReg) : (g.setReg r x).jmasks = g.jmasks := rfl
@[simp] theorem Group.setReg_splits (x : VReg) : (g.setReg r x).splits = g.splits := rfl
@[simp] theorem Group.setReg_bypass (x : VReg) : (g.setReg r x).bypass = g.bypass := rfl
@[simp] theorem Group.setReg_fpst (x : VReg) : (g.setReg r x).fpst = g.fpst := rfl
@[simp] theorem Group.setReg_chains (x : VReg) : (g.setReg r x).chains = g.chains := rfl
@[simp] theorem Group.setReg_plq (x : VReg) : (g.setReg r x).plq = g.plq := rfl
@[simp] theorem Group.setReg_xreq (x : VReg) : (g.setReg r x).xreq = g.xreq := rfl
@[simp] theorem Group.setReg_banks (x : VReg) : (g.setReg r x).banks = g.banks := rfl
@[simp] theorem Group.setReg_regions (x : VReg) : (g.setReg r x).regions = g.regions := rfl
@[simp] theorem Group.setReg_stat (x : VReg) : (g.setReg r x).stat = g.stat := rfl
@[simp] theorem Group.setReg_saveReq (x : VReg) : (g.setReg r x).saveReq = g.saveReq := rfl
@[simp] theorem Group.setReg_saveKind (x : VReg) : (g.setReg r x).saveKind = g.saveKind := rfl
@[simp] theorem Group.setReg_susp (x : VReg) : (g.setReg r x).susp = g.susp := rfl
@[simp] theorem Group.setReg_replay (x : VReg) : (g.setReg r x).replay = g.replay := rfl
@[simp] theorem Group.setReg_handler (x : VReg) : (g.setReg r x).handler = g.handler := rfl
@[simp] theorem Group.setReg_resume (x : VReg) : (g.setReg r x).resume = g.resume := rfl
@[simp] theorem Group.setReg_pendA (x : VReg) : (g.setReg r x).pendA = g.pendA := rfl
@[simp] theorem Group.setReg_frysLast (x : VReg) : (g.setReg r x).frysLast = g.frysLast := rfl
@[simp] theorem Group.setReg_frysNaks (x : VReg) : (g.setReg r x).frysNaks = g.frysNaks := rfl
@[simp] theorem Group.setReg_inflight (x : VReg) : (g.setReg r x).inflight = g.inflight := rfl
@[simp] theorem Group.setReg_name (x : VReg) : (g.setReg r x).name = g.name := rfl
@[simp] theorem Group.setReg_pmc (x : VReg) : (g.setReg r x).pmc = g.pmc := rfl
@[simp] theorem Group.setReg_arr (x : VReg) : (g.setReg r x).arr = g.arr := rfl
@[simp] theorem Group.setReg_w (x : VReg) : (g.setReg r x).w = g.w := rfl
@[simp] theorem Group.setReg_debt (x : VReg) : (g.setReg r x).debt = g.debt := rfl
@[simp] theorem Group.setReg_skipWatch (x : VReg) : (g.setReg r x).skipWatch = g.skipWatch := rfl
@[simp] theorem Group.setReg_pastBrk (x : VReg) : (g.setReg r x).pastBrk = g.pastBrk := rfl
@[simp] theorem Group.setReg_privBase (x : VReg) : (g.setReg r x).privBase = g.privBase := rfl
@[simp] theorem Group.setReg_bulk (x : VReg) : (g.setReg r x).bulk = g.bulk := rfl
@[simp] theorem Group.setReg_saveSeq (x : VReg) : (g.setReg r x).saveSeq = g.saveSeq := rfl
@[simp] theorem Group.setReg_mxHeld (x : VReg) : (g.setReg r x).mxHeld = g.mxHeld := rfl

@[simp] theorem Group.setSreg_ctx (x : W64) : (g.setSreg r x).ctx = g.ctx := rfl
@[simp] theorem Group.setSreg_lnch (x : W64) : (g.setSreg r x).lnch = g.lnch := rfl
@[simp] theorem Group.setSreg_blk (x : W64) : (g.setSreg r x).blk = g.blk := rfl
@[simp] theorem Group.setSreg_gidx (x : W64) : (g.setSreg r x).gidx = g.gidx := rfl
@[simp] theorem Group.setSreg_core (x : W64) : (g.setSreg r x).core = g.core := rfl
@[simp] theorem Group.setSreg_part (x : W64) : (g.setSreg r x).part = g.part := rfl
@[simp] theorem Group.setSreg_slot (x : W64) : (g.setSreg r x).slot = g.slot := rfl
@[simp] theorem Group.setSreg_frame (x : W64) : (g.setSreg r x).frame = g.frame := rfl
@[simp] theorem Group.setSreg_base (x : W64) : (g.setSreg r x).base = g.base := rfl
@[simp] theorem Group.setSreg_ext (x : W64) : (g.setSreg r x).ext = g.ext := rfl
@[simp] theorem Group.setSreg_lanes (x : W64) : (g.setSreg r x).lanes = g.lanes := rfl
@[simp] theorem Group.setSreg_regs (x : W64) : (g.setSreg r x).regs = g.regs := rfl
@[simp] theorem Group.setSreg_jmasks (x : W64) : (g.setSreg r x).jmasks = g.jmasks := rfl
@[simp] theorem Group.setSreg_splits (x : W64) : (g.setSreg r x).splits = g.splits := rfl
@[simp] theorem Group.setSreg_bypass (x : W64) : (g.setSreg r x).bypass = g.bypass := rfl
@[simp] theorem Group.setSreg_fpst (x : W64) : (g.setSreg r x).fpst = g.fpst := rfl
@[simp] theorem Group.setSreg_chains (x : W64) : (g.setSreg r x).chains = g.chains := rfl
@[simp] theorem Group.setSreg_plq (x : W64) : (g.setSreg r x).plq = g.plq := rfl
@[simp] theorem Group.setSreg_xreq (x : W64) : (g.setSreg r x).xreq = g.xreq := rfl
@[simp] theorem Group.setSreg_banks (x : W64) : (g.setSreg r x).banks = g.banks := rfl
@[simp] theorem Group.setSreg_regions (x : W64) : (g.setSreg r x).regions = g.regions := rfl
@[simp] theorem Group.setSreg_stat (x : W64) : (g.setSreg r x).stat = g.stat := rfl
@[simp] theorem Group.setSreg_saveReq (x : W64) : (g.setSreg r x).saveReq = g.saveReq := rfl
@[simp] theorem Group.setSreg_saveKind (x : W64) : (g.setSreg r x).saveKind = g.saveKind := rfl
@[simp] theorem Group.setSreg_susp (x : W64) : (g.setSreg r x).susp = g.susp := rfl
@[simp] theorem Group.setSreg_replay (x : W64) : (g.setSreg r x).replay = g.replay := rfl
@[simp] theorem Group.setSreg_handler (x : W64) : (g.setSreg r x).handler = g.handler := rfl
@[simp] theorem Group.setSreg_resume (x : W64) : (g.setSreg r x).resume = g.resume := rfl
@[simp] theorem Group.setSreg_pendA (x : W64) : (g.setSreg r x).pendA = g.pendA := rfl
@[simp] theorem Group.setSreg_frysLast (x : W64) : (g.setSreg r x).frysLast = g.frysLast := rfl
@[simp] theorem Group.setSreg_frysNaks (x : W64) : (g.setSreg r x).frysNaks = g.frysNaks := rfl
@[simp] theorem Group.setSreg_inflight (x : W64) : (g.setSreg r x).inflight = g.inflight := rfl
@[simp] theorem Group.setSreg_name (x : W64) : (g.setSreg r x).name = g.name := rfl
@[simp] theorem Group.setSreg_pmc (x : W64) : (g.setSreg r x).pmc = g.pmc := rfl
@[simp] theorem Group.setSreg_arr (x : W64) : (g.setSreg r x).arr = g.arr := rfl
@[simp] theorem Group.setSreg_w (x : W64) : (g.setSreg r x).w = g.w := rfl
@[simp] theorem Group.setSreg_debt (x : W64) : (g.setSreg r x).debt = g.debt := rfl
@[simp] theorem Group.setSreg_skipWatch (x : W64) : (g.setSreg r x).skipWatch = g.skipWatch := rfl
@[simp] theorem Group.setSreg_pastBrk (x : W64) : (g.setSreg r x).pastBrk = g.pastBrk := rfl
@[simp] theorem Group.setSreg_privBase (x : W64) : (g.setSreg r x).privBase = g.privBase := rfl
@[simp] theorem Group.setSreg_bulk (x : W64) : (g.setSreg r x).bulk = g.bulk := rfl
@[simp] theorem Group.setSreg_saveSeq (x : W64) : (g.setSreg r x).saveSeq = g.saveSeq := rfl
@[simp] theorem Group.setSreg_mxHeld (x : W64) : (g.setSreg r x).mxHeld = g.mxHeld := rfl

@[simp] theorem Group.setJmask_ctx (x : Byte × PC) : (g.setJmask r x).ctx = g.ctx := rfl
@[simp] theorem Group.setJmask_lnch (x : Byte × PC) : (g.setJmask r x).lnch = g.lnch := rfl
@[simp] theorem Group.setJmask_blk (x : Byte × PC) : (g.setJmask r x).blk = g.blk := rfl
@[simp] theorem Group.setJmask_gidx (x : Byte × PC) : (g.setJmask r x).gidx = g.gidx := rfl
@[simp] theorem Group.setJmask_core (x : Byte × PC) : (g.setJmask r x).core = g.core := rfl
@[simp] theorem Group.setJmask_part (x : Byte × PC) : (g.setJmask r x).part = g.part := rfl
@[simp] theorem Group.setJmask_slot (x : Byte × PC) : (g.setJmask r x).slot = g.slot := rfl
@[simp] theorem Group.setJmask_frame (x : Byte × PC) : (g.setJmask r x).frame = g.frame := rfl
@[simp] theorem Group.setJmask_base (x : Byte × PC) : (g.setJmask r x).base = g.base := rfl
@[simp] theorem Group.setJmask_ext (x : Byte × PC) : (g.setJmask r x).ext = g.ext := rfl
@[simp] theorem Group.setJmask_lanes (x : Byte × PC) : (g.setJmask r x).lanes = g.lanes := rfl
@[simp] theorem Group.setJmask_regs (x : Byte × PC) : (g.setJmask r x).regs = g.regs := rfl
@[simp] theorem Group.setJmask_sregs (x : Byte × PC) : (g.setJmask r x).sregs = g.sregs := rfl
@[simp] theorem Group.setJmask_splits (x : Byte × PC) : (g.setJmask r x).splits = g.splits := rfl
@[simp] theorem Group.setJmask_bypass (x : Byte × PC) : (g.setJmask r x).bypass = g.bypass := rfl
@[simp] theorem Group.setJmask_fpst (x : Byte × PC) : (g.setJmask r x).fpst = g.fpst := rfl
@[simp] theorem Group.setJmask_chains (x : Byte × PC) : (g.setJmask r x).chains = g.chains := rfl
@[simp] theorem Group.setJmask_plq (x : Byte × PC) : (g.setJmask r x).plq = g.plq := rfl
@[simp] theorem Group.setJmask_xreq (x : Byte × PC) : (g.setJmask r x).xreq = g.xreq := rfl
@[simp] theorem Group.setJmask_banks (x : Byte × PC) : (g.setJmask r x).banks = g.banks := rfl
@[simp] theorem Group.setJmask_regions (x : Byte × PC) : (g.setJmask r x).regions = g.regions := rfl
@[simp] theorem Group.setJmask_stat (x : Byte × PC) : (g.setJmask r x).stat = g.stat := rfl
@[simp] theorem Group.setJmask_saveReq (x : Byte × PC) : (g.setJmask r x).saveReq = g.saveReq := rfl
@[simp] theorem Group.setJmask_saveKind (x : Byte × PC) : (g.setJmask r x).saveKind = g.saveKind := rfl
@[simp] theorem Group.setJmask_susp (x : Byte × PC) : (g.setJmask r x).susp = g.susp := rfl
@[simp] theorem Group.setJmask_replay (x : Byte × PC) : (g.setJmask r x).replay = g.replay := rfl
@[simp] theorem Group.setJmask_handler (x : Byte × PC) : (g.setJmask r x).handler = g.handler := rfl
@[simp] theorem Group.setJmask_resume (x : Byte × PC) : (g.setJmask r x).resume = g.resume := rfl
@[simp] theorem Group.setJmask_pendA (x : Byte × PC) : (g.setJmask r x).pendA = g.pendA := rfl
@[simp] theorem Group.setJmask_frysLast (x : Byte × PC) : (g.setJmask r x).frysLast = g.frysLast := rfl
@[simp] theorem Group.setJmask_frysNaks (x : Byte × PC) : (g.setJmask r x).frysNaks = g.frysNaks := rfl
@[simp] theorem Group.setJmask_inflight (x : Byte × PC) : (g.setJmask r x).inflight = g.inflight := rfl
@[simp] theorem Group.setJmask_name (x : Byte × PC) : (g.setJmask r x).name = g.name := rfl
@[simp] theorem Group.setJmask_pmc (x : Byte × PC) : (g.setJmask r x).pmc = g.pmc := rfl
@[simp] theorem Group.setJmask_arr (x : Byte × PC) : (g.setJmask r x).arr = g.arr := rfl
@[simp] theorem Group.setJmask_w (x : Byte × PC) : (g.setJmask r x).w = g.w := rfl
@[simp] theorem Group.setJmask_debt (x : Byte × PC) : (g.setJmask r x).debt = g.debt := rfl
@[simp] theorem Group.setJmask_skipWatch (x : Byte × PC) : (g.setJmask r x).skipWatch = g.skipWatch := rfl
@[simp] theorem Group.setJmask_pastBrk (x : Byte × PC) : (g.setJmask r x).pastBrk = g.pastBrk := rfl
@[simp] theorem Group.setJmask_privBase (x : Byte × PC) : (g.setJmask r x).privBase = g.privBase := rfl
@[simp] theorem Group.setJmask_bulk (x : Byte × PC) : (g.setJmask r x).bulk = g.bulk := rfl
@[simp] theorem Group.setJmask_saveSeq (x : Byte × PC) : (g.setJmask r x).saveSeq = g.saveSeq := rfl
@[simp] theorem Group.setJmask_mxHeld (x : Byte × PC) : (g.setJmask r x).mxHeld = g.mxHeld := rfl

@[simp] theorem Group.setChain_ctx (x : Chain) : (g.setChain r x).ctx = g.ctx := rfl
@[simp] theorem Group.setChain_lnch (x : Chain) : (g.setChain r x).lnch = g.lnch := rfl
@[simp] theorem Group.setChain_blk (x : Chain) : (g.setChain r x).blk = g.blk := rfl
@[simp] theorem Group.setChain_gidx (x : Chain) : (g.setChain r x).gidx = g.gidx := rfl
@[simp] theorem Group.setChain_core (x : Chain) : (g.setChain r x).core = g.core := rfl
@[simp] theorem Group.setChain_part (x : Chain) : (g.setChain r x).part = g.part := rfl
@[simp] theorem Group.setChain_slot (x : Chain) : (g.setChain r x).slot = g.slot := rfl
@[simp] theorem Group.setChain_frame (x : Chain) : (g.setChain r x).frame = g.frame := rfl
@[simp] theorem Group.setChain_base (x : Chain) : (g.setChain r x).base = g.base := rfl
@[simp] theorem Group.setChain_ext (x : Chain) : (g.setChain r x).ext = g.ext := rfl
@[simp] theorem Group.setChain_lanes (x : Chain) : (g.setChain r x).lanes = g.lanes := rfl
@[simp] theorem Group.setChain_regs (x : Chain) : (g.setChain r x).regs = g.regs := rfl
@[simp] theorem Group.setChain_sregs (x : Chain) : (g.setChain r x).sregs = g.sregs := rfl
@[simp] theorem Group.setChain_jmasks (x : Chain) : (g.setChain r x).jmasks = g.jmasks := rfl
@[simp] theorem Group.setChain_splits (x : Chain) : (g.setChain r x).splits = g.splits := rfl
@[simp] theorem Group.setChain_bypass (x : Chain) : (g.setChain r x).bypass = g.bypass := rfl
@[simp] theorem Group.setChain_fpst (x : Chain) : (g.setChain r x).fpst = g.fpst := rfl
@[simp] theorem Group.setChain_plq (x : Chain) : (g.setChain r x).plq = g.plq := rfl
@[simp] theorem Group.setChain_xreq (x : Chain) : (g.setChain r x).xreq = g.xreq := rfl
@[simp] theorem Group.setChain_banks (x : Chain) : (g.setChain r x).banks = g.banks := rfl
@[simp] theorem Group.setChain_regions (x : Chain) : (g.setChain r x).regions = g.regions := rfl
@[simp] theorem Group.setChain_stat (x : Chain) : (g.setChain r x).stat = g.stat := rfl
@[simp] theorem Group.setChain_saveReq (x : Chain) : (g.setChain r x).saveReq = g.saveReq := rfl
@[simp] theorem Group.setChain_saveKind (x : Chain) : (g.setChain r x).saveKind = g.saveKind := rfl
@[simp] theorem Group.setChain_susp (x : Chain) : (g.setChain r x).susp = g.susp := rfl
@[simp] theorem Group.setChain_replay (x : Chain) : (g.setChain r x).replay = g.replay := rfl
@[simp] theorem Group.setChain_handler (x : Chain) : (g.setChain r x).handler = g.handler := rfl
@[simp] theorem Group.setChain_resume (x : Chain) : (g.setChain r x).resume = g.resume := rfl
@[simp] theorem Group.setChain_pendA (x : Chain) : (g.setChain r x).pendA = g.pendA := rfl
@[simp] theorem Group.setChain_frysLast (x : Chain) : (g.setChain r x).frysLast = g.frysLast := rfl
@[simp] theorem Group.setChain_frysNaks (x : Chain) : (g.setChain r x).frysNaks = g.frysNaks := rfl
@[simp] theorem Group.setChain_inflight (x : Chain) : (g.setChain r x).inflight = g.inflight := rfl
@[simp] theorem Group.setChain_name (x : Chain) : (g.setChain r x).name = g.name := rfl
@[simp] theorem Group.setChain_pmc (x : Chain) : (g.setChain r x).pmc = g.pmc := rfl
@[simp] theorem Group.setChain_arr (x : Chain) : (g.setChain r x).arr = g.arr := rfl
@[simp] theorem Group.setChain_w (x : Chain) : (g.setChain r x).w = g.w := rfl
@[simp] theorem Group.setChain_debt (x : Chain) : (g.setChain r x).debt = g.debt := rfl
@[simp] theorem Group.setChain_skipWatch (x : Chain) : (g.setChain r x).skipWatch = g.skipWatch := rfl
@[simp] theorem Group.setChain_pastBrk (x : Chain) : (g.setChain r x).pastBrk = g.pastBrk := rfl
@[simp] theorem Group.setChain_privBase (x : Chain) : (g.setChain r x).privBase = g.privBase := rfl
@[simp] theorem Group.setChain_bulk (x : Chain) : (g.setChain r x).bulk = g.bulk := rfl
@[simp] theorem Group.setChain_saveSeq (x : Chain) : (g.setChain r x).saveSeq = g.saveSeq := rfl
@[simp] theorem Group.setChain_mxHeld (x : Chain) : (g.setChain r x).mxHeld = g.mxHeld := rfl

@[simp] theorem Group.updLanes_ctx (f : Fin 8 → Lane → Lane) : (g.updLanes f).ctx = g.ctx := rfl
@[simp] theorem Group.updLanes_lnch (f : Fin 8 → Lane → Lane) : (g.updLanes f).lnch = g.lnch := rfl
@[simp] theorem Group.updLanes_blk (f : Fin 8 → Lane → Lane) : (g.updLanes f).blk = g.blk := rfl
@[simp] theorem Group.updLanes_gidx (f : Fin 8 → Lane → Lane) : (g.updLanes f).gidx = g.gidx := rfl
@[simp] theorem Group.updLanes_core (f : Fin 8 → Lane → Lane) : (g.updLanes f).core = g.core := rfl
@[simp] theorem Group.updLanes_part (f : Fin 8 → Lane → Lane) : (g.updLanes f).part = g.part := rfl
@[simp] theorem Group.updLanes_slot (f : Fin 8 → Lane → Lane) : (g.updLanes f).slot = g.slot := rfl
@[simp] theorem Group.updLanes_frame (f : Fin 8 → Lane → Lane) : (g.updLanes f).frame = g.frame := rfl
@[simp] theorem Group.updLanes_base (f : Fin 8 → Lane → Lane) : (g.updLanes f).base = g.base := rfl
@[simp] theorem Group.updLanes_ext (f : Fin 8 → Lane → Lane) : (g.updLanes f).ext = g.ext := rfl
@[simp] theorem Group.updLanes_regs (f : Fin 8 → Lane → Lane) : (g.updLanes f).regs = g.regs := rfl
@[simp] theorem Group.updLanes_sregs (f : Fin 8 → Lane → Lane) : (g.updLanes f).sregs = g.sregs := rfl
@[simp] theorem Group.updLanes_jmasks (f : Fin 8 → Lane → Lane) : (g.updLanes f).jmasks = g.jmasks := rfl
@[simp] theorem Group.updLanes_splits (f : Fin 8 → Lane → Lane) : (g.updLanes f).splits = g.splits := rfl
@[simp] theorem Group.updLanes_bypass (f : Fin 8 → Lane → Lane) : (g.updLanes f).bypass = g.bypass := rfl
@[simp] theorem Group.updLanes_fpst (f : Fin 8 → Lane → Lane) : (g.updLanes f).fpst = g.fpst := rfl
@[simp] theorem Group.updLanes_chains (f : Fin 8 → Lane → Lane) : (g.updLanes f).chains = g.chains := rfl
@[simp] theorem Group.updLanes_plq (f : Fin 8 → Lane → Lane) : (g.updLanes f).plq = g.plq := rfl
@[simp] theorem Group.updLanes_xreq (f : Fin 8 → Lane → Lane) : (g.updLanes f).xreq = g.xreq := rfl
@[simp] theorem Group.updLanes_banks (f : Fin 8 → Lane → Lane) : (g.updLanes f).banks = g.banks := rfl
@[simp] theorem Group.updLanes_regions (f : Fin 8 → Lane → Lane) : (g.updLanes f).regions = g.regions := rfl
@[simp] theorem Group.updLanes_stat (f : Fin 8 → Lane → Lane) : (g.updLanes f).stat = g.stat := rfl
@[simp] theorem Group.updLanes_saveReq (f : Fin 8 → Lane → Lane) : (g.updLanes f).saveReq = g.saveReq := rfl
@[simp] theorem Group.updLanes_saveKind (f : Fin 8 → Lane → Lane) : (g.updLanes f).saveKind = g.saveKind := rfl
@[simp] theorem Group.updLanes_susp (f : Fin 8 → Lane → Lane) : (g.updLanes f).susp = g.susp := rfl
@[simp] theorem Group.updLanes_replay (f : Fin 8 → Lane → Lane) : (g.updLanes f).replay = g.replay := rfl
@[simp] theorem Group.updLanes_handler (f : Fin 8 → Lane → Lane) : (g.updLanes f).handler = g.handler := rfl
@[simp] theorem Group.updLanes_resume (f : Fin 8 → Lane → Lane) : (g.updLanes f).resume = g.resume := rfl
@[simp] theorem Group.updLanes_pendA (f : Fin 8 → Lane → Lane) : (g.updLanes f).pendA = g.pendA := rfl
@[simp] theorem Group.updLanes_frysLast (f : Fin 8 → Lane → Lane) : (g.updLanes f).frysLast = g.frysLast := rfl
@[simp] theorem Group.updLanes_frysNaks (f : Fin 8 → Lane → Lane) : (g.updLanes f).frysNaks = g.frysNaks := rfl
@[simp] theorem Group.updLanes_inflight (f : Fin 8 → Lane → Lane) : (g.updLanes f).inflight = g.inflight := rfl
@[simp] theorem Group.updLanes_name (f : Fin 8 → Lane → Lane) : (g.updLanes f).name = g.name := rfl
@[simp] theorem Group.updLanes_pmc (f : Fin 8 → Lane → Lane) : (g.updLanes f).pmc = g.pmc := rfl
@[simp] theorem Group.updLanes_arr (f : Fin 8 → Lane → Lane) : (g.updLanes f).arr = g.arr := rfl
@[simp] theorem Group.updLanes_w (f : Fin 8 → Lane → Lane) : (g.updLanes f).w = g.w := rfl
@[simp] theorem Group.updLanes_debt (f : Fin 8 → Lane → Lane) : (g.updLanes f).debt = g.debt := rfl
@[simp] theorem Group.updLanes_skipWatch (f : Fin 8 → Lane → Lane) : (g.updLanes f).skipWatch = g.skipWatch := rfl
@[simp] theorem Group.updLanes_pastBrk (f : Fin 8 → Lane → Lane) : (g.updLanes f).pastBrk = g.pastBrk := rfl
@[simp] theorem Group.updLanes_privBase (f : Fin 8 → Lane → Lane) : (g.updLanes f).privBase = g.privBase := rfl
@[simp] theorem Group.updLanes_bulk (f : Fin 8 → Lane → Lane) : (g.updLanes f).bulk = g.bulk := rfl
@[simp] theorem Group.updLanes_saveSeq (f : Fin 8 → Lane → Lane) : (g.updLanes f).saveSeq = g.saveSeq := rfl
@[simp] theorem Group.updLanes_mxHeld (f : Fin 8 → Lane → Lane) : (g.updLanes f).mxHeld = g.mxHeld := rfl

@[simp] theorem Group.setPc_ctx (m : Mask) (pc : PC) : (g.setPc m pc).ctx = g.ctx := rfl
@[simp] theorem Group.setPc_lnch (m : Mask) (pc : PC) : (g.setPc m pc).lnch = g.lnch := rfl
@[simp] theorem Group.setPc_blk (m : Mask) (pc : PC) : (g.setPc m pc).blk = g.blk := rfl
@[simp] theorem Group.setPc_gidx (m : Mask) (pc : PC) : (g.setPc m pc).gidx = g.gidx := rfl
@[simp] theorem Group.setPc_core (m : Mask) (pc : PC) : (g.setPc m pc).core = g.core := rfl
@[simp] theorem Group.setPc_part (m : Mask) (pc : PC) : (g.setPc m pc).part = g.part := rfl
@[simp] theorem Group.setPc_slot (m : Mask) (pc : PC) : (g.setPc m pc).slot = g.slot := rfl
@[simp] theorem Group.setPc_frame (m : Mask) (pc : PC) : (g.setPc m pc).frame = g.frame := rfl
@[simp] theorem Group.setPc_base (m : Mask) (pc : PC) : (g.setPc m pc).base = g.base := rfl
@[simp] theorem Group.setPc_ext (m : Mask) (pc : PC) : (g.setPc m pc).ext = g.ext := rfl
@[simp] theorem Group.setPc_regs (m : Mask) (pc : PC) : (g.setPc m pc).regs = g.regs := rfl
@[simp] theorem Group.setPc_sregs (m : Mask) (pc : PC) : (g.setPc m pc).sregs = g.sregs := rfl
@[simp] theorem Group.setPc_jmasks (m : Mask) (pc : PC) : (g.setPc m pc).jmasks = g.jmasks := rfl
@[simp] theorem Group.setPc_splits (m : Mask) (pc : PC) : (g.setPc m pc).splits = g.splits := rfl
@[simp] theorem Group.setPc_bypass (m : Mask) (pc : PC) : (g.setPc m pc).bypass = g.bypass := rfl
@[simp] theorem Group.setPc_fpst (m : Mask) (pc : PC) : (g.setPc m pc).fpst = g.fpst := rfl
@[simp] theorem Group.setPc_chains (m : Mask) (pc : PC) : (g.setPc m pc).chains = g.chains := rfl
@[simp] theorem Group.setPc_plq (m : Mask) (pc : PC) : (g.setPc m pc).plq = g.plq := rfl
@[simp] theorem Group.setPc_xreq (m : Mask) (pc : PC) : (g.setPc m pc).xreq = g.xreq := rfl
@[simp] theorem Group.setPc_banks (m : Mask) (pc : PC) : (g.setPc m pc).banks = g.banks := rfl
@[simp] theorem Group.setPc_regions (m : Mask) (pc : PC) : (g.setPc m pc).regions = g.regions := rfl
@[simp] theorem Group.setPc_stat (m : Mask) (pc : PC) : (g.setPc m pc).stat = g.stat := rfl
@[simp] theorem Group.setPc_saveReq (m : Mask) (pc : PC) : (g.setPc m pc).saveReq = g.saveReq := rfl
@[simp] theorem Group.setPc_saveKind (m : Mask) (pc : PC) : (g.setPc m pc).saveKind = g.saveKind := rfl
@[simp] theorem Group.setPc_susp (m : Mask) (pc : PC) : (g.setPc m pc).susp = g.susp := rfl
@[simp] theorem Group.setPc_replay (m : Mask) (pc : PC) : (g.setPc m pc).replay = g.replay := rfl
@[simp] theorem Group.setPc_handler (m : Mask) (pc : PC) : (g.setPc m pc).handler = g.handler := rfl
@[simp] theorem Group.setPc_resume (m : Mask) (pc : PC) : (g.setPc m pc).resume = g.resume := rfl
@[simp] theorem Group.setPc_pendA (m : Mask) (pc : PC) : (g.setPc m pc).pendA = g.pendA := rfl
@[simp] theorem Group.setPc_frysLast (m : Mask) (pc : PC) : (g.setPc m pc).frysLast = g.frysLast := rfl
@[simp] theorem Group.setPc_frysNaks (m : Mask) (pc : PC) : (g.setPc m pc).frysNaks = g.frysNaks := rfl
@[simp] theorem Group.setPc_inflight (m : Mask) (pc : PC) : (g.setPc m pc).inflight = g.inflight := rfl
@[simp] theorem Group.setPc_name (m : Mask) (pc : PC) : (g.setPc m pc).name = g.name := rfl
@[simp] theorem Group.setPc_pmc (m : Mask) (pc : PC) : (g.setPc m pc).pmc = g.pmc := rfl
@[simp] theorem Group.setPc_arr (m : Mask) (pc : PC) : (g.setPc m pc).arr = g.arr := rfl
@[simp] theorem Group.setPc_w (m : Mask) (pc : PC) : (g.setPc m pc).w = g.w := rfl
@[simp] theorem Group.setPc_debt (m : Mask) (pc : PC) : (g.setPc m pc).debt = g.debt := rfl
@[simp] theorem Group.setPc_skipWatch (m : Mask) (pc : PC) : (g.setPc m pc).skipWatch = g.skipWatch := rfl
@[simp] theorem Group.setPc_pastBrk (m : Mask) (pc : PC) : (g.setPc m pc).pastBrk = g.pastBrk := rfl
@[simp] theorem Group.setPc_privBase (m : Mask) (pc : PC) : (g.setPc m pc).privBase = g.privBase := rfl
@[simp] theorem Group.setPc_bulk (m : Mask) (pc : PC) : (g.setPc m pc).bulk = g.bulk := rfl
@[simp] theorem Group.setPc_saveSeq (m : Mask) (pc : PC) : (g.setPc m pc).saveSeq = g.saveSeq := rfl
@[simp] theorem Group.setPc_mxHeld (m : Mask) (pc : PC) : (g.setPc m pc).mxHeld = g.mxHeld := rfl

@[simp] theorem Group.setPred_ctx (m v : Mask) : (g.setPred r m v).ctx = g.ctx := rfl
@[simp] theorem Group.setPred_lnch (m v : Mask) : (g.setPred r m v).lnch = g.lnch := rfl
@[simp] theorem Group.setPred_blk (m v : Mask) : (g.setPred r m v).blk = g.blk := rfl
@[simp] theorem Group.setPred_gidx (m v : Mask) : (g.setPred r m v).gidx = g.gidx := rfl
@[simp] theorem Group.setPred_core (m v : Mask) : (g.setPred r m v).core = g.core := rfl
@[simp] theorem Group.setPred_part (m v : Mask) : (g.setPred r m v).part = g.part := rfl
@[simp] theorem Group.setPred_slot (m v : Mask) : (g.setPred r m v).slot = g.slot := rfl
@[simp] theorem Group.setPred_frame (m v : Mask) : (g.setPred r m v).frame = g.frame := rfl
@[simp] theorem Group.setPred_base (m v : Mask) : (g.setPred r m v).base = g.base := rfl
@[simp] theorem Group.setPred_ext (m v : Mask) : (g.setPred r m v).ext = g.ext := rfl
@[simp] theorem Group.setPred_regs (m v : Mask) : (g.setPred r m v).regs = g.regs := rfl
@[simp] theorem Group.setPred_sregs (m v : Mask) : (g.setPred r m v).sregs = g.sregs := rfl
@[simp] theorem Group.setPred_jmasks (m v : Mask) : (g.setPred r m v).jmasks = g.jmasks := rfl
@[simp] theorem Group.setPred_splits (m v : Mask) : (g.setPred r m v).splits = g.splits := rfl
@[simp] theorem Group.setPred_bypass (m v : Mask) : (g.setPred r m v).bypass = g.bypass := rfl
@[simp] theorem Group.setPred_fpst (m v : Mask) : (g.setPred r m v).fpst = g.fpst := rfl
@[simp] theorem Group.setPred_chains (m v : Mask) : (g.setPred r m v).chains = g.chains := rfl
@[simp] theorem Group.setPred_plq (m v : Mask) : (g.setPred r m v).plq = g.plq := rfl
@[simp] theorem Group.setPred_xreq (m v : Mask) : (g.setPred r m v).xreq = g.xreq := rfl
@[simp] theorem Group.setPred_banks (m v : Mask) : (g.setPred r m v).banks = g.banks := rfl
@[simp] theorem Group.setPred_regions (m v : Mask) : (g.setPred r m v).regions = g.regions := rfl
@[simp] theorem Group.setPred_stat (m v : Mask) : (g.setPred r m v).stat = g.stat := rfl
@[simp] theorem Group.setPred_saveReq (m v : Mask) : (g.setPred r m v).saveReq = g.saveReq := rfl
@[simp] theorem Group.setPred_saveKind (m v : Mask) : (g.setPred r m v).saveKind = g.saveKind := rfl
@[simp] theorem Group.setPred_susp (m v : Mask) : (g.setPred r m v).susp = g.susp := rfl
@[simp] theorem Group.setPred_replay (m v : Mask) : (g.setPred r m v).replay = g.replay := rfl
@[simp] theorem Group.setPred_handler (m v : Mask) : (g.setPred r m v).handler = g.handler := rfl
@[simp] theorem Group.setPred_resume (m v : Mask) : (g.setPred r m v).resume = g.resume := rfl
@[simp] theorem Group.setPred_pendA (m v : Mask) : (g.setPred r m v).pendA = g.pendA := rfl
@[simp] theorem Group.setPred_frysLast (m v : Mask) : (g.setPred r m v).frysLast = g.frysLast := rfl
@[simp] theorem Group.setPred_frysNaks (m v : Mask) : (g.setPred r m v).frysNaks = g.frysNaks := rfl
@[simp] theorem Group.setPred_inflight (m v : Mask) : (g.setPred r m v).inflight = g.inflight := rfl
@[simp] theorem Group.setPred_name (m v : Mask) : (g.setPred r m v).name = g.name := rfl
@[simp] theorem Group.setPred_pmc (m v : Mask) : (g.setPred r m v).pmc = g.pmc := rfl
@[simp] theorem Group.setPred_arr (m v : Mask) : (g.setPred r m v).arr = g.arr := rfl
@[simp] theorem Group.setPred_w (m v : Mask) : (g.setPred r m v).w = g.w := rfl
@[simp] theorem Group.setPred_debt (m v : Mask) : (g.setPred r m v).debt = g.debt := rfl
@[simp] theorem Group.setPred_skipWatch (m v : Mask) : (g.setPred r m v).skipWatch = g.skipWatch := rfl
@[simp] theorem Group.setPred_pastBrk (m v : Mask) : (g.setPred r m v).pastBrk = g.pastBrk := rfl
@[simp] theorem Group.setPred_privBase (m v : Mask) : (g.setPred r m v).privBase = g.privBase := rfl
@[simp] theorem Group.setPred_bulk (m v : Mask) : (g.setPred r m v).bulk = g.bulk := rfl
@[simp] theorem Group.setPred_saveSeq (m v : Mask) : (g.setPred r m v).saveSeq = g.saveSeq := rfl
@[simp] theorem Group.setPred_mxHeld (m v : Mask) : (g.setPred r m v).mxHeld = g.mxHeld := rfl

@[simp] theorem Group.clearWd_ctx (m : Mask) : (g.clearWd m).ctx = g.ctx := rfl
@[simp] theorem Group.clearWd_lnch (m : Mask) : (g.clearWd m).lnch = g.lnch := rfl
@[simp] theorem Group.clearWd_blk (m : Mask) : (g.clearWd m).blk = g.blk := rfl
@[simp] theorem Group.clearWd_gidx (m : Mask) : (g.clearWd m).gidx = g.gidx := rfl
@[simp] theorem Group.clearWd_core (m : Mask) : (g.clearWd m).core = g.core := rfl
@[simp] theorem Group.clearWd_part (m : Mask) : (g.clearWd m).part = g.part := rfl
@[simp] theorem Group.clearWd_slot (m : Mask) : (g.clearWd m).slot = g.slot := rfl
@[simp] theorem Group.clearWd_frame (m : Mask) : (g.clearWd m).frame = g.frame := rfl
@[simp] theorem Group.clearWd_base (m : Mask) : (g.clearWd m).base = g.base := rfl
@[simp] theorem Group.clearWd_ext (m : Mask) : (g.clearWd m).ext = g.ext := rfl
@[simp] theorem Group.clearWd_regs (m : Mask) : (g.clearWd m).regs = g.regs := rfl
@[simp] theorem Group.clearWd_sregs (m : Mask) : (g.clearWd m).sregs = g.sregs := rfl
@[simp] theorem Group.clearWd_jmasks (m : Mask) : (g.clearWd m).jmasks = g.jmasks := rfl
@[simp] theorem Group.clearWd_splits (m : Mask) : (g.clearWd m).splits = g.splits := rfl
@[simp] theorem Group.clearWd_bypass (m : Mask) : (g.clearWd m).bypass = g.bypass := rfl
@[simp] theorem Group.clearWd_fpst (m : Mask) : (g.clearWd m).fpst = g.fpst := rfl
@[simp] theorem Group.clearWd_chains (m : Mask) : (g.clearWd m).chains = g.chains := rfl
@[simp] theorem Group.clearWd_plq (m : Mask) : (g.clearWd m).plq = g.plq := rfl
@[simp] theorem Group.clearWd_xreq (m : Mask) : (g.clearWd m).xreq = g.xreq := rfl
@[simp] theorem Group.clearWd_banks (m : Mask) : (g.clearWd m).banks = g.banks := rfl
@[simp] theorem Group.clearWd_regions (m : Mask) : (g.clearWd m).regions = g.regions := rfl
@[simp] theorem Group.clearWd_stat (m : Mask) : (g.clearWd m).stat = g.stat := rfl
@[simp] theorem Group.clearWd_saveReq (m : Mask) : (g.clearWd m).saveReq = g.saveReq := rfl
@[simp] theorem Group.clearWd_saveKind (m : Mask) : (g.clearWd m).saveKind = g.saveKind := rfl
@[simp] theorem Group.clearWd_susp (m : Mask) : (g.clearWd m).susp = g.susp := rfl
@[simp] theorem Group.clearWd_replay (m : Mask) : (g.clearWd m).replay = g.replay := rfl
@[simp] theorem Group.clearWd_handler (m : Mask) : (g.clearWd m).handler = g.handler := rfl
@[simp] theorem Group.clearWd_resume (m : Mask) : (g.clearWd m).resume = g.resume := rfl
@[simp] theorem Group.clearWd_pendA (m : Mask) : (g.clearWd m).pendA = g.pendA := rfl
@[simp] theorem Group.clearWd_frysLast (m : Mask) : (g.clearWd m).frysLast = g.frysLast := rfl
@[simp] theorem Group.clearWd_frysNaks (m : Mask) : (g.clearWd m).frysNaks = g.frysNaks := rfl
@[simp] theorem Group.clearWd_inflight (m : Mask) : (g.clearWd m).inflight = g.inflight := rfl
@[simp] theorem Group.clearWd_name (m : Mask) : (g.clearWd m).name = g.name := rfl
@[simp] theorem Group.clearWd_pmc (m : Mask) : (g.clearWd m).pmc = g.pmc := rfl
@[simp] theorem Group.clearWd_arr (m : Mask) : (g.clearWd m).arr = g.arr := rfl
@[simp] theorem Group.clearWd_w (m : Mask) : (g.clearWd m).w = g.w := rfl
@[simp] theorem Group.clearWd_debt (m : Mask) : (g.clearWd m).debt = g.debt := rfl
@[simp] theorem Group.clearWd_skipWatch (m : Mask) : (g.clearWd m).skipWatch = g.skipWatch := rfl
@[simp] theorem Group.clearWd_pastBrk (m : Mask) : (g.clearWd m).pastBrk = g.pastBrk := rfl
@[simp] theorem Group.clearWd_privBase (m : Mask) : (g.clearWd m).privBase = g.privBase := rfl
@[simp] theorem Group.clearWd_bulk (m : Mask) : (g.clearWd m).bulk = g.bulk := rfl
@[simp] theorem Group.clearWd_saveSeq (m : Mask) : (g.clearWd m).saveSeq = g.saveSeq := rfl
@[simp] theorem Group.clearWd_mxHeld (m : Mask) : (g.clearWd m).mxHeld = g.mxHeld := rfl

@[simp] theorem Group.mergeRing_ctx : (g.mergeRing).ctx = g.ctx := rfl
@[simp] theorem Group.mergeRing_lnch : (g.mergeRing).lnch = g.lnch := rfl
@[simp] theorem Group.mergeRing_blk : (g.mergeRing).blk = g.blk := rfl
@[simp] theorem Group.mergeRing_gidx : (g.mergeRing).gidx = g.gidx := rfl
@[simp] theorem Group.mergeRing_core : (g.mergeRing).core = g.core := rfl
@[simp] theorem Group.mergeRing_part : (g.mergeRing).part = g.part := rfl
@[simp] theorem Group.mergeRing_slot : (g.mergeRing).slot = g.slot := rfl
@[simp] theorem Group.mergeRing_frame : (g.mergeRing).frame = g.frame := rfl
@[simp] theorem Group.mergeRing_base : (g.mergeRing).base = g.base := rfl
@[simp] theorem Group.mergeRing_ext : (g.mergeRing).ext = g.ext := rfl
@[simp] theorem Group.mergeRing_lanes : (g.mergeRing).lanes = g.lanes := rfl
@[simp] theorem Group.mergeRing_regs : (g.mergeRing).regs = g.regs := rfl
@[simp] theorem Group.mergeRing_sregs : (g.mergeRing).sregs = g.sregs := rfl
@[simp] theorem Group.mergeRing_jmasks : (g.mergeRing).jmasks = g.jmasks := rfl
@[simp] theorem Group.mergeRing_bypass : (g.mergeRing).bypass = g.bypass := rfl
@[simp] theorem Group.mergeRing_fpst : (g.mergeRing).fpst = g.fpst := rfl
@[simp] theorem Group.mergeRing_chains : (g.mergeRing).chains = g.chains := rfl
@[simp] theorem Group.mergeRing_plq : (g.mergeRing).plq = g.plq := rfl
@[simp] theorem Group.mergeRing_xreq : (g.mergeRing).xreq = g.xreq := rfl
@[simp] theorem Group.mergeRing_banks : (g.mergeRing).banks = g.banks := rfl
@[simp] theorem Group.mergeRing_regions : (g.mergeRing).regions = g.regions := rfl
@[simp] theorem Group.mergeRing_stat : (g.mergeRing).stat = g.stat := rfl
@[simp] theorem Group.mergeRing_saveReq : (g.mergeRing).saveReq = g.saveReq := rfl
@[simp] theorem Group.mergeRing_saveKind : (g.mergeRing).saveKind = g.saveKind := rfl
@[simp] theorem Group.mergeRing_susp : (g.mergeRing).susp = g.susp := rfl
@[simp] theorem Group.mergeRing_replay : (g.mergeRing).replay = g.replay := rfl
@[simp] theorem Group.mergeRing_handler : (g.mergeRing).handler = g.handler := rfl
@[simp] theorem Group.mergeRing_resume : (g.mergeRing).resume = g.resume := rfl
@[simp] theorem Group.mergeRing_pendA : (g.mergeRing).pendA = g.pendA := rfl
@[simp] theorem Group.mergeRing_frysLast : (g.mergeRing).frysLast = g.frysLast := rfl
@[simp] theorem Group.mergeRing_frysNaks : (g.mergeRing).frysNaks = g.frysNaks := rfl
@[simp] theorem Group.mergeRing_inflight : (g.mergeRing).inflight = g.inflight := rfl
@[simp] theorem Group.mergeRing_name : (g.mergeRing).name = g.name := rfl
@[simp] theorem Group.mergeRing_pmc : (g.mergeRing).pmc = g.pmc := rfl
@[simp] theorem Group.mergeRing_arr : (g.mergeRing).arr = g.arr := rfl
@[simp] theorem Group.mergeRing_w : (g.mergeRing).w = g.w := rfl
@[simp] theorem Group.mergeRing_debt : (g.mergeRing).debt = g.debt := rfl
@[simp] theorem Group.mergeRing_skipWatch : (g.mergeRing).skipWatch = g.skipWatch := rfl
@[simp] theorem Group.mergeRing_pastBrk : (g.mergeRing).pastBrk = g.pastBrk := rfl
@[simp] theorem Group.mergeRing_privBase : (g.mergeRing).privBase = g.privBase := rfl
@[simp] theorem Group.mergeRing_bulk : (g.mergeRing).bulk = g.bulk := rfl
@[simp] theorem Group.mergeRing_saveSeq : (g.mergeRing).saveSeq = g.saveSeq := rfl
@[simp] theorem Group.mergeRing_mxHeld : (g.mergeRing).mxHeld = g.mxHeld := rfl

end

end Sys2Proof.Machine
end

