-- ==== Sys2Proof/Laws/Memory.lean ====
section
/-!
SUPPORT. The laws of memory: read after write, and that every write keeps the canonical form.
-/
namespace Sys2Proof.Machine

/-- A byte read after one write. -/
theorem Mem.byte_write (m : Memory) (k j : Nat) (b : Byte) :
    Mem.byte (Mem.write m k b) j = if j = k then b else Mem.byte m j := FMap.getD_put ..

theorem Memory.wf_iff (m : Memory) :
    m.wf = true ↔ FMap.sorted m = true ∧ ∀ e ∈ m, e.2 ≠ Config.unwrittenByte := by
  simp [Memory.wf]

/-- One write keeps the canonical form. -/
theorem Mem.write_wf {m : Memory} (k : Nat) (b : Byte) (h : m.wf = true) : (Mem.write m k b).wf = true := by
  rw [Memory.wf_iff] at h ⊢
  obtain ⟨hs, hb⟩ := h
  unfold Mem.write
  refine ⟨FMap.sorted_put hs, ?_⟩
  unfold FMap.put
  split
  · exact fun e he => hb e (FMap.mem_erase he)
  · intro e he
    rcases FMap.mem_insert he with rfl | he
    · assumption
    · exact hb e he

/-- Writes in order keep the canonical form. -/
theorem Mem.writes_wf (l : List Host.Cell) {m : Memory} (h : m.wf = true) : (Mem.writes m l).wf = true := by
  induction l generalizing m with
  | nil => exact h
  | cons c l ih => exact ih (Mem.write_wf c.1 c.2 h)

/-- A step's effect keeps the canonical form, whatever it computes. -/
theorem State.run_wf {s : State} (f : Work → Work) (h : s.mem.wf = true) : (s.run f).mem.wf = true :=
  Mem.writes_wf _ h

@[simp] theorem Mem.writes_nil (m : Memory) : Mem.writes m [] = m := rfl

/-- The newest write to a key decides what it holds. -/
theorem Mem.byte_writes (l : List Host.Cell) (m : Memory) (k : Nat) :
    Mem.byte (Mem.writes m l) k = ((l.reverse.find? fun c => c.1 == k).map Prod.snd).getD (Mem.byte m k) := by
  induction l generalizing m with
  | nil => rfl
  | cons c l ih =>
    have : Mem.writes m (c :: l) = Mem.writes (Mem.write m c.1 c.2) l := rfl
    rw [this, ih, List.reverse_cons, List.find?_append]
    cases h : l.reverse.find? fun c => c.1 == k with
    | some x => simp
    | none =>
      rw [Mem.byte_write]
      by_cases e : k = c.1
      · simp [e]
      · have : ¬c.1 = k := fun h => e h.symm
        simp [e, this]

/-- What the working copy holds at a key is what the machine holds there once the step is done. -/
theorem State.finish_byte (s : State) (w : Work) (h : w.base = s.mem) (k : Nat) :
    Mem.byte (s.finish w).mem k = w.raw k := by
  rw [State.finish_mem, Mem.byte_writes, List.reverse_reverse, Work.raw, h]
  cases w.wr.find? fun c => c.1 == k <;> rfl

end Sys2Proof.Machine
end

