-- ==== Sys2Proof/Laws/Issue.lean ====
section
/-!
SUPPORT. What the issue of one instruction does, said once: the ring keeps everything of a group but where its lanes stand,
and an effect confined to the group gives the machine with that one group changed.
-/
namespace Sys2Proof.Machine

/-! ## Lanes that change their place only -/

theorem Group.lane_updLanes (g : Group) (f : Fin 8 → Lane → Lane) (L : Fin 8) : (g.updLanes f).lane L = f L (g.lane L) := by
  simp [Group.updLanes, Group.lane]

theorem Group.lane_setPc (g : Group) (m : Mask) (pc : PC) (L : Fin 8) :
    (g.setPc m pc).lane L = if m.get L then { g.lane L with pc := pc } else g.lane L := by
  simp only [Group.setPc, Group.lane_updLanes]

theorem Group.lane_clearWd (g : Group) (m : Mask) (L : Fin 8) :
    (g.clearWd m).lane L = if m.get L then { g.lane L with wd := 0 } else g.lane L := by
  simp only [Group.clearWd, Group.lane_updLanes]

/-- Which lanes run depends on the lanes' states alone. -/
theorem Group.running_congr {g g' : Group} (h : ∀ L, (g'.lane L).st = (g.lane L).st) : g'.running = g.running := by
  have h1 : g'.live = g.live := by simp [Group.live, h]
  have h2 : g'.helpers = g.helpers := by simp [Group.helpers, h]
  simp [Group.running, h1, h2]

/-- A group whose lanes differ in place and counts only has the same rest. -/
theorem Group.rest_of_lanes {g : Group} {ls : Lanes Lane} (h : ∀ L, (ls.get L).rest = (g.lane L).rest) :
    ({ g with lanes := ls } : Group).rest = g.rest := by
  have hl : ls.map Lane.rest = g.lanes.map Lane.rest := Lanes.ext_get fun L => by rw [Lanes.get_map, Lanes.get_map]; exact h L
  have hr : ({ g with lanes := ls } : Group).running = g.running :=
    Group.running_congr fun L => by simpa [Lane.rest, Group.lane] using congrArg Lane.st (h L)
  simp [Group.rest, Group.keptHandler, hl, hr]

theorem Group.rest_updLanes {g : Group} {f : Fin 8 → Lane → Lane} (h : ∀ L l, (f L l).rest = l.rest) :
    (g.updLanes f).rest = g.rest :=
  Group.rest_of_lanes fun L => by rw [Lanes.get_ofFn]; exact h L _

/-- What the ring and the counts of an issue leave alone: the rest of the group, its registers, and its save. -/
def Group.stand (g : Group) : Group × FMap VReg × GStat × Option SaveReq := (g.rest, g.regs, g.stat, g.saveReq)

theorem Group.stand_eq {g g' : Group} :
    g.stand = g'.stand ↔ g.rest = g'.rest ∧ g.regs = g'.regs ∧ g.stat = g'.stat ∧ g.saveReq = g'.saveReq := by
  simp only [Group.stand, Prod.mk.injEq]

theorem Group.places_eq {g g' : Group} (h : (g.lanes, g.jmasks) = (g'.lanes, g'.jmasks)) :
    (∀ L, g.lane L = g'.lane L) ∧ g.jmasks = g'.jmasks := by
  obtain ⟨h1, h2⟩ := Prod.mk.inj h
  exact ⟨fun L => by rw [Group.lane, h1]; rfl, h2⟩

theorem Group.stand_updLanes {g : Group} {f : Fin 8 → Lane → Lane} (h : ∀ L l, (f L l).rest = l.rest) :
    (g.updLanes f).stand = g.stand := by
  unfold Group.stand
  rw [Group.rest_updLanes h]
  rfl

@[simp] theorem Group.stand_setPc (g : Group) (m : Mask) (pc : PC) : (g.setPc m pc).stand = g.stand :=
  Group.stand_updLanes fun L l => by split <;> rfl

@[simp] theorem Group.stand_clearWd (g : Group) (m : Mask) : (g.clearWd m).stand = g.stand :=
  Group.stand_updLanes fun L l => by split <;> rfl

@[simp] theorem Group.stand_mergeRing (g : Group) : g.mergeRing.stand = g.stand := rfl
@[simp] theorem Group.stand_splits (g : Group) (x : List Split) : ({ g with splits := x } : Group).stand = g.stand := rfl
@[simp] theorem Group.stand_bypass (g : Group) (x : List (List BypassReg)) : ({ g with bypass := x } : Group).stand = g.stand := rfl
@[simp] theorem Group.stand_setJmask (g : Group) (j : Nat) (x : Byte × PC) : (g.setJmask j x).stand = g.stand := rfl

@[simp] theorem Group.stand_count (g : Group) (n k : Nat) : (g.count n k).stand = g.stand := by
  unfold Group.count
  split <;> rfl

@[simp] theorem Group.stand_dropHandler (g : Group) : g.dropHandler.stand = g.stand := by
  unfold Group.dropHandler
  split
  · split
    · rfl
    · next h hx => simp_all [Group.stand, Group.rest, Group.keptHandler]
  · rfl

@[simp] theorem Group.stand_makeCurrent (g : Group) (i : Nat) (was : Mask) : (g.makeCurrent i was).stand = g.stand := by
  unfold Group.makeCurrent
  split
  · rfl
  · exact Group.stand_count g 4 _

@[simp] theorem Group.stand_switchPoint (g : Group) (was : Mask) : (g.switchPoint was).stand = g.stand := by
  unfold Group.switchPoint
  split
  · rfl
  · split
    · simp
    · split <;> simp

@[simp] theorem Group.stand_stepBypass (g : Group) : g.stepBypass.stand = g.stand := rfl
@[simp] theorem Group.stand_owe (g : Group) (n : Nat) : (g.owe n).stand = g.stand := rfl

@[simp] theorem Group.stand_countIssue (g : Group) (v : View) (n : Need) : (g.countIssue v n).stand = g.stand := by
  unfold Group.countIssue
  rw [Group.stand_stepBypass, Group.stand_count, Group.stand_count]
  exact Group.stand_updLanes fun L l => by split <;> rfl

@[simp] theorem Group.stand_clearBypass (g : Group) (b : Bool) : (g.clearBypass b).stand = g.stand := by
  unfold Group.clearBypass
  split <;> rfl

@[simp] theorem Group.stand_nextCurrent (g : Group) (v : View) (b k : Bool) : (g.nextCurrent v b k).stand = g.stand := by
  unfold Group.nextCurrent
  split
  · split
    · simp
    · split <;> simp
  · rfl

@[simp] theorem Group.rest_safePoint (g : Group) (fits : Bool) (h : Hdr) : (g.safePoint fits h).rest = g.rest := by
  unfold Group.safePoint
  repeat' split
  all_goals rfl

@[simp] theorem Group.safePoint_regs (g : Group) (fits : Bool) (h : Hdr) : (g.safePoint fits h).regs = g.regs := by
  unfold Group.safePoint
  repeat' split
  all_goals rfl

@[simp] theorem Group.safePoint_lanes (g : Group) (fits : Bool) (h : Hdr) : (g.safePoint fits h).lanes = g.lanes := by
  unfold Group.safePoint
  repeat' split
  all_goals rfl

@[simp] theorem Group.safePoint_jmasks (g : Group) (fits : Bool) (h : Hdr) : (g.safePoint fits h).jmasks = g.jmasks := by
  unfold Group.safePoint
  repeat' split
  all_goals rfl

theorem Group.safePoint_none (g : Group) (fits : Bool) {h : Hdr} (hs : h.sp = none) : g.safePoint fits h = g := by
  simp [Group.safePoint, hs]

theorem Group.stand_releaseOne (g : Group) (s : Split) : (releaseOne g s).1.stand = g.stand := by
  unfold releaseOne
  split
  · dsimp only
    split
    · simp only [Group.stand_setJmask]
      rw [Group.stand_updLanes (fun L l => by split <;> rfl)]
      simp
    · simp
  · rfl

@[simp] theorem Group.stand_releaseHeld (g : Group) : g.releaseHeld.stand = g.stand := by
  unfold Group.releaseHeld
  suffices ∀ (l : List Split) (r : Group × List Split),
      (l.foldl (fun (r : Group × List Split) s => let (g, l) := releaseOne r.1 s; (g, r.2 ++ l)) r).1.stand = r.1.stand by
    simp only [Group.stand_splits]
    exact this _ _
  intro l
  induction l with
  | nil => intro r; rfl
  | cons s l ih =>
    intro r
    rw [List.foldl_cons, ih]
    exact Group.stand_releaseOne _ _

theorem Group.stand_foldPc (l : List Piece) (g : Group) :
    (l.foldl (fun g x => (if x.cond.counts then g else g.clearWd x.lanes).setPc x.lanes x.pc) g).stand = g.stand := by
  induction l generalizing g with
  | nil => rfl
  | cons x l ih =>
    rw [List.foldl_cons, ih, Group.stand_setPc]
    split <;> simp

@[simp] theorem Group.stand_placePieces (g : Group) (v : View) (c : Ctl) : (g.placePieces v c).stand = g.stand := by
  unfold Group.placePieces
  split
  · rfl
  · simp only [Group.stand_splits]
    split
    · split
      · rw [Group.stand_foldPc, Group.stand_setPc]
      · rw [Group.stand_clearWd, Group.stand_foldPc, Group.stand_setPc]
    · rw [Group.stand_clearWd, Group.stand_foldPc, Group.stand_setPc]

/-- The ring keeps the rest of the group, unless a return transfer leaves handler mode. -/
theorem Group.stand_settleRing (g : Group) (h : Hdr) (v : View) (c : Ctl) (hr : c.ret = false) :
    (g.settleRing h v c).stand = g.stand := by
  simp [Group.settleRing, hr, Group.leaveAt]

theorem Group.rest_settleRing (g : Group) (h : Hdr) (v : View) (c : Ctl) (hr : c.ret = false) :
    (g.settleRing h v c).rest = g.rest := congrArg (·.1) (Group.stand_settleRing g h v c hr)

theorem Group.settleRing_regs (g : Group) (h : Hdr) (v : View) (c : Ctl) (hr : c.ret = false) :
    (g.settleRing h v c).regs = g.regs := congrArg (·.2.1) (Group.stand_settleRing g h v c hr)

theorem Group.settleRing_stat (g : Group) (h : Hdr) (v : View) (c : Ctl) (hr : c.ret = false) :
    (g.settleRing h v c).stat = g.stat := congrArg (·.2.2.1) (Group.stand_settleRing g h v c hr)

theorem Group.settleRing_saveReq (g : Group) (h : Hdr) (v : View) (c : Ctl) (hr : c.ret = false) :
    (g.settleRing h v c).saveReq = g.saveReq := congrArg (·.2.2.2) (Group.stand_settleRing g h v c hr)

/-! ## Where the lanes stand -/

/-- Where the lanes of a group stand, and the rejoin masks. -/
def Group.places (g : Group) : Lanes Lane × FMap (Byte × PC) := (g.lanes, g.jmasks)

theorem Group.places_makeCurrent (g : Group) (i : Nat) (was : Mask) : (g.makeCurrent i was).places = g.places := by
  unfold Group.makeCurrent Group.count
  split
  · rfl
  · split <;> split <;> rfl

theorem Group.places_switchPoint (g : Group) (was : Mask) : (g.switchPoint was).places = g.places := by
  unfold Group.switchPoint
  split
  · rfl
  · split
    · exact Group.places_makeCurrent ..
    · split
      · exact Group.places_makeCurrent ..
      · rfl

theorem Group.places_nextCurrent (g : Group) (v : View) (b k : Bool) : (g.nextCurrent v b k).places = g.places := by
  unfold Group.nextCurrent
  split
  · split
    · exact Group.places_switchPoint ..
    · split
      · exact Group.places_makeCurrent ..
      · rfl
  · rfl

theorem Group.places_dropHandler (g : Group) : g.dropHandler.places = g.places := by
  unfold Group.dropHandler
  split
  · split <;> rfl
  · rfl

@[simp] theorem Group.places_mergeRing (g : Group) : g.mergeRing.places = g.places := rfl

theorem Group.places_clearBypass (g : Group) (b : Bool) : (g.clearBypass b).places = g.places := by
  unfold Group.clearBypass
  split <;> rfl

/-- With no held split there is nothing to release. -/
theorem Group.releaseHeld_none {g : Group} (h : ∀ x ∈ g.splits, ∀ j, x.cond ≠ .held j) : g.releaseHeld = g := by
  have key : ∀ (l : List Split) (r : Group × List Split), (∀ x ∈ l, ∀ j, x.cond ≠ .held j) →
      l.foldl (fun (r : Group × List Split) s => let (g, l) := releaseOne r.1 s; (g, r.2 ++ l)) r = (r.1, r.2 ++ l) := by
    intro l
    induction l with
    | nil => intro r _; simp
    | cons s l ih =>
      intro r hl
      have hs : releaseOne r.1 s = (r.1, [s]) := by
        unfold releaseOne
        split
        · next j hj => exact absurd hj (hl s (by simp) j)
        · rfl
      rw [List.foldl_cons, ih _ (fun x hx => hl x (List.mem_cons_of_mem _ hx))]
      simp [hs]
  unfold Group.releaseHeld
  rw [key _ _ h]
  simp

/-- Pieces that no mask holds. -/
def Ctl.free (c : Ctl) : Prop := ∀ x ∈ c.pieces, ∀ j, x.cond ≠ .held j

/-- The splits of the ring after an instruction that holds no lanes are held only where they were. -/
theorem Group.placePieces_held {g : Group} {v : View} {c : Ctl} (hc : c.free)
    (hg : ∀ x ∈ g.splits.tail, ∀ j, x.cond ≠ .held j) (h1 : ∀ x ∈ g.splits, ∀ j, x.cond ≠ .held j) :
    ∀ x ∈ (g.placePieces v c).splits, ∀ j, x.cond ≠ .held j := by
  unfold Group.placePieces
  split
  · exact h1
  · next s ss hs =>
    have hss : ∀ x ∈ ss, ∀ j, x.cond ≠ .held j := by simpa [hs] using hg
    intro x hx j
    simp only [List.mem_append, List.mem_filter, List.mem_map] at hx
    rcases hx with (hx | ⟨y, ⟨hy, _⟩, rfl⟩) | ⟨⟨t, ht, rfl⟩, _⟩
    · split at hx
      · simp only [List.mem_singleton] at hx
        subst hx
        dsimp only
        split <;> simp
      · simp at hx
    · obtain ⟨⟨z, hz, rfl⟩, _⟩ := hy
      exact hc z hz j
    · split <;> exact hss t ht j

/-- Where the lanes stand after an instruction that holds no lanes, when no other split is held. -/
theorem Group.places_settleRing {g : Group} {h : Hdr} {v : View} {c : Ctl} (hc : c.free) (hr : c.ret = false)
    (hg : ∀ x ∈ g.splits, ∀ j, x.cond ≠ .held j) : (g.settleRing h v c).places = (g.placePieces v c).places := by
  have hn := Group.releaseHeld_none (Group.placePieces_held (v := v) hc (fun x hx => hg x (List.mem_of_mem_tail hx)) hg)
  have hl : ∀ x : Group, x.leaveAt c.ret = x := fun x => by simp [Group.leaveAt, hr]
  unfold Group.settleRing
  rw [Group.places_nextCurrent, Group.places_mergeRing, Group.places_dropHandler, hl, Group.places_clearBypass, hn]
  rfl

/-! ## The view -/

/-- What a view says of the machine. -/
structure Sees (w : Work) (words : Nat) (v : View) : Prop where
  g : v.g = w.pk.cur
  grp : w.pk.groups.find? v.g = some v.grp
  split : ∃ x, v.grp.splits.head? = some x ∧ x.cond = .ready ∧ x.lanes = v.m
  act : ∀ L, v.act.get L = true → v.m.get L = true
  pc : v.pc = v.grp.pcOf v.m
  next : v.next = pcPlus v.pc words
  issues : groupIssues w.pk v.g v.grp = true
  free : gateDue w v.grp = false

theorem viewOf_seen {w : Work} {h : Hdr} {words : Nat} {v : View} (hv : viewOf w h words = some v) : Sees w words v := by
  unfold viewOf at hv
  split at hv
  · simp at hv
  · next g hg =>
    split at hv
    · simp at hv
    · next x xs hx =>
      split at hv
      · simp at hv
      · next hi =>
        simp only [Bool.or_eq_true, Bool.not_eq_true', not_or, Bool.not_eq_true, Bool.not_eq_false] at hi
        obtain ⟨hi, hd⟩ := hi
        have hr : x.cond = .ready := by
          have := hi
          simp only [groupIssues, hx, Bool.and_eq_true, Group.mayIssue, Split.ready, beq_iff_eq] at this
          exact this.2.1.1
        simp only [Option.some.injEq] at hv
        subst hv
        refine ⟨rfl, hg, ⟨x, ?_, hr, rfl⟩, fun L hL => ?_, rfl, rfl, hi, hd⟩
        · simp [hx]
        · simp only [Lanes.get_ofFn, Bool.and_eq_true] at hL
          exact hL.1.1

theorem Sees.allFree {w : Work} {words : Nat} {v : View} (hs : Sees w words v) (hn : v.noneHeld) :
    ∀ x ∈ v.grp.splits, ∀ j, x.cond ≠ .held j := by
  obtain ⟨x, hx, hr, -⟩ := hs.split
  intro y hy j
  cases hsp : v.grp.splits with
  | nil => simp [hsp] at hx
  | cons a l =>
    simp only [hsp, List.head?_cons, Option.some.injEq] at hx
    rw [hsp] at hy
    rcases List.mem_cons.1 hy with rfl | hy
    · subst hx; rw [hr]; simp
    · exact hn y (by simpa [hsp] using hy) j

/-! ## The issue -/

/-- An instruction that issues and whose body completes: the machine with that effect, retired. -/
theorem issueWork_ok {s : State} {h : Hdr} {words : Nat} {need : View → Need} {body : View → Work → Done} {v : View} {w : Work}
    {c : Ctl} (hi : Issues s h words (need v) v) (hb : body v ((Work.start s).issued v (need v)) = .ok w c) :
    issueWork s.neg h words need body (Work.start s) = retire w h v c := by
  have hf := hi.free
  unfold issueWork
  rw [hi.seen]
  simp only [hf, hb]

theorem issue_ok {s : State} {h : Hdr} {need : View → Need} {body : View → Work → Done} {v : View} {w : Work} {c : Ctl}
    (hi : Issues s h h.words (need v) v) (hb : body v ((Work.start s).issued v (need v)) = .ok w c) :
    issue s h need body = .next (s.finish (retire w h v c)) :=
  congrArg (fun w => Host.Outcome.next (s.finish w)) (issueWork_ok hi hb)

/-- The group of an instruction that has issued. -/
def View.counted (s : State) (v : View) (n : Need) : Group :=
  (if v.grp.partDone then v.grp else (v.grp.countIssue v n).owe (mogulDebt s.pk v)).tookTurn v.pc

theorem issued_pk {s : State} {words : Nat} {v : View} (hs : Sees (Work.start s) words v) (n : Need) :
    ((Work.start s).issued v n).pk = { s.pk with groups := s.pk.groups.insert v.g (v.counted s n) } := by
  have := FMap.adjust_of_find
    (fun g => (if g.partDone then g else (g.countIssue v n).owe (mogulDebt s.pk v)).tookTurn v.pc) hs.grp
  exact congrArg (fun gs => ({ s.pk with groups := gs } : Package)) this

/-- The group that an instruction leaves, from the group with its effect; a save that a safe point starts must fit. -/
def Group.retired (g : Group) (fits : Bool) (h : Hdr) (v : View) (c : Ctl) : Group := (g.settleRing h v c).safePoint fits h

theorem Group.running_of_rest {g g' : Group} (h : g'.rest = g.rest) : g'.running = g.running := by
  apply Group.running_congr
  intro L
  have := congrArg (fun x : Group => (x.lanes.get L).st) h
  simpa [Group.rest, Lane.rest, Group.lane] using this

/-- Retiring an instruction changes its own group and no other part of the package. -/
theorem retire_pk {w : Work} {h : Hdr} {v : View} {c : Ctl} {g : Group} (hg : w.pk.groups.find? v.g = some g)
    (hr : c.ret = false) (hl : g.running.any = true) :
    ∃ fits, retire w h v c = { w with pk := { w.pk with groups := w.pk.groups.insert v.g (g.retired fits h v c) } } := by
  have h1 : (w.updGroup v.g fun g => g.settleRing h v c).pk =
      { w.pk with groups := w.pk.groups.insert v.g (g.settleRing h v c) } := by
    simp [FMap.adjust_of_find _ hg]
  have hb : ∀ w' : Work, w'.onBlock v.grp.blk (fun b w => if c.ret = true ∧ b.lead = some v.g then resumeBlockOp w v.grp.blk else w) = w' := by
    intro w'
    unfold Work.onBlock
    split
    · simp [hr]
    · rfl
  have hrun : (g.settleRing h v c).running.any = true := by
    rw [Group.running_of_rest (Group.rest_settleRing g h v c hr)]; exact hl
  unfold retire
  simp only
  rw [hb]
  unfold Work.onGroup Work.group?
  rw [h1]
  simp only [FMap.find?_insert_self, hrun, Bool.not_true, Bool.false_eq_true, if_false]
  refine ⟨h.sp.isSome && saveFits (w.updGroup v.g fun g => g.settleRing h v c) v.g (g.settleRing h v c) h.sp, ?_⟩
  simp [Work.updGroup, Work.mapPk, hg, FMap.adjust, Group.retired]

/-- An instruction whose body completes with an effect on the machine: only its own group is retired on top of it. -/
theorem issue_effect {s : State} {h : Hdr} {need : View → Need} {body : View → Work → Done} {v : View} {w : Work} {c : Ctl}
    {g : Group} (hi : Issues s h h.words (need v) v) (hb : body v ((Work.start s).issued v (need v)) = .ok w c)
    (hg : w.pk.groups.find? v.g = some g) (hr : c.ret = false) (hl : g.running.any = true) :
    ∃ fits, issue s h need body =
      .next (s.finish { w with pk := { w.pk with groups := w.pk.groups.insert v.g (g.retired fits h v c) } }) := by
  obtain ⟨fits, e⟩ := retire_pk (h := h) hg hr hl
  exact ⟨fits, by rw [issue_ok hi hb, e]⟩

/-- An instruction whose effect F is confined to its group. -/
theorem issue_group {s : State} {h : Hdr} {need : View → Need} {body : View → Work → Done} {v : View} {F : Group → Group}
    {c : Ctl} (hi : Issues s h h.words (need v) v) (hr : c.ret = false)
    (hF : (F (v.counted s (need v))).running.any = true)
    (hb : ∀ w, w.pk = ((Work.start s).issued v (need v)).pk → body v w = .ok (w.updGroup v.g F) c) :
    ∃ fits, issue s h need body = .next (s.withGroup v.g ((F (v.counted s (need v))).retired fits h v c)) := by
  have hs := viewOf_seen hi.seen
  rw [issue_ok hi (hb _ rfl)]
  have hpk := issued_pk hs (need v)
  have hg : (((Work.start s).issued v (need v)).updGroup v.g F).pk.groups.find? v.g = some (F (v.counted s (need v))) := by
    simp [hpk, FMap.adjust]
  obtain ⟨fits, e⟩ := retire_pk (h := h) hg hr hF
  refine ⟨fits, ?_⟩
  rw [e]
  have hwr : ((Work.start s).issued v (need v)).wr = [] := rfl
  simp only [State.finish, Work.updGroup_wr, hwr, List.reverse_nil, Mem.writes_nil, Work.updGroup_pk, hpk, State.withGroup]
  simp [FMap.adjust]

/-- A fault that the instruction's own entry raises, before it has issued. -/
theorem issue_trap {s : State} {h : Hdr} {need : View → Need} {body : View → Work → Done} {v : View} {code : Code} {lanes : Mask}
    {addr info : Nat} (hi : Issues s h h.words (need v) v)
    (hb : body v ((Work.start s).issued v (need v)) = .trap code lanes addr info) :
    issue s h need body = .next (s.run fun w => raiseFault (w.readsStore v (need v)) v.g v.pc code lanes addr info) := by
  have hf := hi.free
  have key : issueWork s.neg h h.words need body (Work.start s) =
      raiseFault ((Work.start s).readsStore v (need v)) v.g v.pc code lanes addr info := by
    unfold issueWork
    rw [hi.seen]
    simp only [hf, hb]
  exact congrArg (fun w => Host.Outcome.next (s.finish w)) key

/-- A wait of the instruction's own entry, after which it issues afresh. -/
theorem issue_wait {s : State} {h : Hdr} {need : View → Need} {body : View → Work → Done} {v : View} {k : Wait}
    (hi : Issues s h h.words (need v) v) (hb : body v ((Work.start s).issued v (need v)) = .wait k) :
    issue s h need body = .next (s.withGroup v.g (v.grp.blockCurrent k)) := by
  have hf := hi.free
  have hs := viewOf_seen hi.seen
  have key : issueWork s.neg h h.words need body (Work.start s) = (Work.start s).updGroup v.g fun g => g.blockCurrent k := by
    unfold issueWork
    rw [hi.seen]
    simp only [hf, hb]
  have : issue s h need body = .next (s.finish ((Work.start s).updGroup v.g fun g => g.blockCurrent k)) :=
    congrArg (fun w => Host.Outcome.next (s.finish w)) key
  rw [this]
  have e : FMap.adjust s.pk.groups v.g (fun g => g.blockCurrent k) = s.pk.groups.insert v.g (v.grp.blockCurrent k) :=
    FMap.adjust_of_find _ hs.grp
  simp only [State.finish, Work.updGroup_wr, Work.start_wr, List.reverse_nil, Mem.writes_nil, Work.updGroup_pk, Work.start_pk, e,
    State.withGroup]

end Sys2Proof.Machine
end

