-- ==== Sys2Proof/Laws/Effects.lean ====
section
/-!
SUPPORT. The effects that instructions share, each with its frame: vector registers, scalar registers, predicates and flags
written at issue.
-/
namespace Sys2Proof.Machine

/-! ## Writes of vector registers -/

theorem Group.reg_congr {g g' : Group} (h : g.regs = g'.regs) (r : Nat) : g.reg r = g'.reg r := by
  unfold Group.reg
  rw [h]

theorem Group.reg_setReg (g : Group) (r j : Nat) (x : VReg) : (g.setReg r x).reg j = if j = r then x else g.reg j :=
  FMap.getD_put ..

/-- One register written in the lanes of a mask. -/
theorem Group.reg_writeReg (g : Group) (r j : Nat) (t : Bool) (m : Mask) (v : Lanes W32) :
    (g.writeReg r t m v).reg j =
      if j = r then (if t then { g.reg r with mark := Mask.union (g.reg r).mark m } else (g.reg r).write m v) else g.reg j := by
  unfold Group.writeReg
  cases t
  · simp [Group.reg_setReg]
  · simp only [if_true]
    split <;> exact Group.reg_setReg ..

theorem Group.stay_writeReg (g : Group) (r : Nat) (t : Bool) (m : Mask) (v : Lanes W32) :
    (g.writeReg r t m v).rest = g.rest ∧ (g.writeReg r t m v).places = g.places ∧ (g.writeReg r t m v).splits = g.splits ∧
      (g.writeReg r t m v).stat = g.stat ∧ (g.writeReg r t m v).saveReq = g.saveReq := by
  unfold Group.writeReg
  cases t
  · exact ⟨rfl, rfl, rfl, rfl, rfl⟩
  · simp only [if_true]
    split <;> exact ⟨rfl, rfl, rfl, rfl, rfl⟩

/-- A fold of register writes keeps everything but the registers. -/
theorem Group.stay_writeVal (g : Group) (r n : Nat) (t : Bool) (m : Mask) (v : Lanes Nat) :
    (g.writeVal r n t m v).rest = g.rest ∧ (g.writeVal r n t m v).places = g.places ∧
      (g.writeVal r n t m v).splits = g.splits ∧ (g.writeVal r n t m v).stat = g.stat ∧
      (g.writeVal r n t m v).saveReq = g.saveReq := by
  unfold Group.writeVal
  induction List.range n generalizing g with
  | nil => exact ⟨rfl, rfl, rfl, rfl, rfl⟩
  | cons k l ih =>
    obtain ⟨h1, h2, h3, h4, h5⟩ := ih (g.writeReg (r + k) t m (v.map fun x => BitVec.ofNat 32 (x / 2 ^ (32 * k))))
    obtain ⟨i1, i2, i3, i4, i5⟩ := g.stay_writeReg (r + k) t m (v.map fun x => BitVec.ofNat 32 (x / 2 ^ (32 * k)))
    exact ⟨h1.trans i1, h2.trans i2, h3.trans i3, h4.trans i4, h5.trans i5⟩

theorem Group.reg_writeVal (g : Group) (r n j : Nat) (t : Bool) (m : Mask) (v : Lanes Nat) :
    (g.writeVal r n t m v).reg j =
      if r ≤ j ∧ j < r + n then
        if t then { g.reg j with mark := Mask.union (g.reg j).mark m } else (g.reg j).write m (v.map fun x => wordOf x (j - r))
      else g.reg j := by
  unfold Group.writeVal
  induction n with
  | zero =>
    have : ¬(r ≤ j ∧ j < r + 0) := by omega
    rw [if_neg this]
    rfl
  | succ n ih =>
    rw [List.range_succ, List.foldl_append, List.foldl_cons, List.foldl_nil, Group.reg_writeReg]
    by_cases hj : j = r + n
    · subst hj
      have h1 : ¬(r ≤ r + n ∧ r + n < r + n) := by omega
      have h2 : r ≤ r + n ∧ r + n < r + (n + 1) := by omega
      rw [if_pos rfl, ih, if_neg h1, if_pos h2]
      simp [wordOf]
    · rw [if_neg hj, ih]
      by_cases hr : r ≤ j ∧ j < r + n
      · have : r ≤ j ∧ j < r + (n + 1) := by omega
        rw [if_pos hr, if_pos this]
      · have : ¬(r ≤ j ∧ j < r + (n + 1)) := by omega
        rw [if_neg hr, if_neg this]

/-- What a write of a value to n registers leaves in every register and lane. -/
theorem Group.wrote_writeVal (g : Group) (d n : Nat) (t : Bool) (m : Mask) (f : Fin 8 → Nat) :
    WroteRegs g (g.writeVal d n t m (Lanes.ofFn f)) d n t m f := by
  intro r L
  simp only [Group.reg_writeVal]
  by_cases hr : d ≤ r ∧ r < d + n
  · rw [if_pos hr]
    cases hm : m.get L <;> cases t <;> simp [hr, hm, VReg.write]
  · rw [if_neg hr]
    have : ¬(d ≤ r ∧ r < d + n ∧ m.get L = true) := fun h => hr ⟨h.1, h.2.1⟩
    rw [if_neg this]
    exact ⟨rfl, rfl, rfl, rfl⟩

/-! ## From the effect to the group that is left -/

theorem View.counted_stand (s : State) (v : View) (n : Need) : (v.counted s n).stand = v.grp.stand := by
  have h : ∀ g : Group, (g.tookTurn v.pc).stand = g.stand := fun _ => rfl
  rw [View.counted, h]
  split
  · rfl
  · rw [Group.stand_owe, Group.stand_countIssue]

theorem Group.count_places (g : Group) (n k : Nat) : (g.count n k).lanes = g.lanes ∧ (g.count n k).jmasks = g.jmasks ∧
    (g.count n k).splits = g.splits := by
  unfold Group.count
  split <;> exact ⟨rfl, rfl, rfl⟩

/-- The issue counts in the lanes' `issued` only. -/
theorem View.counted_places (s : State) (v : View) (n : Need) :
    (v.counted s n).splits = v.grp.splits ∧ (v.counted s n).jmasks = v.grp.jmasks ∧
      ∀ L, ((v.counted s n).lane L).pc = (v.grp.lane L).pc ∧ ((v.counted s n).lane L).mr = (v.grp.lane L).mr ∧
        ((v.counted s n).lane L).st = (v.grp.lane L).st := by
  have h : ∀ g : Group, (g.stepBypass.owe (mogulDebt s.pk v)).lanes = g.lanes ∧
      (g.stepBypass.owe (mogulDebt s.pk v)).jmasks = g.jmasks ∧ (g.stepBypass.owe (mogulDebt s.pk v)).splits = g.splits :=
    fun g => ⟨rfl, rfl, rfl⟩
  have t : ∀ g : Group, (g.tookTurn v.pc).splits = g.splits ∧ (g.tookTurn v.pc).jmasks = g.jmasks ∧
      ∀ L, (g.tookTurn v.pc).lane L = g.lane L := fun g => ⟨rfl, rfl, fun _ => rfl⟩
  unfold View.counted Group.countIssue
  simp only [(t _).1, (t _).2.1, (t _).2.2]
  split
  · exact ⟨rfl, rfl, fun _ => ⟨rfl, rfl, rfl⟩⟩
  refine ⟨?_, ?_, fun L => ?_⟩
  · rw [(h _).2.2, (Group.count_places ..).2.2, (Group.count_places ..).2.2]; rfl
  · rw [(h _).2.1, (Group.count_places ..).2.1, (Group.count_places ..).2.1]; rfl
  · have e : ∀ g : Group, g.lane L = g.lanes.get L := fun _ => rfl
    rw [e, (h _).1, (Group.count_places ..).1, (Group.count_places ..).1, ← e, Group.lane_updLanes]
    split <;> exact ⟨rfl, rfl, rfl⟩

/-- Where pieces send a lane, if one of them has it: the last that does. -/
def Ctl.sends (c : Ctl) (L : Fin 8) : Option PC :=
  c.pieces.foldl (fun p x => if x.lanes.get L then some x.pc else p) none

theorem foldl_gone (l : List Piece) (m : Mask) (L : Fin 8) :
    (l.foldl (fun m x => Mask.union m x.lanes) m).get L = (m.get L || l.any fun x => x.lanes.get L) := by
  induction l generalizing m with
  | nil => simp
  | cons x l ih => rw [List.foldl_cons, ih, List.any_cons, Mask.get_union, Bool.or_assoc]

theorem sends_isSome (l : List Piece) (L : Fin 8) (p : Option PC) :
    (l.foldl (fun p x => if x.lanes.get L then some x.pc else p) p).isSome = (p.isSome || l.any fun x => x.lanes.get L) := by
  induction l generalizing p with
  | nil => simp
  | cons x l ih =>
    rw [List.foldl_cons, ih, List.any_cons]
    cases x.lanes.get L <;> simp

theorem foldl_sends (l : List Piece) (L : Fin 8) (p : Option PC) (d : PC) :
    (l.foldl (fun p x => if x.lanes.get L then some x.pc else p) p).getD d =
      l.foldl (fun q x => if x.lanes.get L then x.pc else q) (p.getD d) := by
  induction l generalizing p with
  | nil => rfl
  | cons x l ih =>
    rw [List.foldl_cons, ih, List.foldl_cons]
    cases x.lanes.get L <;> rfl

theorem lane_foldPc (l : List Piece) (g : Group) (L : Fin 8) :
    let r := l.foldl (fun g x => (if x.cond.counts then g else g.clearWd x.lanes).setPc x.lanes x.pc) g
    (r.lane L).pc = l.foldl (fun q x => if x.lanes.get L then x.pc else q) (g.lane L).pc ∧ (r.lane L).mr = (g.lane L).mr ∧
      (r.lane L).st = (g.lane L).st ∧ r.jmasks = g.jmasks := by
  induction l generalizing g with
  | nil => exact ⟨rfl, rfl, rfl, rfl⟩
  | cons x l ih =>
    have h := ih ((if x.cond.counts then g else g.clearWd x.lanes).setPc x.lanes x.pc)
    have e : ((if x.cond.counts then g else g.clearWd x.lanes).lane L).pc = (g.lane L).pc ∧
        ((if x.cond.counts then g else g.clearWd x.lanes).lane L).mr = (g.lane L).mr ∧
        ((if x.cond.counts then g else g.clearWd x.lanes).lane L).st = (g.lane L).st ∧
        (if x.cond.counts then g else g.clearWd x.lanes).jmasks = g.jmasks := by
      split
      · exact ⟨rfl, rfl, rfl, rfl⟩
      · rw [Group.lane_clearWd]
        split <;> exact ⟨rfl, rfl, rfl, rfl⟩
    simp only [List.foldl_cons]
    refine ⟨?_, ?_, ?_, ?_⟩
    · rw [h.1, Group.lane_setPc]
      split
      · rfl
      · rw [e.1]
    · rw [h.2.1, Group.lane_setPc]
      split <;> exact e.2.1
    · rw [h.2.2.1, Group.lane_setPc]
      split <;> exact e.2.2.1
    · rw [h.2.2.2]; exact e.2.2.2

theorem filter_sends (r : Mask) (l : List Piece) (L : Fin 8) (d : PC) (hr : r.get L = true) :
    ((l.map fun x => ({ x with lanes := Mask.inter x.lanes r } : Piece)).filter fun x => x.lanes.any).foldl
      (fun q x => if x.lanes.get L then x.pc else q) d = l.foldl (fun q x => if x.lanes.get L then x.pc else q) d := by
  induction l generalizing d with
  | nil => rfl
  | cons x l ih =>
    simp only [List.map_cons, List.foldl_cons]
    by_cases hx : x.lanes.get L = true
    · have : (Mask.inter x.lanes r).any = true := (Mask.any_iff _).2 ⟨L, by simp [hx, hr]⟩
      simp only [List.filter_cons, this, if_true, List.foldl_cons]
      rw [ih]
      simp [hx, hr]
    · by_cases ha : (Mask.inter x.lanes r).any = true
      · simp only [List.filter_cons, ha, if_true, List.foldl_cons]
        rw [ih]
        simp [hx]
      · simp only [List.filter_cons, ha]
        rw [if_neg (by simp), ih]
        simp [hx]

theorem filter_none (r : Mask) (l : List Piece) (L : Fin 8) (d : PC) (hr : r.get L = false) :
    ((l.map fun x => ({ x with lanes := Mask.inter x.lanes r } : Piece)).filter fun x => x.lanes.any).foldl
      (fun q x => if x.lanes.get L then x.pc else q) d = d := by
  induction l generalizing d with
  | nil => rfl
  | cons x l ih =>
    simp only [List.map_cons]
    by_cases ha : (Mask.inter x.lanes r).any = true
    · simp only [List.filter_cons, ha, if_true, List.foldl_cons]
      rw [ih]
      simp [hr]
    · simp only [List.filter_cons, ha]
      rw [if_neg (by simp), ih]

/-- Where an instruction leaves each lane in the ring, before any release: a running lane of a piece at the piece's place, any
other running lane of the split at the next word, or at the instruction where it waits. -/
theorem Group.lane_placePieces {g : Group} {v : View} {c : Ctl} {y : Split} {ys : List Split} (hx : g.splits = y :: ys)
    (L : Fin 8) :
    ((g.placePieces v c).lane L).pc =
        (if g.running.get L then (c.sends L).getD (if v.m.get L then (if c.block.isSome then v.pc else v.next) else (g.lane L).pc)
          else (g.lane L).pc) ∧
      ((g.placePieces v c).lane L).mr = (g.lane L).mr ∧ ((g.placePieces v c).lane L).st = (g.lane L).st ∧
      (g.placePieces v c).jmasks = g.jmasks := by
  have main : ∀ (straight : Mask) (p : PC) (ps : List Piece) (b : Bool) (m : Mask),
      let h := ps.foldl (fun g x => (if x.cond.counts then g else g.clearWd x.lanes).setPc x.lanes x.pc) (g.setPc straight p)
      let k := if b then h else h.clearWd m
      (k.lane L).pc = ps.foldl (fun q x => if x.lanes.get L then x.pc else q) (if straight.get L then p else (g.lane L).pc) ∧
        (k.lane L).mr = (g.lane L).mr ∧ (k.lane L).st = (g.lane L).st ∧ k.jmasks = g.jmasks := by
    intro straight p ps b m
    obtain ⟨h1, h2, h3, h4⟩ := lane_foldPc ps (g.setPc straight p) L
    have e1 : ((g.setPc straight p).lane L).pc = if straight.get L then p else (g.lane L).pc := by
      rw [Group.lane_setPc]; split <;> rfl
    have e2 : ((g.setPc straight p).lane L).mr = (g.lane L).mr ∧ ((g.setPc straight p).lane L).st = (g.lane L).st := by
      rw [Group.lane_setPc]; split <;> exact ⟨rfl, rfl⟩
    rw [e1] at h1
    cases b
    · simp only [Bool.false_eq_true, if_false, Group.lane_clearWd]
      split <;> exact ⟨h1, h2.trans e2.1, h3.trans e2.2, h4⟩
    · exact ⟨h1, h2.trans e2.1, h3.trans e2.2, h4⟩
  have key : ∃ b : Bool, ∃ m : Mask, (g.placePieces v c).places =
      (let straight := Mask.inter (Mask.diff v.m (c.pieces.foldl (fun m x => Mask.union m x.lanes) Mask.none)) g.running
       let ps := (c.pieces.map fun x => ({ x with lanes := Mask.inter x.lanes g.running } : Piece)).filter fun x => x.lanes.any
       let h := ps.foldl (fun g x => (if x.cond.counts then g else g.clearWd x.lanes).setPc x.lanes x.pc)
         (g.setPc straight (if c.block.isSome then v.pc else v.next))
       (if b then h else h.clearWd m)).places := by
    unfold Group.placePieces
    simp only [hx]
    cases hb : c.block with
    | none => exact ⟨false, _, rfl⟩
    | some k =>
      cases hk : (SCond.blocked k).counts with
      | true => exact ⟨true, Mask.none, by simp only [hk]; rfl⟩
      | false => exact ⟨false, _, by simp only [hk]; rfl⟩
  obtain ⟨b, m, hp⟩ := key
  obtain ⟨hlane, hj⟩ := Group.places_eq hp
  rw [hlane L, hj]
  refine ⟨((main _ _ _ b m).1).trans ?_, (main _ _ _ b m).2⟩
  cases hr : g.running.get L with
  | false => rw [filter_none _ _ _ _ hr]; simp [hr]
  | true =>
    rw [filter_sends _ _ _ _ hr]
    simp only [Mask.get_inter, Mask.get_diff, foldl_gone, Mask.get_none, Bool.false_or, hr, Bool.and_true, if_true]
    unfold Ctl.sends
    have hs := sends_isSome c.pieces L none
    rw [foldl_sends]
    cases ha : c.pieces.any fun x => x.lanes.get L with
    | false => simp
    | true =>
      have : ∀ d d' : PC, c.pieces.foldl (fun q x => if x.lanes.get L then x.pc else q) d =
          c.pieces.foldl (fun q x => if x.lanes.get L then x.pc else q) d' := by
        intro d d'
        have h1 := foldl_sends c.pieces L none d
        have h2 := foldl_sends c.pieces L none d'
        rw [ha] at hs
        obtain ⟨z, hz⟩ := Option.isSome_iff_exists.1 hs
        rw [hz] at h1 h2
        exact h1.symm.trans h2
      exact this _ _

/-- Where retiring leaves the lanes of a group whose effect is done: those of pieces at their places, the others of the split
at the next word, or where it waits. -/
theorem retired_stands {s : State} {v : View} {h : Hdr} {words : Nat} {c : Ctl} {g : Group} {fits : Bool} (hs : Sees (Work.start s) words v)
    (hc : c.free) (hm : ∀ L, (c.sends L).isSome = true → v.m.get L = true) (hr : c.ret = false)
    (hsp : g.splits = v.grp.splits) (hl : ∀ L, (g.lane L).pc = (v.grp.lane L).pc ∧ (g.lane L).st = (v.grp.lane L).st)
    (hst : g.stat = v.grp.stat) (hq : g.saveReq = v.grp.saveReq) :
    StandsAt v h (g.retired fits h v c)
      (v.goTo fun L => (c.sends L).or (if c.block.isSome then some v.pc else none)) (fun L => (g.lane L).mr) g.jmasks := by
  have hrun : g.running = v.grp.running := Group.running_congr fun L => (hl L).2
  obtain ⟨x, hx, -, hxm⟩ := hs.split
  obtain ⟨y, ys, hys⟩ : ∃ y ys, g.splits = y :: ys := by
    rw [hsp]
    cases hvs : v.grp.splits with
    | nil => simp [hvs] at hx
    | cons y ys => exact ⟨y, ys, rfl⟩
  have key : v.noneHeld → (∀ L, (g.retired fits h v c).lane L = (g.placePieces v c).lane L) ∧
      (g.retired fits h v c).jmasks = (g.placePieces v c).jmasks := by
    intro hn
    refine Group.places_eq ?_
    have := Group.places_settleRing (g := g) (h := h) (v := v) hc hr (by rw [hsp]; exact hs.allFree hn)
    have e : (g.retired fits h v c).places = (g.settleRing h v c).places := by
      simp only [Group.places, Group.retired, Group.safePoint_lanes, Group.safePoint_jmasks]
    exact e.trans this
  have place := Group.lane_placePieces (v := v) (c := c) hys
  refine ⟨fun hn L => ?_, fun hn L => ?_, fun hn => ?_, fun h0 => ?_⟩
  · rw [(key hn).1, (place L).1, View.goTo, hrun]
    cases h1 : v.grp.running.get L <;> cases h2 : v.m.get L <;> cases h3 : c.sends L <;>
      simp [(hl L).1]
    · have := hm L (by rw [h3]; rfl)
      rw [h2] at this
      exact absurd this (by simp)
    · split <;> rfl
  · rw [(key hn).1, (place L).2.1]
  · rw [(key hn).2, (place 0).2.2.2]
  · rw [Group.retired, Group.safePoint_none _ _ h0, Group.settleRing_stat _ _ _ _ hr, Group.settleRing_saveReq _ _ _ _ hr]
    exact ⟨hst, hq⟩

/-- What retiring leaves of a group whose effect is done, for an instruction that goes straight on. -/
theorem retired_wentOn {s : State} {v : View} {h : Hdr} {words : Nat} {c : Ctl} {g : Group} {fits : Bool}
    (hs : Sees (Work.start s) words v) (hp : c.pieces = []) (hb : c.block = none) (hr : c.ret = false)
    (hsp : g.splits = v.grp.splits) (hj : g.jmasks = v.grp.jmasks)
    (hl : ∀ L, (g.lane L).pc = (v.grp.lane L).pc ∧ (g.lane L).mr = (v.grp.lane L).mr ∧ (g.lane L).st = (v.grp.lane L).st)
    (hst : g.stat = v.grp.stat) (hq : g.saveReq = v.grp.saveReq) : WentOn v h (g.retired fits h v c) := by
  have hz : ∀ L, c.sends L = none := fun L => by simp [Ctl.sends, hp]
  have := retired_stands (h := h) (c := c) (fits := fits) hs (fun x hx => by simp [hp] at hx) (fun L hL => by simp [hz] at hL) hr hsp
    (fun L => ⟨(hl L).1, (hl L).2.2⟩) hst hq
  have hmr : (fun L => (g.lane L).mr) = v.mrs := funext fun L => (hl L).2.1
  simpa [WentOn, WentTo, hz, hb, hj, hmr] using this

/-- An effect on a group that leaves its ring, its places and its save. -/
structure Local (F : Group → Group) : Prop where
  splits : ∀ g, (F g).splits = g.splits
  jmasks : ∀ g, (F g).jmasks = g.jmasks
  lanes : ∀ g L, ((F g).lane L).pc = (g.lane L).pc ∧ ((F g).lane L).mr = (g.lane L).mr ∧ ((F g).lane L).st = (g.lane L).st
  save : ∀ g, (F g).stat = g.stat ∧ (F g).saveReq = g.saveReq

/-- The group with an effect, retired: its registers and its rest are those of the effect, and its lanes went on. -/
theorem retired_local {s : State} {v : View} {h : Hdr} {c : Ctl} {F : Group → Group} {fits : Bool} (hF : Local F) (n : Need)
    (hs : Sees (Work.start s) h.words v) (hp : c.pieces = []) (hb : c.block = none) (hr : c.ret = false) :
    let g0 := v.counted s n
    let g' := (F g0).retired fits h v c
    g0.stand = v.grp.stand ∧ g'.regs = (F g0).regs ∧ g'.rest = (F g0).rest ∧ WentOn v h g' := by
  have hc := View.counted_stand s v n
  obtain ⟨-, -, c3, c4⟩ := Group.stand_eq.1 hc
  obtain ⟨cs, cj, cl⟩ := View.counted_places s v n
  refine ⟨hc, ?_, ?_, ?_⟩
  · rw [Group.retired, Group.safePoint_regs, Group.settleRing_regs _ _ _ _ hr]
  · rw [Group.retired, Group.rest_safePoint, Group.rest_settleRing _ _ _ _ hr]
  · refine retired_wentOn hs hp hb hr ((hF.splits _).trans cs) ((hF.jmasks _).trans cj) (fun L => ?_)
      ((hF.save _).1.trans c3) ((hF.save _).2.trans c4)
    obtain ⟨a1, a2, a3⟩ := hF.lanes (v.counted s n) L
    obtain ⟨b1, b2, b3⟩ := cl L
    exact ⟨a1.trans b1, a2.trans b2, a3.trans b3⟩

/-- An instruction that goes straight on with an effect confined to its group. -/
theorem issue_local {s : State} {h : Hdr} {need : View → Need} {body : View → Work → Done} {v : View} {F : Group → Group}
    {c : Ctl} (hF : Local F) (hi : Issues s h h.words (need v) v) (hp : c.pieces = []) (hb : c.block = none) (hr : c.ret = false)
    (hbody : ∀ w, w.pk = ((Work.start s).issued v (need v)).pk → body v w = .ok (w.updGroup v.g F) c) :
    ∃ g0 g', issue s h need body = .next (s.withGroup v.g g') ∧ g0.stand = v.grp.stand ∧ g'.regs = (F g0).regs ∧
      g'.rest = (F g0).rest ∧ WentOn v h g' := by
  have hs := viewOf_seen hi.seen
  have hrun : (F (v.counted s (need v))).running.any = true := by
    have h1 : (F (v.counted s (need v))).running = (v.counted s (need v)).running :=
      Group.running_congr fun L => (hF.lanes _ L).2.2
    rw [h1, Group.running_of_rest (congrArg (·.1) (View.counted_stand s v (need v)))]
    exact hi.lanes
  obtain ⟨fits, e⟩ := issue_group hi hr hrun hbody
  exact ⟨v.counted s (need v), _, e, retired_local (s := s) hF (need v) hs hp hb hr⟩

/-! ## The effects of a group -/

theorem local_writeVal (d n : Nat) (t : Bool) (m : Mask) (f : Lanes Nat) : Local fun g => g.writeVal d n t m f where
  splits g := (g.stay_writeVal d n t m f).2.2.1
  jmasks g := congrArg (·.2) (g.stay_writeVal d n t m f).2.1
  lanes g L := by
    rw [(Group.places_eq (g.stay_writeVal d n t m f).2.1).1 L]
    exact ⟨rfl, rfl, rfl⟩
  save g := (g.stay_writeVal d n t m f).2.2.2

/-- An instruction that only writes a value to vector registers. -/
theorem issue_writeV {s : State} {h : Hdr} {need : View → Need} {body : View → Work → Done} {v : View} {d : VDst} {n : Nat}
    {f : Fin 8 → Nat} (hi : Issues s h h.words (need v) v)
    (hb : ∀ w, w.pk = ((Work.start s).issued v (need v)).pk → body v w = done (w.writeV v d n f)) :
    ∃ g', issue s h need body = .next (s.withGroup v.g g') ∧ WroteRegs v.grp g' d.r.toNat n d.t v.act f ∧
      g'.rest = v.grp.rest ∧ WentOn v h g' := by
  obtain ⟨g0, g', h1, h2, h3, h4, h5⟩ := issue_local (local_writeVal ..) hi rfl rfl rfl hb
  refine ⟨g', h1, ?_, h4.trans ((g0.stay_writeVal ..).1.trans (congrArg (·.1) h2)), h5⟩
  intro r L
  have hw := g0.wrote_writeVal d.r.toNat n d.t v.act f r L
  rw [Group.reg_congr (Group.stand_eq.1 h2).2.1 r, ← Group.reg_congr h3 r] at hw
  exact hw

/-- An instruction that changes nothing of its group but where its lanes stand: lanes of pieces at their places, the others of
the split at the next word, or where it waits. -/
theorem issue_moved {s : State} {h : Hdr} {need : View → Need} {body : View → Work → Done} {v : View} {c : Ctl}
    (hi : Issues s h h.words (need v) v) (hc : c.free) (hm : ∀ L, (c.sends L).isSome = true → v.m.get L = true) (hr : c.ret = false)
    (hb : ∀ w, w.pk = ((Work.start s).issued v (need v)).pk → body v w = .ok w c) :
    ∃ g', issue s h need body = .next (s.withGroup v.g g') ∧ SameRegs v.grp g' ∧ g'.rest = v.grp.rest ∧
      WentTo v h g' (fun L => (c.sends L).or (if c.block.isSome then some v.pc else none)) := by
  have hs := viewOf_seen hi.seen
  obtain ⟨e1, e2, e3, e4⟩ := Group.stand_eq.1 (View.counted_stand s v (need v))
  obtain ⟨cs, cj, cl⟩ := View.counted_places s v (need v)
  have hrun : (v.counted s (need v)).running.any = true := by rw [Group.running_of_rest e1]; exact hi.lanes
  have hbody : ∀ w : Work, w.pk = ((Work.start s).issued v (need v)).pk → body v w = .ok (w.updGroup v.g fun g => g) c := by
    intro w hw
    have : FMap.adjust w.pk.groups v.g (fun g => g) = w.pk.groups := by
      rw [hw, issued_pk hs]; simp [FMap.adjust]
    rw [hb w hw]
    simp [Work.updGroup, Work.mapPk, this]
  obtain ⟨fits, e⟩ := issue_group (F := fun g => g) hi hr hrun hbody
  refine ⟨_, e, fun r => Group.reg_congr ?_ r, ?_, ?_⟩
  · rw [Group.retired, Group.safePoint_regs, Group.settleRing_regs _ _ _ _ hr]; exact e2
  · rw [Group.retired, Group.rest_safePoint, Group.rest_settleRing _ _ _ _ hr]; exact e1
  · have := retired_stands (h := h) (c := c) (fits := fits) hs hc hm hr cs (fun L => ⟨(cl L).1, (cl L).2.2⟩) e3 e4
    have hmr : (fun L => ((v.counted s (need v)).lane L).mr) = v.mrs := funext fun L => (cl L).2.1
    simpa [WentTo, hmr, cj] using this

/-! ## Scalars, predicates and flags -/

/-- An effect that the rest of a group determines. -/
structure OnRest (F : Group → Group) : Prop where
  rest : ∀ g g', g.rest = g'.rest → (F g).rest = (F g').rest
  regs : ∀ g, (F g).regs = g.regs

theorem Group.rest_setSreg (g : Group) (r : Nat) (x : W64) : (g.setSreg r x).rest = g.rest.setSreg r x := rfl
theorem Group.rest_orFlags (g : Group) (f : Flags) : (g.orFlags f).rest = g.rest.orFlags f := rfl

theorem Lane.rest_setP (l : Lane) (n : Nat) (b : Bool) : (l.setP n b).rest = l.rest.setP n b := by
  unfold Lane.setP
  split <;> rfl

theorem Lane.setP_place (l : Lane) (n : Nat) (b : Bool) :
    (l.setP n b).pc = l.pc ∧ (l.setP n b).mr = l.mr ∧ (l.setP n b).st = l.st := by
  unfold Lane.setP
  split <;> exact ⟨rfl, rfl, rfl⟩

theorem Group.lane_setPred (g : Group) (n : Nat) (m x : Mask) (L : Fin 8) :
    (g.setPred n m x).lane L = if m.get L then (g.lane L).setP n (x.get L) else g.lane L := by
  simp only [Group.setPred, Group.lane_updLanes]

theorem Group.rest_lanes (g : Group) (L : Fin 8) : g.rest.lane L = (g.lane L).rest := by
  simp [Group.rest, Group.lane]

theorem local_setSreg (r : Nat) (x : W64) : Local fun g => g.setSreg r x :=
  ⟨fun _ => rfl, fun _ => rfl, fun _ _ => ⟨rfl, rfl, rfl⟩, fun _ => ⟨rfl, rfl⟩⟩

theorem local_orFlags (f : Flags) : Local fun g => g.orFlags f :=
  ⟨fun _ => rfl, fun _ => rfl, fun _ _ => ⟨rfl, rfl, rfl⟩, fun _ => ⟨rfl, rfl⟩⟩

theorem local_setPred (n : Nat) (m x : Mask) : Local fun g => g.setPred n m x :=
  ⟨fun _ => rfl, fun _ => rfl, fun g L => by
    rw [Group.lane_setPred]
    split
    · exact Lane.setP_place ..
    · exact ⟨rfl, rfl, rfl⟩, fun _ => ⟨rfl, rfl⟩⟩

theorem Local.comp {F G : Group → Group} (hF : Local F) (hG : Local G) : Local fun g => G (F g) where
  splits g := (hG.splits _).trans (hF.splits g)
  jmasks g := (hG.jmasks _).trans (hF.jmasks g)
  lanes g L :=
    ⟨(hG.lanes _ L).1.trans (hF.lanes g L).1, (hG.lanes _ L).2.1.trans (hF.lanes g L).2.1,
      (hG.lanes _ L).2.2.trans (hF.lanes g L).2.2⟩
  save g := ⟨(hG.save _).1.trans (hF.save g).1, (hG.save _).2.trans (hF.save g).2⟩

theorem onRest_setSreg (r : Nat) (x : W64) : OnRest fun g => g.setSreg r x :=
  ⟨fun g g' h => by rw [Group.rest_setSreg, Group.rest_setSreg, h], fun _ => rfl⟩

theorem onRest_orFlags (f : Flags) : OnRest fun g => g.orFlags f :=
  ⟨fun g g' h => by rw [Group.rest_orFlags, Group.rest_orFlags, h], fun _ => rfl⟩

/-- The rest of a group is decided by the lanes' rests, handler mode and the other fields. -/
theorem Group.rest_eq_setLanes {g : Group} {ls : Lanes Lane} (hst : ∀ L, (ls.get L).st = (g.lane L).st) :
    ({ g with lanes := ls } : Group).rest = { g.rest with lanes := ls.map Lane.rest } := by
  have hr : ({ g with lanes := ls } : Group).running = g.running := Group.running_congr hst
  simp [Group.rest, Group.keptHandler, hr]

theorem onRest_setPred (n : Nat) (m x : Mask) : OnRest fun g => g.setPred n m x := by
  refine ⟨fun g g' h => ?_, fun _ => rfl⟩
  have key : ∀ g : Group, (g.setPred n m x).rest = { g.rest with lanes := (g.rest.setPred n m x).lanes } := by
    intro g
    have hl : ∀ L, ((g.setPred n m x).lanes.get L).st = (g.lane L).st := fun L => ((local_setPred n m x).lanes g L).2.2
    have h1 := Group.rest_eq_setLanes hl
    have h2 : (g.setPred n m x).lanes.map Lane.rest = (g.rest.setPred n m x).lanes := by
      apply Lanes.ext_get
      intro L
      rw [Lanes.get_map]
      change ((g.setPred n m x).lane L).rest = (g.rest.setPred n m x).lane L
      rw [Group.lane_setPred, Group.lane_setPred, Group.rest_lanes]
      split
      · exact Lane.rest_setP ..
      · rfl
    rw [← h2]
    exact h1
  rw [key, key, h]

theorem OnRest.comp {F G : Group → Group} (hF : OnRest F) (hG : OnRest G) : OnRest fun g => G (F g) where
  rest g g' h := hG.rest _ _ (hF.rest g g' h)
  regs g := (hG.regs _).trans (hF.regs g)

/-- An instruction that goes straight on and writes no vector register. -/
theorem issue_onRest {s : State} {h : Hdr} {need : View → Need} {body : View → Work → Done} {v : View} {F : Group → Group}
    {c : Ctl} (hF : Local F) (hR : OnRest F) (hi : Issues s h h.words (need v) v) (hp : c.pieces = []) (hb : c.block = none)
    (hr : c.ret = false) (hbody : ∀ w, w.pk = ((Work.start s).issued v (need v)).pk → body v w = .ok (w.updGroup v.g F) c) :
    ∃ g', issue s h need body = .next (s.withGroup v.g g') ∧ SameRegs v.grp g' ∧ g'.rest = (F v.grp).rest ∧ WentOn v h g' := by
  obtain ⟨g0, g', h1, h2, h3, h4, h5⟩ := issue_local hF hi hp hb hr hbody
  obtain ⟨e1, e2, -, -⟩ := Group.stand_eq.1 h2
  exact ⟨g', h1, fun r => Group.reg_congr (h3.trans ((hR.regs g0).trans e2)) r, h4.trans (hR.rest _ _ e1), h5⟩

/-- An instruction that goes straight on, writes a value to vector registers, and changes other state of its group. -/
theorem issue_writeV_onRest {s : State} {h : Hdr} {need : View → Need} {body : View → Work → Done} {v : View} {d n : Nat} {t : Bool}
    {f : Fin 8 → Nat} {F : Group → Group} {c : Ctl} (hF : Local F) (hR : OnRest F) (hi : Issues s h h.words (need v) v)
    (hp : c.pieces = []) (hb : c.block = none) (hr : c.ret = false)
    (hbody : ∀ w, w.pk = ((Work.start s).issued v (need v)).pk →
      body v w = .ok (w.updGroup v.g fun g => F (g.writeVal d n t v.act (Lanes.ofFn f))) c) :
    ∃ g', issue s h need body = .next (s.withGroup v.g g') ∧ WroteRegs v.grp g' d n t v.act f ∧
      g'.rest = (F v.grp).rest ∧ WentOn v h g' := by
  obtain ⟨g0, g', h1, h2, h3, h4, h5⟩ := issue_local ((local_writeVal d n t v.act (Lanes.ofFn f)).comp hF) hi hp hb hr hbody
  obtain ⟨e1, e2, -, -⟩ := Group.stand_eq.1 h2
  refine ⟨g', h1, fun r L => ?_, h4.trans (hR.rest _ _ ((g0.stay_writeVal ..).1.trans e1)), h5⟩
  have hw := g0.wrote_writeVal d n t v.act f r L
  rw [Group.reg_congr e2 r, ← Group.reg_congr (h3.trans (hR.regs _)) r] at hw
  exact hw

/-! ## Working copies -/

@[simp] theorem FMap.adjust_adjust {α : Type} (m : FMap α) (k : Nat) (f g : α → α) :
    (m.adjust k f).adjust k g = m.adjust k fun x => g (f x) := by
  unfold FMap.adjust
  cases h : FMap.find? m k with
  | none => simp [h]
  | some v => simp

theorem Work.updGroup_updGroup (w : Work) (gi : Nat) (F G : Group → Group) :
    (w.updGroup gi F).updGroup gi G = w.updGroup gi fun g => G (F g) := by
  simp [Work.updGroup, Work.mapPk]

/-- A value written with its flags. -/
theorem Work.writeV_flag (w : Work) (v : View) (d : VDst) (n : Nat) (f : Fin 8 → Nat) (e : Fin 8 → Flags) :
    (w.writeV v d n f).flag v e = w.updGroup v.g fun g => (g.writeVal d.r.toNat n d.t v.act (Lanes.ofFn f)).orFlags (laneFlags v.act e) :=
  Work.updGroup_updGroup ..

theorem Work.writeV_writeP (w : Work) (v : View) (d : VDst) (n : Nat) (f : Fin 8 → Nat) (p : BitVec 3) (e : Fin 8 → Bool) :
    (w.writeV v d n f).writeP v p e =
      w.updGroup v.g fun g => (g.writeVal d.r.toNat n d.t v.act (Lanes.ofFn f)).setPred p.toNat v.act (Lanes.ofFn e) :=
  Work.updGroup_updGroup ..

theorem Work.writeP_flag (w : Work) (v : View) (p : BitVec 3) (f : Fin 8 → Bool) (e : Fin 8 → Flags) :
    (w.writeP v p f).flag v e = w.updGroup v.g fun g => (g.setPred p.toNat v.act (Lanes.ofFn f)).orFlags (laneFlags v.act e) :=
  Work.updGroup_updGroup ..

/-- An instruction that goes straight on and changes nothing. -/
theorem issue_nothing {s : State} {h : Hdr} {need : View → Need} {body : View → Work → Done} {v : View} {c : Ctl}
    (hi : Issues s h h.words (need v) v) (hp : c.pieces = []) (hb : c.block = none) (hr : c.ret = false)
    (hbody : ∀ w, w.pk = ((Work.start s).issued v (need v)).pk → body v w = .ok w c) :
    ∃ g', issue s h need body = .next (s.withGroup v.g g') ∧ SameRegs v.grp g' ∧ g'.rest = v.grp.rest ∧ WentOn v h g' := by
  have hs := viewOf_seen hi.seen
  refine issue_onRest (F := fun g => g) ⟨fun _ => rfl, fun _ => rfl, fun _ _ => ⟨rfl, rfl, rfl⟩, fun _ => ⟨rfl, rfl⟩⟩
    ⟨fun _ _ h => h, fun _ => rfl⟩ hi hp hb hr fun w hw => ?_
  rw [hbody w hw]
  have : FMap.adjust w.pk.groups v.g (fun g => g) = w.pk.groups := by
    rw [hw, issued_pk hs]
    simp [FMap.adjust]
  simp [Work.updGroup, Work.mapPk, this]

end Sys2Proof.Machine
end

