-- ==== Sys2Proof/Tests/Slice0.lean ====
section
/-!
SUPPORT. Tests: words that the encoding tables give, terms that are refused as ill formed, single instructions on small states,
and witnesses for the hypotheses of the statements.
-/
namespace Sys2Proof.Tests
open Machine

set_option Elab.async false

/-! ## Words of every instruction, from the encoding tables of the manual (R49, R60 and the table of each class) -/

/-- Class 0: integer. -/
def words0 : List (Nat × Instr) := [
  (0x001E0302_80E00200_00000000, .iadd ⟨plainHdr, .i32, false, ⟨515, false⟩, ⟨10, false⟩, .reg ⟨14, false⟩⟩),
  (0x005C0602_A0700700_00000000, .isub ⟨plainHdr, .n64, false, ⟨6, false⟩, ⟨10, false⟩, .reg ⟨519, false⟩⟩),
  (0x009C0602_00E00500_00000000, .imul ⟨plainHdr, .n16, false, ⟨6, false⟩, ⟨8, false⟩, .reg ⟨14, false⟩⟩),
  (0x00DC0481_60700100_00000000, .imulh ⟨plainHdr, .i16, false, ⟨4, false⟩, ⟨517, false⟩, .reg ⟨519, false⟩⟩),
  (0x011C0602_A0700300_00000001, .imad ⟨plainHdr, .i64, false, ⟨6, false⟩, ⟨10, false⟩, ⟨519, false⟩, ⟨1, false⟩⟩),
  (0x015C0600_C0C00300_00000000, .idiv ⟨plainHdr, .i64, false, ⟨6, false⟩, ⟨3, false⟩, .reg ⟨12, false⟩⟩),
  (0x019E0300_C0E00200_00000000, .irem ⟨plainHdr, .i32, false, ⟨515, false⟩, ⟨3, false⟩, .reg ⟨14, false⟩⟩),
  (0x01DC0402_80C00500_00000000, .imin ⟨plainHdr, .n16, false, ⟨4, false⟩, ⟨10, false⟩, .reg ⟨12, false⟩⟩),
  (0x021E0302_80C00600_00000000, .imax ⟨plainHdr, .n32, false, ⟨515, false⟩, ⟨10, false⟩, .reg ⟨12, false⟩⟩),
  (0x025E0302_00000300_00000000, .iabs ⟨plainHdr, .i64, false, ⟨515, false⟩, ⟨8, false⟩⟩),
  (0x029C0481_40E00400_00000000, .and ⟨plainHdr, .n8, false, ⟨4, false⟩, ⟨517, false⟩, .reg ⟨14, false⟩⟩),
  (0x02DE0302_80C00400_00000000, .or ⟨plainHdr, .n8, false, ⟨515, false⟩, ⟨10, false⟩, .reg ⟨12, false⟩⟩),
  (0x031E0302_20700100_00000000, .xor ⟨plainHdr, .i16, false, ⟨515, false⟩, ⟨8, false⟩, .reg ⟨519, false⟩⟩),
  (0x035E0302_80000400_00000000, .not ⟨plainHdr, .n8, false, ⟨515, false⟩, ⟨10, false⟩⟩),
  (0x039C0681_40C00200_00000000, .shl ⟨plainHdr, .i32, false, ⟨6, false⟩, ⟨517, false⟩, .reg ⟨12, false⟩⟩),
  (0x03DC0402_00C00100_00000000, .shr ⟨plainHdr, .i16, false, ⟨4, false⟩, ⟨8, false⟩, .reg ⟨12, false⟩⟩),
  (0x041C0400_E0700300_00000000, .sar ⟨plainHdr, .i64, false, ⟨4, false⟩, ⟨3, false⟩, .reg ⟨519, false⟩⟩),
  (0x045C0602_80000400_00000000, .popc ⟨plainHdr, .n8, false, ⟨6, false⟩, ⟨10, false⟩⟩),
  (0x049C0402_80000100_00000000, .clz ⟨plainHdr, .i16, false, ⟨4, false⟩, ⟨10, false⟩⟩),
  (0x04DE0381_40000200_00000000, .brev ⟨plainHdr, .i32, false, ⟨515, false⟩, ⟨517, false⟩⟩),
  (0x051E0300_E0700200_00000000, .bfx ⟨plainHdr, .i32, false, ⟨515, false⟩, ⟨3, false⟩, .reg ⟨519, false⟩⟩),
  (0x055C0402_A0700100_00000080, .bfi ⟨plainHdr, .i16, false, ⟨4, false⟩, ⟨10, false⟩, ⟨519, false⟩, ⟨128, false⟩⟩),
  (0x059C0402_20700100_00000003, .lea ⟨plainHdr, .i16, false, ⟨4, false⟩, ⟨8, false⟩, ⟨519, false⟩, 3⟩),
  (0x05DC0002_80C00500_00000000, .icmp ⟨plainHdr, .n16, .eq, 0, ⟨10, false⟩, .reg ⟨12, false⟩⟩),
  (0x061C0602_00E00300_00000000, .sel ⟨plainHdr, .i64, 0, ⟨6, false⟩, ⟨8, false⟩, .reg ⟨14, false⟩⟩),
  (0x065C0402_80000100_00000000, .mov ⟨plainHdr, .i16, false, ⟨4, false⟩, ⟨10, false⟩⟩),
  (0x069C0400_00004600_00000012, .movi ⟨plainHdr, .n32, ⟨4, false⟩, 18⟩),
  (0x06DC0681_40000380_00000000, .cvti ⟨plainHdr, .i64, .i8, true, ⟨6, false⟩, ⟨517, false⟩⟩),
  (0x071C0402_00E00200_00000012, .rng ⟨plainHdr, ⟨4, false⟩, ⟨8, false⟩, 14, 18⟩)]

theorem test_decode_class0 : ∀ x ∈ words0, decodeTableWord 192 x.1 = some x.2 := by decide +kernel

/-- Class 1: float. -/
def words1 : List (Nat × Instr) := [
  (0x101C0600_E070005A_00000000, .fadd ⟨plainHdr, .f32, .rup, ⟨true, true, false, true, false⟩, ⟨6, false⟩, ⟨3, false⟩,
    .reg ⟨519, false⟩⟩),
  (0x105E0300_E0700040_00000000, .fsub ⟨plainHdr, .f32, .rup, ⟨false, false, false, false, false⟩, ⟨515, false⟩, ⟨3,
    false⟩, .reg ⟨519, false⟩⟩),
  (0x109E0302_20700133_00000000, .fmul ⟨plainHdr, .f16, .rtz, ⟨true, false, false, true, true⟩, ⟨515, false⟩, ⟨8, false⟩,
    .reg ⟨519, false⟩⟩),
  (0x10DC0481_40E00004_00000003, .ffma ⟨plainHdr, .f32, .rne, ⟨false, false, true, false, false⟩, ⟨4, false⟩, ⟨517, false⟩,
    ⟨14, false⟩, ⟨3, false⟩⟩),
  (0x111E0302_A0700400_00000000, .fmin ⟨plainHdr, .bf16x2, .rne, ⟨false, false, false, false, false⟩, ⟨515, false⟩, ⟨10,
    false⟩, .reg ⟨519, false⟩⟩),
  (0x115C0400_E0700200_00000000, .fmax ⟨plainHdr, .bf16, .rne, ⟨false, false, false, false, false⟩, ⟨4, false⟩, ⟨3, false⟩,
    .reg ⟨519, false⟩⟩),
  (0x119C0681_40000300_00000000, .fabs ⟨plainHdr, .f16x2, .rne, ⟨false, false, false, false, false⟩, ⟨6, false⟩, ⟨517, false⟩⟩),
  (0x11DE0381_40000200_00000000, .fneg ⟨plainHdr, .bf16, .rne, ⟨false, false, false, false, false⟩, ⟨515, false⟩, ⟨517, false⟩⟩),
  (0x121C0602_80E00008_00000000, .fcmp ⟨plainHdr, .f32, .eq, ⟨false, true, false, false, false⟩, 6, ⟨10, false⟩, .reg ⟨14,
    false⟩⟩),
  (0x125C0400_C0000100_00000000, .fclass ⟨plainHdr, .f16, .rne, ⟨false, false, false, false, false⟩, ⟨4, false⟩, ⟨3, false⟩⟩),
  (0x129C0400_C0000004_00000000, .frcp ⟨plainHdr, .f32, .rne, ⟨false, false, true, false, false⟩, ⟨4, false⟩, ⟨3, false⟩⟩),
  (0x12DC0402_00000260_00000000, .frsq ⟨plainHdr, .bf16, .rdn, ⟨false, false, false, false, false⟩, ⟨4, false⟩, ⟨8, false⟩⟩),
  (0x131C0402_00000400_00000000, .fsqrt ⟨plainHdr, .bf16x2, .rne, ⟨false, false, false, false, false⟩, ⟨4, false⟩, ⟨8, false⟩⟩),
  (0x135C0402_80E00300_00000000, .fdiv ⟨plainHdr, .f16x2, .rne, ⟨false, false, false, false, false⟩, ⟨4, false⟩, ⟨10,
    false⟩, .reg ⟨14, false⟩⟩),
  (0x139C0400_C0000340_00000000, .fexp2 ⟨plainHdr, .f16x2, .rup, ⟨false, false, false, false, false⟩, ⟨4, false⟩, ⟨3, false⟩⟩),
  (0x13DE0302_00000004_00000000, .flog2 ⟨plainHdr, .f32, .rne, ⟨false, false, true, false, false⟩, ⟨515, false⟩, ⟨8, false⟩⟩),
  (0x141E0300_C0000004_00000000, .ftanh ⟨plainHdr, .f32, .rne, ⟨false, false, true, false, false⟩, ⟨515, false⟩, ⟨3, false⟩⟩),
  (0x145C0400_E0700200_00000000, .fscl ⟨plainHdr, .bf16, .rne, ⟨false, false, false, false, false⟩, ⟨4, false⟩, ⟨3, false⟩,
    .reg ⟨519, false⟩⟩),
  (0x149C0681_40000300_00000000, .frnd ⟨plainHdr, .f16x2, .rne, ⟨false, false, false, false, false⟩, ⟨6, false⟩, ⟨517, false⟩⟩),
  (0x14DC0602_00000080_00000001, .cvtf ⟨plainHdr, .f32, .f16, .rna, ⟨false, false, false, false, false⟩, ⟨6, false⟩, ⟨8,
    false⟩⟩),
  (0x151E0302_00000040_00000002, .cvtif ⟨plainHdr, .f32, .i32, .rup, ⟨false, false, false, false, false⟩, ⟨515, false⟩, ⟨8,
    false⟩⟩),
  (0x155E0302_80000100_00000002, .cvtfi ⟨plainHdr, .f16, .i32, .rne, ⟨false, false, false, false, false⟩, ⟨515, false⟩,
    ⟨10, false⟩⟩)]

theorem test_decode_class1 : ∀ x ∈ words1, decodeTableWord 192 x.1 = some x.2 := by decide +kernel

/-- Class 2: narrow. -/
def words2 : List (Nat × Instr) := [
  (0x201C0600_C0000200_00000000, .scenc ⟨plainHdr, .e4m3, .rne, ⟨6, false⟩, ⟨3, false⟩⟩),
  (0x205C0481_40000000_00000000, .scdec ⟨plainHdr, ⟨4, false⟩, ⟨517, false⟩⟩),
  (0x209C0481_40000000_00000000, .blkhd ⟨plainHdr, ⟨4, false⟩, ⟨517, false⟩⟩),
  (0x20DE0300_C0C00200_00000000, .blkmk ⟨plainHdr, .e4m3, ⟨515, false⟩, ⟨3, false⟩, .v 12 false⟩),
  (0x211C0400_E0700100_00000000, .qnt ⟨plainHdr, .w3, .rne, ⟨4, false⟩, ⟨3, false⟩, .reg ⟨519, false⟩⟩),
  (0x215C0602_A0700500_00000000, .dqnt ⟨plainHdr, .f16, .rne, ⟨6, false⟩, ⟨10, false⟩, .reg ⟨519, false⟩⟩),
  (0x219C0600_C0000040_00000000, .amax ⟨plainHdr, .rup, ⟨6, false⟩, ⟨3, false⟩⟩)]

theorem test_decode_class2 : ∀ x ∈ words2, decodeTableWord 192 x.1 = some x.2 := by decide +kernel

/-- Class 3: lanes. -/
def words3 : List (Nat × Instr) := [
  (0x301C0400_C0000400_00000000, .qswh ⟨plainHdr, .int (.n8), 0, ⟨4, false⟩, ⟨3, false⟩, none⟩),
  (0x305C0402_80000200_00000000, .qswv ⟨plainHdr, .int (.i32), 0, ⟨4, false⟩, ⟨10, false⟩, none⟩),
  (0x309C0600_C0000008_00000000, .qswd ⟨plainHdr, .int (.i8), 4, ⟨6, false⟩, ⟨3, false⟩, none⟩),
  (0x30DC0600_C0004700_00000003, .qbc ⟨plainHdr, .int (.n64), 0, ⟨6, false⟩, ⟨3, false⟩, some (.imm 3)⟩),
  (0x311C0681_40C00500_00000000, .shfl ⟨plainHdr, .int (.n16), 0, ⟨6, false⟩, ⟨517, false⟩, some (.reg ⟨12, false⟩)⟩),
  (0x315C0602_80C00004_00000000, .shflx ⟨plainHdr, .int (.i8), 2, ⟨6, false⟩, ⟨10, false⟩, some (.reg ⟨12, false⟩)⟩),
  (0x319E0381_60700900_00000000, .shfld ⟨plainHdr, .f16, 0, ⟨515, false⟩, ⟨517, false⟩, some (.reg ⟨519, false⟩)⟩),
  (0x31DC0402_80004100_00000001, .gbc ⟨plainHdr, .int (.i16), 0, ⟨4, false⟩, ⟨10, false⟩, some (.imm 1)⟩),
  (0x321C0400_C0000200_00000000, .ballot ⟨plainHdr, ⟨4, false⟩, 3⟩),
  (0x325C0600_C0000200_00000000, .vany ⟨plainHdr, 6, 3⟩),
  (0x329C0600_C0000200_00000000, .vall ⟨plainHdr, 6, 3⟩),
  (0x32DC0681_40000100_00000000, .gred ⟨plainHdr, .int (.i16), .add, false, ⟨6, false⟩, ⟨517, false⟩⟩),
  (0x331C0602_00000800_00000001, .gscan ⟨plainHdr, .f32, .add, true, ⟨6, false⟩, ⟨8, false⟩⟩),
  (0x335C0602_00000500_00000000, .vmatch ⟨plainHdr, .int (.n16), ⟨6, false⟩, ⟨8, false⟩⟩),
  (0x339C0000_00000200_00000000, .elect ⟨plainHdr, 0⟩),
  (0x33DC0400_00000200_00000000, .helper ⟨plainHdr, 4⟩),
  (0x341E0300_00000200_00000000, .actm ⟨plainHdr, ⟨515, false⟩⟩),
  (0x345C0600_C0000600_00000000, .unif ⟨plainHdr, .int (.n32), 6, ⟨3, false⟩⟩)]

theorem test_decode_class3 : ∀ x ∈ words3, decodeTableWord 192 x.1 = some x.2 := by decide +kernel

/-- Class 4: scalar. -/
def words4 : List (Nat × Instr) := [
  (0x401C0400_C0C00700_00000000, .sadd ⟨plainHdr, .n64, false, 4, 3, .reg 12⟩),
  (0x405C0602_00C00400_00000000, .ssub ⟨plainHdr, .n8, false, 6, 8, .reg 12⟩),
  (0x409C0600_C0C00080_00000000, .smul ⟨plainHdr, .i8, true, 6, 3, .reg 12⟩),
  (0x40DC0600_C0E00100_00000000, .sand ⟨plainHdr, .i16, false, 6, 3, .reg 14⟩),
  (0x411C0402_00E00400_00000000, .sor ⟨plainHdr, .n8, false, 4, 8, .reg 14⟩),
  (0x415C0600_C0E00100_00000000, .sxor ⟨plainHdr, .i16, false, 6, 3, .reg 14⟩),
  (0x419C0602_80E00500_00000000, .sshl ⟨plainHdr, .n16, false, 6, 10, .reg 14⟩),
  (0x41DC0602_80E00300_00000000, .sshr ⟨plainHdr, .i64, false, 6, 10, .reg 14⟩),
  (0x421C0002_00E00200_00000000, .scmp ⟨plainHdr, .i32, .eq, 0, 8, .reg 14⟩),
  (0x425C0402_00000100_00000000, .smov ⟨plainHdr, .i16, false, 4, 8⟩),
  (0x429C0600_00004200_00000002, .smovi ⟨plainHdr, .i32, 6, 2⟩),
  (0x42DC0602_80000200_00000000, .rds ⟨plainHdr, .v 6 false, 10⟩),
  (0x431C0400_20700400_01000010, .sld ⟨plainHdr, .n8, 4, 7, 16⟩),
  (0x435C0000_20700300_01000000, .sst ⟨plainHdr, .i64, 0, 7, 0⟩),
  (0x439C0600_C0C00400_00000000, .smin ⟨plainHdr, .n8, false, 6, 3, .reg 12⟩),
  (0x43DC0400_C0E00300_00000000, .smax ⟨plainHdr, .i64, false, 4, 3, .reg 14⟩),
  (0x441C0600_C0000700_00000000, .sabs ⟨plainHdr, .n64, false, 6, 3⟩),
  (0x445C0600_C0000680_00000000, .sneg ⟨plainHdr, .n32, true, 6, 3⟩),
  (0x449C0602_00000200_00000000, .snot ⟨plainHdr, .i32, false, 6, 8⟩),
  (0x44DC0402_80C00300_00000000, .ssar ⟨plainHdr, .i64, false, 4, 10, .reg 12⟩),
  (0x451C0402_00000400_00000000, .spopc ⟨plainHdr, .n8, false, 4, 8⟩),
  (0x455C0402_80000300_00000000, .sclz ⟨plainHdr, .i64, false, 4, 10⟩),
  (0x459C0400_C0000100_00000000, .sbrev ⟨plainHdr, .i16, false, 4, 3⟩),
  (0x45DC0602_00E00700_00000000, .smulh ⟨plainHdr, .n64, false, 6, 8, .reg 14⟩)]

theorem test_decode_class4 : ∀ x ∈ words4, decodeTableWord 192 x.1 = some x.2 := by decide +kernel

/-- Class 5: control. -/
def words5 : List (Nat × Instr) := [
  (0x501C0000_00000000_00000080, .bra ⟨plainHdr, 128⟩),
  (0x505C0002_80000000_00000000, .brx ⟨plainHdr, ⟨10, false⟩⟩),
  (0x509C0600_00000000_00201000, .call ⟨plainHdr, ⟨6, false⟩, 0x00201000⟩),
  (0x50DC0000_C0000000_00000000, .ret ⟨plainHdr, ⟨3, false⟩⟩),
  (word2 0x511C0000_00000012_00000004 0xFF800000_00000000_00050040, .switch ⟨plainHdr, ⟨0, false⟩, 4, 1, 2, ⟨1, 5, 0, 0, 0,
    0, 0, 0⟩⟩),
  (0x515C0000_00000100_00201000, .join ⟨plainHdr, 1, 0x00201000⟩),
  (0x519C0000_00000700_00000000, .waitj ⟨plainHdr, 7⟩),
  (0x51DC0400_00000C00_00000000, .jrd ⟨plainHdr, 12, 4⟩),
  (0x521C0002_00000600_00000000, .jwr ⟨plainHdr, 6, 8⟩),
  (0x525C0000_00000000_00000000, .yield ⟨plainHdr⟩),
  (0x529C0000_00000000_00000000, .exit ⟨plainHdr⟩),
  (0x52DC0081_40000000_00000000, .sleep ⟨plainHdr, .s 5⟩),
  (0x531C0000_00000000_00000000, .brk ⟨plainHdr⟩),
  (0x535C0000_00004000_0000000C, .trap ⟨plainHdr, 12⟩),
  (0x539C0000_00000000_00000000, .nop ⟨plainHdr⟩)]

theorem test_decode_class5 : ∀ x ∈ words5, decodeTableWord 192 x.1 = some x.2 := by decide +kernel

/-- Class 6: memory. -/
def words6 : List (Nat × Instr) := [
  (0x601E0302_A0700200_0000000C, .ld ⟨plainHdr, 2, .grp, .plain, .w1, ⟨515, false⟩, ⟨.s 7, some ⟨10, false⟩, 12⟩, 0⟩),
  (0x605C0400_E0700100_00000002, .st ⟨plainHdr, 1, .grp, .plain, .w1, ⟨4, false⟩, ⟨.s 7, some ⟨3, false⟩, 2⟩, 0⟩),
  (0x609E0300_C0E00020_00000002, .ldl ⟨plainHdr, 0, .core, .plain, .w1, ⟨515, false⟩, ⟨.v 14 false, some ⟨3, false⟩, 2⟩, 0⟩),
  (0x60DE0381_40E00660_00000080, .stl ⟨plainHdr, 6, .pkg, .plain, .w1, ⟨515, false⟩, ⟨.v 14 false, some ⟨517, false⟩, 128⟩, 0⟩),
  (0x611C0602_80C00200_00001203, .ldp ⟨plainHdr, 2, .grp, .plain, .w1, ⟨6, false⟩, ⟨.v 12 false, some ⟨10, false⟩, 4611⟩, 0⟩),
  (0x615C0681_60700100_00000002, .stp ⟨plainHdr, 1, .grp, .plain, .w1, ⟨6, false⟩, ⟨.s 7, some ⟨517, false⟩, 2⟩, 0⟩),
  (0x619E0302_80E00004_00001203, .ldw ⟨plainHdr, 0, .grp, .plain, .w16, ⟨515, false⟩, ⟨.v 14 false, some ⟨10, false⟩, 4611⟩, 0⟩),
  (0x61DC0000_C0E00002_00001203, .prf ⟨plainHdr, 0, .grp, 0, ⟨.v 14 false, some ⟨3, false⟩, 4611⟩, 0⟩),
  (0x621C0602_80E00FB3_00000002, .stord ⟨plainHdr, 15, .sys, .rel, .w8, ⟨6, false⟩, ⟨.v 14 false, some ⟨10, false⟩, 2⟩, 0⟩),
  (0x625E0302_80C00085_00000003, .outq ⟨plainHdr, 0, .pod, .plain, .w32, ⟨515, false⟩, ⟨.v 12 false, some ⟨10, false⟩, 3⟩, 0⟩),
  (0x629C0481_40E00182_00001203, .pin ⟨plainHdr, 1, .pod, 4, ⟨.v 14 false, some ⟨517, false⟩, 4611⟩, 0⟩),
  (0x62DC0000_C0C00062_00000012, .unpin ⟨plainHdr, 0, .pkg, 0, ⟨.v 12 false, some ⟨3, false⟩, 18⟩, 0⟩)]

theorem test_decode_class6 : ∀ x ∈ words6, decodeTableWord 192 x.1 = some x.2 := by decide +kernel

/-- Class 7: atomics. -/
def words7 : List (Nat × Instr) := [
  (0x701E0300_C0C00062_00201000, .aadd ⟨plainHdr, 0, .pkg, .plain, false, .i32, ⟨515, false⟩, ⟨.v 12 false, some ⟨3,
    false⟩, 0x201000⟩, 0⟩),
  (0x705E0381_607007B2_00000002, .amin ⟨plainHdr, 7, .sys, .rel, false, .i32, ⟨515, false⟩, ⟨.s 7, some ⟨517, false⟩, 2⟩, 0⟩),
  (0x709E0300_E07000B2_00000080, .amaxAtomic ⟨plainHdr, 0, .sys, .rel, false, .i32, ⟨515, false⟩, ⟨.s 7, some ⟨3, false⟩,
    128⟩, 0⟩),
  (0x70DC0402_A0700002_0000040C, .aand ⟨plainHdr, 0, .grp, .plain, false, .i32, ⟨4, false⟩, ⟨.s 7, some ⟨10, false⟩, 1036⟩, 0⟩),
  (0x711C0400_E0700002_00001203, .aor ⟨plainHdr, 0, .grp, .plain, false, .i32, ⟨4, false⟩, ⟨.s 7, some ⟨3, false⟩, 4611⟩, 0⟩),
  (0x715C0402_20700002_00000012, .axor ⟨plainHdr, 0, .grp, .plain, false, .i32, ⟨4, false⟩, ⟨.s 7, some ⟨8, false⟩, 18⟩, 0⟩),
  (0x719E0300_C0C00032_00001203, .axch ⟨plainHdr, 0, .core, .rel, false, .i32, ⟨515, false⟩, ⟨.v 12 false, some ⟨3, false⟩,
    4611⟩, 0⟩),
  (0x71DC0402_80C00002_00000002, .acas ⟨plainHdr, 0, .grp, .plain, false, .i32, ⟨4, false⟩, ⟨.v 12 false, some ⟨10, false⟩,
    2⟩, 0⟩),
  (0x721C0402_00C007BA_04000008, .ainc ⟨plainHdr, 7, .sys, .acqrel, false, .n32, ⟨4, false⟩, ⟨.v 12 false, some ⟨8, false⟩,
    8⟩, 0⟩),
  (0x725C0600_C0E00022_00000001, .ared ⟨plainHdr, 0, .core, .plain, false, .i32, ⟨6, false⟩, ⟨.v 14 false, some ⟨3, false⟩,
    1⟩, 0⟩),
  (0x729E0381_40C00002_00000000, .refinc ⟨plainHdr, 0, .grp, .plain, 515, .v 12 false, ⟨517, false⟩, 0⟩),
  (0x72DC0402_A0700002_00000000, .refdec ⟨plainHdr, 0, .grp, .plain, 4, .s 7, ⟨10, false⟩, 0⟩)]

theorem test_decode_class7 : ∀ x ∈ words7, decodeTableWord 192 x.1 = some x.2 := by decide +kernel

/-- Class 8: handles. -/
def words8 : List (Nat × Instr) := [
  (0x801C0000_00000008_00000000, .fence ⟨plainHdr, .pod⟩),
  (0x805C0000_00000D40_00000000, .hfork ⟨plainHdr, 13, 4⟩),
  (0x809C0000_00000E00_00000000, .hjoin ⟨plainHdr, .grp, 14, 0⟩),
  (0x80DC0600_00000200_00000000, .hexp ⟨plainHdr, .grp, .v 6 false, 2⟩),
  (0x811C0081_40000100_00000000, .himp ⟨plainHdr, 1, .s 5⟩),
  (0x815C0000_00000B00_00000000, .hwait ⟨plainHdr, .grp, 11⟩),
  (0x819C0000_00004000_00000003, .bar ⟨plainHdr, 3⟩),
  (0x81DC0600_00004000_00000002, .bara ⟨plainHdr, 2, 6⟩),
  (0x821C0002_80004000_00000002, .barw ⟨plainHdr, 2, 10⟩),
  (0x825C0000_00000000_00000000, .gbar ⟨plainHdr⟩),
  (0x829C0000_00000000_00000000, .aflush ⟨plainHdr⟩),
  (0x82DC0002_00000100_00000000, .frec ⟨plainHdr, 1, .v 8 false⟩)]

theorem test_decode_class8 : ∀ x ∈ words8, decodeTableWord 192 x.1 = some x.2 := by decide +kernel

/-- Class 9: engines. -/
def words9 : List (Nat × Instr) := [
  (0x901E0302_80000400_00000000, .cpyk ⟨plainHdr, 4, .grp, 515, ⟨10, false⟩⟩),
  (0x905C0400_C0C00000_00000000, .arrx ⟨plainHdr, 4, .v 3 false, .reg 12⟩),
  (0x909C0600_C0C00001_00000000, .bwait ⟨plainHdr, 0, .v 3 false, .reg 12, some (.v 6 false)⟩),
  (0x90DC0002_00004B80_00000001, .chain ⟨plainHdr, 11, .pod, .v 8 false, 1⟩),
  (0x911C0400_00004000_00000001, .chst ⟨plainHdr, 4, 1⟩),
  (0x915C0002_80000900_00000000, .pub ⟨plainHdr, 9, .v 10 false⟩)]

theorem test_decode_class9 : ∀ x ∈ words9, decodeTableWord 192 x.1 = some x.2 := by decide +kernel

/-- Class 10: matrices. -/
def words10 : List (Nat × Instr) := [
  (0xA01C0000_C0000080_00000001, .mxld ⟨plainHdr, 8, 0, .v 3 false, true⟩),
  (0xA05C0002_80000200_00000000, .mxkv ⟨plainHdr, 5, .v 10 false⟩),
  (0xA09C0402_80000100_00000012, .mxmul ⟨plainHdr, 4, .mem (.v 10 false), 16, .a8, 0, 2, .bf16⟩),
  (0xA0DC0400_00000000_00000000, .mxz ⟨plainHdr, 4⟩),
  (0xA11C0600_C0000000_00000080, .mxrd ⟨plainHdr, 6, 3, 128, 0, .f32⟩),
  (0xA15C0681_40000000_00000080, .mxwr ⟨plainHdr, 6, ⟨517, false⟩, 128, 0⟩),
  (0xA19C0081_40000010_0000040C, .mxsv ⟨plainHdr, 1, 0, .s 5, 1036⟩),
  (0xA1DC0002_80000580_00000003, .mxrs ⟨plainHdr, 88, 0, .v 10 false, 3⟩),
  (0xA21C0400_00000000_00000000, .mxq ⟨plainHdr, 4⟩)]

theorem test_decode_class10 : ∀ x ∈ words10, decodeTableWord 192 x.1 = some x.2 := by decide +kernel

/-- Class 11: launches and items. -/
def words11 : List (Nat × Instr) := [
  (0xB01C0002_80000200_00000000, .launch ⟨plainHdr, 2, .v 10 false⟩),
  (0xB05C0002_00C00100_00000000, .lwait ⟨plainHdr, 1, .v 8 false, .reg 12⟩),
  (0xB09C0000_C0000040_00000000, .relabel ⟨plainHdr, .o, ⟨3, false⟩⟩),
  (0xB0DC0600_00000000_00000000, .itemid ⟨plainHdr, 6⟩),
  (0xB11C0000_00000000_00000000, .idone ⟨plainHdr⟩),
  (0xB15C0602_00C00B00_0000000C, .ienq ⟨plainHdr, 11, ⟨6, false⟩, ⟨.v 12 false, some ⟨8, false⟩, 12⟩⟩),
  (0xB19C0000_00000000_00000000, .tkt ⟨plainHdr⟩),
  (0xB1DC0000_00000000_00000000, .tkrel ⟨plainHdr⟩)]

theorem test_decode_class11 : ∀ x ∈ words11, decodeTableWord 192 x.1 = some x.2 := by decide +kernel

/-- Class 12: registers. -/
def words12 : List (Nat × Instr) := [
  (0xC01C0000_00004001_0000000C, .xacq ⟨plainHdr, some 0, 12⟩),
  (0xC05C0000_00004000_00000003, .xrel ⟨plainHdr, 3⟩),
  (0xC09C0400_00000000_00000000, .fset ⟨plainHdr, 4⟩),
  (0xC0DE0300_00000000_00000000, .fclr ⟨plainHdr, 515⟩),
  (0xC11E0300_C0000000_00000000, .ftake ⟨plainHdr, ⟨515, false⟩, ⟨3, false⟩⟩),
  (0xC15C0600_C0000000_00000000, .ftest ⟨plainHdr, 6, 3⟩)]

theorem test_decode_class12 : ∀ x ∈ words12, decodeTableWord 192 x.1 = some x.2 := by decide +kernel

/-- Class 13: ferry. -/
def words13 : List (Nat × Instr) := [
  (0xD01C0400_00000000_00000000, .nacq ⟨plainHdr, 4⟩),
  (0xD05C0000_00000000_00000000, .nrel ⟨plainHdr⟩),
  (0xD09C0400_C0000000_00000000, .nlook ⟨plainHdr, 4, 3⟩),
  (0xD0DC0602_80C00F00_00000000, .fry ⟨plainHdr, 15, 6, .v 10 false, ⟨12, false⟩⟩),
  (0xD11C0600_00000000_00000000, .frys ⟨plainHdr, 6⟩)]

theorem test_decode_class13 : ∀ x ∈ words13, decodeTableWord 192 x.1 = some x.2 := by decide +kernel

/-- Class 14: counters and system. -/
def words14 : List (Nat × Instr) := [
  (0xE01E0300_00000000_00000000, .rdcc ⟨plainHdr, .s 3⟩),
  (0xE05C0600_00004000_00000002, .pmrd ⟨plainHdr, 2, 6⟩),
  (0xE09C0000_00004000_00000002, .trmk ⟨plainHdr, 2⟩),
  (0xE0DC0400_00000020_00000000, .sysrd ⟨plainHdr, 32, 4⟩),
  (0xE11C0002_00000020_00000000, .syswr ⟨plainHdr, 32, 8⟩),
  (0xE15C0002_80000000_00000000, .tlbinv ⟨plainHdr, 10⟩),
  (0xE19C0400_00000000_00000000, .halt ⟨plainHdr, 4⟩)]

theorem test_decode_class14 : ∀ x ∈ words14, decodeTableWord 192 x.1 = some x.2 := by decide +kernel

/-- Class 15: collectives. -/
def words15 : List (Nat × Instr) := [
  (0xF01C0000_C0000200_00000000, .coll ⟨plainHdr, 2, .allred, .v 3 false⟩),
  (0xF05C0002_00000600_00000000, .collw ⟨plainHdr, 6, .v 8 false⟩),
  (0xF09C0600_C0C00400_01000010, .mcst ⟨plainHdr, 4, 3, .v 12 false, 16, ⟨6, false⟩⟩)]

theorem test_decode_class15 : ∀ x ∈ words15, decodeTableWord 192 x.1 = some x.2 := by decide +kernel


/-! ## Ill-formed terms, one for each check of `wf` -/

/-- A guard on p7 negated. -/
def badHdr : Hdr := ⟨true, 7, 0, none⟩
def noOpt : FOpt := ⟨false, false, false, false, false⟩
def v0 : VSrc := ⟨0, false⟩
def d0 : VDst := ⟨0, false⟩
def s0Ref : MemRef := ⟨.s 0, none, 0⟩

theorem test_wf_guard : wf (.nop ⟨badHdr⟩) = false ∧ wf (.iadd ⟨badHdr, .i32, false, d0, v0, .imm 1⟩) = false := by decide

theorem test_wf_sat : wf (.imulh ⟨plainHdr, .i32, true, d0, v0, .imm 1⟩) = false ∧ wf (.not ⟨plainHdr, .i32, true, d0, v0⟩) = false ∧
    wf (.bfi ⟨plainHdr, .i32, true, d0, v0, v0, v0⟩) = false ∧ wf (.sand ⟨plainHdr, .i32, true, 0, 0, .imm 1⟩) = false ∧
    wf (.smov ⟨plainHdr, .i32, true, 0, 0⟩) = false := by decide

theorem test_wf_signed : wf (.sar ⟨plainHdr, .n32, false, d0, v0, .imm 1⟩) = false ∧
    wf (.ssar ⟨plainHdr, .n64, false, 0, 0, .imm 1⟩) = false := by decide

theorem test_wf_float_immediate : wf (.fadd ⟨plainHdr, .bf16, .rne, noOpt, d0, v0, .imm 0x10000⟩) = false := by decide

theorem test_wf_float_options : wf (.fmin ⟨plainHdr, .f32, .rtz, noOpt, d0, v0, .reg v0⟩) = false ∧
    wf (.fmax ⟨plainHdr, .f32, .rne, ⟨false, false, false, false, true⟩, d0, v0, .reg v0⟩) = false ∧
    wf (.fabs ⟨plainHdr, .f32, .rne, ⟨true, false, false, false, false⟩, d0, v0⟩) = false ∧
    wf (.fcmp ⟨plainHdr, .f16x2, .eq, noOpt, 0, v0, .reg v0⟩) = false ∧
    wf (.frcp ⟨plainHdr, .f32, .rne, ⟨false, true, false, false, false⟩, d0, v0⟩) = false ∧
    wf (.ftanh ⟨plainHdr, .f32, .rne, ⟨false, false, false, false, true⟩, d0, v0⟩) = false ∧
    wf (.fscl ⟨plainHdr, .f32, .rne, ⟨false, false, false, true, false⟩, d0, v0, .reg v0⟩) = false := by decide

theorem test_wf_conversions : wf (.cvtf ⟨plainHdr, .f32, .f32, .rne, noOpt, d0, v0⟩) = false ∧
    wf (.cvtf ⟨plainHdr, .f16x2, .f32, .rne, noOpt, d0, v0⟩) = false ∧
    wf (.cvtif ⟨plainHdr, .f16x2, .i32, .rne, noOpt, d0, v0⟩) = false ∧
    wf (.cvtfi ⟨plainHdr, .f32, .i32, .rne, ⟨false, false, false, false, true⟩, d0, v0⟩) = false := by decide

theorem test_wf_quantise : wf (.qnt ⟨plainHdr, .w4, .rne, d0, v0, .imm 256⟩) = false := by decide

theorem test_wf_exchanges : wf (.qswh ⟨plainHdr, .f32, 7, d0, v0, some (.imm 0)⟩) = false ∧
    wf (.qbc ⟨plainHdr, .f32, 7, d0, v0, some (.imm 4)⟩) = false ∧ wf (.gbc ⟨plainHdr, .f32, 7, d0, v0, some (.imm 8)⟩) = false ∧
    wf (.shfl ⟨plainHdr, .f32, 7, d0, v0, some (.imm 16)⟩) = false ∧ wf (.shfl ⟨plainHdr, .f32, 7, d0, v0, none⟩) = false := by
  decide

theorem test_wf_reductions : wf (.gred ⟨plainHdr, .f32, .and, false, d0, v0⟩) = false ∧
    wf (.gred ⟨plainHdr, .f32, .add, true, d0, v0⟩) = false := by decide

theorem test_wf_special_registers : wf (.rds ⟨plainHdr, .s 0, 0⟩) = false ∧ wf (.rds ⟨plainHdr, .v 0 false, 23⟩) = false := by decide

theorem test_wf_switch : wf (.switch ⟨plainHdr, v0, 4, 1, 0, ⟨1, 5, 0, 0, 0, 0, 0, 0⟩⟩) = false ∧
    wf (.switch ⟨plainHdr, v0, 4, 1, 2, ⟨5, 5, 0, 0, 0, 0, 0, 0⟩⟩) = false ∧
    wf (.switch ⟨plainHdr, v0, 4, 1, 2, ⟨1, 5, 1, 0, 0, 0, 0, 0⟩⟩) = false ∧
    wf (.switch ⟨⟨false, 7, 0, some ⟨false, false, false, false, 0, 0, 0, 0, 0⟩⟩, v0, 4, 1, 2, ⟨1, 5, 0, 0, 0, 0, 0, 0⟩⟩) = false := by
  decide

theorem test_wf_memory_orders : wf (.ld ⟨plainHdr, 0, .grp, .rel, .w4, v0, s0Ref, 0⟩) = false ∧
    wf (.st ⟨plainHdr, 0, .grp, .acq, .w4, v0, s0Ref, 0⟩) = false ∧
    wf (.ldp ⟨plainHdr, 0, .grp, .acq, .w4, v0, s0Ref, 0⟩) = false ∧
    wf (.ared ⟨plainHdr, 0, .grp, .acq, false, .n32, v0, s0Ref, 0⟩) = false := by decide

theorem test_wf_memory_forms : wf (.ld ⟨plainHdr, 0, .grp, .plain, .w4, ⟨0, true⟩, s0Ref, 0⟩) = false ∧
    wf (.ldl ⟨plainHdr, 0, .grp, .plain, .w4, v0, s0Ref, 1⟩) = false ∧
    wf (.ldp ⟨plainHdr, 0, .grp, .plain, .w32, v0, s0Ref, 0⟩) = false ∧
    wf (.ldw ⟨plainHdr, 0, .grp, .plain, .w2, v0, s0Ref, 0⟩) = false ∧
    wf (.outq ⟨plainHdr, 0, .grp, .plain, .w1, v0, s0Ref, 0⟩) = false ∧
    wf (.prf ⟨plainHdr, 0, .grp, 1, s0Ref, 0⟩) = false := by decide

theorem test_wf_atomics : wf (.aand ⟨plainHdr, 0, .grp, .plain, false, .f32, v0, s0Ref, 0⟩) = false ∧
    wf (.ainc ⟨plainHdr, 0, .grp, .plain, false, .i32, v0, s0Ref, 0⟩) = false := by decide

theorem test_wf_byte_barriers : wf (.arrx ⟨plainHdr, 0, .s 0, .imm 0x80000000⟩) = false ∧
    wf (.bwait ⟨plainHdr, 0, .s 0, .imm 0x80000000, none⟩) = false := by decide

theorem test_wf_matrices : wf (.mxld ⟨plainHdr, 0, 0, .s 0, false⟩) = false ∧
    wf (.mxmul ⟨plainHdr, 0, .mem (.s 0), 0xFF, .a8, 0, 15, .e4m3⟩) = false ∧
    wf (.mxmul ⟨plainHdr, 0, .mem (.s 0), 0, .a8, 0, 0, .e4m3⟩) = false ∧
    wf (.mxmul ⟨plainHdr, 0, .mem (.s 0), 1, .a8, 0, 0, .acc⟩) = false ∧
    wf (.mxmul ⟨plainHdr, 0, .region 1, 1, .a8, 0, 0, .bf16⟩) = false ∧
    wf (.mxmul ⟨plainHdr, 0, .region 1, 1, .a8, 0, 8, .acc⟩) = false ∧
    wf (.mxrd ⟨plainHdr, 0, 0, 4, 0, .f32⟩) = false ∧ wf (.mxwr ⟨plainHdr, 0, v0, 4088, 1⟩) = false ∧
    wf (.mxsv ⟨plainHdr, 0, 0, .s 0, 0⟩) = false := by decide

theorem test_wf_units_and_system : wf (.xacq ⟨plainHdr, none, 0⟩) = false ∧ wf (.xrel ⟨plainHdr, 0⟩) = false ∧
    wf (.sysrd ⟨plainHdr, 0x023, 0⟩) = false ∧ wf (.syswr ⟨plainHdr, 0x057, 0⟩) = false := by decide

/-- Why the decoder refuses a word. -/
def refusal (w : BitVec 96) : Option DecodeError :=
  match decode w 0 with
  | .ok _ => none
  | .error e => some e

/-- The decoder gives each refused word its reason: a mask word alone, op 29 of class 0, a negated p7, a `switch` with sp, one
without its case word, a safe point without its mask word, a bit of a field that `nop` does not use, and an unsigned `sar`. -/
theorem test_decode_refusals :
    refusal 0xFFC00000_00000000_00000001 = some .dataWord ∧ refusal 0x07400000_00000000_00000000 = some .unassigned ∧
    refusal 0x53BC0000_00000000_00000000 = some .guard ∧ refusal 0x511D0000_00010012_00000004 = some .safePointOnSwitch ∧
    refusal 0x511C0000_00000012_00000004 = some .caseWord ∧ refusal 0x539C0000_00010000_00000000 = some .maskWord ∧
    refusal 0x539C0001_00000000_00000000 = some .reservedBits ∧ refusal 0x041C0000_00004600_00000000 = some .limit := by
  decide +kernel

/-! ## One instruction on a small state -/

/-- The number of the group that `withFetchWord` places after reset. -/
def gi : Nat := 1

/-- An instruction's words as one number. -/
def wordsOf (i : Instr) : Nat :=
  match encode i with
  | some (w, a) => w.toNat + a.toNat * 2 ^ 96
  | none => 0

/-- An instruction stands where the next step fetches; the group and the package are changed by F and G. -/
def at_ (i : Instr) (F : Group → Group := id) (G : Package → Package := id) : State :=
  let s := State.reset.withFetchWord 192 (wordsOf i)
  let p := G { s.pk with groups := s.pk.groups.adjust gi F, cur := gi }
  { s with pk := p }

/-- The state after one step, or the state itself where the step stops. -/
def after (s : State) : State :=
  match step s with
  | .next t => t
  | _ => s

/-- The group after one step. -/
def group (s : State) : Option Group := (after s).pk.groups.find? gi

/-- Register r of lane L after one step. -/
def vOut (s : State) (r : Nat) (L : Fin 8) : Option W32 := (group s).map fun g => g.word r L

/-- All lanes of a vector register after one step. -/
def vOuts (s : State) (r : Nat) : Option (List W32) := (group s).map fun g => laneList.map (g.word r)

/-- Scalar register r after one step. -/
def sOut (s : State) (r : Nat) : Option W64 := (group s).map fun g => g.sreg r

/-- `fpst` after one step. -/
def flagsOut (s : State) : Option Flags := (group s).map Group.fpst

/-- Predicate n of the lanes after one step. -/
def pOut (s : State) (n : Nat) : Option Mask := (group s).map fun g => Lanes.ofFn fun L => (g.lane L).p n

/-- A vector register with a value in every lane, or one value for each. -/
def setV (r : Nat) (x : W32) (g : Group) : Group := g.setReg r { VReg.fresh with val := Lanes.ofFn fun _ => x }
def setVs (r : Nat) (xs : List W32) (g : Group) : Group :=
  g.setReg r { VReg.fresh with val := Lanes.ofFn fun L => xs.getD L.val 0 }
def setS (r : Nat) (x : W64) (g : Group) : Group := g.setSreg r x

/-- d := op(v1, v2) in i32 or another type, without saturation. -/
def bin (t : IType) (sat : Bool) : IBin := ⟨plainHdr, t, sat, ⟨4, false⟩, ⟨1, false⟩, .reg ⟨2, false⟩⟩
def args (x y : W32) (g : Group) : Group := setV 2 y (setV 1 x g)

/-- The table of R145: x, y, quotient and remainder. -/
theorem test_divisions_signed : vOut (at_ (.idiv (bin .i32 false)) (args 7 2)) 4 0 = some 3 ∧
    vOut (at_ (.irem (bin .i32 false)) (args (-7) 2)) 4 0 = some (-1) ∧
    vOut (at_ (.idiv (bin .i32 false)) (args 0x80000000 (-1))) 4 0 = some 0x80000000 ∧
    vOut (at_ (.irem (bin .i32 false)) (args 7 (-2))) 4 0 = some 1 := by decide +kernel

theorem test_division_by_zero : vOut (at_ (.idiv (bin .n32 false)) (args 5 0)) 4 3 = some 0xFFFFFFFF ∧
    vOut (at_ (.irem (bin .i32 false)) (args 5 0)) 4 0 = some 5 ∧
    vOut (at_ (.idiv (bin .i8 false)) (args 5 0)) 4 0 = some 0xFFFFFFFF ∧
    flagsOut (at_ (.idiv (bin .i32 false)) (args 5 0)) = some flIDIV0 := by decide +kernel

/-- The worked values under R149. -/
theorem test_integer_saturation : vOut (at_ (.imul (bin .n8 true)) (args 20 13)) 4 0 = some 255 ∧
    vOut (at_ (.shl (bin .i32 true)) (args 0x40000000 1)) 4 0 = some 0x7FFFFFFF ∧
    vOut (at_ (.iabs ⟨plainHdr, .i32, false, ⟨4, false⟩, ⟨1, false⟩⟩) (args 0x80000000 0)) 4 0 = some 0x80000000 ∧
    vOut (at_ (.iabs ⟨plainHdr, .i32, true, ⟨4, false⟩, ⟨1, false⟩⟩) (args 0x80000000 0)) 4 0 = some 0x7FFFFFFF := by decide +kernel

theorem test_integer_signs : vOut (at_ (.imulh (bin .i32 false)) (args 0x80000000 2)) 4 0 = some 0xFFFFFFFF ∧
    vOut (at_ (.imin (bin .n32 false)) (args 1 0xFFFFFFFF)) 4 0 = some 1 ∧
    vOut (at_ (.imin (bin .i32 false)) (args 1 0xFFFFFFFF)) 4 0 = some 0xFFFFFFFF ∧
    vOut (at_ (.isub (bin .i32 false)) (args 3 5)) 4 7 = some (-2) := by decide +kernel

/-- The worked draw of R150. -/
theorem test_rng : vOut (at_ (.rng ⟨plainHdr, ⟨3, false⟩, ⟨2, false⟩, 4, 0⟩) fun g => setS 4 0x100000000 (setV 2 1 g)) 3 0 =
    some 0x6F797DF8 := by decide +kernel

/-- A 64-bit sum carries from the low register into the high one, and a narrow unsigned result is zero-extended. -/
theorem test_pairs_and_widths :
    vOut (at_ (.iadd ⟨plainHdr, .n64, false, ⟨4, false⟩, ⟨0, false⟩, .imm 1⟩) fun g => setV 0 0xFFFFFFFF g) 5 0 = some 1 ∧
    vOut (at_ (.iadd (bin .n8 false)) (args 200 100)) 4 0 = some 44 := by decide +kernel

def fbin (t : FType) (o : FOpt) : FBin := ⟨plainHdr, t, .rne, o, ⟨4, false⟩, ⟨1, false⟩, .reg ⟨2, false⟩⟩

/-- The worked `ffma`, the `fmul` beside it, and the overflow of R160. -/
theorem test_float_rounding :
    vOut (at_ (.ffma ⟨plainHdr, .f32, .rne, noOpt, ⟨4, false⟩, ⟨1, false⟩, ⟨2, false⟩, ⟨3, false⟩⟩) fun g =>
      setV 3 0xBF800000 (args 0x3F800001 0x3F7FFFFE g)) 4 0 = some 0xA8800000 ∧
    vOut (at_ (.fmul (fbin .f32 noOpt)) (args 0x3F800001 0x3F7FFFFE)) 4 0 = some 0x3F800000 ∧
    flagsOut (at_ (.fmul (fbin .f32 noOpt)) (args 0x3F800001 0x3F7FFFFE)) = some flNX ∧
    vOut (at_ (.fmul ⟨plainHdr, .bf16x2, .rne, ⟨false, false, true, false, true⟩, ⟨4, false⟩, ⟨1, false⟩, .imm 0x40003F80⟩)
      (args 0x7F00BF80 0)) 4 0 = some 0x7F7F3F80 := by decide +kernel

/-- The worked conversions of R164. -/
theorem test_float_conversions :
    vOut (at_ (.cvtfi ⟨plainHdr, .f32, .i32, .rne, noOpt, ⟨4, false⟩, ⟨1, false⟩⟩) (args 0xC0200000 0)) 4 0 = some (-2) ∧
    vOut (at_ (.cvtfi ⟨plainHdr, .f32, .i32, .rna, noOpt, ⟨4, false⟩, ⟨1, false⟩⟩) (args 0xC0200000 0)) 4 0 = some (-3) ∧
    vOut (at_ (.cvtf ⟨plainHdr, .bf16, .f32, .rne, noOpt, ⟨4, false⟩, ⟨1, false⟩⟩) (args 0x7FC12345 0)) 4 0 = some 0x7FC1 := by
  decide +kernel

/-- The worked scale of R168 and the table of quantised elements below it. -/
theorem test_quantise :
    vOut (at_ (.scenc ⟨plainHdr, .w4, .rup, ⟨4, false⟩, ⟨1, false⟩⟩) (args 0x3FE00000 0)) 4 0 = some 0x68 ∧
    vOuts (at_ (.qnt ⟨plainHdr, .w4, .rne, ⟨5, false⟩, ⟨3, false⟩, .imm 104⟩)
      (setVs 3 [0x3E99999A, 0xBFE00000, 0x3E000000, 0x40200000, 0x7FC00000])) 5 = some [1, 9, 0, 7, 0, 0, 0, 0] ∧
    vOut (at_ (.dqnt ⟨plainHdr, .w4, .rne, ⟨6, false⟩, ⟨5, false⟩, .imm 104⟩) (setV 5 9)) 6 0 = some 0xBFE00000 := by decide +kernel

/-- The block of `.blk w4, 0x78, 3, -2, 7` as an image in a pair (R139, R169, R171). -/
def blockPair (g : Group) : Group := setVs 21 [] (setVs 20 [0x07E37810] g)

theorem test_block_image :
    vOut (at_ (.blkhd ⟨plainHdr, ⟨8, false⟩, ⟨20, false⟩⟩) blockPair) 8 5 = some 0x00780078 ∧
    vOut (at_ (.amax ⟨plainHdr, .rne, ⟨8, false⟩, ⟨20, false⟩⟩) blockPair) 8 2 = some 0x40E00000 := by decide +kernel

/-- The worked scan and reduction of R179: lane 7 is a helper. -/
def scanIn (g : Group) : Group :=
  (setVs 8 [0x4B800000, 0x3F800000, 0x3F800000, 0x3F800000, 0xCB800000, 0x3F800000, 0x3F800000, 0x3F800000] g).updLanes fun L l =>
    if L = 7 then { l with st := .helper } else l

theorem test_scan : vOuts (at_ (.gscan ⟨plainHdr, .f32, .add, false, ⟨10, false⟩, ⟨8, false⟩⟩) scanIn) 10 =
    some [0x4B800000, 0x4B800000, 0x4B800000, 0x4B800001, 0x40000000, 0x40400000, 0x40800000, 0x40800000] := by decide +kernel

theorem test_reduction : vOut (at_ (.gred ⟨plainHdr, .f32, .add, false, ⟨9, false⟩, ⟨8, false⟩⟩) scanIn) 9 7 = some 0x40800000 ∧
    flagsOut (at_ (.gred ⟨plainHdr, .f32, .add, false, ⟨9, false⟩, ⟨8, false⟩⟩) scanIn) = some flNX := by decide +kernel

/-- The horizontal exchange swaps neighbours; `shfld` past lane 7 gives zero and sets its indicator (R176). -/
theorem test_exchanges :
    vOuts (at_ (.qswh ⟨plainHdr, .f32, 7, ⟨4, false⟩, ⟨1, false⟩, none⟩) (setVs 1 [10, 11, 12, 13, 14, 15, 16, 17])) 4 =
      some [11, 10, 13, 12, 15, 14, 17, 16] ∧
    vOuts (at_ (.shfld ⟨plainHdr, .f32, 2, ⟨4, false⟩, ⟨1, false⟩, some (.imm 6)⟩) (setVs 1 [10, 11, 12, 13, 14, 15, 16, 17])) 4 =
      some [16, 17, 0, 0, 0, 0, 0, 0] ∧
    (pOut (at_ (.shfld ⟨plainHdr, .f32, 2, ⟨4, false⟩, ⟨1, false⟩, some (.imm 6)⟩)) 2).map Mask.toByte = some 0xFC := by
  decide +kernel

/-- `elect` takes the lowest lane that is no helper, and `actm` the masks of its layout (R182). -/
theorem test_votes :
    (pOut (at_ (.elect ⟨plainHdr, 3⟩) fun g => g.updLanes fun L l => if L = 0 then { l with st := .helper } else l) 3).map Mask.toByte =
      some 0x02 ∧
    vOut (at_ (.actm ⟨plainHdr, ⟨4, false⟩⟩) fun g => g.updLanes fun L l => if L = 0 then { l with st := .helper } else l) 4 6 =
      some 0x0001FFFF := by decide +kernel

/-- The values worked under R69. -/
theorem test_scalars :
    sOut (at_ (.smulh ⟨plainHdr, .i64, false, 3, 1, .reg 2⟩) fun g => setS 2 (-1) (setS 1 0x8000000000000000 g)) 3 = some 0 ∧
    sOut (at_ (.sneg ⟨plainHdr, .n32, false, 3, 1⟩) (setS 1 5)) 3 = some 0xFFFFFFFB ∧
    sOut (at_ (.sneg ⟨plainHdr, .n32, true, 3, 1⟩) (setS 1 5)) 3 = some 0 ∧
    sOut (at_ (.smovi ⟨plainHdr, .i32, 3, 0xFFFFFFFF⟩)) 3 = some 0xFFFFFFFFFFFFFFFF := by decide +kernel

/-- Where the lanes stand after one step, in words from the instruction. -/
def pcsOut (s : State) : Option (List Int) :=
  (group s).map fun g => laneList.map fun L => ((pcVa (g.lane L).pc).toNat - placeVa : Int) / 12

/-- The worked `switch` of R84: cases 1 and 5 with arms 2 words apart, 4 words on. -/
theorem test_switch : pcsOut (at_ (.switch ⟨plainHdr, ⟨0, false⟩, 4, 1, 2, ⟨1, 5, 0, 0, 0, 0, 0, 0⟩⟩)
    (setVs 0 [0, 1, 2, 3, 4, 5, 6, 7])) = some [2, 4, 2, 2, 2, 6, 2, 2] := by decide +kernel

/-- A guarded branch moves its active lanes, and `brx` to an odd address is a fault that moves none: the block is killed (R77). -/
theorem test_branches :
    pcsOut (at_ (.bra ⟨⟨false, 1, 0, none⟩, 8⟩) fun g => g.setPred 1 (Mask.ofByte 0x0F) (Mask.ofByte 0x0F)) =
      some [8, 8, 8, 8, 1, 1, 1, 1] ∧
    (after (at_ (.brx ⟨plainHdr, ⟨2, false⟩⟩) (setV 2 0x10002))).pk.groups.find? gi = none := by decide +kernel

/-- The instructions of the rejoin masks: `join` sets mask and MR, and a full mask is released at the `waitj` (R80, R81). -/
theorem test_rejoin :
    (group (at_ (.join ⟨plainHdr, 3, 8⟩))).map (fun g => (g.jmask 3, (g.lane 5).mr)) =
      some ((0xFF, BitVec.ofNat 57 (placeVa + 96)), BitVec.ofNat 57 (placeVa + 96)) ∧
    (group (at_ (.waitj ⟨plainHdr, 3⟩) fun g => g.setJmask 3 (0xFF, BitVec.ofNat 57 placeVa))).map (fun g => g.jmask 3) =
      some (0, 0) ∧
    pcsOut (at_ (.waitj ⟨⟨false, 1, 0, none⟩, 3⟩) fun g =>
      (g.setPred 1 (Mask.ofByte 0x0F) (Mask.ofByte 0x0F)).setJmask 3 (0xFF, BitVec.ofNat 57 placeVa)) =
      some [0, 0, 0, 0, 1, 1, 1, 1] := by decide +kernel

/-- `exit` of every lane ends the group; `sleep` for a time to come waits; `brk` stops the block at the instruction (R86 to R88). -/
theorem test_exit_sleep_brk :
    (after (at_ (.exit ⟨plainHdr⟩))).pk.groups.find? gi = none ∧
    (group (at_ (.sleep ⟨plainHdr, .s 1⟩) (setS 1 100))).map (fun g => g.splits.map Split.cond) = some [.blocked (.sleep 100)] ∧
    ((after (at_ (.brk ⟨plainHdr⟩))).pk.blocks.find? 2).map Block.stopped = some (some .brk) ∧
    pcsOut (at_ (.brk ⟨plainHdr⟩)) = some [0, 0, 0, 0, 0, 0, 0, 0] := by decide +kernel

/-- A load empties its register until the data returns; the data comes from memory, low byte first (R95, R106). -/
def ldF : MemF := ⟨plainHdr, 0, .core, .plain, .w4, ⟨8, false⟩, ⟨.s 1, none, 4⟩, 0⟩
def loadState : State :=
  let s := at_ (.ld ldF) (setS 1 0x20000)
  { s with mem := Mem.writes s.mem [(0x20004, 0x78), (0x20005, 0x56), (0x20006, 0x34), (0x20007, 0x12)] }

theorem test_load_starts : (group loadState).map (fun g => ((g.reg 8).full.toByte, (g.reg 8).pend.toByte)) = some (0, 0xFF) ∧
    (after loadState).mem = loadState.mem := by decide +kernel

theorem test_load_returns :
    vOut { after loadState with agenda := [.event (.loadDataReturn 4 0)] } 8 0 = some 0x12345678 := by decide +kernel

/-- A store changes memory when it performs, and not before (R95, R107). -/
def stF : MemF := ⟨⟨false, 1, 0, none⟩, 0, .core, .plain, .w2, ⟨8, false⟩, ⟨.s 1, none, 0⟩, 0⟩
def storeState : State := at_ (.st stF) fun g => (setS 1 0x20000 (setV 8 0xAABBCCDD g)).setPred 1 (Mask.ofByte 2) (Mask.ofByte 2)

theorem test_store : Mem.byte (after storeState).mem 0x20000 = 0 ∧
    (let t := after { after storeState with agenda := [.event (.storePerform 4 1)] }
     Mem.byte t.mem 0x20000 = 0xDD ∧ Mem.byte t.mem 0x20001 = 0xCC ∧ Mem.byte t.mem 0x20002 = 0) := by decide +kernel

/-- An atomic adds at its home slice, and its return brings the old value (R116 to R118). -/
def aaddF : AtomF := ⟨⟨false, 1, 0, none⟩, 0, .pkg, .plain, false, .n32, ⟨8, false⟩, ⟨.s 1, none, 0⟩, 0⟩
def atomState : State :=
  let s := at_ (.aadd aaddF) fun g => (setS 1 0x20000 (setV 8 5 g)).setPred 1 (Mask.ofByte 2) (Mask.ofByte 2)
  { s with mem := Mem.write s.mem 0x20000 0xFE }
def atomPerformed : State := after { after atomState with agenda := [.event (.atomicAtHomeSlice 4 1)] }

theorem test_atomic : Mem.byte atomPerformed.mem 0x20000 = 0x03 ∧ Mem.byte atomPerformed.mem 0x20001 = 0x01 ∧
    vOut { atomPerformed with agenda := [.event (.atomicReturn 4 1)] } 8 1 = some 0xFE := by decide +kernel

/-- A misaligned access is a fault, and with no handler the block is killed; nothing is stored (R103, R376). -/
theorem test_misaligned : (after (at_ (.st { stF with h := plainHdr }) (setS 1 0x20001))).pk.groups.find? gi = none ∧
    (after (at_ (.st { stF with h := plainHdr }) (setS 1 0x20001))).pk.txns = [] := by decide +kernel

/-- The full-bit instructions (R92). -/
theorem test_full_bits :
    (group (at_ (.fclr ⟨plainHdr, 5⟩))).map (fun g => (g.reg 5).full.toByte) = some 0 ∧
    (group (at_ (.ftake ⟨plainHdr, ⟨5, false⟩, ⟨6, false⟩⟩) (setV 6 77))).map
      (fun g => (g.word 5 2, (g.reg 5).full.toByte, (g.reg 6).full.toByte)) = some (77, 0xFF, 0) := by decide +kernel

/-- A read of an empty register waits, or faults with its wait bit (R25). -/
theorem test_empty_read :
    (group (at_ (.mov ⟨plainHdr, .i32, false, ⟨4, false⟩, ⟨1, false⟩⟩) fun g =>
      g.setReg 1 { VReg.fresh with full := Mask.none })).map (fun g => g.splits.map Split.cond) = some [.blocked (.full [(1, 0xFF)])] ∧
    (after (at_ (.mov ⟨plainHdr, .i32, false, ⟨4, false⟩, ⟨1, true⟩⟩) fun g =>
      g.setReg 1 { VReg.fresh with full := Mask.none })).pk.groups.find? gi = none := by decide +kernel

/-- Registers past the allocation and an odd pair are faults before the instruction (R67). -/
theorem test_register_limits :
    (after (at_ (.mov ⟨plainHdr, .i32, false, ⟨300, false⟩, ⟨1, false⟩⟩))).pk.groups.find? gi = none ∧
    (after (at_ (.mov ⟨plainHdr, .i64, false, ⟨5, false⟩, ⟨2, false⟩⟩))).pk.groups.find? gi = none := by decide +kernel

/-- `xacq` adds 64 registers for each unit, zero and full, and `xrel` of more than the group holds is a fault (R90, R91). -/
def quota (p : Package) : Package :=
  { p with ctxs := p.ctxs.adjust 4095 fun c => { c with desc := (c.desc.set 91 0x20).set 88 1 } }

theorem test_register_blocks :
    (group (at_ (.xacq ⟨plainHdr, some 2, 2⟩) id quota)).map (fun g => (g.alloc, (g.reg 300).full.toByte, (g.lane 0).p 2)) =
      some (384, 0xFF, true) ∧
    (after (at_ (.xrel ⟨plainHdr, 1⟩))).pk.groups.find? gi = none := by decide +kernel

/-- The one group of its block passes a barrier at once, and counts its arrival (R257). -/
theorem test_barrier : (group (at_ (.bar ⟨plainHdr, 3⟩))).map (fun g => (g.arr.getD 0 3, g.splits.map Split.cond)) =
    some (1, [.ready]) := by decide +kernel

/-- A name is given, and `fry` to a word that is no name is a fault (R291, R295). -/
theorem test_names :
    ((group (at_ (.nacq ⟨plainHdr, 4⟩))).map Group.name).map Option.isSome = some true ∧
    (after (at_ (.fry ⟨plainHdr, 0, 40, .s 2, ⟨2, false⟩⟩) (setS 2 0x1000000000000))).pk.groups.find? gi = none := by decide +kernel

/-- The cycle counter, a system register, a wait for the event word, and an item instruction of a lane without an item. -/
theorem test_counters_and_system :
    sOut (at_ (.rdcc ⟨plainHdr, .s 3⟩) id fun p => { p with cycle := 99 }) 3 = some 99 ∧
    sOut (at_ (.sysrd ⟨plainHdr, 0x021, 3⟩) id fun p => { p with ctxsel := 4095 }) 3 = some 0xF ∧
    (group (at_ (.halt ⟨plainHdr, 5⟩))).map (fun g => g.splits.map Split.cond) = some [.blocked .halt] ∧
    sOut (at_ (.halt ⟨plainHdr, 5⟩) id fun p => { p with evword := 2 }) 5 = some 2 ∧
    (after (at_ (.tkt ⟨plainHdr⟩))).pk.groups.find? gi = none := by decide +kernel

/-- A bit that is not offered clears the accepted word; an offered one fixes it; then writes are ignored, and while DONE is 0
a CREATE ends with RESULT 3 (R6, R7). -/
theorem test_negotiation :
    (after { State.reset with neg := ⟨0x401, false, false⟩, agenda := [.event .commit] }).neg = ⟨0, false, true⟩ ∧
    (after { State.reset with neg := ⟨0x3FF, false, true⟩, agenda := [.event .commit] }).neg = ⟨0x3FF, true, false⟩ ∧
    (after { State.reset with neg := ⟨1, true, false⟩, agenda := [.event (.registerWrite 0x020 8 7)] }).neg = ⟨1, true, false⟩ ∧
    (after { State.reset with agenda := [.event .create] }).pk.mbresult = 3 := by decide +kernel

/-- A package reset keeps the memory pool and nothing else (R7). -/
theorem test_package_reset :
    (let t := after { loadState with agenda := [.event .packageReset] }
     t.pk = Package.reset ∧ Mem.byte t.mem 0x20004 = 0x78) := by decide +kernel

/-! ## The hypotheses of the statements can be met -/

/-- Evaluation shows that an instruction issues and that what it sees has a property. -/
theorem meets {s : State} {h : Hdr} {n : Nat} {need : View → Need} {P : View → Prop} [∀ v, Decidable (P v)]
    (hk : (match viewOf (Work.start s) h n with
      | some v => (preIssue (gateOpen s.neg v (need v)) v (need v)).isNone && v.grp.running.any && decide (P v)
      | none => false) = true) : ∃ v, Issues s h n (need v) v ∧ P v := by
  split at hk
  · rename_i v hv
    simp only [Bool.and_eq_true, decide_eq_true_eq, Option.isNone_iff_eq_none] at hk
    exact ⟨v, ⟨hv, hk.1.1, hk.1.2⟩, hk.2⟩
  · cases hk

/-- A state in which the next step fetches a `nop`, whose group and package are changed. -/
def st_ (F : Group → Group := id) (G : Package → Package := id) : State := at_ (.nop ⟨plainHdr⟩) F G

/-- The firmware's context with a field of its descriptor changed. -/
def desc (at_ : Nat) (bs : List Byte) (p : Package) : Package :=
  { p with ctxs := p.ctxs.adjust 4095 fun c => { c with desc := c.desc.take at_ ++ bs ++ c.desc.drop (at_ + bs.length) } }
/-- The first region of the weight store, on die 0, granted. -/
def wsGrant : Package → Package := desc 144 [0, 0, 1, 0, 0, 0, 0, 0x80]

/-- The guard that no lane passes in a state where predicate 1 is false. -/
def offHdr : Hdr := ⟨false, 1, 0, none⟩
def off (g : Group) : Group := g.setPred 1 Mask.full Mask.none

/-- The state with bytes of memory written from an address. -/
def cells (a : Nat) (bs : List Byte) (s : State) : State :=
  { s with mem := Mem.writes s.mem (bs.zipIdx.map fun e => (a + e.2, e.1)) }

/-- The placed block with local memory, and bytes from an address of it. -/
def withLocal (p : Package) : Package := { p with blocks := p.blocks.adjust 2 fun b => { b with localSize := 786432 } }
def localState (a : Nat) (bs : List Byte) (F : Group → Group) (G : Package → Package := id) : State :=
  cells (localKey 2 0 a) bs (st_ F fun p => withLocal (G p))

def wv (r : Nat) : VSrc := ⟨BitVec.ofNat 10 r, false⟩
def wd (r : Nat) : VDst := ⟨BitVec.ofNat 10 r, false⟩

/-- Something is found, and what is found has a property. -/
theorem found {α : Type} {m : Option α} {P : α → Prop} [∀ x, Decidable (P x)]
    (h : (match m with
      | some x => decide (P x)
      | none => false) = true) : ∃ x, m = some x ∧ P x := by
  split at h
  · exact ⟨_, rfl, of_decide_eq_true h⟩
  · cases h

/-- The package is changed. -/
def pk (G : Package → Package) (s : State) : State := { s with pk := G s.pk }

/-- A second group in the block of the placed one, which has not arrived at a barrier. -/
def twoGroups (p : Package) : Package :=
  { p with
    groups := p.groups.insert 9 ((p.groups.find? gi).getD (Group.fresh 0 0 0 0 0 0 0 0 64 0 0 0 8 [] [] []))
    blocks := p.blocks.adjust 2 fun b => { b with groups := [gi, 9] } }

def smemF : SMemF := ⟨plainHdr, .i64, 3, 1, 0⟩


def refF : RefF := ⟨plainHdr, 0, .pkg, .rel, 46, .s 1, wv 41, 0⟩

/-- A load that has started and not returned stands in the tables. -/
def loading : State := after loadState


def stordF : MemF := ⟨offHdr, 0, .core, .plain, .w4, ⟨5, false⟩, ⟨.s 1, none, 0⟩, 0⟩

/-- Lanes of a mask are active. -/
def lanes (m : Byte) (g : Group) : Group := g.setPred 1 Mask.full (Mask.ofByte m)

def sp (m : Byte) (c : SCond) (q : Nat) : Split := ⟨Mask.ofByte m, c, q, 0, false, 0, none⟩

/-- The firmware's context with a save area at 0x40000, a fault ring, room for cores and registers, and a handler or none. -/
def area (tvec : Nat) (p : Package) : Package :=
  desc 88 (valBytes 2 4 ++ valBytes 2 0x2000) (desc 112 (valBytes 4 1) (desc 120 (valBytes 8 0x50000)
    (desc 32 (valBytes 8 tvec ++ valBytes 8 0x40000 ++ valBytes 8 0x100000) p)))
/-- The memory of the save area's header and of the ring's. -/
def areaMem (s : State) : State :=
  cells 0x50000 (valBytes 8 0x60000 ++ valBytes 8 4 ++ valBytes 8 3 ++ valBytes 8 0) (cells 0x40000 (valBytes 4 4) s)


theorem witness_IntegerBinaryResults :
    (∃ v, Issues (st_ (args 7 2)) plainHdr 1 (ibinNeed (bin .i32 true) v) v ∧ v.act.any = true) ∧
    (∃ v, Issues (st_ off) offHdr 1 (ibinNeed ⟨offHdr, .n64, false, ⟨254, true⟩, wv 0, .imm 1⟩ v) v ∧ v.act.any = false) :=
  ⟨meets (by decide +kernel), meets (by decide +kernel)⟩

def iunF : IUn := ⟨plainHdr, .i8, false, wd 255, wv 1⟩
def itriF : ITri := ⟨plainHdr, .i64, true, wd 254, wv 0, wv 2, wv 4⟩

theorem witness_IntegerUnaryTernaryResults :
    (∃ v, Issues (st_ (args 0x80 0)) plainHdr 1 (iunNeed iunF (regsOf iunF.ty) v) v ∧ v.act.any = true) ∧
    (∃ v, Issues (st_ (args 7 2)) plainHdr 1 (itriNeed itriF v) v ∧ v.act.any = true) ∧
    (∃ v, Issues (st_ (args 7 2)) plainHdr 1 (iunNeed iunF 1 v) v ∧ v.act.any = true) :=
  ⟨meets (by decide +kernel), meets (by decide +kernel), meets (by decide +kernel)⟩

theorem witness_IntegerMovesAndCompares :
    (∃ v, Issues (st_ (args 7 2)) plainHdr 1 (leaNeed ⟨plainHdr, .n64, false, wd 4, wv 2, wv 1, 7⟩ v) v ∧ v.act.any = true) ∧
    (∃ v, Issues (st_ (args 7 2)) plainHdr 1 (selNeed ⟨plainHdr, .i32, 7, wd 4, wv 2, .reg (wv 1)⟩ v) v ∧ v.act.any = true) ∧
    (∃ v, Issues (st_ (args 7 2)) plainHdr 1 (movisNeed ⟨plainHdr, .i64, wd 4, 0xFFFFFFFF⟩ v) v ∧ v.act.any = true) ∧
    (∃ v, Issues (st_ (args 7 2)) plainHdr 1 (cvtiNeed ⟨plainHdr, .n8, .i64, true, wd 4, wv 2⟩ v) v ∧ v.act.any = true) ∧
    (∃ v, Issues (st_ (args 7 2)) plainHdr 1 (rngNeed ⟨plainHdr, wd 4, wv 2, 31, 255⟩ v) v ∧ v.act.any = true) ∧
    (∃ v, Issues (st_ (args 7 2)) plainHdr 1 (icmpNeed ⟨plainHdr, .i32, .lt, 6, wv 1, .reg (wv 2)⟩ v) v ∧ v.act.any = true) :=
  ⟨meets (by decide +kernel), meets (by decide +kernel), meets (by decide +kernel), meets (by decide +kernel),
    meets (by decide +kernel), meets (by decide +kernel)⟩

/-- The service firmware's context with bits of OPTS set. -/
def opts (b : Byte) (p : Package) : Package :=
  { p with ctxs := p.ctxs.adjust 4095 fun c => { c with desc := c.desc.set 10 b } }

theorem witness_DivisionResults :
    (∃ v, Issues (st_ (args 7 0)) plainHdr 1 (ibinNeed (bin .i32 false) v) v ∧
      (divTraps (st_ (args 7 0)).pk v.grp.ctx && (zeroDivisors (bin .i32 false) v).any) = false ∧
      (zeroDivisors (bin .i32 false) v).any = true) ∧
    (∃ v, Issues (st_ (args 7 0) (opts 0x3A)) plainHdr 1 (ibinNeed (bin .i32 false) v) v ∧
      (divTraps (st_ (args 7 0) (opts 0x3A)).pk v.grp.ctx && (zeroDivisors (bin .i32 false) v).any) = true) :=
  ⟨meets (by decide +kernel), meets (by decide +kernel)⟩

def fun1 : FUn := ⟨plainHdr, .bf16x2, .rne, noOpt, wd 4, wv 1⟩
def ftri1 : FTri := ⟨plainHdr, .f32, .rne, noOpt, wd 4, wv 1, wv 2, wv 3⟩

theorem witness_FloatArithmeticResults :
    (∃ v, Issues (st_ (args 0x3F800000 0x40000000)) plainHdr 1 (fbinNeed (fbin .f32 noOpt) v) v ∧ v.act.any = true) ∧
    (∃ v, Issues (st_ (args 0x3F800000 0x40000000)) plainHdr 1 (funNeed fun1 v) v ∧ v.act.any = true) ∧
    (∃ v, Issues (st_ (args 0x3F800000 0x40000000)) plainHdr 1 (ftriNeed ftri1 v) v ∧ v.act.any = true) :=
  ⟨meets (by decide +kernel), meets (by decide +kernel), meets (by decide +kernel)⟩

theorem witness_FloatConversionsAndCompare :
    (∃ v, Issues (st_ (args 0x7FC12345 0)) plainHdr 1 (cvtfNeed ⟨plainHdr, .bf16, .f32, .rne, noOpt, wd 4, wv 1⟩ v) v ∧
      v.act.any = true) ∧
    (∃ v, Issues (st_ (args 0x80000000 0)) plainHdr 1 (cvtifNeed ⟨plainHdr, .f32, .i32, .rne, noOpt, wd 4, wv 1⟩ v) v ∧
      v.act.any = true) ∧
    (∃ v, Issues (st_ (args 0x7F800000 0)) plainHdr 1 (cvtfiNeed ⟨plainHdr, .f32, .i64, .rna, noOpt, wd 4, wv 1⟩ v) v ∧
      v.act.any = true) ∧
    (∃ v, Issues (st_ (args 0x7F800000 0)) plainHdr 1 (fcmpNeed ⟨plainHdr, .f32, .lt, noOpt, 6, wv 1, .reg (wv 2)⟩ v) v ∧
      v.act.any = true) :=
  ⟨meets (by decide +kernel), meets (by decide +kernel), meets (by decide +kernel), meets (by decide +kernel)⟩

/-- A block image of a format that does not exist, and one of an existing one. -/
theorem witness_FloatNarrowAndBlockResults :
    (∃ v, Issues (st_ (args 0x3FE00000 0)) plainHdr 1 (scencNeed ⟨plainHdr, .w4, .rup, wd 4, wv 1⟩ v) v ∧ v.act.any = true) ∧
    (∃ v, Issues (st_ (args 0x68 0)) plainHdr 1 (daNeed ⟨plainHdr, wd 4, wv 1⟩ v) v ∧ v.act.any = true) ∧
    (∃ v, Issues (st_ (args 9 0)) plainHdr 1 (qntNeed ⟨plainHdr, .w4, .rne, wd 4, wv 1, .imm 255⟩ v) v ∧ v.act.any = true) ∧
    (∃ v, Issues (st_ (args 9 0)) plainHdr 1 (blkmkNeed ⟨plainHdr, .w4, wd 4, wv 20, .s 2⟩ v) v ∧ v.act.any = true) ∧
    (∃ v, Issues (st_ blockPair) plainHdr 1 (imageNeed (wd 8) (wv 20) v) v ∧ v.act.any = true ∧
      blockFmt (imageBytes v.grp 20) anyFmt = some .w4) ∧
    (∃ v, Issues (st_ (fun g => off (blockPair g))) offHdr 1 (imageNeed (wd 8) (wv 20) v) v ∧ v.act.any = false) ∧
    (∃ v, Issues (st_ (setVs 20 [0xFF])) plainHdr 1 (imageNeed (wd 8) (wv 20) v) v ∧ v.act.any = true ∧
      blockFmt (imageBytes v.grp 20) anyFmt = none) :=
  ⟨meets (by decide +kernel), meets (by decide +kernel), meets (by decide +kernel), meets (by decide +kernel),
    meets (by decide +kernel), meets (by decide +kernel), meets (by decide +kernel)⟩

def exchF : ExchF := ⟨plainHdr, .int .n64, 2, wd 4, wv 2, some (.imm 6)⟩

theorem witness_ExchangeResults :
    (∃ v, Issues (st_ (args 1 2)) plainHdr 1 (exchNeed .down exchF v) v ∧ exchSource .down exchF v 7 = none) ∧
    (∃ v, Issues (st_ (args 1 2)) plainHdr 1 (exchNeed (.xor 3) ⟨plainHdr, .f32, 2, wd 4, wv 1, none⟩ v) v ∧
      exchSource (.xor 3) ⟨plainHdr, .f32, 2, wd 4, wv 1, none⟩ v 7 = some 4) :=
  ⟨meets (by decide +kernel), meets (by decide +kernel)⟩

def redF : RedF := ⟨plainHdr, .f32, .add, true, wd 9, wv 8⟩

theorem witness_ReductionAndScanResults :
    ∃ v, Issues (st_ scanIn) plainHdr 1 (redNeed redF v) v ∧ v.act.any = true := meets (by decide +kernel)

theorem witness_VoteAndMaskResults :
    (∃ v, Issues (st_ scanIn) plainHdr 1 (ballotNeed ⟨plainHdr, wd 4, 7⟩ v) v ∧ v.act.any = true) ∧
    (∃ v, Issues (st_ scanIn) plainHdr 1 (matchNeed ⟨plainHdr, .f32, wd 4, wv 8⟩ v) v ∧ v.act.any = true) ∧
    (∃ v, Issues (st_ scanIn) plainHdr 1 (actmNeed ⟨plainHdr, wd 4⟩ v) v ∧ v.act.any = true) ∧
    (∃ v, Issues (st_ scanIn) plainHdr 1 {} v ∧ v.act.any = true) ∧
    (∃ v, Issues (st_ scanIn) plainHdr 1 (unifNeed ⟨plainHdr, .f32, 3, wv 8⟩ v) v ∧ v.act.any = true) :=
  ⟨meets (by decide +kernel), meets (by decide +kernel), meets (by decide +kernel), meets (by decide +kernel),
    meets (by decide +kernel)⟩

theorem witness_ScalarResultsAndReads :
    (∃ v, Issues (st_ (setS 1 5)) plainHdr 1 {} v ∧ v.act.any = true) ∧
    (∃ v, Issues (st_ off) offHdr 1 {} v ∧ v.act.any = false) ∧
    (∃ v, Issues (st_ (setS 1 5)) plainHdr 1 (rdsNeed ⟨plainHdr, .s 3, 0⟩ v) v ∧ v.act.any = true) ∧
    (∃ v, Issues (st_ (setS 1 5)) plainHdr 1 (rdsNeed ⟨plainHdr, .v 8 false, 22⟩ v) v ∧ v.act.any = true) :=
  ⟨meets (by decide +kernel), meets (by decide +kernel), meets (by decide +kernel), meets (by decide +kernel)⟩

theorem witness_BranchAndCallTargets :
    (∃ v, Issues (st_ off) offHdr 1 {} v ∧ v.act.any = false) ∧
    (∃ v, Issues (st_ (setS 1 5)) plainHdr 1 (callNeed ⟨plainHdr, wd 254, 8⟩ v) v ∧ v.act.any = true) :=
  ⟨meets (by decide +kernel), meets (by decide +kernel)⟩

def brxF : BrxF := ⟨plainHdr, wv 2⟩
/-- A handler frame that returns to the placed instruction. -/
def handling (g : Group) : Group :=
  { setV 2 0x10000 g with handler := some ⟨Mask.full, 0x10000, 0x1000C, none⟩ }

theorem witness_IndirectTransfers :
    (∃ v, Issues (st_ (setV 2 0x10000)) plainHdr 1 (brxNeed brxF v) v ∧ (badTargets brxF v).any = false ∧
      isReturn v (byTarget (v.src brxF.a 2) v.act.lanes) = false ∧ v.act.any = true) ∧
    (∃ v, Issues (st_ (setV 2 0x10002)) plainHdr 1 (brxNeed brxF v) v ∧ (badTargets brxF v).any = true) ∧
    (∃ v, Issues (st_ handling) plainHdr 1 (brxNeed brxF v) v ∧ (badTargets brxF v).any = false ∧
      isReturn v (byTarget (v.src brxF.a 2) v.act.lanes) = true ∧
      ((st_ handling).pk.blocks.find? v.grp.blk).map Block.lead = some none ∧ v.grp.handler.map Handler.completed = some none) :=
  ⟨meets (by decide +kernel), meets (by decide +kernel), meets (by decide +kernel)⟩

def switchF : SwitchF := ⟨plainHdr, wv 0, 4, 1, 2, ⟨1, 5, 0, 0, 0, 0, 0, 0⟩⟩

theorem witness_SwitchArms : switchWf switchF = true ∧
    ∃ v, Issues (st_ (setVs 0 [0, 1, 2, 3, 4, 5, 6, 7])) plainHdr 2 (switchNeed switchF v) v ∧ v.grp.splits.tail = [] ∧
      (v.grp.word 0 1).toInt = (switchF.cases.get 0).toInt ∧ ∀ k : Fin 8, k.val ≤ 1 →
        (v.grp.word 0 0).toInt ≠ (switchF.cases.get k).toInt := ⟨by decide, meets (by decide +kernel)⟩

theorem witness_RejoinMaskWrites : ∃ v, Issues (st_ (setS 1 5)) plainHdr 1 {} v ∧ v.act.any = true := meets (by decide +kernel)

/-- A mask at the placed instruction; with some of its lanes not active. -/
def masked (g : Group) : Group := g.setJmask 3 (0xFF, BitVec.ofNat 57 placeVa)
def halfActive (g : Group) : Group := (masked g).setPred 1 Mask.full (Mask.ofByte 0x0F)
def wjF (h : Hdr) : WaitjF := ⟨h, 3⟩
/-- Lanes 4 to 7 are held at the mask, and lanes 0 to 3 come to it, those of m actively. -/
def joining (m : Byte) (g : Group) : Group :=
  { lanes m (masked g) with splits :=
    [sp 0x0F .ready 0, { sp 0xF0 (.held 3) 0 with nxt := pcPlus (BitVec.ofNat 57 placeVa) 1 }] }

theorem witness_WaitjHoldsAndReleases :
    (∃ v, Issues st_ plainHdr 1 {} v ∧ v.pc ≠ (v.grp.jmask 3).2) ∧
    (∀ e ∈ [(0xF0, (0x0F : Byte)), (0, (0 : Byte))], ∃ v, Issues (st_ fun g => lanes e.2 (g.setJmask 3 (e.1, BitVec.ofNat 57 placeVa))) offHdr 1 {} v ∧
      v.pc = (v.grp.jmask 3).2 ∧ (waitHeld (wjF offHdr) v).any = false ∧ ((v.grp.jmask 3).1 ≠ 0 ∨ v.act.any = false)) ∧
    (∃ v, Issues (st_ fun g => g.setJmask 3 (0, BitVec.ofNat 57 placeVa)) plainHdr 1 {} v ∧ v.pc = (v.grp.jmask 3).2 ∧
      (v.grp.jmask 3).1 = 0 ∧ v.act.any = true) ∧
    (∃ v, Issues (st_ halfActive) offHdr 1 {} v ∧ v.pc = (v.grp.jmask 3).2 ∧
      (Mask.inter (waitHeld (wjF offHdr) v) v.grp.running).any = true ∧ v.grp.splits.tail = [] ∧
      (v.grp.jmask 3).1.getLsbD 4 = true ∧ v.act.get 4 = false) ∧
    (∃ v, Issues (st_ masked) plainHdr 1 {} v ∧ v.pc = (v.grp.jmask 3).2 ∧ (waitHeld (wjF plainHdr) v).any = true ∧
      ∀ L : Fin 8, (v.grp.jmask 3).1.getLsbD L.val = true → v.act.get L = true ∧ v.grp.running.get L = true) ∧
    (∀ e ∈ [(0x07, false), (0x0F, true)], ∃ v, Issues (st_ (joining e.1)) offHdr 1 {} v ∧ v.pc = (v.grp.jmask 3).2 ∧
      (Mask.inter (waitHeld (wjF offHdr) v) v.grp.running).any = true ∧
      (match v.grp.splits.tail.filter (fun x => x.cond.isHeld) with
        | [t] => t.cond == .held 3 && t.nxt == v.next &&
          decide (∀ L, t.lanes.get L = true → v.grp.running.get L = true ∧ v.m.get L = false ∧ (v.grp.lane L).pc = v.pc ∧
            (v.grp.jmask 3).1.getLsbD L.val = true) &&
          decide ((∀ L : Fin 8, (v.grp.jmask 3).1.getLsbD L.val = true →
            ((Mask.inter (waitHeld (wjF offHdr) v) v.grp.running).get L || t.lanes.get L) = true) ↔ e.2 = true)
        | _ => false) = true) := by
  refine ⟨meets (by decide +kernel), ?_, meets (by decide +kernel), meets (by decide +kernel), meets (by decide +kernel), ?_⟩ <;>
    simp only [List.forall_mem_cons]
  · exact ⟨meets (by decide +kernel), meets (by decide +kernel), nofun⟩
  · exact ⟨meets (by decide +kernel), meets (by decide +kernel), nofun⟩

def sleepF (h : Hdr) : UniF := ⟨h, .s 1⟩
def blkOf (s : State) (v : View) : Option Block := s.pk.blocks.find? v.grp.blk

theorem witness_NopSleepBreakTrap :
    (∃ v, Issues st_ plainHdr 1 {} v ∧ v.act.any = true) ∧
    (∃ v, Issues (st_ (setS 1 100) fun p => { p with cycle := 100 }) plainHdr 1 (sleepNeed (sleepF plainHdr) v) v ∧
      v.act.any = true ∧ sleepUntil (sleepF plainHdr) v ≤ 100) ∧
    (∃ v, Issues (st_ (setS 1 101) fun p => { p with cycle := 100 }) plainHdr 1 (sleepNeed (sleepF plainHdr) v) v ∧
      v.act.any = true ∧ 100 < sleepUntil (sleepF plainHdr) v) ∧
    (∃ v, Issues st_ plainHdr 1 {} v ∧ v.act.any = true ∧ v.grp.pastBrk ≠ some v.pc ∧
      (blkOf st_ v).map (fun b => (b.stopped, b.stat)) = some (none, .begun)) ∧
    (∃ v, Issues (st_ fun g => { g with pastBrk := some (BitVec.ofNat 57 placeVa) }) plainHdr 1 {} v ∧ v.act.any = true ∧
      v.grp.pastBrk = some v.pc) ∧
    (∃ v, Issues (st_ off) offHdr 1 {} v ∧ v.act.any = false) :=
  ⟨meets (by decide +kernel), meets (by decide +kernel), meets (by decide +kernel), meets (by decide +kernel),
    meets (by decide +kernel), meets (by decide +kernel)⟩

theorem witness_ExitOfLanes :
    (∃ v, Issues (st_ halfActive) offHdr 1 {} v ∧ (∀ L, v.act.get L = true → (v.grp.lane L).item = none) ∧
      (v.grp.exit (v.grp.leaving v.act)).running.any = true) ∧
    (∃ v, Issues st_ plainHdr 1 {} v ∧ (∀ L, v.act.get L = true → (v.grp.lane L).item = none) ∧
      (v.grp.exit (v.grp.leaving v.act)).running.any = false) :=
  ⟨meets (by decide +kernel), meets (by decide +kernel)⟩

theorem witness_LoadsStart :
    (∃ v, Issues loadState plainHdr 1 (memNeed ldF true v) v ∧ v.act.any = true ∧
      accessGoes v (accessChecks loadState v (memNeed ldF true v) .global .load ldF.mem 4) .load 0) ∧
    (∃ v, Issues (st_ off) offHdr 1 (memNeed { ldF with h := offHdr } true v) v ∧ v.act.any = false) :=
  ⟨meets (by decide +kernel), meets (by decide +kernel)⟩

/-- The block of the placed group is of a DET launch, with a spill slot of 64 KiB at 0x100000. -/
def inDet (p : Package) : Package :=
  desc 72 (valBytes 8 0x100000 ++ valBytes 4 1)
    { p with blocks := p.blocks.adjust 2 fun b => { b with det := some (Det.fresh 0) } }
def inDet_ : State → State := pk inDet
/-- The placed group's lanes are helpers. -/
def ofHelpers : State → State := pk fun p =>
  { p with groups := p.groups.adjust gi fun g => g.updLanes fun _ l => { l with st := .helper } }
/-- An address that no access may have. -/
def badBase (g : Group) : Group := setS 1 0x0400000000000000 g

theorem witness_StoresStart :
    (∃ v, Issues storeState stF.h 1 (memNeed stF false v) v ∧ v.act.any = true ∧
      accessGoes v (accessChecks storeState v (memNeed stF false v) .global .store stF.mem 2) .store 0 ∧
      stagedBlk (accessChecks storeState v (memNeed stF false v) .global .store stF.mem 2).2 v.grp = none ∧
      ((storeOps v.real (v.ea stF.mem) (accessChecks storeState v (memNeed stF false v) .global .store stF.mem 2).1
        (storeData v stF.d 2)).get 1).isSome = true) ∧
    (∃ v, Issues (inDet_ storeState) stF.h 1 (memNeed stF false v) v ∧ v.act.any = true ∧
      let r := accessChecks (inDet_ storeState) v (memNeed stF false v) .global .store stF.mem 2
      accessGoes v r .store 0 ∧ (detOf r.2 v.grp).map (fun d => decide (slotRoom r.2 v d)) = some true ∧
      ((storeOps v.real (v.ea stF.mem) r.1 (storeData v stF.d 2)).get 1).isSome = true) ∧
    (∃ v, Issues (ofHelpers storeState) stF.h 1 (memNeed stF false v) v ∧ v.act.any = true ∧
      let r := accessChecks (ofHelpers storeState) v (memNeed stF false v) .global .store stF.mem 2
      accessGoes v r .store 0 ∧ ∀ L, (storeOps v.real (v.ea stF.mem) r.1 (storeData v stF.d 2)).get L = none) ∧
    (∃ v, Issues (st_ off) offHdr 1 (memNeed stF false v) v ∧ v.act.any = false) :=
  ⟨meets (by decide +kernel), meets (by decide +kernel), meets (by decide +kernel), meets (by decide +kernel)⟩

theorem witness_ScalarMemoryStarts :
    (∃ v, Issues loadState plainHdr 1 {} v ∧ v.act.any = true ∧
      (chkGlobal ((Work.start loadState).issued v {}) v.grp.ctx .load (smemEa smemF v) 8 8).1 = .ok (keysFrom 0x20000 8) ∧
      roomWait (chkGlobal ((Work.start loadState).issued v {}) v.grp.ctx .load (smemEa smemF v) 8 8).2.pk v 0 = none) ∧
    (∃ v, Issues (ofHelpers (st_ badBase)) plainHdr 1 {} v ∧ v.act.any = true ∧ v.real.any = false ∧
      (match (chkGlobal ((Work.start (ofHelpers (st_ badBase))).issued v {}) v.grp.ctx .load (smemEa smemF v) 8 8).1 with
        | .bad .. => true
        | _ => false) = true) ∧
    (∃ v, Issues loadState plainHdr 1 {} v ∧ v.real.any = true ∧
      (chkGlobal ((Work.start loadState).issued v {}) v.grp.ctx .store (smemEa smemF v) 8 8).1 = .ok (keysFrom 0x20000 8) ∧
      roomWait (chkGlobal ((Work.start loadState).issued v {}) v.grp.ctx .store (smemEa smemF v) 8 8).2.pk v 0 = none ∧
      detOf (chkGlobal ((Work.start loadState).issued v {}) v.grp.ctx .store (smemEa smemF v) 8 8).2 v.grp = none) ∧
    (∃ v, Issues (inDet_ loadState) plainHdr 1 {} v ∧ v.real.any = true ∧
      let r := chkGlobal ((Work.start (inDet_ loadState)).issued v {}) v.grp.ctx .store (smemEa smemF v) 8 8
      r.1 = .ok (keysFrom 0x20000 8) ∧ roomWait r.2.pk v 0 = none ∧
        (detOf r.2 v.grp).map (fun d => decide (slotRoom r.2 v d)) = some true) ∧
    (∃ v, Issues (ofHelpers loadState) plainHdr 1 {} v ∧ v.real.any = false) :=
  ⟨meets (by decide +kernel), meets (by decide +kernel), meets (by decide +kernel), meets (by decide +kernel),
    meets (by decide +kernel)⟩

def detState : State := at_ (.aadd aaddF) (setS 1 0x20000) inDet

theorem witness_AtomicsStart :
    (∃ v, Issues atomState aaddF.h 1 (atomNeed 0 aaddF v) v ∧ v.act.any = true ∧ detOf (Work.start atomState) v.grp = none ∧
      accessGoes v (accessChecks atomState v (atomNeed 0 aaddF v) .global .store aaddF.mem 4) .store 0 ∧
      (atomOp 0 aaddF v ((accessChecks atomState v (atomNeed 0 aaddF v) .global .store aaddF.mem 4).1.get 1) 1).isSome = true) ∧
    (∃ v, Issues detState plainHdr 1 (atomNeed 0 aaddF v) v ∧ v.real.any = true ∧
      (detOf (Work.start detState) v.grp).isSome = true ∧ atomReturns 0 = true) ∧
    (∃ v, Issues detState plainHdr 1 (atomNeed 9 { aaddF with loc := true } v) v ∧ v.real.any = true ∧
      (detOf (Work.start detState) v.grp).isSome = true) ∧
    (∃ v, Issues detState plainHdr 1 (atomNeed 9 aaddF v) v ∧ v.real.any = true ∧ atomReturns 9 = false ∧
      let r := accessChecks detState v (atomNeed 9 aaddF v) .global .store aaddF.mem 4
      accessGoes v r .store 0 ∧ (detOf (Work.start detState) v.grp).map (fun d => decide (slotRoom r.2 v d)) = some true ∧
        (atomOp 9 aaddF v (r.1.get 1) 1).isSome = true) ∧
    (∃ v, Issues (ofHelpers detState) plainHdr 1 (atomNeed 9 aaddF v) v ∧ v.act.any = true ∧ v.real.any = false ∧
      let r := accessChecks (ofHelpers detState) v (atomNeed 9 aaddF v) .global .store aaddF.mem 4
      accessGoes v r .store 0 ∧ ∀ L, atomOp 9 aaddF v (r.1.get L) L = none) ∧
    (∃ v, Issues (st_ off) offHdr 1 (atomNeed 0 aaddF v) v ∧ v.act.any = false) :=
  ⟨meets (by decide +kernel), meets (by decide +kernel), meets (by decide +kernel), meets (by decide +kernel),
    meets (by decide +kernel), meets (by decide +kernel)⟩

/-- A page-count header at the base: 8 counters from 0x30000. -/
def refState : State := cells 0x20000 (valBytes 8 0x30000 ++ valBytes 8 8 ++ valBytes 8 0 ++ valBytes 8 0)
  (st_ fun g => setS 1 0x20000 (setV 41 7 g))

theorem witness_PageCountsStart :
    (∃ v, Issues (pk (fun p => { p with groups := p.groups.adjust gi off }) refState) offHdr 1 (refNeed { refF with h := offHdr } v) v ∧
      v.act.any = false) ∧
    (∃ v, Issues (inDet_ refState) plainHdr 1 (refNeed refF v) v ∧ v.real.any = true ∧
      (detOf (Work.start (inDet_ refState)) v.grp).isSome = true) ∧
    (∃ v, Issues (ofHelpers refState) plainHdr 1 (refNeed refF v) v ∧ v.act.any = true ∧ v.real.any = false ∧
      accessGoes v (refChecks (ofHelpers refState) v refF) .store 0) ∧
    (∃ v, Issues refState plainHdr 1 (refNeed refF v) v ∧ v.real.any = true ∧ detOf (Work.start refState) v.grp = none ∧
      accessGoes v (refChecks refState v refF) .store 0 ∧ ((refChecks refState v refF).1.get 3).isSome = true) :=
  ⟨meets (by decide +kernel), meets (by decide +kernel), meets (by decide +kernel), meets (by decide +kernel)⟩

def lineF : LineF := ⟨plainHdr, 0, .core, 3, ⟨.s 1, none, 0⟩, 0⟩
/-- An access of the placed group that has not performed stands in the tables under each number, its lanes' bytes being ks. -/
def outstanding (ns : List Nat) (ks : List Nat) (p : Package) : Package :=
  { p with txns := ns.map fun n => (n,
    ⟨gi, 3, 0, 0, 4095, 0, .core, .plain, .store, [], [], [], [], [], none,
      Lanes.ofFn fun _ => some ⟨0, ks, valBytes ks.length 0, [], [], 0⟩, none, false, none, Mask.none, 0⟩) }
def fullTable : State := pk (outstanding ((List.range 32).map (100 + ·)) (keysFrom 0x28000 4)) loadState
/-- Lane 0 names a line that is pinned once. -/
def pinState : State :=
  pk (fun p => { p with pins := [⟨4095, 0x20000 / 128, 1, [(1, 3, gi)]⟩] }) (st_ fun g => lanes 1 (setS 1 0x20000 g))

theorem witness_PrefetchPinUnpin :
    (∃ v, Issues loadState plainHdr 1 (lineNeed lineF v) v ∧
      let r := lineChecks loadState v lineF .pin
      accessFault v r.1 .load = none ∧ lineWait v r = none ∧ (lineOf (r.1.get 0)).isSome = true) ∧
    (∃ v, Issues fullTable plainHdr 1 (lineNeed lineF v) v ∧
      accessFault v (lineChecks fullTable v lineF .pin).1 .load = none ∧
      lineWait v (lineChecks fullTable v lineF .pin) = some .txnRoom) ∧
    (∃ v, Issues pinState offHdr 1 (lineNeed { lineF with h := offHdr } v) v ∧
      let r := lineChecks pinState v { lineF with h := offHdr } .load
      accessFault v r.1 .load = none ∧ lineWait v r = none ∧ v.act.lanes = [0] ∧
        (lineOf (r.1.get 0)).map (fun n => (pinState.pk.pins.filter fun y => y.line == n).map Pin.count) = some [1]) ∧
    (∃ v, Issues fullTable plainHdr 1 (lineNeed lineF v) v ∧
      accessFault v (lineChecks fullTable v lineF .load).1 .load = none ∧
      lineWait v (lineChecks fullTable v lineF .load) = some .txnRoom) :=
  ⟨meets (by decide +kernel), meets (by decide +kernel), meets (by decide +kernel), meets (by decide +kernel)⟩

/-- A release that stands after the open load has performed before it. -/
def loadOvertaken : State := pk (fun p => { p with
  notes := p.txns.map fun e => ⟨90, e.2, 0, [], some .sys, [⟨e.1, true⟩]⟩ }) loading

theorem witness_FenceOrdersEveryHandle :
    (∃ v, Issues loading plainHdr 1 {} v ∧ v.act.any = true ∧ groupOpen loading.pk v.g ≠ [] ∧
      overtaken loading.pk (groupTxns loading.pk v.g) = []) ∧
    (∃ v, Issues loadOvertaken plainHdr 1 {} v ∧ v.act.any = true ∧
      overtaken loadOvertaken.pk (groupTxns loadOvertaken.pk v.g) ≠ []) :=
  ⟨meets (by decide +kernel), meets (by decide +kernel)⟩

theorem witness_HandleForkJoinWait :
    (∃ v, Issues loading plainHdr 1 {} v ∧ v.act.any = true ∧ chainOpen loading.pk v.g 1 = []) ∧
    (∃ v, Issues loading plainHdr 1 {} v ∧ v.act.any = true ∧ chainOpen loading.pk v.g 0 ≠ [] ∧
      4 ∈ (v.grp.chain 0).hist ∧ openTxns loading.pk [4] = [4] ∧
      overtaken loading.pk ((v.grp.chain 0).hist ++ (v.grp.chain 1).hist) = []) ∧
    (∃ v, Issues loadOvertaken plainHdr 1 {} v ∧ v.act.any = true ∧
      overtaken loadOvertaken.pk ((v.grp.chain 0).hist ++ (v.grp.chain 1).hist) ≠ []) :=
  ⟨meets (by decide +kernel), meets (by decide +kernel), meets (by decide +kernel)⟩

/-- What stands on handle 0 has been joined into handle 1. -/
def joinedOn (g : Group) : Group := g.setChain 1 { g.chain 1 with hist := (g.chain 0).hist }
def joinedState : State := pk (fun p => { p with groups := p.groups.adjust gi joinedOn }) loading

def himpF : HuniF := ⟨plainHdr, 3, .s 1⟩
/-- A token word that names scope 6. -/
def badToken : Nat := (List.range 64).foldl (fun r i => if r = 0 ∧ (tokenOf (6 * 2 ^ i)).scope > 5 then 6 * 2 ^ i else r) 0

theorem witness_TokensExportAndImport :
    (∃ v, Issues joinedState plainHdr 1 (hexpNeed ⟨plainHdr, .pod, .s 5, 1⟩ v) v ∧ v.act.any = true ∧
      joinedInto joinedState.pk v.grp 1 ≠ []) ∧
    (∃ v, Issues loading plainHdr 1 (hexpNeed ⟨plainHdr, .pod, .v 20 false, 0⟩ v) v ∧ v.act.any = true) ∧
    (∃ v, Issues st_ plainHdr 1 (huniNeed himpF 3 v) v ∧ v.act.any = true ∧
      ¬((tokenOf (v.uni himpF.a 2)).scope > 5 ∨ (tokenOf (v.uni himpF.a 2)).core > 191 ∨
        !inDomain (st_).pk (domainOf (Work.start st_) v.grp.ctx) (tokenOf (v.uni himpF.a 2)).pkg) ∧
      tokenLost (st_).pk (tokenOf (v.uni himpF.a 2)) = false) ∧
    (∃ v, Issues (st_ (setS 1 (BitVec.ofNat 64 badToken))) plainHdr 1 (huniNeed himpF 3 v) v ∧ v.act.any = true ∧
      (tokenOf (v.uni himpF.a 2)).scope > 5) :=
  ⟨meets (by decide +kernel), meets (by decide +kernel), meets (by decide +kernel), meets (by decide +kernel)⟩

theorem witness_BarrierArrivals :
    (∃ v, Issues st_ plainHdr 1 {} v ∧ v.act.any = true ∧ arriveBlocked (st_).pk v.grp 15 = false ∧
      arriveBlocked (st_).pk v.grp 17 = false ∧
      (blkOf st_ v).map (fun b => (b.groups, b.phases.getD 0 15)) = some ([v.g], v.grp.arr.getD 0 15)) ∧
    (∃ v, Issues (st_ id twoGroups) plainHdr 1 {} v ∧ v.act.any = true ∧ arriveBlocked (st_ id twoGroups).pk v.grp 15 = false ∧
      (blkOf (st_ id twoGroups) v).map (fun b => (b.groups, b.phases.getD 0 15)) = some ([v.g, 9], v.grp.arr.getD 0 15) ∧
      ((st_ id twoGroups).pk.groups.find? 9).map (fun y => y.arr.getD 0 15) = some (v.grp.arr.getD 0 15)) :=
  ⟨meets (by decide +kernel), meets (by decide +kernel)⟩

def frecF : HuniF := ⟨plainHdr, 0, .s 1⟩
def frecBad (v : View) : Mask :=
  Lanes.ofFn fun L => v.act.get L && (v.uniIn frecF.a 2 L % 64 != 0 || !canonical (v.uniIn frecF.a 2 L))

theorem witness_FlushPointsAndRecordCache :
    (∃ v, Issues detState plainHdr 1 { feature := some 0 } v ∧ v.act.any = true ∧ arriveBlocked detState.pk v.grp 16 = false ∧
      (blkOf detState v).map (fun b => (b.groups, b.det, b.phases.getD 0 16)) =
        some ([v.g], some (Det.fresh 0), v.grp.arr.getD 0 16) ∧
      ((detState.pk.ctxs.find? v.grp.ctx).map fun c =>
        (chkRange (Work.start detState) v.grp.ctx .store (slotVa c 0 + 8) 8).1) = some (.ok (keysFrom 0x100008 8))) ∧
    (∃ v, Issues (st_ (setS 1 0x40)) plainHdr 1 (frecNeed frecF v) v ∧ v.act.any = true ∧ (frecBad v).any = false) ∧
    (∃ v, Issues (st_ (setS 1 0x44)) plainHdr 1 (frecNeed frecF v) v ∧ v.act.any = true ∧ (frecBad v).any = true) :=
  ⟨meets (by decide +kernel), meets (by decide +kernel), meets (by decide +kernel)⟩

theorem witness_RegisterBlocks :
    (∃ v, Issues (st_ id quota) plainHdr 1 { feature := some 9 } v ∧ v.act.any = true ∧ v.grp.alloc + 64 * 13 > 1024) ∧
    (∃ v, Issues (st_ id quota) plainHdr 1 { feature := some 9 } v ∧ v.act.any = true ∧ v.grp.alloc + 64 * 12 ≤ 1024 ∧
      v.grp.xreq = none ∧ grantsNow (st_ id quota) v 12 = true) ∧
    (∃ v, Issues st_ plainHdr 1 { feature := some 9 } v ∧ v.act.any = true ∧ v.grp.alloc + 64 * 1 ≤ 1024 ∧
      v.grp.xreq = none ∧ grantsNow st_ v 1 = false) ∧
    (∃ v, Issues (st_ (fun g => { g with xreq := some ⟨1, 60, 0⟩ }) quota) plainHdr 1 { feature := some 9 } v ∧ v.act.any = true ∧
      v.grp.alloc + 64 * 1 ≤ 1024 ∧ v.grp.xreq.isSome = true) ∧
    (∃ v, Issues (st_ fun g => { g with ext := 2 }) plainHdr 1 { feature := some 9 } v ∧ v.act.any = true ∧ 2 ≤ v.grp.ext) ∧
    (∃ v, Issues st_ plainHdr 1 { feature := some 9 } v ∧ v.act.any = true ∧ v.grp.ext < 1) :=
  ⟨meets (by decide +kernel), meets (by decide +kernel), meets (by decide +kernel), meets (by decide +kernel),
    meets (by decide +kernel), meets (by decide +kernel)⟩

def ftakeF : DA := ⟨plainHdr, wd 5, wv 6⟩

theorem witness_FullBitInstructions :
    (∃ v, Issues (st_ (setV 6 77)) plainHdr 1 (fbitNeed ⟨plainHdr, 255⟩ v) v ∧ v.act.any = true) ∧
    (∃ v, Issues (st_ (setV 6 77)) plainHdr 1 (ftestNeed ⟨plainHdr, 3, 255⟩ v) v ∧ v.act.any = true) ∧
    (∃ v, Issues (st_ (setV 6 77)) plainHdr 1 (ftakeNeed ftakeF v) v ∧ v.act.any = true ∧ ftakeF.a.r ≠ ftakeF.d.r) :=
  ⟨meets (by decide +kernel), meets (by decide +kernel), meets (by decide +kernel)⟩

theorem witness_NoLaneNoGroupEffect :
    (∃ v, Issues (st_ off) offHdr 1 {} v ∧ v.act.any = false) ∧
    (∃ v, Issues (st_ off) offHdr 1 (hexpNeed ⟨offHdr, .pod, .v 20 false, 0⟩ v) v ∧ v.act.any = false) ∧
    (∃ v, Issues (st_ off) offHdr 1 (huniNeed ⟨offHdr, 3, .v 20 false⟩ 3 v) v ∧ v.act.any = false) ∧
    (∃ v, Issues (st_ off) offHdr 1 { feature := some 0 } v ∧ v.act.any = false) ∧
    (∃ v, Issues (st_ off) offHdr 1 { feature := some 9 } v ∧ v.act.any = false) :=
  ⟨meets (by decide +kernel), meets (by decide +kernel), meets (by decide +kernel), meets (by decide +kernel),
    meets (by decide +kernel)⟩

/-! ### Engines -/

def cpykF : CpykF := ⟨plainHdr, 0, .sys, 4, wv 1⟩
/-- A record that copies from global to local memory, with its barrier at 64. -/
def copyRec : List Byte :=
  [0, 0x10, 0, 0] ++ valBytes 4 0 ++ valBytes 8 0x20000 ++ valBytes 8 256 ++ valBytes 8 32 ++ valBytes 4 64 ++ valBytes 4 0 ++
    valBytes 8 5 ++ valBytes 16 0
def cpykState : State := localState 0 copyRec (setV 1 0)

def arrxF : ArrxF := ⟨plainHdr, 3, .s 1, .reg 2⟩
def arrxAt (left n : Nat) : State := localState 72 (valBytes 4 left) fun g => setS 2 (BitVec.ofNat 64 n) (setS 1 64 g)
def arrxState : Nat → State := arrxAt 1

def bwaitF : BwaitF := ⟨plainHdr, 0, .s 1, .imm 0, some (.s 3)⟩
/-- A barrier with its phase word; the promise is 5, and the time may be past it. -/
def bwaitState (phase late : Nat) : State :=
  localState 76 (valBytes 4 phase) (fun g => setS 3 5 (setS 1 64 g)) fun p => { p with cycle := BitVec.ofNat 64 late }

/-- An access that has not performed at the first 128 bytes of the block's local memory; and n requests in the engine. -/
def busyLocal : State → State := pk (outstanding [90] (keysFrom (localKey 2 0 0) 128))
def busyEngine (n : Nat) : State → State := pk fun p => { p with reqs := (List.range n).map fun i =>
  (200 + i, ⟨0, gi, 2, 4095, copyRec, 0, 0, .sys, ⟨[], []⟩, false, [], 0, none, none⟩) }

theorem witness_CopyRequestsKicked :
    ∀ e ∈ [(cpykState, true, 0), (busyEngine 250 cpykState, true, 250), (busyEngine 256 cpykState, true, 256),
        (busyLocal cpykState, false, 0)],
      ∃ v, Issues e.1 plainHdr 1 (cpykNeed cpykF v) v ∧ v.real.any = true ∧
        let w := (Work.start e.1).issued v (cpykNeed cpykF v)
        (∀ L, v.real.get L = true → (cpykRec cpykF v w L).toOption = some copyRec) ∧
          (accessWait e.1.pk v 0 (v.real.lanes.flatMap (cpykKeys cpykF v w)) false).isNone = e.2.1 ∧
          engineHolds e.1.pk v.grp.core = e.2.2 ∧ v.real.count = 8 := by
  simp only [List.forall_mem_cons]
  exact ⟨meets (by decide +kernel), meets (by decide +kernel), meets (by decide +kernel), meets (by decide +kernel), nofun⟩

theorem witness_CopiesAndByteBarriers :
    (∀ e ∈ [(1, false, false), (0, false, true), (1, true, false)],
      let s := (if e.2.1 then busyLocal else id) (arrxAt e.1 (2 ^ 40 - 1))
      ∃ v, Issues s plainHdr 1 (arrxNeed arrxF v) v ∧ v.real.any = true ∧ v.sop arrxF.b < 2 ^ 40 ∧
        let w := (Work.start s).issued v (arrxNeed arrxF v)
        chkLocal w v.grp.blk (v.uni arrxF.a 1) 32 = .ok (keysFrom (localKey 2 0 64) 32) ∧
          w.badAt (keysFrom (localKey 2 0 64) 32) = none ∧
          (accessWait s.pk v 0 (keysFrom (localKey 2 0 64) 32) true).isSome = e.2.1 ∧
          (fld (w.bytes (keysFrom (localKey 2 0 64) 32)) 8 4 == 0) = e.2.2) ∧
    (∃ v, Issues (ofHelpers (arrxState 1)) plainHdr 1 (arrxNeed arrxF v) v ∧ v.act.any = true ∧ v.real.any = false) ∧
    (∃ v, Issues (arrxState (2 ^ 40)) plainHdr 1 (arrxNeed arrxF v) v ∧ v.real.any = true ∧
      chkLocal ((Work.start (arrxState (2 ^ 40))).issued v (arrxNeed arrxF v)) v.grp.blk (v.uni arrxF.a 1) 32 =
        .ok (keysFrom (localKey 2 0 64) 32) ∧ 2 ^ 40 ≤ v.sop arrxF.b) ∧
    (∃ v, Issues (st_ off) offHdr 1 (arrxNeed arrxF v) v ∧ v.act.any = false) ∧
    (∀ x ∈ [(1, 0), (0, 0), (2 ^ 31, 0), (0, 2000)], ∃ v, Issues (bwaitState x.1 x.2) plainHdr 1 (bwaitNeed bwaitF v) v ∧
      v.act.any = true ∧ v.sop bwaitF.b < 2 ^ 31 ∧
      chkLocal ((Work.start (bwaitState x.1 x.2)).issued v (bwaitNeed bwaitF v)) v.grp.blk (v.uni bwaitF.a 1) 32 =
        .ok (keysFrom (localKey 2 0 64) 32) ∧
      ((Work.start (bwaitState x.1 x.2)).issued v (bwaitNeed bwaitF v)).badAt (keysFrom (localKey 2 0 64) 32) = none ∧
      accessWait (bwaitState x.1 x.2).pk v 0 (keysFrom (localKey 2 0 64) 32) false = none ∧
      let b := ((Work.start (bwaitState x.1 x.2)).issued v (bwaitNeed bwaitF v)).bytes (keysFrom (localKey 2 0 64) 32)
      barPhasePassed b (v.sop bwaitF.b) = (x.1 == 1) ∧ barErr b = (x.1 == 2 ^ 31) ∧
        promiseLate (bwaitState x.1 x.2) v bwaitF = (x.2 == 2000)) ∧
    (∀ e ∈ [(busyLocal (bwaitState 1 0), true), (pk (fun p => { p with badUnits := [localKey 2 0 64] }) (bwaitState 1 0), false)],
      ∃ v, Issues e.1 plainHdr 1 (bwaitNeed bwaitF v) v ∧ v.act.any = true ∧
        chkLocal ((Work.start e.1).issued v (bwaitNeed bwaitF v)) v.grp.blk (v.uni bwaitF.a 1) 32 =
          .ok (keysFrom (localKey 2 0 64) 32) ∧
        (((Work.start e.1).issued v (bwaitNeed bwaitF v)).badAt (keysFrom (localKey 2 0 64) 32)).isNone = e.2 ∧
        (accessWait e.1.pk v 0 (keysFrom (localKey 2 0 64) 32) false).isSome = e.2) := by
  refine ⟨?_, meets (by decide +kernel), meets (by decide +kernel), meets (by decide +kernel), ?_, ?_⟩ <;>
    simp only [List.forall_mem_cons]
  · exact ⟨meets (by decide +kernel), meets (by decide +kernel), meets (by decide +kernel), nofun⟩
  · exact ⟨meets (by decide +kernel), meets (by decide +kernel), meets (by decide +kernel), meets (by decide +kernel), nofun⟩
  · exact ⟨meets (by decide +kernel), meets (by decide +kernel), nofun⟩

def chainF : ChainF := ⟨plainHdr, 0, .sys, .s 1, 2⟩
def busyChan (p : Package) : Package :=
  { p with chans := p.chans.insert (chanKey 0 2) { chanOf p 0 2 with st := .walking } }
def pubF : HuniF := ⟨plainHdr, 0, .s 1⟩
/-- A published buffer whose object stands at 0x30000. -/
def pubs (p : Package) : Package := { p with pubs := [⟨0x1000000, 0x1000, 0x2000000, 0x3000000, 0x30000⟩] }
/-- A walk of core 5 has a record in hand that writes the shadow of the buffer; and one that writes the weight store of its die. -/
def walkWith (h : Hand) (p : Package) : Package :=
  let x : Chan := { Chan.fresh with st := .walking, next := 0x20000, ctx := 4095, lnch := 3, hand := some h }
  { p with chans := p.chans.insert (chanKey 5 1) x }
def shadowed : State := st_ (setS 1 0x30000) fun p => walkWith ⟨valBytes 128 0, [], 0x2000000, some 0x30000, false⟩ (pubs p)
def walkTo (a n : Nat) : Package → Package :=
  walkWith ⟨setFld (setFld (valBytes 128 0) 13 1 32) 32 8 n, [], a, none, false⟩
def wsState : State := st_ (setS 1 0x1FFFF8) wsGrant

theorem witness_ChannelsBuffersWeights :
    (∃ v, Issues (st_ (setS 1 0x20080)) plainHdr 1 (chainNeed chainF v) v ∧ v.real.any = true ∧ v.uni chainF.a 2 % 128 = 0 ∧
      canonical (v.uni chainF.a 2) = true ∧ (chanOf (st_ (setS 1 0x20080)).pk v.grp.core 2).busy = false) ∧
    (∃ v, Issues (st_ (setS 1 0x20040)) plainHdr 1 (chainNeed chainF v) v ∧ v.real.any = true ∧ v.uni chainF.a 2 % 128 ≠ 0) ∧
    (∃ v, Issues (st_ (setS 1 0x20080) busyChan) plainHdr 1 (chainNeed chainF v) v ∧ v.real.any = true ∧
      v.uni chainF.a 2 % 128 = 0 ∧ canonical (v.uni chainF.a 2) = true ∧
      (chanOf (st_ (setS 1 0x20080) busyChan).pk v.grp.core 2).busy = true) ∧
    (∃ v, Issues (st_ (setS 1 0x30000) pubs) plainHdr 1 (huniNeed pubF 8 v) v ∧ v.real.any = true ∧
      let o := pubOperand ((Work.start (st_ (setS 1 0x30000) pubs)).issued v (huniNeed pubF 8 v)) v.grp.ctx (v.uni pubF.a 2)
      o.1.toOption = some ⟨0x1000000, 0x1000, 0x2000000, 0x3000000, 0x30000⟩ ∧ pubReady o.2.pk v.grp 0x30000 0 = true) ∧
    (∃ v, Issues shadowed plainHdr 1 (huniNeed pubF 8 v) v ∧ v.real.any = true ∧
      let o := pubOperand ((Work.start shadowed).issued v (huniNeed pubF 8 v)) v.grp.ctx (v.uni pubF.a 2)
      o.1.toOption = some ⟨0x1000000, 0x1000, 0x2000000, 0x3000000, 0x30000⟩ ∧ pubReady o.2.pk v.grp 0x30000 0 = false) ∧
    (∃ v, Issues (st_ (setS 1 0x40000000) pubs) plainHdr 1 (huniNeed pubF 8 v) v ∧ v.real.any = true ∧
      (match (pubOperand ((Work.start (st_ (setS 1 0x40000000) pubs)).issued v (huniNeed pubF 8 v)) v.grp.ctx (v.uni pubF.a 2)).1 with
        | .error (.bad ..) => true
        | _ => false) = true) ∧
    (∀ e ∈ [(wsState, true), (pk (walkTo 0 (2 ^ 21)) wsState, false)],
      ∃ v, Issues e.1 plainHdr 1 (ldwNeed ldF v) v ∧ v.act.any = true ∧
        let r := checkLanes ((Work.start e.1).issued v (ldwNeed ldF v)) v fun L w =>
          (chkWs w v.grp.ctx 0 (v.ea ldF.mem L) 4 4, w)
        accessGoes v r .load 0 ∧
          (v.act.lanes.flatMap fun L => wsRegions r.2 v.grp.ctx 0 (v.ea ldF.mem L) 4).eraseDups = [(0, 0, 2 ^ 21)] ∧
          (touchRegions r.2 v.grp [(0, 0, 2 ^ 21)]).isOk = e.2) := by
  refine ⟨meets (by decide +kernel), meets (by decide +kernel), meets (by decide +kernel), meets (by decide +kernel),
    meets (by decide +kernel), meets (by decide +kernel), ?_⟩
  simp only [List.forall_mem_cons]
  exact ⟨meets (by decide +kernel), meets (by decide +kernel), nofun⟩

/-! ### Launches and items -/

def launchF : HuniF := ⟨plainHdr, 0, .s 1⟩
def fullQueue (g : Group) : Group := { setS 1 0x20000 g with plq := [90, 91, 92, 93] }
def lwaitF (n : Nat) : LwaitF := ⟨plainHdr, 0, .s 1, .imm (BitVec.ofNat 32 n)⟩
def launchState : State := st_ (setS 1 0x20000)
/-- An access that has not performed at the line of 0x20000; and one elsewhere, on the chain of handle 0. -/
def busyLines : State → State := pk (outstanding [90] (keysFrom 0x20000 4))
def onChain : State → State := pk fun p =>
  outstanding [90] (keysFrom 0x28000 4)
    { p with groups := p.groups.adjust gi fun g => g.setChain 0 { g.chain 0 with hist := [90] } }

/-- The 1 GiB at 0x40000000 lies at package 1; and a unit at 0x20000 that cannot be corrected. -/
def farPage (s : State) : State :=
  cells 0x2008 (valBytes 8 (2 ^ 42 + 0xDF)) (pk (fun p => { p with reach := [⟨0, 1, 2 ^ 44, 2 ^ 30, true⟩] }) s)
def farState : State := farPage (st_ (setS 1 0x40000000))
def lostLine : State → State := pk fun p => { p with badUnits := [0x20000] }

theorem witness_LaunchInstructions :
    (∀ e ∈ [(launchState, 0, true, false), (st_ fullQueue, 4, true, false), (onChain launchState, 0, false, false),
        (busyLines launchState, 0, true, true)],
      ∃ v, Issues e.1 plainHdr 1 (launchNeed launchF v) v ∧ v.real.any = true ∧ v.uni launchF.a 2 % 64 = 0 ∧
        canonical (v.uni launchF.a 2) = true ∧
        (chkRange ((Work.start e.1).issued v (launchNeed launchF v)) v.grp.ctx .load (v.uni launchF.a 2) 256).1 =
          .ok (keysFrom 0x20000 256) ∧ v.grp.plq.length = e.2.1 ∧ (chainRelease e.1.pk v.grp 0).met e.1.pk = e.2.2.1 ∧
        (accessWait e.1.pk v 0 (keysFrom 0x20000 256) false).isSome = e.2.2.2 ∧ anyAbroad e.1.pk (keysFrom 0x20000 256) = false ∧
        ((Work.start e.1).issued v (launchNeed launchF v)).badAt (keysFrom 0x20000 256) = none) ∧
    (∃ v, Issues (lostLine launchState) plainHdr 1 (launchNeed launchF v) v ∧ v.real.any = true ∧ v.grp.plq.length < 4 ∧
      (chainRelease (lostLine launchState).pk v.grp 0).met (lostLine launchState).pk = true ∧
      accessWait (lostLine launchState).pk v 0 (keysFrom 0x20000 256) false = none ∧
      (((Work.start (lostLine launchState)).issued v (launchNeed launchF v)).badAt (keysFrom 0x20000 256)).isSome = true) ∧
    (∃ v, Issues farState plainHdr 1 (launchNeed launchF v) v ∧ v.real.any = true ∧ v.uni launchF.a 2 % 64 = 0 ∧
      canonical (v.uni launchF.a 2) = true ∧ v.grp.plq.length < 4 ∧ (chainRelease farState.pk v.grp 0).met farState.pk = true ∧
      (chkRange ((Work.start farState).issued v (launchNeed launchF v)) v.grp.ctx .load (v.uni launchF.a 2) 256).1 =
        .ok (keysFrom (2 ^ 44) 256) ∧ anyAbroad farState.pk (keysFrom (2 ^ 44) 256) = true ∧ roomWait farState.pk v 0 = none) ∧
    (∃ v, Issues (st_ (setS 1 0x20020)) plainHdr 1 (launchNeed launchF v) v ∧ v.real.any = true ∧
      v.uni launchF.a 2 % 64 ≠ 0) ∧
    (∀ e ∈ [(launchState, 0, false), (launchState, 1, false), (busyLines launchState, 0, true)],
      ∃ v, Issues e.1 plainHdr 1 (lwaitNeed (lwaitF e.2.1) v) v ∧ v.act.any = true ∧
        v.uni (lwaitF e.2.1).a 2 % 8 = 0 ∧ canonical (v.uni (lwaitF e.2.1).a 2) = true ∧
        let r := chkGlobal ((Work.start e.1).issued v (lwaitNeed (lwaitF e.2.1) v)) v.grp.ctx .load (v.uni (lwaitF e.2.1).a 2) 8 8
        r.1 = .ok (keysFrom 0x20000 8) ∧ (acquireWait e.1.pk v 0 .sys (keysFrom 0x20000 8)).isSome = e.2.2 ∧
          anyAbroad e.1.pk (keysFrom 0x20000 8) = false ∧ r.2.badAt (keysFrom 0x20000 8) = none ∧
          bytesVal (seenBytes r.2 v (keysFrom 0x20000 8)) = 0 ∧ lwaitTarget (lwaitF e.2.1) v = e.2.1) ∧
    (∃ v, Issues (lostLine launchState) plainHdr 1 (lwaitNeed (lwaitF 0) v) v ∧ v.act.any = true ∧
      acquireWait (lostLine launchState).pk v 0 .sys (keysFrom 0x20000 8) = none ∧
      (((Work.start (lostLine launchState)).issued v (lwaitNeed (lwaitF 0) v)).badAt (keysFrom 0x20000 8)).isSome = true) ∧
    (∃ v, Issues farState plainHdr 1 (lwaitNeed (lwaitF 0) v) v ∧ v.act.any = true ∧
      (chkGlobal ((Work.start farState).issued v (lwaitNeed (lwaitF 0) v)) v.grp.ctx .load (v.uni (lwaitF 0).a 2) 8 8).1 =
        .ok (keysFrom (2 ^ 44) 8) ∧ anyAbroad farState.pk (keysFrom (2 ^ 44) 8) = true ∧ roomWait farState.pk v 0 = none) ∧
    (∃ v, Issues (st_ (setS 1 0x20004)) plainHdr 1 (lwaitNeed (lwaitF 0) v) v ∧ v.act.any = true ∧
      v.uni (lwaitF 0).a 2 % 8 ≠ 0) := by
  refine ⟨?_, meets (by decide +kernel), meets (by decide +kernel), meets (by decide +kernel), ?_, meets (by decide +kernel),
    meets (by decide +kernel), meets (by decide +kernel)⟩ <;> simp only [List.forall_mem_cons]
  · exact ⟨meets (by decide +kernel), meets (by decide +kernel), meets (by decide +kernel), meets (by decide +kernel), nofun⟩
  · exact ⟨meets (by decide +kernel), meets (by decide +kernel), meets (by decide +kernel), nofun⟩

/-- The placed group runs item 20 in lane 0 and item 21 in lane 1, in one flow; 21 stands behind 20. -/
def itemOf (seq : W32) (L : Nat) : Item := ⟨3, 7, .o, seq, [0, 0, 0], false, true, false, [], some (gi, L)⟩
def items (p : Package) : Package :=
  { p with
    items := [(20, itemOf 0 0), (21, itemOf 1 1)]
    flows := [⟨3, 7, 2, [⟨20, 0, false, []⟩, ⟨21, 1, false, []⟩], [], none, false⟩] }
def itemLanes (g : Group) : Group :=
  (setV 5 9 (setS 1 0x20000 g)).updLanes fun L l => { l with item := if L = 0 then some 20 else if L = 1 then some 21 else none }
def itemState (m : Byte) : State := st_ (fun g => lanes m (itemLanes g)) items
def relabelF (c : ICls) : RelabelF := ⟨offHdr, c, wv 5⟩

theorem witness_ItemInstructions :
    (∃ v, Issues (itemState 3) offHdr 1 (itemidNeed ⟨offHdr, 8⟩ v) v ∧ (v.grp.lane 0).st = .live ∧
      (v.grp.lane 0).item = some 20 ∧ (itemState 3).pk.items.find? 20 = some (itemOf 0 0) ∧ (v.grp.lane 2).item = none) ∧
    (∃ v, Issues (itemState 3) offHdr 1 (itemsNeed v) v ∧ (itemless v).any = false ∧ awaitsTurn (itemState 3) v 1 = true ∧
      awaitsTurn (itemState 3) v 0 = false ∧ v.grp.running.get 1 = true) ∧
    (∃ v, Issues (itemState 7) offHdr 1 (itemsNeed v) v ∧ (itemless v).any = true) ∧
    (∀ c ∈ [ICls.o, .a], ∃ v, Issues (itemState 3) offHdr 1 (relabelNeed (relabelF c) v) v ∧ (itemless v).any = false ∧
      lanesLeft (itemState 3) v (relabelF c) = [] ∧ v.real.get 0 = true ∧ v.grp.running.get 0 = true ∧
      ∀ K, v.real.get K = true → (v.grp.lane K).item = some 20 → K = 0) ∧
    (∃ v, Issues (itemState 3) offHdr 1 (itemsNeed v) v ∧ (itemless v).any = false ∧
      (v.grp.exit (v.grp.leaving v.act)).running.any = true) := by
  refine ⟨meets (by decide +kernel), meets (by decide +kernel), meets (by decide +kernel), ?_, meets (by decide +kernel)⟩
  simp only [List.forall_mem_cons]
  exact ⟨meets (by decide +kernel), meets (by decide +kernel), nofun⟩

def ienqF : IenqF := ⟨offHdr, 0, ⟨16, false⟩, ⟨.s 1, none, 0⟩⟩

/-- The result buffer of core 0 is full. -/
def fullResults (p : Package) : Package :=
  let h : Held := ⟨0, 7, 5, 0x20000, keysFrom 0x20000 4, 4, 0, .core, .plain, [1, 2, 3, 4], 0, 4095, [], [], false, none⟩
  { p with items := p.items ++ [(30, { itemOf 5 0 with held := List.replicate 1024 h })] }
/-- The lanes of an item state are helpers, or its block is of a DET launch. -/
def helpState : State := ofHelpers (itemState 1)
def detItems : State := inDet_ (itemState 1)

theorem witness_OrderedOutputs :
    (∃ v, Issues (itemState 1) offHdr 1 (memNeed stordF false v) v ∧ v.real.any = true ∧
      accessGoes v (stordChecks (itemState 1) v stordF) .store 0 ∧ noneHolds (itemState 1) v ∧
      stagedBlk (stordChecks (itemState 1) v stordF).2 v.grp = none ∧ resultRoom (itemState 1).pk v.grp.core 0 = true) ∧
    (∀ e ∈ [(2, false, true), (2, true, false), (3, false, true), (3, true, false)],
      let s := (if e.2.1 then pk fullResults else id) (itemState e.1)
      ∃ v, Issues s offHdr 1 (memNeed stordF false v) v ∧ v.real.any = true ∧ accessGoes v (stordChecks s v stordF) .store 0 ∧
        stagedBlk (stordChecks s v stordF).2 v.grp = none ∧
        let held : Mask := Lanes.ofFn fun L => v.real.get L && (holdsResults s.pk v.grp L).isSome
        held.lanes = [1] ∧ (Mask.diff v.real held).any = (e.1 == 3) ∧ resultRoom s.pk v.grp.core held.count = e.2.2) ∧
    (∃ v, Issues detItems offHdr 1 (memNeed stordF false v) v ∧ v.real.any = true ∧ noneHolds detItems v ∧
      let r := stordChecks detItems v stordF
      accessGoes v r .store 0 ∧ (detOf r.2 v.grp).map (fun d => decide (slotRoom r.2 v d)) = some true ∧
        resultRoom detItems.pk v.grp.core 0 = true) ∧
    (∃ v, Issues helpState offHdr 1 (memNeed stordF false v) v ∧ v.act.any = true ∧ v.real.any = false ∧
      accessGoes v (stordChecks helpState v stordF) .store 0 ∧ resultRoom helpState.pk v.grp.core 0 = true) ∧
    (∃ v, Issues (st_ off) offHdr 1 (memNeed stordF false v) v ∧ v.act.any = false) := by
  refine ⟨meets (by decide +kernel), ?_, meets (by decide +kernel), meets (by decide +kernel), meets (by decide +kernel)⟩
  simp only [List.forall_mem_cons]
  exact ⟨meets (by decide +kernel), meets (by decide +kernel), meets (by decide +kernel), meets (by decide +kernel), nofun⟩

theorem witness_OrderedOutputs_pushes :
    (∃ v, Issues (itemState 1) offHdr 1 (memNeed stordF false v) v ∧ v.real.any = true ∧
      accessGoes v (descChecks (itemState 1) v (memNeed stordF false v) stordF.mem) .store 0 ∧ noneHolds (itemState 1) v ∧
      detOf (descChecks (itemState 1) v (memNeed stordF false v) stordF.mem).2 v.grp = none ∧
      resultRoom (itemState 1).pk v.grp.core 0 = true) ∧
    (∃ v, Issues (itemState 2) offHdr 1 (memNeed stordF false v) v ∧ v.real.any = true ∧
      accessGoes v (descChecks (itemState 2) v (memNeed stordF false v) stordF.mem) .store 0 ∧ allHold (itemState 2) v ∧
      detOf (descChecks (itemState 2) v (memNeed stordF false v) stordF.mem).2 v.grp = none) ∧
    (∃ v, Issues detItems offHdr 1 (memNeed stordF false v) v ∧ v.real.any = true ∧
      let r := descChecks detItems v (memNeed stordF false v) stordF.mem
      accessGoes v r .store 0 ∧ (detOf r.2 v.grp).map (fun d => decide (slotRoom r.2 v d)) = some true) ∧
    (∃ v, Issues helpState offHdr 1 (memNeed stordF false v) v ∧ v.act.any = true ∧ v.real.any = false ∧
      accessGoes v (descChecks helpState v (memNeed stordF false v) stordF.mem) .store 0) ∧
    (∃ v, Issues (itemState 1) offHdr 1 (ienqNeed ienqF v) v ∧ v.real.any = true ∧
      accessGoes v (descChecks (itemState 1) v (ienqNeed ienqF v) ienqF.mem) .store 0) ∧
    (∃ v, Issues helpState offHdr 1 (ienqNeed ienqF v) v ∧ v.act.any = true ∧ v.real.any = false ∧
      accessGoes v (descChecks helpState v (ienqNeed ienqF v) ienqF.mem) .store 0) ∧
    (∃ v, Issues (st_ off) offHdr 1 (ienqNeed ienqF v) v ∧ v.act.any = false) :=
  ⟨meets (by decide +kernel), meets (by decide +kernel), meets (by decide +kernel), meets (by decide +kernel),
    meets (by decide +kernel), meets (by decide +kernel), meets (by decide +kernel)⟩

/-! ### Names, counters, the system, collectives -/

def named : State := after (at_ (.nacq ⟨plainHdr, 4⟩))
def nlookF : SpairF := ⟨plainHdr, 3, 1⟩
def nlooks (x : Nat) : State := { named with pk := { named.pk with groups := named.pk.groups.adjust gi (setS 1 (BitVec.ofNat 64 x)) } }
def fryF : FryF := ⟨plainHdr, 0, 40, .s 2, wv 2⟩

theorem witness_FerryInstructions :
    (∃ v, Issues named plainHdr 1 (ferryNeed v) v ∧ v.act.any = true ∧ (groupName named.pk v.grp).isSome = true) ∧
    (∃ v, Issues st_ plainHdr 1 (ferryNeed v) v ∧ v.act.any = true ∧ groupName (st_).pk v.grp = none ∧
      nextName (st_).pk = some 0) ∧
    (∃ v, Issues (nlooks 0) plainHdr 1 (ferryNeed v) v ∧ v.act.any = true ∧
      ((nlooks 0).pk.launches.find? v.grp.lnch).map (fun l => (l.isItems, l.blockCount, l.groupCount,
        (groupOfLaunch (nlooks 0).pk l (v.s 1 % 2 ^ 32) (v.s 1 / 2 ^ 32 % 2 ^ 10)).map Prod.fst)) =
          some (false, 1, 1, some gi) ∧ (groupName (nlooks 0).pk v.grp).isSome = true) ∧
    (∃ v, Issues (nlooks 1) plainHdr 1 (ferryNeed v) v ∧ v.act.any = true ∧
      ((nlooks 1).pk.launches.find? v.grp.lnch).map Launch.blockCount = some 1 ∧ v.s 1 % 2 ^ 32 = 1) ∧
    (∃ v, Issues (st_ (setS 2 0x123)) plainHdr 1 (fryNeed fryF v) v ∧ v.real.any = true ∧ v.uni fryF.a 2 / 2 ^ 48 = 0 ∧
      roomWait (st_ (setS 2 0x123)).pk v 0 = none) ∧
    (∃ v, Issues (st_ (setS 2 0x1000000000000)) plainHdr 1 (fryNeed fryF v) v ∧ v.real.any = true ∧
      v.uni fryF.a 2 / 2 ^ 48 ≠ 0) :=
  ⟨meets (by decide +kernel), meets (by decide +kernel), meets (by decide +kernel), meets (by decide +kernel),
    meets (by decide +kernel), meets (by decide +kernel)⟩

/-- The firmware's context has selected an event for counter 8. -/
def selects (p : Package) : Package := { p with ctxs := p.ctxs.adjust 4095 fun c => { c with pmev := c.pmev.insert 8 3 } }

theorem witness_CountersAndMarks :
    (∃ v, Issues st_ plainHdr 1 { writes := UDst.wrs (.s 3) 2 } v ∧ v.act.any = true) ∧
    (∃ v, Issues st_ plainHdr 1 { writes := UDst.wrs (.v 127 false) 2 } v ∧ v.act.any = true) ∧
    (∃ v, Issues (st_ id selects) plainHdr 1 {} v ∧ v.act.any = true ∧
      ((st_ id selects).pk.ctxs.find? v.grp.ctx).map (fun c => (FMap.getD c.pmev 0 8, FMap.getD c.pmev 0 9)) = some (3, 0)) ∧
    (∃ v, Issues st_ plainHdr 1 { feature := some 7 } v ∧ v.act.any = true ∧
      ((st_).pk.launches.find? v.grp.lnch).isSome = true ∧ ((st_).pk.ctxs.find? v.grp.ctx).map Ctx.tring = some 0) :=
  ⟨meets (by decide +kernel), meets (by decide +kernel), meets (by decide +kernel), meets (by decide +kernel)⟩

def noRight : State := st_ id (opts 0)
/-- The record of `tlbinv`: the first 4 KiB of the firmware's context. -/
def tlbRec : List Byte := valBytes 8 0 ++ valBytes 8 4096 ++ valBytes 2 4095 ++ valBytes 14 0
def tlbState : State := cells 0x20000 tlbRec (st_ (setS 1 0x20000))

theorem witness_SystemAndTlbInstructions :
    (∃ v, Issues noRight plainHdr 1 {} v ∧ v.act.any = true ∧ hasRight noRight v 3 = false ∧ hasRight noRight v 4 = false ∧
      hasRight noRight v 5 = false) ∧
    (∃ v, Issues st_ plainHdr 1 {} v ∧ v.act.any = true ∧ hasRight st_ v 3 = true ∧ hasRight st_ v 5 = true ∧
      groupTxns (st_).pk v.g = [] ∧ (st_).pk.evword = 0 ∧ sysregReadOnly 0x020 = false ∧ sysregReadOnly 0x022 = true) ∧
    (∃ v, Issues (st_ id fun p => { p with evword := 31, ctxsel := 4095 }) plainHdr 1 {} v ∧ v.act.any = true ∧
      hasRight (st_ id fun p => { p with evword := 31, ctxsel := 4095 }) v 5 = true ∧
      groupTxns (st_ id fun p => { p with evword := 31, ctxsel := 4095 }).pk v.g = []) ∧
    (∃ v, Issues tlbState plainHdr 1 {} v ∧ v.act.any = true ∧ hasRight tlbState v 4 = true ∧ groupTxns tlbState.pk v.g = [] ∧
      v.s 1 % 32 = 0 ∧ canonical (v.s 1) = true ∧
      let r := chkGlobal (fenceChains ((Work.start tlbState).issued v {}) v.g (some .sys)) v.grp.ctx .load (v.s 1) 32 32
      r.1 = .ok (keysFrom 0x20000 32) ∧ r.2.badAt (keysFrom 0x20000 32) = none ∧
        r.2.bytes (keysFrom 0x20000 32) = tlbRec ∧ (tlbState.pk.ctxs.find? 4095).map Ctx.st = some .live ∧
        usersOf tlbState.pk 4095 (r.2.pk.tlb.filter fun e => e.hit 4095 0 0 4096) = [] ∧ tlbState.pk.dropped = [] ∧
        ∀ e ∈ tlbState.pk.groups, e.2.ctx = 4095 → e.2.susp = none) :=
  ⟨meets (by decide +kernel), meets (by decide +kernel), meets (by decide +kernel), meets (by decide +kernel)⟩

def collF : CollF := ⟨plainHdr, 0, .allred, .s 1⟩
/-- A record of an all-reduce of two words over two members, with its state word; the member set is at 0x20100. -/
def collRec (st : Nat) : List Byte :=
  valBytes 8 0x20100 ++ valBytes 8 77 ++ valBytes 8 0x40000 ++ valBytes 8 0x30000 ++ valBytes 4 2 ++ valBytes 4 0 ++
    valBytes 4 st ++ valBytes 4 0 ++ valBytes 8 100 ++ valBytes 72 0
def memberSet : List Byte := valBytes 2 2 ++ valBytes 2 1 ++ valBytes 4 0 ++ valBytes 8 0x20200 ++ valBytes 8 0x1000 ++ valBytes 40 0
def collState (st : Nat) : State :=
  cells 0x20200 (valBytes 8 0x50000 ++ valBytes 8 0x60000) (cells 0x20100 memberSet (cells 0x20000 (collRec st)
    (st_ (fun g => setS 2 0x20100 (setS 1 0x20000 (setS 3 0x60000 g))) pubs)))
def mcstF : McstF := ⟨plainHdr, 0, 2, .s 3, 0, wv 1⟩

/-- What an instruction's read of a record sees. -/
def recSeen (w : Work) (v : View) (h va n al : Nat) : Option (List Byte × Work) :=
  match chkRange w v.grp.ctx .load va n with
  | (.ok ks, w) =>
    if va % al = 0 ∧ accessWait w.pk v h ks false = none ∧ w.badAt ks = none then
      some (seenBytes w v ks, noteMet w v.g h v.grp.core ks)
    else none
  | _ => none

theorem recSeen_reads {w w' : Work} {v : View} {h va n al : Nat} {r : List Byte} (e : recSeen w v h va n al = some (r, w')) :
    ReadsRecord w v h va n al r w' := by
  unfold recSeen at e
  split at e
  · rename_i ks w1 hc
    split at e
    · rename_i hp
      cases e
      exact ⟨hp.1, ks, w1, hc, hp.2.1, hp.2.2, rfl, rfl⟩
    · cases e
  · cases e

/-- The lanes' addresses lie in each member's region, and the queue has room. -/
def copyGoes (v : View) (w : Work) : Bool :=
  let c := checkLanes w v fun L w => mcstLane w v.grp.ctx memberSet [0x50000, 0x60000] (mcstEa mcstF v L)
  (accessFault v c.1 .store).isNone && (roomWait c.2.pk v 0).isNone

theorem witness_CollectiveInstructions :
    (∃ v, Issues (collState 0) plainHdr 1 (huniNeed2 collF.a v) v ∧ v.real.any = true ∧
      let a := recSeen ((Work.start (collState 0)).issued v (huniNeed2 collF.a v)) v 0 (v.uni collF.a 2) 128 128
      let b := a.bind fun a => recSeen a.2 v 0 0x20100 64 64
      let c := b.map fun b => (pubObject b.2 v.grp.ctx 0x30000).1.toOption
      a.map Prod.fst = some (collRec 0) ∧ b.map Prod.fst = some memberSet ∧
        c = some (some ⟨0x1000000, 0x1000, 0x2000000, 0x3000000, 0x30000⟩) ∧ collOk .allred (collRec 0) memberSet = true ∧
        cMset (collRec 0) = 0x20100 ∧ cDst (collRec 0) = 0x30000 ∧ (collState 0).pk.colls = [] ∧
        outCount .allred 2 (cCount (collRec 0)) * elemBytes .allred (cType (collRec 0)) ≤ 0x1000) ∧
    (∀ e ∈ [(collState 0, 0), (collState 1, 1), (collState 2, 2)],
      ∃ v, Issues e.1 plainHdr 1 (huniNeed2 collF.a v) v ∧ v.act.any = true ∧
        (recSeen ((Work.start e.1).issued v (huniNeed2 collF.a v)) v 0 (v.uni collF.a 2) 128 128).map Prod.fst =
          some (collRec e.2) ∧ fld (collRec e.2) 40 4 = e.2) ∧
    (∃ v, Issues (busyLines (collState 0)) plainHdr 1 (huniNeed2 collF.a v) v ∧ v.act.any = true ∧ v.uni collF.a 2 % 128 = 0 ∧
      let r := chkRange ((Work.start (busyLines (collState 0))).issued v (huniNeed2 collF.a v)) v.grp.ctx .load (v.uni collF.a 2) 128
      r.1 = .ok (keysFrom 0x20000 128) ∧ (accessWait r.2.pk v 0 (keysFrom 0x20000 128) false).isSome = true) ∧
    (∃ v, Issues (collState 0) plainHdr 1 (mcstNeed mcstF v) v ∧ v.real.any = true ∧ msetOk memberSet = true ∧
      let a := recSeen ((Work.start (collState 0)).issued v (mcstNeed mcstF v)) v 0 (v.s mcstF.set) 64 64
      let b := a.bind fun a => recSeen a.2 v 0 0x20200 16 8
      a.map Prod.fst = some memberSet ∧ b.map Prod.fst = some (valBytes 8 0x50000 ++ valBytes 8 0x60000) ∧
        b.all (fun b => copyGoes v b.2) = true) := by
  refine ⟨meets (by decide +kernel), ?_, meets (by decide +kernel), meets (by decide +kernel)⟩
  simp only [List.forall_mem_cons]
  exact ⟨meets (by decide +kernel), meets (by decide +kernel), meets (by decide +kernel), nofun⟩

/-! ### Matrices -/

/-- The matrix unit of partition 0 has sixteen commands. -/
def fullUnit (p : Package) : Package :=
  { p with mx := p.mx.insert (mxKey 0 0) { mxUnit p 0 0 with queue := List.replicate 16 ⟨gi, .zero 0, 0, 0, [], 0⟩ } }
def mxmulF (src : MxSrc) : MxmulF := ⟨plainHdr, 15, src, 1, .a8, 0, 0, .e4m3⟩
/-- A row of eight blocks in local memory, each a block of e4m3. -/
def mulState : State :=
  localState 0 ((List.range 8).flatMap fun _ => (0x20 : Byte) :: List.replicate 63 0) (setS 1 0)
theorem witness_MatrixRegionsAndSaves :
    (∃ v, Issues st_ plainHdr 1 (mxzNeed ⟨plainHdr, 15⟩ v) v ∧ unitRoom st_ v) ∧
    (∃ v, Issues (st_ id fullUnit) plainHdr 1 (mxzNeed ⟨plainHdr, 15⟩ v) v ∧ ¬unitRoom (st_ id fullUnit) v) ∧
    (∃ v, Issues st_ plainHdr 1 (mxrdNeed ⟨plainHdr, 240, 0, 128, 15, .f32⟩ v) v ∧ unitRoom st_ v) ∧
    (∃ v, Issues st_ plainHdr 1 (mxwrNeed ⟨plainHdr, 0, wv 240, 128, 15⟩ v) v ∧ unitRoom st_ v) ∧
    (∃ v, Issues st_ plainHdr 1 (mxmulNeed (mxmulF (.region 14)) v) v ∧ unitRoom st_ v ∧ (14 : BitVec 4) ≠ (mxmulF (.region 14)).d) ∧
    (∃ v, Issues st_ plainHdr 1 (mxmulNeed (mxmulF (.region 15)) v) v ∧ (15 : BitVec 4) = (mxmulF (.region 15)).d) ∧
    (∃ v, Issues st_ plainHdr 1 {} v ∧ v.act.any = true) :=
  ⟨meets (by decide +kernel), meets (by decide +kernel), meets (by decide +kernel), meets (by decide +kernel),
    meets (by decide +kernel), meets (by decide +kernel), meets (by decide +kernel)⟩

theorem witness_MatrixMemoryCommands_mxmul :
    ∃ v, Issues mulState plainHdr 1 (mxmulNeed (mxmulF (.mem (.s 1))) v) v ∧ unitRoom mulState v ∧
      blocksNow ((Work.start mulState).issued v (mxmulNeed (mxmulF (.mem (.s 1))) v)) v (v.uni (.s 1) 1) 8 .e4m3
        (keysFrom (localKey 2 0 0) 512) := meets (by decide +kernel)

/-! ### Images of many blocks, shown without evaluating their bytes -/

/-- What the instruction sees, where it issues. -/
def seen (s : State) (h : Hdr) (n : Nat) : View :=
  (viewOf (Work.start s) h n).getD ⟨0, Group.fresh 0 0 0 0 0 0 0 0 64 0 0 0 8 [] [] [], Mask.none, Mask.none, 0, 0⟩

theorem seen_issues {s : State} {h : Hdr} {n : Nat} {need : View → Need}
    (hk : ((viewOf (Work.start s) h n).isSome && (preIssue (gateOpen s.neg (seen s h n) (need (seen s h n))) (seen s h n)
      (need (seen s h n))).isNone && (seen s h n).grp.running.any) = true) :
    Issues s h n (need (seen s h n)) (seen s h n) := by
  simp only [Bool.and_eq_true, Option.isNone_iff_eq_none, Option.isSome_iff_exists] at hk
  obtain ⟨⟨⟨v, hv⟩, h2⟩, h3⟩ := hk
  exact ⟨by rw [hv, seen, hv]; rfl, h2, h3⟩

theorem keysFrom_append (K m n : Nat) : keysFrom K m ++ keysFrom (K + m) n = keysFrom K (m + n) := by
  simp only [keysFrom, List.range_add, List.map_append, List.map_map, Function.comp_def, Nat.add_assoc]

/-- Checks of consecutive blocks that pass and change nothing give the keys of them all. -/
theorem checkBlocks_ok {w : Work} {base K n : Nat} {f : Work → Nat → Chk × Work}
    (h : ∀ i < n, f w ((base + 64 * i) % 2 ^ 64) = (.ok (keysFrom (K + 64 * i) 64), w)) :
    checkBlocks w base (64 * n) f = (.ok (keysFrom K (64 * n)), w) := by
  rw [checkBlocks, Nat.mul_div_cancel_left _ (by decide)]
  induction n with
  | zero => rfl
  | succ n ih =>
    rw [List.range_succ, List.foldl_append, ih fun i hi => h i (by omega)]
    simp only [List.foldl_cons, List.foldl_nil, h n (by omega), Chk.andThen, keysFrom_append]
    rfl

/-- One byte at the start of each of n blocks from K. -/
def blocksAt (K : Nat) (c : Byte) : Nat → Memory
  | 0 => []
  | n + 1 => blocksAt K c n ++ [(K + 64 * n, c)]

theorem find_append (a b : Memory) (k : Nat) : FMap.find? (a ++ b) k = (FMap.find? a k).or (FMap.find? b k) := by
  induction a with
  | nil => rfl
  | cons e a ih =>
    simp only [List.cons_append, FMap.find?]
    split
    · rfl
    · exact ih

theorem find_blocksAt (K : Nat) (c : Byte) (n i j : Nat) (hj : j < 64) :
    FMap.find? (blocksAt K c n) (K + 64 * i + j) = if i < n ∧ j = 0 then some c else none := by
  induction n with
  | zero => rfl
  | succ n ih =>
    rw [blocksAt, find_append, ih]
    simp only [FMap.find?]
    split <;> split <;> split <;> first | rfl | omega

/-- The bytes of the blocks, where nothing is written and nothing is published. -/
theorem block_byte {w : Work} {m : Memory} {K n : Nat} {c : Byte} (hb : w.base = m ++ blocksAt K c n) (hw : w.wr = [])
    (hp : w.pk.pubs = []) (hm : ∀ k, K ≤ k → FMap.find? m k = none) (hc : Config.unwrittenByte = 0) (o : Nat)
    (ho : o < 64 * n) : (w.bytes (keysFrom K (64 * n))).getD o 0 = if o % 64 = 0 then c else 0 := by
  have e : w.byte (K + o) = if o % 64 = 0 then c else 0 := by
    have : K + o = K + 64 * (o / 64) + o % 64 := by omega
    simp only [Work.byte, Work.home, hp, List.find?_nil, Work.raw, hw, Mem.byte, hb, FMap.getD]
    rw [find_append, hm _ (by omega), this, find_blocksAt _ _ _ _ _ (by omega), hc]
    have : o / 64 < n := by omega
    simp only [this, true_and, Option.none_or]
    split <;> rfl
  rw [← e]
  simp only [Work.bytes, keysFrom, List.map_map, List.getD_eq_getElem?_getD, List.getElem?_map, List.getElem?_range ho]
  rfl

/-- Blocks that all carry an accepted code are in order. -/
theorem badBlock_none {bs : List Byte} {n : Nat} {c : Byte} {offs : List Nat} {ok : Nat → BFmt → Bool} (b : BFmt)
    (hf : bfmtOfCode c.toNat = some b)
    (h : ∀ o < 64 * n, bs.getD o 0 = if o % 64 = 0 then c else 0) (ho : ∀ o ∈ offs, ∃ k < n, o = 64 * k)
    (hok : ∀ o ∈ offs, ok o b = true) : badBlock bs offs ok = none := by
  rw [badBlock, List.find?_eq_none]
  intro o hm
  obtain ⟨k, hk, rfl⟩ := ho o hm
  have g (j : Nat) (hj : j < 64) : ((bs.drop (64 * k)).take 64).getD j 0 = if j = 0 then c else 0 := by
    have := h (64 * k + j) (by omega)
    simp only [List.getD_eq_getElem?_getD, List.getElem?_take, hj, if_true, List.getElem?_drop] at this ⊢
    rw [this]
    have : (64 * k + j) % 64 = j := by omega
    rw [this]
  simp only [blockFmt, g 0 (by decide), g 62 (by decide), g 63 (by decide), if_true, hf, hok _ hm]
  simp

/-- Reads of sound bytes in a quiet machine meet nothing. -/
theorem quiet_reads {w : Work} {v : View} {K n : Nat} (h1 : roomWait w.pk v 0 = none)
    (h3 : (readAfter w (readTxn v (.sload 0 .i64 v.act) 0 (keysFrom K n))).1 = ⟨[], []⟩)
    (h4 : K + n ≤ 2 ^ 57 ∨ 2 ^ 58 ≤ K ∨ K / 2 ^ 17 % 32 ≠ w.pk.cycle.toNat / 2048 % 32 ∧ K % 2 ^ 17 + n ≤ 2 ^ 17)
    (h5 : w.pk.badUnits = []) (h6 : w.pk.portsDown = []) : readsNow w v (keysFrom K n) := by
  have mem (k : Nat) (hk : k ∈ keysFrom K n) : K ≤ k ∧ k < K + n := by
    simp only [keysFrom, List.mem_map, List.mem_range] at hk
    omega
  refine ⟨h1, h3, ?_, ?_⟩
  · rw [refreshing, List.any_eq_false]
    intro k hk
    have := mem k hk
    simp only [Bool.and_eq_true, decide_eq_true_eq, beq_iff_eq]
    rintro ⟨⟨a, b⟩, c⟩
    have : 2 ^ 57 + 2 ^ 57 = 2 ^ 58 := by decide
    have : k / 2 ^ 17 = K / 2 ^ 17 ∨ 2 ^ 58 ≤ K ∨ K + n ≤ 2 ^ 57 := by omega
    rcases h4 with h | h | h
    · omega
    · omega
    · have e : k / 2 ^ 17 = K / 2 ^ 17 := by omega
      rw [e] at c
      exact h.1 c
  · simp only [Work.badAt, Work.badKey, badKey, h5, List.find?_nil, Option.map_eq_none_iff, List.find?_eq_none]
    intro k _
    simp [portDown, h6]

/-- A block outside a DET launch sees memory as it is. -/
theorem seen_plain {w : Work} {v : View} {ks : List Nat} (h : detOf w v.grp = none) : seenBytes w v ks = w.bytes ks := by
  simp only [seenBytes, blockBytes, h, Work.bytes]
  rfl

def kvF : MxkvF := ⟨plainHdr, 7, .s 1⟩
/-- 1,024 blocks of bf16 in local memory. -/
def kvState : State :=
  let s := localState 0 [] (setS 1 0)
  { s with mem := s.mem ++ blocksAt (localKey 2 0 0) 0x30 1024 }
def kvSeen : View := seen kvState plainHdr 1
def kvWork : Work := (Work.start kvState).issued kvSeen (mxkvNeed kvF kvSeen)

/-- An access to the first bytes of the block's own portion is in order. -/
theorem chkLocal_low {w : Work} {blk ea n : Nat} {b : Block} (hb : w.block? blk = some b) (hc : b.cores = [0])
    (hl : b.noLocal = false) (hs : ea + n ≤ b.localSize) (he : ea < 2 ^ 20) (ha : ea % n = 0) :
    chkLocal w blk ea n = .ok (keysFrom (localKey blk 0 ea) n) := by
  have h1 : ea / 536870912 = 0 := by omega
  have h2 : bitAt ea 28 = 0 := by simp only [bitAt]; omega
  have h3 : ea / 16777216 % 16 = 0 := by omega
  have h4 : ea / 1048576 % 16 = 0 := by omega
  have h5 : ea % 1048576 = ea := by omega
  simp only [chkLocal, Nat.reducePow, h1, ne_eq, not_true_eq_false, ha, or_self, ↓reduceIte, hb, h2, h3, h4, hc,
    List.length_cons, List.length_nil, Nat.zero_add, Nat.lt_add_one, h5, hs, hl, Bool.not_false, and_self]

/-- No byte of a memory is listed at a key from K on. -/
def below (m : Memory) (K : Nat) : Bool := m.all fun e => e.1 < K
theorem below_find {m : Memory} {K : Nat} (h : below m K = true) (k : Nat) (hk : K ≤ k) : FMap.find? m k = none := by
  induction m with
  | nil => rfl
  | cons e m ih =>
    simp only [below, List.all_cons, Bool.and_eq_true, decide_eq_true_eq] at h
    simp only [FMap.find?]
    rw [if_neg (by omega)]
    exact ih h.2

theorem witness_MatrixMemoryCommands_mxkv : Issues kvState plainHdr 1 (mxkvNeed kvF kvSeen) kvSeen ∧ unitRoom kvState kvSeen ∧
    blocksNow kvWork kvSeen (kvSeen.uni kvF.a 1) 1024 .bf16 (keysFrom (localKey 2 0 0) (64 * 1024)) := by
  rw [show blocksNow kvWork kvSeen (kvSeen.uni kvF.a 1) 1024 .bf16 (keysFrom (localKey 2 0 0) (64 * 1024)) =
    (localBlocks kvWork kvSeen (kvSeen.uni kvF.a 1) 1024 = .ok (keysFrom (localKey 2 0 0) (64 * 1024)) ∧
      readsNow kvWork kvSeen (keysFrom (localKey 2 0 0) (64 * 1024)) ∧
      badBlock (seenBytes kvWork kvSeen (keysFrom (localKey 2 0 0) (64 * 1024))) ((List.range 1024).map (64 * ·))
        (fun _ x => x == .bf16) = none) from rfl, seen_plain (by decide +kernel)]
  refine ⟨seen_issues (by decide +kernel), by decide +kernel, ?_, ?_, ?_⟩
  · rw [localBlocks, if_neg (by decide +kernel), show (64 * 1024 : Nat) = 64 * 1024 from rfl, checkBlocks_ok]
    intro i hi
    rw [show kvSeen.uni kvF.a 1 = 0 by decide +kernel]
    rw [show (0 + 64 * i) % 2 ^ 64 = 64 * i by omega, show kvSeen.grp.blk = 2 by decide +kernel]
    have hb : kvWork.block? 2 = some { (kvWork.block? 2).getD (Block.fresh 0 0 0 [0] 1 0 none) with cores := [0], noLocal := false, localSize := 786432 } := by
      decide +kernel
    rw [chkLocal_low hb rfl rfl (by simp only []; omega) (by omega) (by omega)]
    rfl
  · exact quiet_reads (by decide +kernel) (by decide +kernel) (.inr (.inl (by decide +kernel))) (by decide +kernel)
      (by decide +kernel)
  · refine badBlock_none (n := 1024) (c := 0x30) .bf16 (by decide) (fun o ho => block_byte (m := (localState 0 [] (setS 1 0)).mem)
      (by rfl) (by decide +kernel) (by decide +kernel) (below_find (by decide +kernel)) (by decide) o ho) ?_ (by simp)
    intro o ho
    simp only [List.mem_map, List.mem_range] at ho
    obtain ⟨k, hk, rfl⟩ := ho
    exact ⟨k, hk, rfl⟩

/-- An access to a region that the context is granted on the die. -/
theorem chkWs_low {w : Work} {cn ea n : Nat} {c : Ctx} (hc : w.ctx? cn = some c) (hr : c.wsrs = [(0, 0, 2097152)])
    (he : ea + n ≤ 2097152) (ha : ea % n = 0) : chkWs w cn 0 ea n n = .ok (keysFrom (wsKey 0 ea) n) := by
  have h : ea / 4294967296 = 0 := by omega
  simp only [chkWs, Nat.reducePow, h, ne_eq, not_true_eq_false, ha, hc, hr, List.any_cons, BEq.rfl, Nat.zero_le,
    decide_true, Bool.and_self, he, List.any_nil, Bool.or_false, Bool.not_true, Bool.false_eq_true, or_self, ↓reduceIte]

def mxldF : MxldF := ⟨plainHdr, 0x80, 0, .s 1, false⟩
/-- A slot of the weight store: 256 blocks of w4, at a time that refreshes other lines. -/
def ldState : State :=
  let s := st_ (setS 1 0) fun p => { wsGrant p with cycle := 2048 }
  { s with mem := s.mem ++ blocksAt (wsKey 0 0) 0x10 256 }
def ldSeen : View := seen ldState plainHdr 1
def ldWork : Work := (Work.start ldState).issued ldSeen (mxldNeed mxldF ldSeen)
/-- The machine once the launch has sealed the region. -/
def ldSealed : Work :=
  match touchRegions ldWork ldSeen.grp [(0, 0, 2 ^ 21)] with
  | .ok w => w
  | .error _ => ldWork

/-- Bytes of the package, or of no memory that packages share. -/
theorem home_keys {p : Package} {K n : Nat} (h : (p.no = 0 ∧ K + n ≤ 2 ^ 44) ∨ 2 ^ 56 ≤ K) : anyAbroad p (keysFrom K n) = false := by
  rw [anyAbroad, List.any_eq_false]
  intro k hk
  simp only [keysFrom, List.mem_map, List.mem_range] at hk
  obtain ⟨i, hi, rfl⟩ := hk
  simp only [isGlobalKey, paPackage, Bool.and_eq_true, decide_eq_true_eq, bne_iff_ne, ne_eq, not_and, Classical.not_not]
  omega

theorem witness_MatrixMemoryCommands_mxld : Issues ldState plainHdr 1 (mxldNeed mxldF ldSeen) ldSeen ∧ unitRoom ldState ldSeen ∧
    mxldCheck mxldF ldSeen ldWork (ldSeen.uni mxldF.a 2) 1 = (.ok (keysFrom (wsKey 0 0) (64 * 256)), ldWork) ∧
    wsRegions ldWork ldSeen.grp.ctx (coreDie ldSeen.grp.core) (ldSeen.uni mxldF.a 2) (16384 * 1) = [(0, 0, 2 ^ 21)] ∧
    touchRegions ldWork ldSeen.grp [(0, 0, 2 ^ 21)] = .ok ldSealed ∧
    anyAbroad ldSealed.pk (keysFrom (wsKey 0 0) (64 * 256)) = false ∧
    usedKeys ldSealed (detOf ldSealed ldSeen.grp) 1 (keysFrom (wsKey 0 0) (64 * 256)) = keysFrom (wsKey 0 0) (64 * 256) ∧
    readsNow ldSealed ldSeen (keysFrom (wsKey 0 0) (64 * 256)) ∧
    badSlots (seenBytes ldSealed ldSeen (keysFrom (wsKey 0 0) (64 * 256))) 1 = none := by
  have bytes (o : Nat) (ho : o < 64 * 256) :
      (ldSealed.bytes (keysFrom (wsKey 0 0) (64 * 256))).getD o 0 = if o % 64 = 0 then 0x10 else 0 :=
    block_byte (m := (st_ (setS 1 0) fun p => { wsGrant p with cycle := 2048 }).mem) (by decide +kernel) (by decide +kernel)
      (by decide +kernel) (below_find (by decide +kernel)) (by decide) o ho
  rw [seen_plain (by decide +kernel)]
  refine ⟨seen_issues (by decide +kernel), by decide +kernel, ?_, by decide +kernel, ?_, home_keys (.inr (by decide)), ?_, ?_, ?_⟩
  · rw [show ldSeen.uni mxldF.a 2 = 0 by decide +kernel, mxldCheck, if_neg (by decide)]
    exact checkBlocks_ok (n := 256) fun i hi => by
      rw [show (0 + 64 * i) % 2 ^ 64 = 64 * i by omega, show ldSeen.grp.ctx = 4095 by decide +kernel,
        show ldSeen.grp.core = 0 by decide +kernel]
      have hc : (ldWork.ctx? 4095).map Ctx.wsrs = some [(0, 0, 2 ^ 21)] := by decide +kernel
      obtain ⟨c, h1, h2⟩ := Option.map_eq_some_iff.mp hc
      have := chkWs_low h1 h2 (ea := 64 * i) (n := 64) (by omega) (by omega)
      simp only [mxldF, Bool.false_eq_true, if_false]
      rw [show coreDie 0 = 0 by decide, this]
      rfl
  · have : (touchRegions ldWork ldSeen.grp [(0, 0, 2 ^ 21)]).isOk = true := by decide +kernel
    rw [ldSealed]
    cases h : touchRegions ldWork ldSeen.grp [(0, 0, 2 ^ 21)] with
    | ok w => rfl
    | error e => rw [h] at this; cases this
  · rw [usedKeys, show List.range 1 = [0] from rfl, List.flatMap_singleton, if_neg (by decide +kernel)]
    exact List.take_append_drop ..
  · exact quiet_reads (by decide +kernel) (by decide +kernel) (.inr (.inr (by decide +kernel)))
      (by decide +kernel) (by decide +kernel)
  · refine badBlock_none (n := 256) (c := 0x10) .w4 (by decide) bytes ?_ ?_
    · intro o ho
      simp only [List.mem_flatMap, List.mem_range, slotBlocks] at ho
      obtain ⟨i, hi, ho⟩ := ho
      obtain rfl : i = 0 := by omega
      rw [bytes _ (by decide)] at ho
      simp only [List.mem_map, List.mem_range] at ho
      obtain ⟨k, hk, rfl⟩ := ho
      exact ⟨k, hk, by omega⟩
    · intro o ho
      have ho : o / 16384 * 16384 = 0 := by
        simp only [List.mem_flatMap, List.mem_range, slotBlocks] at ho
        obtain ⟨i, hi, ho⟩ := ho
        obtain rfl : i = 0 := by omega
        rw [bytes _ (by decide)] at ho
        simp only [List.mem_map, List.mem_range] at ho
        obtain ⟨k, hk, rfl⟩ := ho
        have : k < 256 := hk
        omega
      rw [slotOk, ho, bytes 0 (by decide)]
      decide

/-! The image of matrix registers in global memory: every block lies in the one page that the placed tables map. -/

theorem walk_low {w : Work} {c : Ctx} {va : Nat} (hr : c.rootPpn = 0) (h0 : w.num 0 8 = 0x401) (h1 : w.num 0x1000 8 = 0x801)
    (h2 : w.num 0x2000 8 = 0xDF) (hv : va < 2 ^ 30) : walk w c va = some ⟨0, 30, 0xDF, 0⟩ := by
  have a : va / 281474976710656 % 512 = 0 := by omega
  have b : va / 549755813888 % 512 = 0 := by omega
  have d : va / 1073741824 % 512 = 0 := by omega
  simp only [walk, walkFrom, bitAt, hr, Nat.reducePow, Nat.zero_mul, Nat.reduceMul, Nat.reduceAdd, a,
    Nat.add_zero, h0, Nat.pow_zero, Nat.div_one, Nat.reduceMod, Nat.succ_ne_self, Nat.pow_one, Nat.reduceDiv,
    Nat.zero_ne_one, and_false, Nat.zero_mod, ne_eq, not_true_eq_false, reduceCtorEq, or_self, ↓reduceIte, and_self,
    Nat.one_mod, Nat.one_mul, b, h1, d, h2, and_true, leafPage, Option.map_some, BitVec.ofNat_eq_ofNat]

def pageLeaf : Tlb := ⟨4095, 0, 0, 30, 0, 0xDF⟩

/-- An access that a cached translation serves changes nothing. -/
theorem chkGlobal_low {w : Work} {c : Ctx} {acc : Acc} {va : Nat} (hc : w.ctx? 4095 = some c) (hr : c.rootPpn = 0)
    (hs : c.asid = 0) (h0 : w.num 0 8 = 0x401) (h1 : w.num 0x1000 8 = 0x801) (h2 : w.num 0x2000 8 = 0xDF)
    (ht : w.pk.tlb = [pageLeaf]) (hn : w.pk.no = 0) (hf : acc ≠ .fetch) (hv : va < 2 ^ 30) (ha : va % 64 = 0) :
    chkGlobal w 4095 acc va 64 64 = (.ok (keysFrom va 64), w) := by
  have e1 : va % 144115188075855872 = va := by omega
  have e2 : va % 1073741824 = va := by omega
  have e3 : va / 1073741824 = 0 := by omega
  have e4 : va / 72057594037927936 = 0 := by omega
  have e5 : va / 17592186044416 = 0 := by omega
  have e6 : va % 17592186044416 = va := by omega
  have e7 : ¬0x0FFFFFC00000 ≤ va := by omega
  have hwalk := walk_low (w := w) hr h0 h1 h2 hv
  have hl : leafCheck w.pk c acc ⟨0, 30, 0xDF, 0⟩ va 64 = .ok va := by
    have h0 : paPackage va = w.pk.no := by simp only [paPackage, Nat.reducePow, e5, hn]
    cases acc <;> simp only [leafCheck, BitVec.ofNat_eq_ofNat, Nat.reduceLT, BitVec.getLsbD_eq_getElem,
      BitVec.reduceGetElem, Bool.not_true, bne_self_eq_false, Bool.or_self, Bool.and_self, inControlSpace, Nat.reducePow, e2,
      Nat.zero_add, e6, ge_iff_le, Bool.false_or, mayLeave, h0, BEq.rfl, Bool.true_or, Bool.or_false, decide_eq_true_eq,
      Nat.lt_add_one, Bool.and_false, Bool.false_eq_true, ↓reduceIte, ite_eq_right_iff, reduceCtorEq, imp_false, Nat.not_le,
      gt_iff_lt] <;> omega
  have hfind : tlbFind w.pk 4095 c va = [pageLeaf] := by
    simp only [tlbFind, hs, ht, pageLeaf, BitVec.ofNat_eq_ofNat, BEq.rfl, Bool.and_self, Nat.reducePow, e3, Nat.zero_div,
      List.filter_cons_of_pos, List.filter_nil]
  have hfill : (w.mapPk fun p => tlbFill p 4095 c va ⟨0, 30, 0xDF, 0⟩) = w := by
    have : tlbFill w.pk 4095 c va ⟨0, 30, 0xDF, 0⟩ = w.pk := by
      simp only [tlbFill, hs, Nat.reducePow, e3, Nat.zero_mul, BitVec.ofNat_eq_ofNat, ht, pageLeaf, List.contains_cons, BEq.rfl,
        Bool.true_or, ↓reduceIte]
    rw [Work.mapPk, this]
  have hx : xlate w 4095 acc va 64 = (.ok va, w) := by
    simp only [xlate, hc, Nat.reducePow, e1, hwalk, hfind, hl, hfill, pageLeaf, Tlb.leaf, List.map_cons, List.map_nil, bne_self_eq_false,
      Bool.false_eq_true, not_false_eq_true, List.filter_cons_of_neg, List.filter_nil, List.isEmpty_nil, ↓reduceIte]
  simp only [chkGlobal, canonical, Nat.reducePow, e4, BEq.rfl, Nat.reduceBEq, Bool.or_false, Bool.not_true, ha, ne_eq,
    not_true_eq_false, decide_false, Bool.or_self, Bool.false_eq_true, ↓reduceIte, xlChk, hx]

/-- The image of one region, with no bank, at 0x20000. -/
def mxsvF : MxsvF := ⟨plainHdr, 0, 0, .s 1, 0x8000⟩
def imState : State := st_ (setS 1 0x20000) fun p => { p with tlb := [pageLeaf] }
def imSeen : View := seen imState plainHdr 1
def imWork : Work := (Work.start imState).issued imSeen (mxsvNeed mxsvF imSeen)

theorem image_checks (acc : Acc) (hf : acc ≠ .fetch) :
    imageCheck mxsvF imSeen imWork (imSeen.uni mxsvF.a 2) acc = (.ok (keysFrom 0x20000 (64 * 256)), imWork) := by
  rw [show imSeen.uni mxsvF.a 2 = 0x20000 by decide +kernel, imageCheck, if_neg (by decide),
    show 16384 * imageSlots mxsvF = 64 * 256 by decide]
  refine checkBlocks_ok (n := 256) fun i hi => ?_
  rw [show (0x20000 + 64 * i) % 2 ^ 64 = 0x20000 + 64 * i by omega, show imSeen.grp.ctx = 4095 by decide +kernel]
  have hc : (imWork.ctx? 4095).map (fun c => (c.rootPpn, c.asid)) = some (0, 0) := by decide +kernel
  obtain ⟨c, h1, h2⟩ := Option.map_eq_some_iff.mp hc
  exact chkGlobal_low h1 (Prod.ext_iff.mp h2).1 (Prod.ext_iff.mp h2).2 (by decide +kernel) (by decide +kernel)
    (by decide +kernel) (by decide +kernel) (by decide +kernel) hf (by omega) (by omega)

theorem witness_MatrixMemoryCommands_mxrs_mxsv : Issues imState plainHdr 1 (mxsvNeed mxsvF imSeen) imSeen ∧ unitRoom imState imSeen ∧
    imageCheck mxsvF imSeen imWork (imSeen.uni mxsvF.a 2) .load = (.ok (keysFrom 0x20000 (64 * 256)), imWork) ∧
    anyAbroad imWork.pk (keysFrom 0x20000 (64 * 256)) = false ∧
    usedKeys imWork (detOf imWork imSeen.grp) (physBanks imSeen.grp (maskNames 8 mxsvF.banks.toNat)).length
      (keysFrom 0x20000 (64 * 256)) = keysFrom 0x20000 (64 * 256) ∧
    readsNow imWork imSeen (keysFrom 0x20000 (64 * 256)) ∧
    badSlots (seenBytes imWork imSeen (keysFrom 0x20000 (64 * 256)))
      (physBanks imSeen.grp (maskNames 8 mxsvF.banks.toNat)).length = none ∧
    imageCheck mxsvF imSeen imWork (imSeen.uni mxsvF.a 2) .store = (.ok (keysFrom 0x20000 (64 * 256)), imWork) ∧
    roomWait imWork.pk imSeen 0 = none ∧ detOf imWork imSeen.grp = none := by
  rw [show (physBanks imSeen.grp (maskNames 8 mxsvF.banks.toNat)).length = 0 by decide +kernel]
  exact ⟨seen_issues (by decide +kernel), by decide +kernel, image_checks _ (by decide),
    home_keys (.inl ⟨by decide +kernel, by decide⟩),
    by simp only [usedKeys, List.range_zero, List.flatMap_nil, Nat.mul_zero, List.drop_zero, List.nil_append],
    quiet_reads (by decide +kernel) (by decide +kernel) (.inl (by decide)) (by decide +kernel) (by decide +kernel), rfl,
    image_checks _ (by decide), by decide +kernel, by decide +kernel⟩

/-! ### A full flow table -/

/-- A flow of another launch with an item in flight; and a state whose flow table is full of such. -/
def strange : Flow := ⟨30, 1, 0, [⟨90, 0, false, []⟩], [], none, false⟩
def crowded : State := pk (fun p => { p with flows := p.flows ++ List.replicate flowTableSize strange }) (itemState 3)

/-- The package's flows fill the table, and none is flow 9 of launch 3. -/
def Full (p : Package) : Prop := ∃ fs, p.flows = fs ++ List.replicate flowTableSize strange ∧ ∀ f ∈ fs, f.label ≠ 9

theorem full_noRoom {p : Package} (h : Full p) : flowRoom p 3 9 = false := by
  obtain ⟨fs, hf, hn⟩ := h
  have a : flow? p 3 9 = none := by
    simp only [flow?, hf, List.find?_append, Option.or_eq_none_iff, List.find?_eq_none]
    refine ⟨fun f hm => by have := hn f hm; simp_all, fun f hm => ?_⟩
    rw [List.eq_of_mem_replicate hm]
    decide
  have b : flowTableSize ≤ flowEntries p := by
    rw [flowEntries, hf, List.filter_append, List.length_append, List.filter_replicate_of_pos (by rfl), List.length_replicate]
    omega
  simp only [flowRoom, a, Bool.false_or, decide_eq_false_iff_not]
  omega

theorem full_settles {w : Work} (h : Full w.pk) : Full (settleItems w).pk := by
  obtain ⟨fs, hf, hn⟩ := h
  refine ⟨_, by
    simp only [settleItems, Work.mapPk, hf, List.map_append, List.filter_append, List.map_replicate]
    rw [List.filter_replicate_of_pos (by rfl)]
    rfl, fun f hm => ?_⟩
  simp only [List.mem_filter, List.mem_map] at hm
  obtain ⟨⟨g, hg, rfl⟩, -⟩ := hm
  exact hn g hg

theorem full_updates {w : Work} {label : W32} {F : Flow → Flow} (h : Full w.pk) (hF : ∀ f, (F f).label = f.label) :
    Full (updFlow w 3 label F).pk := by
  obtain ⟨fs, hf, hn⟩ := h
  refine ⟨_, by
    simp only [updFlow, Work.mapPk, hf, List.map_append, List.map_replicate]
    rw [if_neg fun h => absurd h.1 (by decide)], fun f hm => ?_⟩
  obtain ⟨g, hg, rfl⟩ := List.mem_map.1 hm
  split
  · rw [hF]; exact hn g hg
  · exact hn g hg

theorem full_passes {w : Work} {n : Nat} (h : Full w.pk) (hi : ∀ i, w.pk.items.find? n = some i → i.lnch = 3) :
    Full (settleItems (passItem w n)).pk := by
  unfold passItem
  split
  · exact full_settles h
  · rename_i i hv
    rw [hi i hv]
    exact full_settles (full_updates h fun _ => rfl)

theorem witness_ItemInstructions_fullTable : let v := seen crowded offHdr 1
    Issues crowded offHdr 1 (relabelNeed (relabelF .o) v) v ∧ (itemless v).any = false ∧
      lanesLeft crowded v (relabelF .o) = [(0, 20), (1, 21)] := by
  refine ⟨seen_issues (by decide +kernel), by decide +kernel, ?_⟩
  have hf : Full ((Work.start crowded).issued (seen crowded offHdr 1) (relabelNeed (relabelF .o) (seen crowded offHdr 1))).pk :=
    ⟨(items State.reset.pk).flows, rfl, by decide⟩
  rw [lanesLeft, show laneItems (seen crowded offHdr 1) = [(0, 20), (1, 21)] by decide +kernel,
    show (seen crowded offHdr 1).grp.lnch = 3 by decide +kernel, relabelLanes,
    show (seen crowded offHdr 1).grp.word (relabelF .o).a.r.toNat 0 = 9 by decide +kernel,
    full_noRoom (full_passes hf fun i hi => ?_)]
  · rfl
  · exact congrArg Item.lnch (Option.some.inj (hi.symm.trans (show _ = some (itemOf 0 0) by decide +kernel)))

/-! ### Events of the host -/

def negState (a : BitVec 256) (done : Bool) : State := { State.reset with neg := ⟨a, done, false⟩ }

theorem witness_NegotiationCommits :
    (negOpen (negState 0x3FF false) = true ∧ (negState 0x3FF false).neg.accepted &&& offeredWord = (negState 0x3FF false).neg.accepted) ∧
    (negOpen (negState 0x400 false) = true ∧ (negState 0x400 false).neg.accepted &&& offeredWord ≠ (negState 0x400 false).neg.accepted) ∧
    negOpen (negState 0 true) = false ∧ State.reset.neg.done = false := by decide +kernel

/-- Queue 16383 with its registers set, in a context that may have one. -/
def queueState (en : Bool) (cap : W64) : State :=
  pk (fun p => { desc 92 [1] p with queues := [(16383, { Queue.fresh with base := 0x20000, cap := cap, ctx := 4095, en := en })] }) st_

/-- FLNCH names the placed launch, FBLOCK its block, and FCOUNT a count. -/
def ctlState (F : Block → Block) (G : Package → Package := id) : State :=
  pk (fun p => G { p with flnch := 3, fblock := 0, fcount := 5, blocks := p.blocks.adjust 2 F }) st_
/-- More records of the placed block than the list of its context holds. -/
def crowdedList (p : Package) : Package :=
  { p with ctxs := p.ctxs.adjust 4095 fun c => { c with pending := List.replicate 65 (bareRec .killed .s 4095 3 0 0) } }
def suspended : State := pk (fun p => { p with groups := p.groups.adjust gi fun g => { g with susp := some 0x20000 } }) st_

def trialRec (win : Nat) : List Byte :=
  valBytes 8 3 ++ valBytes 8 0x10000 ++ valBytes 8 0x1000C ++ valBytes 4 win ++ [1, 15] ++ valBytes 34 0
def trialState (win : Nat) : State := cells 0x20000 (trialRec win) st_

theorem named_block {s : State} {P : Block → Prop} [∀ b, Decidable (P b)]
    (h : (match s.pk.launches.find? s.pk.flnch.toNat, s.pk.blocks.find? 2 with
    | some l, some b => decide (ctxLive s.pk 4095 = true ∧ l.ctx = 4095 ∧
        blockAt s.pk l (s.pk.fblock.toNat % 2 ^ 32) = some (2, b) ∧ b.stat = .begun ∧ P b)
    | _, _ => false) = true) : ∃ l b, Names s 4095 l 2 b ∧ P b := by
  split at h
  · rename_i l b h1 h2
    obtain ⟨a, b, c, d, e⟩ := of_decide_eq_true h
    exact ⟨l, _, ⟨a, h1, b, c, h2, d⟩, e⟩
  · cases h

theorem witness_HostCommands :
    (queueOf (queueState true 4).pk 16383).en = true ∧
    ((queueOf (queueState false 4).pk 16383).en = false ∧
      queueLegal (queueState false 4).pk (queueOf (queueState false 4).pk 16383) = true) ∧
    ((queueOf (queueState false 3).pk 16383).en = false ∧
      queueLegal (queueState false 3).pk (queueOf (queueState false 3).pk 16383) = false) ∧
    (∃ l b, Names (ctlState id) 4095 l 2 b ∧ b.stopped = none ∧ lowestGroup (ctlState id).pk b ≠ none) ∧
    (∀ e ∈ [((id : Package → Package), false), (crowdedList, true)],
      let s := ctlState (fun b => { b with stopped := some .stop }) e.1
      ∃ l b, Names s 4095 l 2 b ∧ b.stopped.isSome = true ∧ blockStays (Work.start s) b = e.2) ∧
    (∃ l, (ctlState id).pk.launches.find? (ctlState id).pk.flnch.toNat = some l ∧ l.ctx = 4095 ∧ l.stat ≠ .done ∧
      l.stat ≠ .killed) ∧
    (ctxLive suspended.pk 4095 = true ∧ ∃ g, suspended.pk.groups.find? gi = some g ∧ g.ctx = 4095 ∧ g.susp.isSome = true ∧
      g.stat ≠ .saved) ∧
    ((trialState 1024).pk.trial = none ∧ (0x20000 : W64).toNat % 64 = 0 ∧
      trialOk ((Work.start (trialState 1024)).bytes (keysFrom 0x20000 64)) = true) ∧
    trialOk ((Work.start (trialState 1023)).bytes (keysFrom 0x20000 64)) = false := by
  refine ⟨by decide +kernel, by decide +kernel, by decide +kernel, named_block (by decide +kernel), ?_,
    found (by decide +kernel), ⟨by decide +kernel, found (by decide +kernel)⟩, by decide +kernel, by decide +kernel⟩
  simp only [List.forall_mem_cons]
  exact ⟨named_block (by decide +kernel), named_block (by decide +kernel), nofun⟩

/-- A descriptor that every check of CREATE passes. -/
def newDesc : List Byte :=
  [(7, 1, 0xA0), (40, 8, 0x40000), (80, 4, 1), (112, 4, 1)].foldl (fun d x => setFld d x.1 x.2.1 x.2.2) (valBytes 256 0)
/-- The mailbox's argument block at 0x20000, with the negotiation done. -/
def mailState (args : List Byte) (G : Package → Package := id) : State :=
  { cells 0x20000 args (pk (fun p => { G p with mbarg := 0x20000 }) st_) with neg := ⟨0, true, false⟩ }
def createState : State := cells 0x40000 (valBytes 4 1) (mailState (valBytes 64 5 ++ newDesc))
def reachArgs (flags : Nat) : List Byte := valBytes 2 1 ++ valBytes 2 2 ++ valBytes 4 flags ++ valBytes 8 0x1000 ++ valBytes 8 0x1000
def pubArgs : List Byte :=
  valBytes 8 0x200000 ++ valBytes 8 0x1000 ++ valBytes 8 0x400000 ++ valBytes 8 0x600000 ++ valBytes 32 0 ++ valBytes 8 4095 ++
    valBytes 8 0x30000

theorem witness_MailboxCommands :
    (let s := createState
     let c := Ctx.fresh ((mailArgs s 320).drop 64 |>.take 256)
     s.pk.mbarg.toNat % 64 = 0 ∧ s.neg.done = true ∧ fld (mailArgs s 320) 0 2 = 5 ∧ allZero (((mailArgs s 320).drop 2).take 62) = true ∧
       descFieldsOk 5 c = true ∧ s.pk.ctxs.find? 5 = none ∧
       (match (chkRange ((Work.start s).setCtx 5 c) 5 .load c.save 4096).1 with
        | .ok ks => fld ((Work.start s).bytes ks) 0 4 == 1
        | _ => false) = true ∧ grantConflict s.pk c = false) ∧
    (let s := mailState (valBytes 2 4095)
     allZero ((mailArgs s 64).drop 2) = true ∧ (s.pk.ctxs.find? (fld (mailArgs s 64) 0 2)).map Ctx.st = some .live) ∧
    (let s := mailState (reachArgs 3)
     reachOk (mailArgs s 64) = true ∧ bitAt (fld (mailArgs s 64) 4 1) 1 = 1 ∧
       meetsControl (reachOf (mailArgs s 64)).base (reachOf (mailArgs s 64)).len = false ∧ s.pk.reach.length < 1024) ∧
    (let s := mailState (reachArgs 1) fun p => { p with reach := [⟨1, 2, 0x1000, 0x1000, true⟩] }
     reachOk (mailArgs s 64) = true ∧ bitAt (fld (mailArgs s 64) 4 1) 1 ≠ 1 ∧
       s.pk.reach.findIdx? (sameReach (reachOf (mailArgs s 64))) = some 0) ∧
    (let s := mailState (reachArgs 3) fun p => { p with reach := List.replicate 1024 ⟨9, 9, 0x1000, 0x1000, true⟩ }
     reachOk (mailArgs s 64) = true ∧ bitAt (fld (mailArgs s 64) 4 1) 1 = 1 ∧ 1024 ≤ s.pk.reach.length ∧
       meetsControl (reachOf (mailArgs s 64)).base (reachOf (mailArgs s 64)).len = false) ∧
    (let s := mailState pubArgs
     pubFieldsOk s.pk (mailArgs s 128) = true ∧ (s.pk.ctxs.find? (fld (mailArgs s 128) 64 2)).map Ctx.st = some .live ∧
       s.pk.pubs = [] ∧
       (chkGlobal (Work.start s) (fld (mailArgs s 128) 64 2) .load (fld (mailArgs s 128) 72 8) 64 64).1 = .ok (keysFrom 0x30000 64)) ∧
    (let s := mailState (valBytes 2 4095)
     fld (mailArgs s 128) 0 2 = 4095 ∧ allZero (((mailArgs s 128).drop 2).take 62) = true ∧
       (s.pk.ctxs.find? 4095).isSome = true) := by
  refine ⟨?_, ?_, ?_, ?_, ?_, ?_, ?_⟩ <;> decide +kernel

/-! ### Events of groups -/

def ringState (q : Nat) : State := st_ fun g => { g with splits := [sp 1 .ready q, sp 2 (.blocked .halt) 0, sp 0xFC .ready 3] }
/-- The second split waits. -/
def waiting (k : Wait) (G : Package → Package := id) : State :=
  st_ (fun g => { g with splits := [sp 1 .ready 0, sp 0xFE (.blocked k) 0] }) G

/-- The split waits for an end of its wait, with a lane at least and with one MR. -/
abbrev waitsInPlace (g : Group) (x : Split) : Prop :=
  g.waitsStay = false ∧ x.lanes.any = true ∧
    ∀ L M, x.lanes.get L = true → x.lanes.get M = true → (g.lane L).mr = (g.lane M).mr

theorem witness_SplitsTakeTurnsAndWake :
    (∃ g, (ringState 64).pk.groups.find? gi = some g ∧ g.splits = sp 1 .ready 64 :: ([sp 2 (.blocked .halt) 0] ++ sp 0xFC .ready 3 :: []) ∧
      g.stat ≠ .saved ∧ (∀ z ∈ [sp 2 (.blocked .halt) 0], g.mayIssue z = false) ∧ g.mayIssue (sp 0xFC .ready 3) = true) ∧
    (∃ g, (ringState 63).pk.groups.find? gi = some g ∧
      g.splits = sp 1 .ready 63 :: [sp 2 (.blocked .halt) 0, sp 0xFC .ready 3]) ∧
    (∃ g, (waiting .launchRoom).pk.groups.find? gi = some g ∧ g.splits[1]? = some (sp 0xFE (.blocked .launchRoom) 0) ∧
      waitsInPlace g (sp 0xFE (.blocked .launchRoom) 0) ∧
      Wait.launchRoom.invalidates = false ∧ waitOver (Work.start (waiting .launchRoom)) gi g .launchRoom = true) ∧
    (∃ g, (waiting (.sleep 5) fun p => { p with cycle := 5 }).pk.groups.find? gi = some g ∧
      g.splits[1]? = some (sp 0xFE (.blocked (.sleep 5)) 0) ∧ waitsInPlace g (sp 0xFE (.blocked (.sleep 5)) 0)) ∧
    (∃ g, (waiting (.lwait 0x20000 0)).pk.groups.find? gi = some g ∧ g.splits[1]? = some (sp 0xFE (.blocked (.lwait 0x20000 0)) 0) ∧
      waitsInPlace g (sp 0xFE (.blocked (.lwait 0x20000 0)) 0) ∧ g.stat = .resident ∧
      counterReached (Work.start (waiting (.lwait 0x20000 0))) g 0x20000 0 = true) :=
  ⟨found (by decide +kernel), found (by decide +kernel), found (by decide +kernel), found (by decide +kernel),
    found (by decide +kernel)⟩

def handled : State := areaMem (st_ id (area 0x10000))
def unhandled : State := areaMem (st_ id (area 0))
def anyRec (c : Code) : Rec := bareRec c .a 4095 3 0 0
def pending : State := areaMem (st_ (fun g => { g with pendA := [anyRec .dataLost] }) (area 0x10000))
def promised : State := localState 76 (valBytes 4 0)
  (fun g => { g with splits := [sp 0xFF (.blocked (.bwait (localKey 2 0 64) 0 (some 5) 64)) 0] }) fun p =>
    { area 0x10000 p with cycle := 1029 }
def replaying : State := st_ fun g => { g with susp := some 0x20000, replay := true }
/-- The record of this fault waits in its context's list. -/
def unwritten : State := st_ (fun g => { g with susp := some 0x20000, replay := true }) fun p =>
  { p with ctxs := p.ctxs.adjust 4095 fun c => { c with pending := List.replicate 65 { anyRec .page with gidx := 0 } } }
def ringing : State := areaMem (st_ id fun p =>
  { area 0 p with ctxs := (area 0 p).ctxs.adjust 4095 fun c => { c with pending := [anyRec .killed] } })

theorem witness_ExceptionsTaken :
    (∃ g, handled.pk.groups.find? gi = some g ∧ g.handler = none ∧ g.splits = [sp 0xFF .ready 0] ∧
      (handled.pk.ctxs.find? g.ctx).map (fun c => (c.tvec, trapSlot c g)) = some (0x10000, 0x41000) ∧
      (chkRange (Work.start handled) g.ctx .store 0x41000
        ((groupRec (Work.start handled) g .trap .p Mask.full (pcVa 0x10000) 0 7).bytes false).length).1 = .ok (keysFrom 0x41000 64)) ∧
    (∃ g, unhandled.pk.groups.find? gi = some g ∧ (unhandled.pk.ctxs.find? g.ctx).map Ctx.tvec = some 0 ∧
      (unhandled.pk.blocks.find? g.blk).map (fun b => (b.stat, b.groups)) = some (.begun, [gi])) ∧
    (∃ g, pending.pk.groups.find? gi = some g ∧ g.pendA = [anyRec .dataLost] ∧
      takesRecord pending.pk gi g (anyRec .dataLost) = true) ∧
    (∃ g, promised.pk.groups.find? gi = some g ∧
      g.splits[0]? = some (sp 0xFF (.blocked (.bwait (localKey 2 0 64) 0 (some 5) 64)) 0) ∧
      (5 : W64).toNat + graceOf (Work.start promised) g.ctx ≤ promised.pk.cycle.toNat ∧ g.stat = .resident ∧ g.handler = none ∧
      barPhasePassed ((Work.start promised).bytes (keysFrom (localKey 2 0 64) 32)) 0 = false ∧
      barErr ((Work.start promised).bytes (keysFrom (localKey 2 0 64) 32)) = false) ∧
    (∃ g, replaying.pk.groups.find? gi = some g ∧ g.replay = true ∧ g.stat ≠ .saved ∧
      groupStays (Work.start replaying) g = false) ∧
    (∃ g, unwritten.pk.groups.find? gi = some g ∧ groupStays (Work.start unwritten) g = true) ∧
    (∃ c, ringing.pk.ctxs.find? 4095 = some c ∧ c.pending = [anyRec .killed] ∧ c.drops = 0 ∧
      let a := chkRange (Work.start ringing) 4095 .store c.fring 64
      let h := (Work.start ringing).bytes (keysFrom 0x50000 64)
      a.1 = .ok (keysFrom 0x50000 64) ∧ ringLegal h = true ∧ ringRoom h = true ∧
        (chkRange a.2 4095 .store ((fld h 0 8 + 64 * (fld h 16 8 % fld h 8 4)) % 2 ^ 64) ((anyRec .killed).bytes true).length).1 =
          .ok (keysFrom 0x600C0 64)) :=
  ⟨found (by decide +kernel), found (by decide +kernel), found (by decide +kernel), found (by decide +kernel),
    found (by decide +kernel), found (by decide +kernel), found (by decide +kernel)⟩

/-! Stops, saves, restores -/

def overdue : State := st_ (fun g => g.updLanes fun L l => if L = 7 then { l with wd := 2 ^ 32 } else l)
/-- A watchpoint of register 1, and an instruction that reads it. -/
def watched : State := at_ (.mov ⟨plainHdr, .i32, false, wd 4, wv 1⟩) id fun p =>
  { p with wps := [(4 * 4095 + 3, ⟨7, 1, 1⟩)] }
def lateLaunch : State := st_ id fun p =>
  { desc 24 (valBytes 8 100) p with launches := p.launches.adjust 3 fun l => { l with cycles := 100 } }

/-- A small group, one of two of its block, in a context with a save area; and the states of its save. -/
def small (g : Group) : Group := { g with banks := [], regions := [], base := 16 }
def saveAsked (k : SaveKind) (age : Nat) (forced : Bool := false) : State :=
  areaMem (st_ (fun g => { small g with saveReq := some ⟨k, age, forced, false⟩ }) fun p => twoGroups (area 0 p))
def run (i : Instr) (s : State) : State :=
  match exec i s with
  | .next t => t
  | _ => s
def saving : State := run (.groupSave gi) (saveAsked .stop 0)
/-- The only group of its block is being saved. -/
def savingLast : State := run (.groupSave gi)
  (areaMem (st_ (fun g => { small g with saveReq := some ⟨.stop, 0, false, false⟩ }) fun p => area 0 p))
def savedState : State :=
  pk (fun p => { p with groups := p.groups.adjust gi fun g => { g with stat := .saved, saveKind := .stop, saveReq := none, saveSeq := 70 } })
    (saveAsked .stop 0)

/-- A parent that waits for a child whose block finds no local memory, since the parent's block has all of its one core's. -/
def childRec : List Byte := setFld (setFld (setFld placeRec 28 2 16) 30 2 0) 32 4 64
def parents : State := areaMem (st_
  (fun g => { small g with splits := [{ sp 0xFF (.blocked (.lwait 0x20000 1)) 0 with age := 4096 }] }) fun p =>
  let p := desc 88 (valBytes 2 1 ++ valBytes 2 0x2000) (area 0 p)
  let l := { Launch.fresh 4095 childRec 0 (.group gi) (some 0) 3 with stat := .ready, waited := 4096 }
  { withLocal p with launches := p.launches.insert 50 l })

/-- The group asks for twelve units more, and another stands behind it. -/
def asks (age : Nat) (regQuota : Nat) : State :=
  st_ (fun g => { g with splits := [sp 0xFF (.blocked .xacq) 0], xreq := some ⟨12, 60, age⟩ }) fun p =>
    let p := twoGroups (desc 90 (valBytes 2 regQuota) p)
    { p with groups := p.groups.adjust 9 fun g => { g with xreq := some ⟨1, 61, 0⟩ } }

theorem witness_StopsSavesAndRestores_stops :
    (∃ b, overdue.pk.blocks.find? 2 = some b ∧ b.stat = .begun ∧ b.stopped = none ∧
      (overBudget (Work.start overdue) b).map Prod.snd = some 7 ∧ (lowestGroup overdue.pk b).isSome = true) ∧
    (∃ g, watched.pk.groups.find? gi = some g ∧
      fetchInstr (Work.start watched) g g.nextPc = .instr (.mov ⟨plainHdr, .i32, false, wd 4, wv 1⟩) ∧
      (watchHit watched.neg (Work.start watched) gi g (.mov ⟨plainHdr, .i32, false, wd 4, wv 1⟩) 3).isSome = true ∧
      (watched.pk.blocks.find? g.blk).map (fun b => (b.stat, b.stopped)) = some (.begun, none)) ∧
    (∃ l, lateLaunch.pk.launches.find? 3 = some l ∧ (lateLaunch.pk.ctxs.find? l.ctx).map Ctx.ltime = some (some 100) ∧
      l.placed = true ∧ 100 ≤ l.cycles ∧ l.stat ≠ .done ∧ l.stat ≠ .killed) :=
  ⟨found (by decide +kernel), found (by decide +kernel), found (by decide +kernel)⟩

def runsOk (r : Runs) : Bool :=
  match r with
  | .ok .. => true
  | _ => false

theorem witness_StopsSavesAndRestores_saves :
    (∃ g, (saveAsked .preempt (2 ^ 20)).pk.groups.find? gi = some g ∧ g.saveReq = some ⟨.preempt, 2 ^ 20, false, false⟩) ∧
    (∃ g, (saveAsked .stop 0).pk.groups.find? gi = some g ∧ g.stat = .resident ∧ g.saveReq = some ⟨.stop, 0, false, false⟩ ∧
      SaveKind.stop.lapsed g = false ∧ SaveKind.stop.yields = false) ∧
    (∃ g, (saveAsked .xacqSwap 0).pk.groups.find? gi = some g ∧ g.stat = .resident ∧
      g.saveReq = some ⟨.xacqSwap, 0, false, false⟩ ∧ SaveKind.xacqSwap.lapsed g = true) ∧
    (∃ g, (saveAsked .preempt 0 true).pk.groups.find? gi = some g ∧ g.stat = .resident ∧
      g.saveReq = some ⟨.preempt, 0, true, false⟩ ∧ SaveKind.preempt.lapsed g = false ∧
      saveFits (Work.start (saveAsked .preempt 0 true)) gi g none = true) ∧
    (∀ e ∈ [(saving, false), (savingLast, true)], ∃ g, e.1.pk.groups.find? gi = some g ∧ g.stat = .saving none ∧
      groupQuiet e.1.pk gi g = true ∧ ((e.1.pk.blocks.find? g.blk).map fun b =>
        (lastResident e.1.pk gi b, localBusy e.1.pk g.blk, requestsRest e.1.pk gi g b)) = some (e.2, false, true) ∧
      runsOk (runsFor (Work.start e.1) gi g none) = true) := by
  refine ⟨found (by decide +kernel), found (by decide +kernel), found (by decide +kernel), found (by decide +kernel), ?_⟩
  simp only [List.forall_mem_cons]
  exact ⟨found (by decide +kernel), found (by decide +kernel), nofun⟩

theorem witness_StopsSavesAndRestores_restores :
    (∃ g, savedState.pk.groups.find? gi = some g ∧ restoreTurn (Work.start savedState) gi g 0 = true ∧
      restoreFirst (Work.start savedState) g 0 = true ∧ seatOn savedState.pk g 0 = some 0 ∧
      (savedState.pk.blocks.find? g.blk).map (fun b => (b.section_, groupTakes savedState.pk g b 0)) = some (none, true) ∧
      ((readFrame (Work.start savedState) g).map fun f => ((readBulk (Work.start savedState) g f).isSome,
        let w := setFState (Work.start savedState) g.ctx g.frame 3
        w.badAt (imageKeys w g f))) = some (true, none) ∧
      ∀ e ∈ savedState.pk.inbound, e.2.g ≠ gi) ∧
    (∀ e ∈ [(st_, none), (saveAsked .preempt 5, some ⟨.preempt, 5, false, false⟩)], ∃ l, (e.1).pk.launches.find? 3 = some l ∧
      (blockAt e.1.pk l 0).map (fun x => (x.1, x.2.stat, x.2.migrating, x.2.stopped)) = some (2, .begun, false, none) ∧
      (e.1.pk.groups.find? gi).map (fun g => (g.stat, g.saveReq)) = some (.resident, e.2)) ∧
    (∃ g, parents.pk.groups.find? gi = some g ∧ parentGoes (Work.start parents) gi g = true) := by
  refine ⟨found (by decide +kernel), ?_, found (by decide +kernel)⟩
  simp only [List.forall_mem_cons]
  exact ⟨found (by decide +kernel), found (by decide +kernel), nofun⟩

def heldStore : Held := ⟨0, 9, 0, 0x20000, keysFrom 0x20000 4, 4, 0, .core, .plain, [1, 2, 3, 4], 0, 4095, [], [], false, none⟩
/-- The firmware's context has no die, its group stands in its image or not, and item 20 of its flow holds a result; the save area
holds 2^20 bytes or fewer. -/
def unscheduled (stat : GStat) (len : Nat) (G : Package → Package := id) : State :=
  areaMem (st_ (fun g => { g with stat := stat }) fun p =>
    let p := desc 48 (valBytes 8 len) (area 0 (G (items p)))
    { p with
      items := p.items.adjust 20 fun i => { i with held := [heldStore] }
      ctxs := p.ctxs.adjust 4095 fun c => { c with sched := 0 } })
/-- The bytes of the two runs. -/
def runsOf (s : State) : List Byte × List Byte :=
  (((ctxFlows s.pk 4095).filter fun f => !f.saved && f.holds s.pk).flatMap (flowBytes s.pk),
    (ctxHeld s.pk 4095).flatMap fun e => heldBytes e.1 e.2.1 e.2.2)
/-- Whether the flows' run finds room, and that of the results behind it. -/
def runsFound (s : State) : Option (Option Unit) :=
  (writeRun (Work.start s) 4095 (runsOf s).1).map fun r => (writeRun r.2 4095 (runsOf s).2).map fun _ => ()
/-- The entry of a flow of the scheduled context stands in its run. -/
def savedFlow : State := areaMem (st_ id fun p =>
  let p := area 0 (items p)
  { p with flows := p.flows.map fun f => { f with saved := true } })

theorem witness_StopsSavesAndRestores_runs :
    (∀ e ∈ [(unscheduled .saved (2 ^ 20), false, some (some ())), (unscheduled .resident (2 ^ 20), true, some (some ())),
        (unscheduled .saved 0xB000, false, some none), (unscheduled .saved 0x9000, false, none)],
      ∃ c, e.1.pk.ctxs.find? 4095 = some c ∧ c.sched = 0 ∧ haltedWalks e.1.pk 4095 = [] ∧ ctxResident e.1.pk 4095 = e.2.1 ∧
        ((ctxFlows e.1.pk 4095).filter fun f => !f.saved && f.holds e.1.pk) ≠ [] ∧ runsFound e.1 = e.2.2) ∧
    (∃ c, (unscheduled .saved (2 ^ 20) fun p => { p with flows := [] }).pk.ctxs.find? 4095 = some c ∧ c.sched = 0 ∧
      ((ctxFlows (unscheduled .saved (2 ^ 20) fun p => { p with flows := [] }).pk 4095).filter fun f => !f.saved) = []) ∧
    (∃ c, savedFlow.pk.ctxs.find? 4095 = some c ∧ c.sched ≠ 0 ∧ (∃ f ∈ ctxFlows savedFlow.pk 4095, f.saved = true) ∧
      flowEntries savedFlow.pk + ((ctxFlows savedFlow.pk 4095).filter fun f => f.saved).length ≤ flowTableSize) := by
  refine ⟨?_, found (by decide +kernel), found (by decide +kernel)⟩
  simp only [List.forall_mem_cons]
  exact ⟨found (by decide +kernel), found (by decide +kernel), found (by decide +kernel), found (by decide +kernel), nofun⟩

theorem witness_StopsSavesAndRestores_requests :
    (∃ g, (asks 0 0x2000).pk.groups.find? gi = some g ∧
      partRequests (asks 0 0x2000).pk 0 0 = [(gi, ⟨12, 60, 0⟩), (9, ⟨1, 61, 0⟩)] ∧ g.xreq = some ⟨12, 60, 0⟩ ∧
      admits (asks 0 0x2000).pk g.ctx 0 0 (64 * 12) = true) ∧
    (∃ g, (asks 4096 0).pk.groups.find? gi = some g ∧
      partRequests (asks 4096 0).pk 0 0 = (gi, ⟨12, 60, 4096⟩) :: ([] ++ [(9, ⟨1, 61, 0⟩)]) ∧
      admits (asks 4096 0).pk g.ctx 0 0 (64 * 12) = false ∧
      ((asks 4096 0).pk.groups.find? 9).map (fun h => (h.saveReq, h.stat)) = some (none, .resident)) :=
  ⟨found (by decide +kernel), found (by decide +kernel)⟩

/-! ### Events of the memory system -/

def sldState : State := after (at_ (.sld smemF) (setS 1 0x20000))
def stored : State := after storeState
def atomStarted : State := after atomState
def recDropped : State := after (at_ (.frec frecF) (setS 1 0x40))
def refOne : State := after (at_ (.refinc { refF with h := offHdr }) fun g => lanes 1 (setS 1 0x20000 (setV 41 7 g)))
def refJudged : State := pk (fun p => { p with txns := p.txns.adjust 4 fun t => { t with judged := true } }) refOne
/-- A push of lane 0 to the queue whose descriptor is at 0x20000: 4 entries from 0x60000, the indices as given. -/
def pushState (prod : Nat) : State :=
  cells 0x20000 (valBytes 8 0x60000 ++ valBytes 8 4 ++ valBytes 8 prod ++ valBytes 8 0)
    (pk (fun p => { p with txns := p.txns.adjust 4 fun t => { t with judged := true } })
      (after (at_ (.outq { stordF with width := .w16, d := ⟨16, false⟩ }) fun g => lanes 1 (setS 1 0x20000 g))))

theorem witness_MemoryEvents_accesses :
    (∃ x, loading.pk.txns.find? 4 = some x ∧ x.kind = .load 8 1 4 ∧ mayPerform loading.pk 4 x 0 = true ∧
      ((x.ops.get 0).map fun o => (o.phase, refreshing loading.pk o.keys, (Work.start loading).badKey o.keys)) = some (0, false, none) ∧
      (loading.pk.groups.find? x.g).isSome = true) ∧
    (∃ x, sldState.pk.txns.find? 4 = some x ∧ x.kind = .sload 3 .i64 Mask.full ∧ mayPerform sldState.pk 4 x 0 = true ∧
      ((x.ops.get 0).map fun o => (o.phase, refreshing sldState.pk o.keys, (Work.start sldState).badKey o.keys)) = some (0, false, none) ∧
      (sldState.pk.groups.find? x.g).isSome = true) ∧
    (∃ x, stored.pk.txns.find? 4 = some x ∧ x.kind = .store ∧ x.staged = none ∧ mayPerform stored.pk 4 x 1 = true ∧
      ((x.ops.get 1).map fun o => (o.phase, decide (sound stored o.keys))) = some (0, true)) ∧
    (∃ x, recDropped.pk.txns.find? 4 = some x ∧ x.kind = .frec (List.replicate 8 (recKey 4095 0x40)) ∧ mayPerform recDropped.pk 4 x 0 = true ∧
      (x.ops.get 0).map LaneOp.phase = some 0) ∧
    (∃ x, atomStarted.pk.txns.find? 4 = some x ∧ x.kind = .atom 0 .n32 8 1 true ∧ x.performSet 1 = [1] ∧ mayPerform atomStarted.pk 4 x 1 = true ∧
      ((x.ops.get 1).map fun o => (o.phase, decide (sound atomStarted o.keys))) = some (0, true)) ∧
    (∃ x, atomPerformed.pk.txns.find? 4 = some x ∧ x.kind = .atom 0 .n32 8 1 true ∧
      (x.ops.get 1).map LaneOp.phase = some 1) ∧
    (∃ x, refJudged.pk.txns.find? 4 = some x ∧ (x.kind = .ref true 46 (Lanes.ofFn fun _ => 0x20000) Mask.full) ∧ x.judged = true ∧
      x.performSet 0 = [0] ∧ mayPerform refJudged.pk 4 x 0 = true ∧
      (headerKeys (Work.start refJudged) x (Lanes.ofFn fun _ => 0x20000) 0).isSome = true ∧
      ((x.ops.get 0).map fun o => (o.phase, decide (sound refJudged o.keys), bytesVal ((Work.start refJudged).bytes o.keys))) =
        some (0, true, 0)) :=
  ⟨found (by decide +kernel), found (by decide +kernel), found (by decide +kernel), found (by decide +kernel),
    found (by decide +kernel), found (by decide +kernel), found (by decide +kernel)⟩

theorem witness_MemoryEvents_pushes :
    ∀ prod ∈ [3, 4], ∃ x, (pushState prod).pk.txns.find? 4 = some x ∧ x.kind = .outq 16 ∧ x.judged = true ∧ x.paused = none ∧
      (laneList.find? fun K => x.openIn K) = some 0 ∧ mayPerform (pushState prod).pk 4 x 0 = true ∧
      ((x.ops.get 0).map fun o => (o.phase, (chkGlobal (Work.start (pushState prod)) x.ctx .store o.va.toNat 64 64).1)) =
        some (0, .ok (keysFrom 0x20000 64)) ∧
      (Work.start (pushState prod)).badKey (keysFrom 0x20000 64) = none ∧
      queueRoom ((Work.start (pushState prod)).bytes (keysFrom 0x20000 64)) = (prod == 3) ∧
      (chkGlobal (chkGlobal (Work.start (pushState prod)) x.ctx .store 0x20000 64 64).2 x.ctx .store 0x60060 32 32).1 =
        .ok (keysFrom 0x60060 32) := by
  simp only [List.forall_mem_cons]
  exact ⟨found (by decide +kernel), found (by decide +kernel), nofun⟩

/-- A group waits in `tlbinv` for a pin of line 5 of the firmware's context, made by a group of launch 3. -/
def pinned (owner : Nat) : State :=
  areaMem (st_ (fun g => { g with splits := [sp 0xFF (.blocked (.inval [] 4095 0 4096 [4095 * 2 ^ 64 + 5] 0)) 0] }) fun p =>
    { area 0x10000 p with pins := [⟨4095, 5, 2, [(1, 3, owner), (4, 3, 88)]⟩, ⟨4095, 6, 1, [(2, 3, gi)]⟩] })
def lifted : State := pk (fun p => { p with lift := p.lift.insert (slotKey 0 9) ⟨1, 2, some (gi, 3), [], [], some 1024⟩ }) st_

theorem witness_MemoryEvents_pins :
    (∃ g, (pinned 77).pk.groups.find? gi = some g ∧
      g.splits = [sp 0xFF (.blocked (.inval [] 4095 0 4096 [4095 * 2 ^ 64 + 5] 0)) 0] ∧
      ((pinned 77).pk.pins.filter fun p => [4095 * 2 ^ 64 + 5].contains (p.ctx * 2 ^ 64 + p.line)) =
        [⟨4095, 5, 2, [(1, 3, 77), (4, 3, 88)]⟩] ∧
      (pinned 77).pk.groups.find? 77 = none) ∧
    (∃ g, (pinned gi).pk.groups.find? gi = some g ∧ g.pendA.length < 32 ∧
      ((pinned gi).pk.pins.filter fun p => [4095 * 2 ^ 64 + 5].contains (p.ctx * 2 ^ 64 + p.line)) =
        [⟨4095, 5, 2, [(1, 3, gi), (4, 3, 88)]⟩] ∧
      ((pinned gi).pk.ctxs.find? g.ctx).map Ctx.tvec = some 0x10000) ∧
    (∃ x, lifted.pk.lift.find? (slotKey 0 9) = some x ∧ x.owner = some (gi, 3) ∧ x.expAge = some 1024 ∧ x.held lifted.pk = false) :=
  ⟨found (by decide +kernel), found (by decide +kernel), found (by decide +kernel)⟩

/-- Packets of domain 1 reach 0x1000 bytes of this package for writing, a pool header among them; the placed group has imported a
token of die 0 of package 1. -/
def reached : State :=
  cells 0x20040 (valBytes 8 0x21000 ++ valBytes 4 4 ++ valBytes 4 1) <| pk (fun p => { area 0x10000 p with reach := [⟨1, 0, 0x20000, 0x1000, true⟩] })
    (st_ fun g => g.setChain 0 { Chain.idle with imports := [0x0010000000000001] })
/-- And a queue of 4 entries from 0x20400, three or four of them taken. -/
def queued (prod : Nat) : State :=
  cells 0x20080 (valBytes 8 0x20400 ++ valBytes 4 4 ++ valBytes 4 0 ++ valBytes 8 prod ++ valBytes 8 0) reached
/-- A packet of core 0 of package 1, on a chain that has sent none before. -/
def pkt (addr : Nat) (op : PacketOp) : Packet := ⟨1, 0, 3, 1, 7, 0, 1, addr, op⟩
/-- The one lane of the access reaches a byte of package 1. -/
def sendAfar (L : Fin 8) (t : Txn) : Txn :=
  let far (K : Fin 8) : Option LaneOp := (t.ops.get K).map fun o => { o with keys := keysFrom (2 ^ 44) 2 }
  { t with ops := Lanes.ofFn fun K => if K = L then far K else none }
def afar (s : State) (L : Fin 8) : State := pk (fun p => { p with txns := p.txns.adjust 4 (sendAfar L) }) s
def handledLoad : State := afar (pk (area 0x10000) loading) 0

theorem witness_MemoryEvents_remote :
    (let s := reached
     (∀ x ∈ [pkt 0x20FFE (.write [1, 2]), pkt 0x20FFF (.write [1, 2]), pkt 0x20FF8 (.atomic 0 .n64 1 0), pkt 0x20008 (.refcount true 0x20040 0 none),
         pkt 0x20080 (.push false (valBytes 32 0) (some 0x20460))], AppliedAlone s (.packet x)) ∧
     (∀ x ∈ [pkt 0 (.token 0x0010000000000000), pkt 0 (.dieLost 2)], x.src ≠ s.pk.no) ∧
     admitsPacket s.pk 1 0x20FFE 2 true = true ∧ (Work.start s).badKey (keysFrom 0x20FFE 2) = none ∧
     admitsPacket s.pk 1 0x20FFF 2 true = false ∧ admitsPacket s.pk 1 0x20FF8 (akindBytes .n64) true = true ∧
     (admitsPacket s.pk 1 0x20008 4 true = true ∧ admitsPacket s.pk 1 0x20040 64 true = true ∧
       poolOk ((Work.start s).bytes (keysFrom 0x20040 64)) 0 = true ∧ bytesVal ((Work.start s).bytes (keysFrom 0x20008 4)) = 0) ∧
     (tokenOf (0x0010000000000000 : W64).toNat).pkg ≠ s.pk.no ∧
     (importers s.pk 1 0 = [gi] ∧ ∀ gj ∈ importers s.pk 1 0, (s.pk.groups.find? gj).map (fun g =>
       (g.pendA, (s.pk.ctxs.find? g.ctx).map Ctx.tvec)) = some ([], some 0x10000))) ∧
    (∀ item ∈ [false, true], ∀ prod ∈ [3, 4], let s := queued prod
      let d := (Work.start s).bytes (keysFrom 0x20080 64)
      admitsPacket s.pk 1 0x20080 64 true = true ∧ admitsPacket s.pk 1 0x20460 32 true = true ∧
        (Work.start s).badKey (keysFrom 0x20080 64) = none ∧
        (if item then iqOk d && itemEntryOk (valBytes 32 0) else oqOk d) = true ∧ queueRoom d = (prod == 3)) ∧
    (let x := pkt 0x20FFE (.write [1, 2])
     x.seq ≤ lastApplied { reached.pk with applied := [(2 ^ 20 + slotKey 0 3, (1, 7))] } (FarArrival.packet x).place) ∧
    (let x : Packet := { pkt 0x20FFE (.write [1, 2]) with prev := 3 }
     x.src ≠ reached.pk.no ∧ isReport x.op = false ∧ lastApplied reached.pk (FarArrival.packet x).place < x.seq ∧
       x.prev ≠ lastApplied reached.pk (FarArrival.packet x).place ∧ reached.pk.reorder = []) ∧
    (∃ x, (afar stored 1).pk.txns.find? 4 = some x ∧ x.kind = .store ∧ mayPerform (afar stored 1).pk 4 x 1 = true ∧
      ((x.ops.get 1).map fun o => (o.phase, onPackage 1 o, o.keys)) = some (0, keysFrom (2 ^ 44) 2, keysFrom (2 ^ 44) 2)) ∧
    (∀ q ∈ [Mask.none, Mask.full], let s := pk (fun p => { p with txns := p.txns.adjust 4 fun t => { t with quiet := q } }) handledLoad
      ∃ x, s.pk.txns.find? 4 = some x ∧ x.kind = .load 8 1 4 ∧ x.quiet = q ∧ mayPerform s.pk 4 x 0 = true ∧
        ((x.ops.get 0).map fun o => (o.phase, onPackage 1 o)) = some (0, keysFrom (2 ^ 44) 2) ∧
        ((s.pk.groups.find? x.g).map fun g => (g.pendA, (s.pk.ctxs.find? g.ctx).map Ctx.tvec)) = some ([], some 0x10000)) := by
  refine ⟨by decide +kernel, by decide +kernel, by decide +kernel, by decide +kernel, found (by decide +kernel), ?_⟩
  simp only [List.forall_mem_cons]
  exact ⟨found (by decide +kernel), found (by decide +kernel), nofun⟩

/-! ### Events of the engines -/

/-- The first bytes, with room for the fields behind them. -/
def record (bs : List Byte) (flds : List (Nat × Nat × Nat)) : List Byte := flds.foldl (fun d x => setFld d x.1 x.2.1 x.2.2) bs
def request (kind spaces src dst size : Nat) (accepted : Bool) : Req :=
  ⟨0, gi, 2, 4095, record (valBytes 64 0) [(0, 1, kind), (1, 1, spaces), (8, 8, src), (16, 8, dst), (24, 8, size)], 64, 0, .core,
    ⟨[], []⟩, accepted, [], 0, none, none⟩
def reqState (q : Req) : State := st_ id fun p => { withLocal p with reqs := [(50, q)] }
/-- A copy of 4 bytes, and one from past the end of the local memory. -/
def copies (accepted : Bool) : State := reqState (request 0 0 0x20000 0x21000 4 accepted)
def strays (accepted : Bool) : State := reqState (request 0 1 786432 0x21000 4 accepted)
def faraway : State := reqState (request 0 0 0x40000000 0x21000 4 true)
/-- The barrier of this one is that of a member of the gang that has not started. -/
def away : State := pk (fun p => { p with launches := p.launches.adjust 3 fun l => { l with rec_ := setFld l.rec_ 24 1 2 } })
  (reqState (let q := request 0 0 0x20000 0x21000 4 true
    { q with rec_ := setFld q.rec_ 32 4 0x11000040 }))
/-- The promise of this copy is not yet in its registers. -/
def promising : State := reqState { request 0 0 0x20000 0x21000 4 false with promise := some (40, 99) }

/-- The transfer of a request, and how far it goes at once. -/
def reqXfer (s : State) (q : Req) : Xfer := q.xfer (lnchOf (Work.start s) q.blk)
def goes (s : State) (q : Req) : Nat × Option PieceRes :=
  let r := (reqXfer s q).advance (Work.start s) q.done
  (r.1, r.2.1)
abbrev takenNow (s : State) (q : Req) : Prop :=
  q.core = 0 ∧ q.promise = none ∧ q.accepted = false ∧ q.paused = none ∧ q.preds.met s.pk = true ∧
    firstToTake s.pk 0 50 = true ∧ fld q.rec_ 0 1 = 0

theorem witness_EngineEvents_copies :
    (∃ q, promising.pk.reqs.find? 50 = some q ∧ q.core = 0 ∧ q.promise = some (40, 99)) ∧
    (∃ q, (copies false).pk.reqs.find? 50 = some q ∧ takenNow (copies false) q ∧
      (reqXfer (copies false) { q with accepted := true, shape := [] }).refused (Work.start (copies false)) = none) ∧
    (∃ q, (strays false).pk.reqs.find? 50 = some q ∧ takenNow (strays false) q ∧
      (reqXfer (strays false) { q with accepted := true, shape := [] }).refused (Work.start (strays false)) = some 2 ∧
      barAway (Work.start (strays false)) q = false) ∧
    (∃ q, (copies true).pk.reqs.find? 50 = some q ∧ reqMoves (copies true).pk 50 q = true ∧ goes (copies true) q = (4, none) ∧
      barAway (Work.start (copies true)) q = false) ∧
    (∃ q, away.pk.reqs.find? 50 = some q ∧ reqMoves away.pk 50 q = true ∧ barAway (Work.start away) q = true) ∧
    (∃ q, (strays true).pk.reqs.find? 50 = some q ∧ reqMoves (strays true).pk 50 q = true ∧
      goes (strays true) q = (0, some (.bad .prot 786432 0)) ∧ barAway (Work.start (strays true)) q = false) ∧
    (∃ q, faraway.pk.reqs.find? 50 = some q ∧ reqMoves faraway.pk 50 q = true ∧
      goes faraway q = (0, some (.bad .page 0x40000000 0)) ∧ barAway (Work.start faraway) q = false) :=
  ⟨found (by decide +kernel), found (by decide +kernel), found (by decide +kernel), found (by decide +kernel), found (by decide +kernel),
    found (by decide +kernel), found (by decide +kernel)⟩

/-- Channel 1 of core 0 walks to a record at 0x20000. -/
def walking (r : List Byte) : State :=
  cells 0x20000 r (st_ id fun p => { desc 100 (valBytes 4 8) p with chans := [(1, { Chan.fresh with st := .walking, next := 0x20000, ctx := 4095, lnch := 3 })] })
def chainRec (own scope : Nat) : List Byte :=
  record (valBytes 128 0) [(0, 8, 0x20080), (8, 4, own), (14, 1, scope), (15, 1, 1), (16, 8, 0x21000), (24, 8, 0x22000), (32, 8, 4), (48, 4, 7)]

/-- A release that wrote this record has performed before a store that stands before it. -/
def walkingOn (r : List Byte) (after_ : Bool) : State := pk (fun p => if after_ then
  let p := outstanding [90] (keysFrom 0x28000 4) p
  { p with notes := p.txns.map fun e => ⟨91, e.2, 0, keysFrom 0x20000 128, some .sys, [⟨90, true⟩]⟩ } else p) (walking r)

theorem witness_EngineEvents_chains :
    ∀ e ∈ [(0, 0, 0, true, false), (1, 4, 1, false, false), (1, 3, 1, true, false), (1, 3, 1, true, true)],
      let s := walkingOn (chainRec e.1 e.2.1) e.2.2.2.2
      let x := chanOf s.pk 0 1
      x.st = .walking ∧ x.hand = none ∧ x.preds.met s.pk = true ∧ scheduledOn s.pk x.ctx (coreDie 0) = true ∧
      (let c1 := chkRange (Work.start s) x.ctx .load x.next.toNat 128
       let c2 := chkRange c1.2 x.ctx .store x.next.toNat 128
       c1.1 = .ok (keysFrom 0x20000 128) ∧ c2.1 = .ok (keysFrom 0x20000 128) ∧ c1.2.badKey (keysFrom 0x20000 128) = none ∧
         c2.2.badKey (keysFrom 0x20000 128) = none ∧ recordWaits c1.2 0 (keysFrom 0x20000 128) = e.2.2.2.2) ∧
      (let r := (Work.start s).bytes (keysFrom 0x20000 128)
       bitAt (fld r 8 4) 0 = e.2.2.1 ∧ xrecOk (s.pk.ctxs.find? x.ctx) r = e.2.2.2.1) := by
  simp only [List.forall_mem_cons]
  refine ⟨?_, ?_, ?_, ?_, nofun⟩ <;> decide +kernel

/-- The transfer of the last of these records is made. -/
theorem witness_EngineEvents_transfers :
    let s := walking (chainRec 1 3)
    let x := chanOf s.pk 0 1
    let r := (Work.start s).bytes (keysFrom 0x20000 128)
    let t := recXfer 0 x r []
    let w := (chkRange (chkRange (Work.start s) x.ctx .load x.next.toNat 128).2 x.ctx .store x.next.toNat 128).2
    fld r 12 1 = 0 ∧ t = ⟨4095, 3, 0, 0, 0, 0, 0, 0x21000, 0x22000, 4, []⟩ ∧ t.refused w = none ∧ t.dspace ≠ 2 ∧ t.dspace ≠ 3 ∧
      (let y := t.move w (t.pieces (fld r 56 8) t.total)
       (y.1, y.2.1) = (4, none)) := by
  refine ⟨?_, ?_, ?_, ?_, ?_, ?_⟩ <;> decide +kernel

def mxc (o : MxOp) : MxCmd := ⟨gi, o, 0, 0, [], 0⟩
def matrixState (o : MxOp) : State := st_ id fun p => { p with mx := [(0, { MxUnit.fresh with queue := [mxc o] })] }

theorem witness_EngineEvents_matrices :
    ((mxUnit (matrixState (.zero 1)).pk 0 0).queue = mxc (.zero 1) :: [] ∧ MxOp.inUnit (.zero 1) = true) ∧
    ((mxUnit (matrixState (.read 80 0 128 16 .f32 Mask.full)).pk 0 0).queue = mxc (.read 80 0 128 16 .f32 Mask.full) :: [] ∧
      80 + 16 ≤ 1024 ∧ (st_.pk.groups.find? gi).isSome = true) := by decide +kernel

def detEntry : DetEntry := ⟨0x20000, 0, 0, 0, 0, 4, 0, 0, [1, 2, 3, 4], keysFrom 0x20000 4, [], []⟩
/-- A buffered add. -/
def detAdd : DetEntry := { detEntry with kind := 1, atype := 1 }
/-- The block of launch 3 has the turn. -/
def gateState (stat : BStat) (sealed_ : Nat) (es : List DetEntry) : State :=
  let d : Det := ⟨0, es, [], sealed_, sealed_, 0, false, false, none⟩
  st_ id fun p => { p with blocks := p.blocks.adjust 2 fun b => { b with stat := stat, det := some d } }
/-- What the gate finds: the block with the turn, and in it no pause. -/
def gateAt (s : State) (P : Block → Det → Bool) : Bool :=
  match s.pk.launches.find? 3, s.pk.blocks.find? 2 with
  | some l, some b =>
    match b.det with
    | some d => blockAt s.pk l l.turn == some (2, b) && d.paused.isNone && !d.void && P b d
    | none => false
  | _, _ => false

theorem gateAt_elim {s : State} {P : Block → Det → Bool} (h : gateAt s P = true) :
    ∃ l b d, s.pk.launches.find? 3 = some l ∧ blockAt s.pk l l.turn = some (2, b) ∧ s.pk.blocks.find? 2 = some b ∧
      b.det = some d ∧ d.paused = none ∧ d.void = false ∧ P b d = true := by
  unfold gateAt at h
  split at h
  · rename_i l b h1 h2
    split at h
    · rename_i d h3
      simp only [Bool.and_eq_true, beq_iff_eq, Option.isNone_iff_eq_none, Bool.not_eq_true'] at h
      exact ⟨l, b, d, h1, h.1.1.1, h2, h3, h.1.1.2, h.1.2, h.2⟩
    · cases h
  · cases h

/-- The next entry of the block with the turn is applied. -/
def entryApplies (s : State) (b : Block) (d : Det) : Bool :=
  d.nextEntry.any fun e => decide (b.stat ≠ .killed ∧ d.applied < d.sealed ∧ e.kind ≤ 1 ∧ entryWaits s.pk e [] = false ∧
    entryWaits s.pk e (keysFrom 0x20000 4) = false ∧
    (chkGlobal (Work.start s) b.ctx .store e.addr.toNat e.width 1).1 = .ok (keysFrom 0x20000 4) ∧ sound s (keysFrom 0x20000 4))

theorem witness_EngineEvents_gates : ∀ e ∈ [
      (gateState .killed 0 [], fun (b : Block) (_ : Det) => decide (b.stat = .killed)),
      (gateState .ended 0 [], fun b d => decide (b.stat = .ended ∧ d.sealed ≤ d.applied)),
      (gateState .begun 1 [], fun b d => decide (b.stat ≠ .killed ∧ d.applied < d.sealed ∧ d.nextEntry = none)),
      (gateState .begun 1 [detEntry], fun b d => d.nextEntry == some detEntry && entryApplies (gateState .begun 1 [detEntry]) b d),
      (gateState .begun 1 [detAdd], fun b d => d.nextEntry == some detAdd && entryApplies (gateState .begun 1 [detAdd]) b d)],
    ∃ l b d, e.1.pk.launches.find? 3 = some l ∧ blockAt e.1.pk l l.turn = some (2, b) ∧ e.1.pk.blocks.find? 2 = some b ∧
      b.det = some d ∧ d.paused = none ∧ d.void = false ∧ e.2 b d = true := by
  simp only [List.forall_mem_cons]
  refine ⟨?_, ?_, ?_, ?_, ?_, nofun⟩ <;> exact gateAt_elim (by decide +kernel)
/-- One member of two adds 4 elements to a buffer whose object stands at 0x30000; the record is at 0x20000. -/
def sumRec (timeout : Nat) : List Byte :=
  record (valBytes 128 0) [(8, 8, 77), (16, 8, 0x21000), (24, 8, 0x30000), (32, 4, 4), (36, 1, 2), (48, 8, timeout)]
def sumState (timeout : Nat) : State :=
  cells 0x20000 (sumRec timeout) (st_ id fun p => { p with
    colls := [(60, ⟨4095, 3, .allred, 0x20000, sumRec timeout, 2, 0, 0x30000, 0x600000, false, none, 10, ⟨[], []⟩, none⟩)]
    pubs := [⟨0x200000, 0x1000, 0x400000, 0x600000, 0x30000⟩] })

/-- And a walk whose record in hand writes the same shadow. -/
def contended : State :=
  pk (walkWith ⟨valBytes 128 0, [], 0x600000, some 0x30000, false⟩) (sumState 0)

theorem witness_EngineEvents_collectives :
    (∀ timeout ∈ [0, 10], ∃ e, collOf (sumState timeout).pk 77 = some e ∧ e.1 = 60 ∧ e.2.committed = false ∧ e.2.ending = none ∧
      1 < e.2.nmem ∧ (chkRange (Work.start (sumState timeout)) e.2.ctx .store e.2.place.toNat 128).1 = .ok (keysFrom 0x20000 128) ∧
      cTimeout e.2.bytes = timeout ∧ timeout ≤ e.2.age) ∧
    ∀ x ∈ [(sumState 0, false), (contended, true)], ∃ e, collOf x.1.pk 77 = some e ∧ e.2.committed = false ∧ e.2.ending = none ∧
      (∀ m, m < e.2.nmem → e.2.has [(1, valBytes 16 5)] m = true) ∧ e.2.preds.met x.1.pk = true ∧ e.2.page = none ∧
      (let r := ownPart (Work.start x.1) e.2
       let out := collOut e.2 [valBytes 16 0, valBytes 16 5]
       let w := setColl (r.2.write (keysFrom e.2.shadow out.length) out) e.1 { e.2 with committed := true }
       r.1.toOption = some (valBytes 16 0) ∧ shadowBusy w.pk e.2.obj = x.2 ∧
         (x.2 = false → (chkRange (publish w e.2.obj) e.2.ctx .store e.2.place.toNat 128).1 = .ok (keysFrom 0x20000 128))) := by
  simp only [List.forall_mem_cons]
  exact ⟨⟨found (by decide +kernel), found (by decide +kernel), nofun⟩, found (by decide +kernel), found (by decide +kernel), nofun⟩

/-- A delivery to register 40 of the placed group, whose name is slot 6 of generation 1. -/
def toName (full : Bool) (target : Nat) (gen : Nat) : Delivery × (Group → Group) :=
  (⟨0, 0, 0, 1, 0, 0, gi, 0, BitVec.ofNat 64 (gen * 2 ^ 16 + 6), target, Lanes.ofFn fun _ => 5, Mask.full, 1⟩,
    fun g => g.setReg 40 { VReg.fresh with full := if full then Mask.full else Mask.none })
/-- The name table with that name, or without. -/
def nameGiven (yes : Bool) (p : Package) : Package :=
  if yes then { p with names := [(6, ⟨1, some gi, 4095, 1, false⟩)] } else p
def sending (yes full : Bool) (acked : Option Nat) : State :=
  st_ (toName full 40 1).2 fun p => nameGiven yes { p with sent := [(70, ⟨(toName full 40 1).1, 90, ⟨[], []⟩, false, acked⟩)] }
def arrivedAt (target : Nat) : State :=
  st_ (toName false 40 1).2 fun p => nameGiven true { p with
    inbound := [(71, ⟨(toName false target 1).1, some 70, gi, some 0, false, 71⟩)],
    sent := [(70, ⟨(toName false target 1).1, 90, ⟨[], []⟩, true, none⟩)] }

theorem witness_EngineEvents_deliveries :
    (∃ x, (sending true false none).pk.sent.find? 70 = some x ∧ x.arrived = false ∧
      namePkg x.d.name.toNat = (sending true false none).pk.no ∧ x.preds.met (sending true false none).pk = true ∧
      sentBefore (sending true false none).pk 70 x.d = false ∧
      (sending true false none).pk.names.find? (nameSlot x.d.name.toNat) = some ⟨1, some gi, 4095, 1, false⟩ ∧
      1 = nameGen x.d.name.toNat ∧ x.d.domain = 1 ∧
      ((sending true false none).pk.groups.find? gi).map (fun g => (g.stat, ferryJudge g x.d)) = some (.resident, .apply) ∧
      earlierWaits (sending true false none).pk (sending true false none).pk.fresh x.d gi = false) ∧
    (∃ x, (sending false false none).pk.sent.find? 70 = some x ∧ x.arrived = false ∧
      namePkg x.d.name.toNat = (sending false false none).pk.no ∧ x.preds.met (sending false false none).pk = true ∧
      sentBefore (sending false false none).pk 70 x.d = false ∧
      (sending false false none).pk.names.find? (nameSlot x.d.name.toNat) = none) ∧
    (∀ e ∈ [(40, FerryJudge.apply), (1023, .discard 2)], ∃ i, (arrivedAt e.1).pk.inbound.find? 71 = some i ∧ i.core = some 0 ∧
      i.g = gi ∧ ((arrivedAt e.1).pk.groups.find? i.g).map (fun g => (g.stat, ferryJudge g i.d)) = some (.resident, e.2) ∧
      earlierWaits (arrivedAt e.1).pk 71 i.d i.g = false ∧ i.own = some 70 ∧ ((arrivedAt e.1).pk.sent.find? 70).isSome = true) ∧
    (let s := pk (fun p => { p with groups := p.groups.adjust gi fun g => { g with stat := .saved } }) (arrivedAt 40)
     ∃ i, s.pk.inbound.find? 71 = some i ∧ i.core = some 0 ∧ (s.pk.groups.find? i.g).map Group.stat = some .saved) ∧
    (∀ cause ∈ [0, 3], ∃ x, (sending true false (some cause)).pk.sent.find? 70 = some x ∧
      namePkg x.d.name.toNat = (sending true false (some cause)).pk.no ∧ x.acked = some cause ∧
      ((sending true false (some cause)).pk.groups.find? x.d.sender).map (fun g =>
        ((sending true false (some cause)).pk.ctxs.find? g.ctx).map Ctx.nakT) = some (some false)) := by
  refine ⟨found (by decide +kernel), found (by decide +kernel), ?_, found (by decide +kernel), ?_⟩
  · simp only [List.forall_mem_cons]
    exact ⟨found (by decide +kernel), found (by decide +kernel), nofun⟩
  · simp only [List.forall_mem_cons]
    exact ⟨found (by decide +kernel), found (by decide +kernel), nofun⟩

/-! ### Events of launches -/

/-- A grid of one block of one small group, waiting on a task or none, and counting at an address or none. -/
def gridRec (dep done_ : Nat) : List Byte := record placeRec [(28, 2, 16), (30, 2, 0), (40, 4, dep), (48, 8, done_)]
/-- A stream of at most two groups, whose input queue's descriptor stands at 0x30000. -/
def streamRec : List Byte := record placeRec [(12, 4, 2), (26, 1, 2), (28, 2, 16), (30, 2, 0), (64, 8, 0x30000)]

/-- A queue with records from 0x20000 on. -/
def taking (r : List Byte) (prod : W64) (count : W32) : State :=
  cells 0x20000 r (pk (fun p => { desc 100 (valBytes 4 1) (area 0 p) with
    queues := [(16383, ⟨0x20000, 4, prod, 0, 4095, true, false, none⟩)], tasks := [(0, ⟨count, false, []⟩)] }) st_)

theorem witness_LaunchEvents_queues :
    (let s := taking [] 5 0
     let x := queueOf s.pk 16383
     x.en = true ∧ x.paused = none ∧ x.prod ≠ x.cons ∧ x.prod - x.cons > x.cap) ∧
    ∀ e ∈ [(gridRec 0 0, 0, true), (gridRec 0x80000000 0, 1, true), (valBytes 256 0, 0, false)],
      let s := taking e.1 4 e.2.1
      let x := queueOf s.pk 16383
      x.en = true ∧ x.paused = none ∧ x.prod ≠ x.cons ∧ x.prod - x.cons ≤ x.cap ∧
        (chkRange (Work.start s) x.ctx.toNat .load 0x20000 256).1 = .ok (keysFrom 0x20000 256) ∧
        (s.pk.ctxs.find? x.ctx.toNat).map (fun c => recOk s.neg x.ctx.toNat c ((Work.start s).bytes (keysFrom 0x20000 256))) =
          some e.2.2 ∧
        (e.2.2 = true → (taskOf (recDep e.1)).map (fun k => (s.pk.tasks.getD Task.fresh k).count) =
          if e.2.1 = 0 then none else some 1) := by
  simp only [List.forall_mem_cons]
  refine ⟨?_, ?_, ?_, ?_, nofun⟩ <;> decide +kernel

/-- A launch besides the placed one. -/
def beside (l : Launch) (G : Package → Package := id) : State :=
  areaMem (st_ small fun p => G { area 0 p with launches := p.launches.insert 50 l })
def grid (r : List Byte) (stat : LStat) : Launch := { Launch.fresh 4095 r 0 .queue none 0 with stat := stat }
def placing : State := beside (grid (gridRec 0 0) .ready)
/-- A stream with two items ready. -/
def streaming (G : Package → Package := id) : State :=
  beside { grid streamRec .running with readyItems := [80, 81] } G

theorem witness_LaunchEvents_blocks :
    (∃ l, placing.pk.launches.find? 50 = some l ∧ l.waits = true ∧ liveOn placing.pk l.ctx (coreDie 1) = true ∧
      l.isItems = false ∧ nextOn placing.pk l (coreDie 1) = true ∧ otherFirst (Work.start placing) 50 l (coreDie 1) = false ∧
      savedFirst (Work.start placing) l (coreDie 1) = false ∧
      coresTake placing.pk l.ctx (recLocal l.rec_) (seatsOf l.rec_) (recCores l.rec_) (coreDie 1) [1] = true ∧
      (blockExtras (Work.start placing) l).isSome = true) ∧
    (∃ l, streaming.pk.launches.find? 50 = some l ∧ streamOpen (Work.start streaming) l = true ∧ 2 ≤ l.readyItems.length ∧
      streamRoom streaming.pk l = true ∧ liveOn streaming.pk l.ctx (coreDie 1) = true ∧ l.die = none ∧
      otherFirst (Work.start streaming) 50 l (coreDie 1) = false ∧ savedFirst (Work.start streaming) l (coreDie 1) = false ∧
      coresTake streaming.pk l.ctx (recLocal l.rec_) (seatsOf l.rec_) 1 (coreDie 1) [1] = true ∧
      (blockExtras (Work.start streaming) l).isSome = true ∧ recGroups l.rec_ = 1) :=
  ⟨found (by decide +kernel), found (by decide +kernel)⟩

def finished : State := beside { grid (gridRec 0 0x20000) .running with next := 1, blocksDone := 1 }
def killed : State := beside { grid (gridRec 0 0x20000) .killed with blocks := [2], blocksDone := 1, killRecs := [anyRec .killed] }
/-- The input queue at 0x30000: 4 entries from 0x31000. -/
def iq (flags prod cons : Nat) (s : State) : State :=
  cells 0x30000 (valBytes 8 0x31000 ++ valBytes 4 4 ++ valBytes 4 flags ++ valBytes 8 prod ++ valBytes 8 cons) s
def closed : State := iq 1 7 7 (beside (grid streamRec .ready))

theorem witness_LaunchEvents_ends :
    (∃ l, finished.pk.launches.find? 50 = some l ∧ l.stat = .running ∧ l.isItems = false ∧ blocksOver l = true ∧ l.fatal = false ∧
      l.donePage = none ∧ launchDrained finished.pk 50 = true ∧ l.det = false ∧
      (chkGlobal (Work.start finished) l.ctx .store (recDone l.rec_) 8 8).1 = .ok (keysFrom 0x20000 8) ∧
      sound finished (keysFrom 0x20000 8)) ∧
    (∃ l, killed.pk.launches.find? 50 = some l ∧ l.stat = .killed ∧ blocksOver l = true ∧ launchDrained killed.pk 50 = true ∧
      turnsOver l = true ∧ (killed.pk.ctxs.find? l.ctx).isSome = true ∧ (∀ r ∈ l.killRecs, r.ctx = l.ctx) ∧ l.donePage = none) ∧
    (∃ l, closed.pk.launches.find? 50 = some l ∧ l.stat = .ready ∧ l.isItems = true ∧ l.dispPage = none ∧ l.fatal = false ∧
      l.donePage = none ∧ streamOver (settleItems (Work.start closed)) 50 l = true ∧
      launchDrained (settleItems (Work.start closed)).pk 50 = true ∧ recDone l.rec_ = 0) :=
  ⟨found (by decide +kernel), found (by decide +kernel), found (by decide +kernel)⟩

/-- An item of the placed launch in a flow that it is alone in. -/
def itemAt (cls : ICls) (held : List Held) (p : Package) : Package :=
  { p with items := [(80, ⟨50, 9, cls, 0, [1, 2, 3], true, cls != .a, false, held, none⟩)], flows := [⟨50, 9, 1, [⟨80, 0, true, []⟩], [], none, false⟩] }
def entry : List Byte := valBytes 4 9 ++ [2] ++ valBytes 3 0 ++ valBytes 8 0x11 ++ valBytes 8 0x22 ++ valBytes 8 0x33
def supplied : State := cells 0x31060 entry (iq 0 4 3 streaming)
def atomicItem : State := streaming (itemAt .a [])
def holding : State := streaming (itemAt .o [heldStore])
def noted (due : Bool) : State := iq 0 4 3 (beside { grid streamRec .running with dispNoted := true, dispDue := due })

theorem witness_LaunchEvents_items :
    (∃ l, supplied.pk.launches.find? 50 = some l ∧ streamOpen (Work.start supplied) l = true ∧ l.dispPage = none ∧
      l.dispNoted = false ∧ (readIq (Work.start supplied) l).1.toOption = some (keysFrom 0x30000 64) ∧
      (let d := (Work.start supplied).bytes (keysFrom 0x30000 64)
       fld d 24 8 < fld d 16 8 ∧ prodOpen supplied.pk (keysFrom 0x30010 8) = false ∧ (fld d 0 8 + 32 * (fld d 24 8 % fld d 8 4)) % 2 ^ 64 = 0x31060) ∧
      (chkGlobal (Work.start supplied) l.ctx .load 0x31060 32 32).1 = .ok (keysFrom 0x31060 32) ∧
      itemEntryOk ((Work.start supplied).bytes (keysFrom 0x31060 32)) = true ∧ flowRoom supplied.pk 50 9 = true) ∧
    (∃ i, atomicItem.pk.items.find? 80 = some i ∧ mayAdmit atomicItem.pk 80 = true) ∧
    (∃ f, flow? holding.pk 50 9 = some f ∧ f.saved = false ∧ f.gate? holding.pk = some ⟨80, 0, true, []⟩ ∧
      (holding.pk.items.find? 80).map (fun i => (i.heldAt 9 0, heldMay holding.pk i heldStore)) = some ([heldStore], true) ∧
      heldStore.paused = none ∧ heldStore.kind = 0 ∧
      (chkGlobal (Work.start holding) heldStore.ctx .store heldStore.addr.toNat heldStore.width 1).1 = .ok (keysFrom 0x20000 4) ∧
      sound holding (keysFrom 0x20000 4)) ∧
    (∃ l, (noted true).pk.launches.find? 50 = some l ∧ l.dispNoted = true ∧ l.dispPage = none ∧ l.dispDue = true ∧
      (readIq (Work.start (noted true)) l).1.toOption = some (keysFrom 0x30000 64)) ∧
    (∃ l, (noted false).pk.launches.find? 50 = some l ∧ l.dispNoted = true ∧ l.dispPage = none ∧ l.dispDue = false) :=
  ⟨found (by decide +kernel), found (by decide +kernel), found (by decide +kernel), found (by decide +kernel),
    found (by decide +kernel)⟩

def trialAt (second : Bool) : State :=
  st_ id fun p => { p with trial := some ⟨0x20000, 3, 0x10000, 0x1000C, 1024, 15, 1, second, 0, 5, 6⟩ }

theorem witness_LaunchEvents_trials : ∀ b ∈ [false, true], ∃ x, (trialAt b).pk.trial = some x ∧ trialGone (trialAt b).pk x = false ∧
    x.left = 0 ∧ x.second = b := by
  simp only [List.forall_mem_cons]
  exact ⟨found (by decide +kernel), found (by decide +kernel), nofun⟩
/-! ### Errors, and the machine as a whole -/

theorem witness_ErrorsAndReset :
    ((st_.pk.groups.find? gi).map fun g => (g.blk, (st_.pk.blocks.find? g.blk).map fun b => (b.stat, b.groups))) =
      some (2, some (.begun, [gi])) ∧
    (st_.pk.diesLost.getLsbD 0 = false ∧ (st_.pk.blocks.find? 2).map (onDie 0) = some true) ∧
    (st_.pk.diesLost.getLsbD 3 = false ∧ (3 : Nat) < 4) := by decide +kernel

theorem ok_of_toOption {ε α : Type} {e : Except ε α} {a : α} (h : e.toOption = some a) : e = .ok a := by
  cases e with
  | error _ => cases h
  | ok _ => exact congrArg _ (Option.some.inj h)

/-- Evaluation shows that a group is to issue and that it and the machine have a property. -/
theorem due {s : State} {P : Group → State → Prop} [∀ g s', Decidable (P g s')]
    (h : (match s.agenda, s.pk.groups.find? gi with
      | .issue n :: rest, some g =>
        let z : State := { s with agenda := rest }
        decide (n = gi ∧ ((takesNext z gi g = true ∧ P g (z.withCur gi g)) ∨
          (blocksNext z gi g = true ∧ P g { z with pk := { z.pk with cur := gi } })))
      | _, _ => false) = true) : ∃ g s', IssueDue s gi g s' ∧ P g s' := by
  split at h
  · rename_i n rest g h1 h2
    obtain ⟨rfl, ⟨h3, h4⟩ | ⟨h3, h4⟩⟩ := of_decide_eq_true h
    · exact ⟨g, _, ⟨h2, rest, h1, .inl ⟨h3, rfl⟩⟩, h4⟩
    · exact ⟨g, _, ⟨h2, rest, h1, .inr ⟨h3, rfl⟩⟩, h4⟩
  · cases h

theorem fetches {s : State} {g : Group} {x : BitVec 96}
    (h : (fetchWord (Work.start s) g g.nextPc).toOption = some x ∧ hasAux x = false) : Fetches s g x 0 := by
  refine ⟨ok_of_toOption h.1, ?_⟩
  simp [h.2]

/-- The word at the next step's PC; and a machine whose group is at a page that is not there. -/
def word (s : State) (x : BitVec 96) : State := s.withFetchWord 96 x.toNat
def nopWord : BitVec 96 := 0x539C0000_00000000_00000000
def noWord : BitVec 96 := 0x07400000_00000000_00000000
def offPage : State := st_ fun g => g.updLanes fun _ l => { l with pc := 0x40000000 }

theorem witness_StepRunsDecoded_instruction : ∃ g s', IssueDue (word State.reset nopWord) gi g s' ∧ Fetches s' g nopWord 0 ∧
    decode nopWord 0 = .ok (.nop ⟨plainHdr⟩) ∧ stopBefore State.reset.neg (Work.start s') gi g (.nop ⟨plainHdr⟩) = none := by
  obtain ⟨g, s', h, p, q, r⟩ := due (s := word State.reset nopWord)
    (P := fun g s' => ((fetchWord (Work.start s') g g.nextPc).toOption = some nopWord ∧ hasAux nopWord = false) ∧
      (decode nopWord 0).toOption = some (.nop ⟨plainHdr⟩) ∧
        (stopBefore State.reset.neg (Work.start s') gi g (.nop ⟨plainHdr⟩)).isNone = true)
    (by decide +kernel)
  exact ⟨g, s', h, fetches p, ok_of_toOption q, Option.isNone_iff_eq_none.1 r⟩

/-- A load is turned away while the group's table entries are all taken. -/
theorem witness_StepRunsDecoded_turned : ∃ g s', IssueDue fullTable gi g s' ∧
    blocksNext { fullTable with agenda := [] } gi g = true ∧ takesNext { fullTable with agenda := [] } gi g = false ∧
    (fetchWord (Work.start s') g g.nextPc).toOption.map (fun x => (hasAux x, (decode x 0).toOption.isSome)) = some (false, true) :=
  due (by decide +kernel)

/-- A watchpoint of register 1 stops the group before an instruction that reads it. -/
theorem witness_StepRunsDecoded_stop : ∃ g s', IssueDue watched gi g s' ∧
    (fetchWord (Work.start s') g g.nextPc).toOption.map (fun x => (hasAux x, (decode x 0).toOption)) =
      some (false, some (.mov ⟨plainHdr, .i32, false, wd 4, wv 1⟩)) ∧
    (stopBefore watched.neg (Work.start s') gi g (.mov ⟨plainHdr, .i32, false, wd 4, wv 1⟩)).isSome = true := due (by decide +kernel)

theorem witness_StepRunsDecoded_refused : ∃ g s' e, IssueDue (word State.reset noWord) gi g s' ∧ Fetches s' g noWord 0 ∧
    decode noWord 0 = .error e := by
  obtain ⟨g, s', h, p, q⟩ := due (s := word State.reset noWord)
    (P := fun g s' => ((fetchWord (Work.start s') g g.nextPc).toOption = some noWord ∧ hasAux noWord = false) ∧
      (decode noWord 0).toOption = none) (by decide +kernel)
  cases hd : decode noWord 0 with
  | error e => exact ⟨g, s', e, h, fetches p, rfl⟩
  | ok i => rw [hd] at q; cases q

theorem witness_StepRunsDecoded_page : ∃ g s', IssueDue offPage gi g s' ∧
    (match fetchWord (Work.start s') g g.nextPc with
      | .error (.bad _ code addr) => (code, addr)
      | _ => (.illOp, 0)) = (.page, 0x40000000) ∧ featureOff offPage.neg (Work.start s') gi g = false := due (by decide +kernel)

theorem witness_StepRunsDecoded_agenda :
    (∃ n rest, (word State.reset nopWord).agenda = .issue n :: rest) ∧ State.reset.agenda = [] ∧
      (∃ i rest, ({ State.reset with agenda := [.event .commit, .elapse 3] } : State).agenda = .event i :: rest ∧ i.hdr = none) ∧
      (∃ n rest, ({ State.reset with agenda := [.elapse 3] } : State).agenda = .elapse n :: rest) ∧
      State.reset.pk.groups.find? gi = none ∧ ((suspended.pk.groups.find? gi).map fun g =>
        (takesNext { suspended with agenda := [] } gi g, blocksNext { suspended with agenda := [] } gi g)) = some (false, false) :=
  ⟨⟨gi, [], rfl⟩, rfl, ⟨_, _, rfl, rfl⟩, ⟨_, _, rfl⟩, rfl, by decide +kernel⟩

/-- An odd pair, and a register that is empty. -/
def oddPair : Instr := .mov ⟨plainHdr, .i64, false, ⟨5, false⟩, ⟨2, false⟩⟩
def plainMov : Instr := .mov ⟨plainHdr, .i32, false, wd 4, wv 1⟩
def emptied (g : Group) : Group := g.setReg 1 { VReg.fresh with full := Mask.none }

def isTrap : Done → Bool
  | .trap c _ _ _ => c == .regAlign
  | _ => false

theorem witness_FaultsAndWaitsBeforeIssue :
    (∃ v, viewOf (Work.start (at_ oddPair)) plainHdr oddPair.words = some v ∧
      (preIssue (gateOpen (at_ oddPair).neg v (instrNeed oddPair v)) v (instrNeed oddPair v)).map isTrap = some true ∧
      ∃ x ∈ (instrNeed oddPair v).named, x.1 % x.2 ≠ 0) ∧
    (∃ v, viewOf (Work.start (at_ plainMov emptied)) plainHdr plainMov.words = some v ∧
      (preIssue (gateOpen (at_ plainMov emptied).neg v (instrNeed plainMov v)) v (instrNeed plainMov v)).map isTrap = some false) ∧
    (∃ v, viewOf (Work.start (at_ plainMov fun g => { g with base := 4 })) plainHdr plainMov.words = some v ∧
      (∀ x ∈ (instrNeed plainMov v).named, x.1 % x.2 = 0) ∧ ∃ x ∈ (instrNeed plainMov v).named, v.grp.alloc < x.1 + x.2) ∧
    (∃ v, viewOf (Work.start (at_ plainMov)) plainHdr plainMov.words = some v ∧ preIssue true v (instrNeed plainMov v) = none) :=
  ⟨found (by decide +kernel), found (by decide +kernel), found (by decide +kernel), found (by decide +kernel)⟩

theorem witness_DecodeAndEncodeAgree :
    (wf oddPair = true ∧ oddPair.hdr.isSome = true) ∧ Instr.hdr .commit = none ∧
      (decode nopWord 0).toOption = some (.nop ⟨plainHdr⟩) := by decide +kernel

theorem witness_StepKeepsSafe : State.reset.safe = true ∧ step { State.reset with agenda := [.elapse 3] } =
    .next { State.reset with pk := elapse 3 State.reset } := ⟨by decide +kernel, rfl⟩

theorem witness_AcceptedWordStaysFixed :
    (negState 0 true).neg.done = true ∧ exec .correctedError (negState 0 true) = .next (negState 0 true) ∧
      (let s := { negState 0 true with agenda := [.elapse 3] }
       s.neg.done = true ∧ step s = .next { negState 0 true with pk := elapse 3 (negState 0 true) } ∧
         ∀ m ∈ s.moves, m ≠ .event .packageReset) := ⟨rfl, rfl, rfl, rfl, by decide +kernel⟩
end Sys2Proof.Tests
end

section
/-!
PROOFS. The scope chapter: what reset leaves, what commits and writes do to the negotiation registers, and that every step
keeps them and the canonical form of memory (R5 to R7). All rests on one inversion of a step, `step_cases`: it writes to
memory and leaves the negotiation registers, or it sets these while DONE is clear, or it is a package reset.
-/
namespace Sys2Proof.FMap

theorem find?_singleton {α : Type} {k j : Nat} {x y : α} :
    find? [(k, x)] j = some y ↔ j = k ∧ y = x := by
  simp [find?, eq_comm]

theorem sorted_filter {α : Type} (p : Nat × α → Bool) {m : FMap α} (h : sorted m = true) :
    sorted (List.filter p m) = true := by
  induction m with
  | nil => rfl
  | cons e m ih =>
    obtain ⟨ha, hm⟩ := sorted_cons.1 h
    rw [List.filter_cons]
    split
    · exact sorted_cons.2 ⟨fun x hx => ha x (List.mem_filter.1 hx).1, ih hm⟩
    · exact ih hm

end Sys2Proof.FMap

namespace Sys2Proof.Machine

/-! ## What a step can do to memory and to the negotiation registers -/

/-- The machine t has the negotiation registers of s, and writes have made its memory of that of s. -/
def Wrote (s t : State) : Prop := t.neg = s.neg ∧ ∃ l, t.mem = Mem.writes s.mem l

/-- From s, with DONE clear, the negotiation registers have come to hold a permitted value in t; memory stands. -/
def Negotiated (s t : State) : Prop := s.neg.done = false ∧ t.neg.ok = true ∧ t.mem = s.mem

theorem Wrote.refl (s : State) : Wrote s s := ⟨rfl, [], rfl⟩

theorem Wrote.finish (s : State) (w : Work) : Wrote s (s.finish w) := ⟨rfl, _, rfl⟩

theorem Wrote.run (s : State) (f : Work → Work) : Wrote s (s.run f) := Wrote.finish s _

/-- The instructions whose meaning is more than an effect on the working copy: the host's accesses to the negotiation
registers, and the package reset. -/
def setsNegotiation (i : Instr) : Bool :=
  match i with
  | .commit | .registerWrite .. | .packageReset => true
  | _ => false

/-- Every other meaning is one effect on the working copy. -/
theorem exec_eq_run (i : Instr) (s : State) (h : setsNegotiation i = false) : ∃ f, exec i s = .next (s.run f) := by
  cases i
  case commit | registerWrite | packageReset => cases h
  case backInvalidate | correctedError => exact ⟨id, rfl⟩
  case reachAdd =>
    refine ⟨fun w => if bitAt (fld (argBytes (Work.start s) 0 64) 4 1) 1 = 1
      then runCommand 3 (withArgs reachCmd) w else w, ?_⟩
    rw [exec, execReachAdd]
    split <;> rfl
  case reachRemove =>
    refine ⟨fun w => if bitAt (fld (argBytes (Work.start s) 0 64) 4 1) 1 = 1
      then w else runCommand 3 (withArgs reachCmd) w, ?_⟩
    rw [exec, execReachRemove]
    split <;> rfl
  all_goals exact ⟨_, rfl⟩

/-! ### Commits and register writes -/

theorem negOpen_iff (s : State) :
    negOpen s = true ↔ s.neg.done = false ∧ ∀ e ∈ s.pk.ctxs, e.1 ≠ Config.firmwareContext → e.2.st = .free := by
  simp [negOpen, othersExist]

theorem commitOp_of_closed {s : State} (h : negOpen s = false) : commitOp s = s := by simp [commitOp, h]

theorem writeAccepted_of_closed {s : State} (k : Nat) (v : W64) (h : negOpen s = false) : writeAccepted s k v = s := by
  simp [writeAccepted, h]

/-- A commit of a word whose bits are all offered fixes it. -/
theorem commitOp_of_offered {s : State} (h : negOpen s = true) (ha : s.neg.accepted &&& offeredWord = s.neg.accepted) :
    commitOp s = { s with neg := { accepted := s.neg.accepted, done := true, err := false } } := by
  simp [commitOp, h, Negotiation.commit, ha]

/-- A commit of a word that names a bit not offered clears it. -/
theorem commitOp_of_unoffered {s : State} (h : negOpen s = true) (ha : s.neg.accepted &&& offeredWord ≠ s.neg.accepted) :
    commitOp s = { s with neg := { accepted := 0, done := false, err := true } } := by
  obtain ⟨hd, -⟩ := (negOpen_iff s).1 h
  simp [commitOp, h, Negotiation.commit, ha, hd]

theorem commitOp_cases (s : State) : commitOp s = s ∨ Negotiated s (commitOp s) := by
  cases h : negOpen s with
  | false => exact .inl (commitOp_of_closed h)
  | true =>
    obtain ⟨hd, -⟩ := (negOpen_iff s).1 h
    by_cases ha : s.neg.accepted &&& offeredWord = s.neg.accepted
    · rw [commitOp_of_offered h ha]
      exact .inr ⟨hd, by simp [Negotiation.ok, ha], rfl⟩
    · rw [commitOp_of_unoffered h ha]
      exact .inr ⟨hd, rfl, rfl⟩

theorem writeAccepted_cases (s : State) (k : Nat) (v : W64) :
    writeAccepted s k v = s ∨ Negotiated s (writeAccepted s k v) := by
  cases h : negOpen s with
  | false => exact .inl (writeAccepted_of_closed k v h)
  | true =>
    obtain ⟨hd, -⟩ := (negOpen_iff s).1 h
    rw [writeAccepted, if_pos h]
    exact .inr ⟨hd, by simp [Negotiation.ok, hd], rfl⟩

/-- A register write is an effect on the working copy, a write of an accepted-features register, or a commit. -/
theorem registerWrite_cases (off width : Nat) (v : W64) (s : State) :
    (∃ f, registerWrite off width v s = s.run f) ∨ (∃ k, registerWrite off width v s = writeAccepted s k v) ∨
      registerWrite off width v s = commitOp s := by
  unfold registerWrite
  split
  · exact .inl ⟨id, rfl⟩
  split
  · exact .inr (.inl ⟨_, rfl⟩)
  split
  · split
    · exact .inr (.inr rfl)
    · exact .inl ⟨id, rfl⟩
  split
  · exact .inl ⟨_, rfl⟩
  split
  · exact .inl ⟨_, rfl⟩
  split
  · exact .inl ⟨_, rfl⟩
  · exact .inl ⟨id, rfl⟩

/-! ### The inversions -/

theorem wrote_or_negotiated {s t : State} (h : t = s ∨ Negotiated s t) : Wrote s t ∨ Negotiated s t :=
  h.imp_left fun e => by rw [e]; exact Wrote.refl s

theorem registerWrite_changes (off width : Nat) (v : W64) (s : State) :
    Wrote s (registerWrite off width v s) ∨ Negotiated s (registerWrite off width v s) := by
  obtain ⟨f, e⟩ | ⟨k, e⟩ | e := registerWrite_cases off width v s <;> rw [e]
  · exact .inl (Wrote.run s f)
  · exact wrote_or_negotiated (writeAccepted_cases s k v)
  · exact wrote_or_negotiated (commitOp_cases s)

/-- All that an instruction or an event can do to memory and to the negotiation registers. -/
theorem exec_cases {i : Instr} {s t : State} (h : exec i s = .next t) :
    Wrote s t ∨ Negotiated s t ∨ (i = .packageReset ∧ t = packageReset s) := by
  cases hi : setsNegotiation i with
  | false =>
    obtain ⟨f, e⟩ := exec_eq_run i s hi
    cases e.symm.trans h
    exact .inl (Wrote.run s f)
  | true =>
    unfold setsNegotiation at hi
    split at hi
    · cases h
      exact (wrote_or_negotiated (commitOp_cases s)).imp_right .inl
    · cases h
      exact (registerWrite_changes _ _ _ s).imp_right .inl
    · cases h
      exact .inr (.inr ⟨rfl, rfl⟩)
    · cases hi

/-- No word decodes to a host's access or to the reset: these have no fields. -/
theorem fields_of_setsNegotiation {i : Instr} (h : setsNegotiation i = true) : i.fields = none := by
  unfold setsNegotiation at h
  split at h
  · rfl
  · rfl
  · rfl
  · cases h

theorem decode_fields {w a : BitVec 96} {i : Instr} (h : decode w a = .ok i) : i.fields = some (fieldsOf w.toNat) := by
  simp only [decode] at h
  generalize parse _ _ _ = p at h
  iterate 6
    split at h
    · cases h
  cases p with
  | none => cases h
  | some j =>
    dsimp only at h
    by_cases hf : j.fields = some (fieldsOf w.toNat)
    · rw [if_neg (not_not_intro hf)] at h
      split at h
      · cases h
        exact hf
      · cases h
    · rw [if_pos hf] at h
      cases h

theorem fetchInstr_decode {w : Work} {g : Group} {pc : PC} {i : Instr} (h : fetchInstr w g pc = .instr i) :
    ∃ x a, decode x a = .ok i := by
  rw [fetchInstr] at h
  cases hx : fetchWord w g pc with
  | error c => rw [hx] at h; cases h
  | ok x =>
    simp only [hx] at h
    cases ha : if hasAux x then fetchWord w g (pcPlus pc 1) else .ok 0 with
    | error c => rw [ha] at h; cases h
    | ok a =>
      rw [ha] at h
      cases hd : decode x a with
      | error e => simp only [hd] at h; cases h
      | ok j =>
        simp only [hd, Fetched.instr.injEq] at h
        exact ⟨x, a, h ▸ hd⟩

theorem fetchInstr_setsNegotiation {w : Work} {g : Group} {pc : PC} {i : Instr} (h : fetchInstr w g pc = .instr i) :
    setsNegotiation i = false := by
  obtain ⟨x, a, hd⟩ := fetchInstr_decode h
  cases hs : setsNegotiation i with
  | false => rfl
  | true => cases (fields_of_setsNegotiation hs).symm.trans (decode_fields hd)

/-- The machine from which a group's move runs: with the group current, and chosen unless it is turned away. -/
def State.issuing (s : State) (gi : Nat) (g : Group) : State :=
  if blocksNext s gi g then { s with pk := { s.pk with cur := gi } } else s.withCur gi g

theorem issuing_eq (s : State) (gi : Nat) (g : Group) :
    s.issuing gi g = if blocksNext s gi g then { s with pk := { s.pk with cur := gi } } else s.withCur gi g := rfl

theorem wrote_of_issuing {s t : State} {gi : Nat} {g : Group} (h : Wrote (s.issuing gi g) t) : Wrote s t := by
  rw [issuing_eq] at h
  split at h <;> exact h

/-- What a group issues leaves the negotiation registers. -/
theorem issueMove_wrote {gi : Nat} {s t : State} (h : issueMove gi s = .next t) : Wrote s t := by
  rw [issueMove] at h
  cases hg : s.pk.groups.find? gi with
  | none =>
    rw [hg] at h
    cases h
    exact Wrote.refl s
  | some g =>
    simp only [hg, ← issuing_eq] at h
    by_cases hc : (!blocksNext s gi g && !takesNext s gi g) = true
    · rw [if_pos hc] at h
      cases h
      exact Wrote.refl s
    · rw [if_neg hc] at h
      apply wrote_of_issuing (gi := gi) (g := g)
      cases hf : fetchInstr (Work.start (s.issuing gi g)) g g.nextPc with
      | fault c =>
        simp only [hf] at h
        split at h <;> cases h <;> exact Wrote.run _ _
      | illegal e =>
        simp only [hf] at h
        cases h
        exact Wrote.run _ _
      | instr i =>
        simp only [hf] at h
        cases hb : stopBefore (s.issuing gi g).neg (Work.start (s.issuing gi g)) gi g i with
        | some w =>
          simp only [hb] at h
          cases h
          exact Wrote.finish _ w
        | none =>
          simp only [hb] at h
          obtain ⟨f, e⟩ := exec_eq_run i (s.issuing gi g) (fetchInstr_setsNegotiation hf)
          cases e.symm.trans h
          exact Wrote.run _ f

theorem runMove_cases {m : Move} {s t : State} (h : runMove m s = .next t) :
    Wrote s t ∨ Negotiated s t ∨ (m = .event .packageReset ∧ t = packageReset s) := by
  cases m with
  | issue g => exact .inl (issueMove_wrote h)
  | event i =>
    rw [runMove] at h
    split at h
    · simpa only [Move.event.injEq] using exec_cases h
    · cases h
      exact .inl (Wrote.refl s)
  | elapse n =>
    cases h
    exact .inl ⟨rfl, [], rfl⟩

/-- All that a step can do to memory and to the negotiation registers. -/
theorem step_cases {s t : State} (h : step s = .next t) :
    Wrote s t ∨ Negotiated s t ∨ (.event .packageReset ∈ s.moves ∧ ∃ l, t = packageReset { s with agenda := l }) := by
  unfold step at h
  cases hm : s.moves with
  | nil =>
    rw [hm] at h
    cases h
    exact .inl (Wrote.refl s)
  | cons m rest =>
    rw [hm, runFirst] at h
    obtain hw | hn | ⟨rfl, ht⟩ := runMove_cases h
    · exact .inl hw
    · exact .inr (.inl hn)
    · exact .inr (.inr ⟨List.mem_cons_self, rest, ht⟩)

/-! ## Safe states -/

theorem State.safe_iff (s : State) : s.safe = true ↔ s.mem.wf = true ∧ s.neg.ok = true := by
  simp [State.safe]

theorem Memory.wf_filter (p : Host.Cell → Bool) {m : Memory} (h : m.wf = true) : Memory.wf (m.filter p) = true := by
  rw [Memory.wf_iff] at h ⊢
  obtain ⟨hs, hb⟩ := h
  exact ⟨FMap.sorted_filter p hs, fun e he => hb e (List.mem_filter.1 he).1⟩

theorem Wrote.safe {s t : State} (h : Wrote s t) (hs : s.safe = true) : t.safe = true := by
  obtain ⟨hn, l, hm⟩ := h
  rw [State.safe_iff] at hs ⊢
  obtain ⟨hw, ho⟩ := hs
  exact ⟨hm ▸ Mem.writes_wf l hw, hn ▸ ho⟩

theorem Negotiated.safe {s t : State} (h : Negotiated s t) (hs : s.safe = true) : t.safe = true := by
  obtain ⟨-, ho, hm⟩ := h
  obtain ⟨hw, -⟩ := (State.safe_iff s).1 hs
  exact (State.safe_iff t).2 ⟨hm ▸ hw, ho⟩

theorem packageReset_safe {s : State} (hs : s.safe = true) : (packageReset s).safe = true := by
  obtain ⟨hw, -⟩ := (State.safe_iff s).1 hs
  exact (State.safe_iff _).2 ⟨Memory.wf_filter _ hw, rfl⟩

/-! ## Accepted words -/

theorem getLsbD_lowWord (i : Nat) : (BitVec.ofNat 256 (2 ^ 64 - 1)).getLsbD i = decide (i < 64) := by
  rw [BitVec.getLsbD_ofNat, Nat.testBit_two_pow_sub_one, Bool.and_eq_right_iff_imp]
  simp only [decide_eq_true_eq]
  omega

/-- Register j of the accepted word after a write of register k. -/
theorem faccw_writeAccepted {s : State} {j k : Nat} (v : W64) (h : negOpen s = true) (hj : j < 4) (hk : k < 4) :
    (writeAccepted s k v).neg.faccw j = if j = k then v else s.neg.faccw j := by
  rw [writeAccepted, if_pos h]
  refine BitVec.eq_of_getLsbD_eq fun i hi => ?_
  simp only [Negotiation.faccw, BitVec.getLsbD_extractLsb', BitVec.getLsbD_or, BitVec.getLsbD_and, BitVec.getLsbD_not,
    BitVec.getLsbD_shiftLeft, getLsbD_lowWord, BitVec.truncate_eq_setWidth, BitVec.getLsbD_setWidth]
  obtain hlt | rfl | hgt := Nat.lt_trichotomy j k
  · have h1 : 64 * j + i < 64 * k := by omega
    have h2 : 64 * j + i < 256 := by omega
    simp [hi, h1, h2, Nat.ne_of_lt hlt]
  · have h1 : 64 * j + i - 64 * j = i := by omega
    have h2 : 64 * j + i < 256 := by omega
    have h3 : ¬64 * j + i < 64 * j := by omega
    have h4 : i < 256 := by omega
    simp [hi, h1, h2, h3, h4]
  · have h1 : ¬64 * j + i - 64 * k < 64 := by omega
    have h2 : 64 * j + i < 256 := by omega
    simp [hi, h1, h2, Nat.ne_of_gt hgt, BitVec.getLsbD_of_ge v _ (Nat.le_of_not_lt h1)]

/-! ### Where a write of a register goes -/

theorem registerWrite_faccw (s : State) (v : W64) {k : Nat} (hk : k < 4) :
    registerWrite (0x020 + 8 * k) 8 v s = writeAccepted s k v := by
  have h1 : ¬((8 : Nat) ≠ 8 ∨ (0x020 + 8 * k) % 8 ≠ 0) := by omega
  have h2 : 0x020 ≤ 0x020 + 8 * k ∧ 0x020 + 8 * k ≤ 0x038 := by omega
  have h3 : (0x020 + 8 * k - 0x020) / 8 = k := by omega
  rw [registerWrite, if_neg h1, if_pos h2, h3]

theorem registerWrite_fcommit (s : State) (v : W64) :
    registerWrite 0x040 8 v s = if v.getLsbD 0 then commitOp s else s := rfl

/-- No register that can be written stands at the place of FOFFW. -/
theorem registerWrite_foffw (s : State) (v : W64) {k : Nat} (hk : k < 4) : registerWrite (8 * k) 8 v s = s := by
  match k, hk with
  | 0, _ | 1, _ | 2, _ | 3, _ => rfl

/-- The writes and the commit do nothing once they are closed. -/
theorem negotiation_closed {s : State} (h : negOpen s = false) :
    exec .commit s = .next s ∧ ∀ k v, k < 4 →
      exec (.registerWrite (0x020 + 8 * k) 8 v) s = .next s ∧ exec (.registerWrite 0x040 8 v) s = .next s := by
  refine ⟨congrArg _ (commitOp_of_closed h), fun k v hk =>
    ⟨congrArg Host.Outcome.next ?_, congrArg Host.Outcome.next ?_⟩⟩
  · rw [registerWrite_faccw s v hk, writeAccepted_of_closed k v h]
  · rw [registerWrite_fcommit, commitOp_of_closed h, ite_self]

/-- A write of an accepted-features register while it is open. -/
theorem faccw_write {s : State} (v : W64) {k : Nat} (h : negOpen s = true) (hk : k < 4) :
    ∃ t, exec (.registerWrite (0x020 + 8 * k) 8 v) s = .next t ∧ t.pk = s.pk ∧ t.mem = s.mem ∧
      t.neg.done = s.neg.done ∧ t.neg.err = s.neg.err ∧
      ∀ j, j < 4 → t.neg.faccw j = if j = k then v else s.neg.faccw j := by
  refine ⟨writeAccepted s k v, congrArg _ (registerWrite_faccw s v hk), ?_, ?_, ?_, ?_,
    fun j hj => faccw_writeAccepted v h hj hk⟩ <;> rw [writeAccepted, if_pos h]

/-- A CREATE before DONE ends with RESULT 3 and changes only the mailbox. -/
theorem create_before_done {s : State} (h : s.neg.done = false) :
    ∃ t, exec .create s = .next t ∧ t.mem = s.mem ∧ t.neg = s.neg ∧ t.pk.mbresult = 3 ∧
      t.pk.unmailed = s.pk.unmailed := by
  refine ⟨_, rfl, ?_, rfl, ?_, ?_⟩ <;> rw [h] <;> rfl

/-! ## The obligations -/

/-- Settles O59: the writes of a step keep the canonical form and the negotiation registers; a commit accepts offered features
only; a package reset keeps a part of memory in its order. -/
theorem stepKeepsSafe : Obligations.StepKeepsSafe := by
  intro s t hs h
  obtain hw | hn | ⟨-, l, rfl⟩ := step_cases h
  · exact hw.safe hs
  · exact hn.safe hs
  · exact packageReset_safe (s := { s with agenda := l }) hs

/-- Settles O44: each clause is the rule of its register. -/
theorem negotiationCommits : Obligations.NegotiationCommits := by
  refine ⟨⟨firmwareCtx, rfl, rfl⟩, fun s => ⟨negOpen_iff s, fun h ha => ?_, fun h ha => ?_, fun k v h hk => faccw_write v h hk,
    fun v => ?_, negotiation_closed, fun k v hk => congrArg _ (registerWrite_foffw s v hk), create_before_done⟩⟩
  · exact congrArg _ (commitOp_of_offered h ha)
  · exact congrArg _ (commitOp_of_unoffered h ha)
  · exact (congrArg _ (registerWrite_fcommit s v)).trans (apply_ite ..)

/-- Settles O60: with DONE set, of the three things a step can do only a package reset changes the registers. -/
theorem acceptedWordStaysFixed : Obligations.AcceptedWordStaysFixed := by
  constructor
  · intro s t i hd h hi
    obtain ⟨hn, -⟩ | ⟨hd', -⟩ | ⟨rfl, -⟩ := exec_cases h
    · exact hn
    · cases hd.symm.trans hd'
    · exact absurd rfl hi
  · intro s t hd h hm
    obtain ⟨hn, -⟩ | ⟨hd', -⟩ | ⟨hr, -⟩ := step_cases h
    · exact hn
    · cases hd.symm.trans hd'
    · exact absurd rfl (hm _ hr)

/-- Settles O57: the tables of the reset state are empty but for the one context, so each reads as its default. -/
theorem resetLeaves : Obligations.ResetLeaves := by
  refine ⟨rfl, rfl, rfl, rfl, rfl, rfl, rfl, rfl, rfl, rfl, rfl, rfl, rfl, rfl, rfl, rfl, rfl, rfl, rfl, rfl,
    fun _ => rfl, fun _ => rfl, fun _ => rfl, fun n c => ?_⟩
  exact FMap.find?_singleton

end Sys2Proof.Machine
end

section
/-!
PROOFS. The ring of a group's splits under its two events: the quantum's end takes the next split that may issue (R72), and the
end of a wait leaves the split's lanes together in a ready split (R70, R71). The one idea of the second is that merging, rotating
and dividing by MR keep a ready split over a set of lanes: `Holds`.
-/
namespace Sys2Proof

theorem Mask.subset_iff {a b : Mask} : a.subset b = true ↔ ∀ L, a.get L = true → b.get L = true := by
  rw [Mask.subset, List.all_eq_true]
  refine forall_congr' fun L => ⟨fun h hL => ?_, fun h _ => ?_⟩
  · have h := h (Mask.mem_laneList L)
    rwa [hL] at h
  · cases hL : a.get L with
    | false => rfl
    | true => exact h hL

end Sys2Proof

namespace Sys2Proof.Machine

/-! ### An event that changes one group -/

theorem Work.updGroup_of_find {w : Work} {gi : Nat} {g : Group} (F : Group → Group) (h : w.pk.groups.find? gi = some g) :
    w.updGroup gi F = w.setGroup gi (F g) := by
  simp [Work.updGroup, Work.setGroup, Work.mapPk, FMap.adjust_of_find F h]

theorem Work.onGroup_of_find {w : Work} {gi : Nat} {g : Group} (f : Group → Work → Work) (h : w.pk.groups.find? gi = some g) :
    w.onGroup gi f = f g w := by
  rw [Work.onGroup, Work.group?, h]

theorem State.finish_setGroup (s : State) (gi : Nat) (g : Group) : s.finish ((Work.start s).setGroup gi g) = s.withGroup gi g := rfl

/-! ### The current split -/

/-- The ring turned to place i, where it is not empty. -/
theorem Group.makeCurrent_eq {g : Group} {i : Nat} {y : Split} {ys : List Split} (was : Mask)
    (h : g.splits.drop i ++ g.splits.take i = y :: ys) :
    g.makeCurrent i was = { g.count 4 (if y.lanes = was then 0 else 1) with
      splits := { y with quant := 0 } :: ys
      bypass := if y.lanes = was then (g.count 4 (if y.lanes = was then 0 else 1)).bypass else [] } := by
  rw [Group.makeCurrent, h]

theorem Group.firstReady_append {g : Group} {bef aft : List Split} {y : Split} (i : Nat)
    (hb : ∀ z ∈ bef, g.mayIssue z = false) (hy : g.mayIssue y = true) :
    g.firstReady (bef ++ y :: aft) i = some (i + bef.length) := by
  induction bef generalizing i with
  | nil => simp [Group.firstReady, hy]
  | cons z bef ih =>
    rw [List.cons_append, Group.firstReady, hb z List.mem_cons_self, if_neg Bool.false_ne_true,
      ih (i + 1) fun t ht => hb t (List.mem_cons_of_mem z ht), List.length_cons, Nat.add_right_comm, Nat.add_assoc]

/-- The switch takes the first split of the rest of the ring that may issue. -/
theorem Group.switchPoint_of_next {g : Group} {x y : Split} {bef aft : List Split} (was : Mask)
    (hs : g.splits = x :: (bef ++ y :: aft)) (hb : ∀ z ∈ bef, g.mayIssue z = false) (hy : g.mayIssue y = true) :
    g.switchPoint was = g.makeCurrent (1 + bef.length) was := by
  rw [Group.switchPoint, hs]
  simp only [Group.firstReady_append 1 hb hy]

/-- The ring turned past the current split and those before y. -/
theorem rotate_ring (x y : Split) (bef aft : List Split) :
    (x :: (bef ++ y :: aft)).drop (1 + bef.length) ++ (x :: (bef ++ y :: aft)).take (1 + bef.length) = y :: (aft ++ x :: bef) := by
  rw [Nat.add_comm, List.drop_succ_cons, List.take_succ_cons, List.drop_left, List.take_left, List.cons_append]

/-! ### A ready split over a set of lanes -/

/-- Among the splits a ready one has all lanes of the set. -/
def Holds (m : Mask) (l : List Split) : Prop := ∃ y ∈ l, y.cond = .ready ∧ m.subset y.lanes = true

/-- A change of every split that keeps the ready ones ready and takes no lane from them. -/
theorem Holds.map {m : Mask} {l : List Split} {f : Split → Split} (h : Holds m l)
    (hc : ∀ y, y.cond = .ready → (f y).cond = .ready) (hl : ∀ y, m.subset y.lanes = true → m.subset (f y).lanes = true) :
    Holds m (l.map f) := by
  obtain ⟨y, hy, hr, hs⟩ := h
  exact ⟨f y, List.mem_map_of_mem hy, hc y hr, hl y hs⟩

theorem Holds.mergeInto {m : Mask} {acc : List Split} (g : Group) (s : Split) (h : Holds m acc) :
    Holds m (mergeInto g acc s) := by
  unfold Machine.mergeInto
  dsimp only
  split
  · refine h.map (fun y hy => ?_) (fun y hy => ?_)
    · split <;> exact hy
    · split
      · exact Mask.subset_iff.2 fun L hL => by simp [Mask.subset_iff.1 hy L hL]
      · exact hy
  · obtain ⟨y, hy, hr, hs⟩ := h
    exact ⟨y, List.mem_append_left _ hy, hr, hs⟩

/-- A ready split joins a ready one, or stands for itself. -/
theorem holds_mergeInto_of_ready {m : Mask} (g : Group) (acc : List Split) {s : Split} (hr : s.cond = .ready)
    (hs : m.subset s.lanes = true) :
    Holds m (mergeInto g acc s) := by
  unfold mergeInto
  dsimp only
  split
  · next ha =>
    obtain ⟨t, ht, hsame⟩ := List.any_eq_true.1 ha
    refine ⟨_, List.mem_map_of_mem ht, ?_⟩
    rw [if_pos hsame]
    simp only [Bool.and_eq_true, Split.ready, beq_iff_eq] at hsame
    obtain ⟨⟨⟨⟨⟨⟨htr, -⟩, -⟩, -⟩, -⟩, -⟩, -⟩ := hsame
    refine ⟨htr, Mask.subset_iff.2 fun L hL => ?_⟩
    simp [Mask.subset_iff.1 hs L hL]
  · exact ⟨s, by simp, hr, hs⟩

theorem Holds.foldl_mergeInto {m : Mask} (g : Group) (l : List Split) {acc : List Split} (h : Holds m acc ∨ Holds m l) :
    Holds m (l.foldl (Machine.mergeInto g) acc) := by
  induction l generalizing acc with
  | nil =>
    obtain h | ⟨y, hy, -⟩ := h
    · exact h
    · cases hy
  | cons s l ih =>
    rw [List.foldl_cons]
    obtain h | ⟨y, hy, hr, hs⟩ := h
    · exact ih (.inl (h.mergeInto g s))
    · obtain rfl | hy := List.mem_cons.1 hy
      · exact ih (.inl (holds_mergeInto_of_ready g acc hr hs))
      · exact ih (.inr ⟨y, hy, hr, hs⟩)

/-- Lanes that all name one number make one part. -/
theorem byTarget_const {f : Fin 8 → Nat} {c : Nat} {l : List (Fin 8)} (hl : l ≠ []) (h : ∀ L ∈ l, f L = c) :
    ∃ m : Mask, byTarget f l = [(c, m)] ∧ ∀ L ∈ l, m.get L = true := by
  induction l with
  | nil => exact absurd rfl hl
  | cons L ls ih =>
    have hL : f L = c := h L List.mem_cons_self
    by_cases hn : ls = []
    · subst hn
      exact ⟨Mask.none.set L true, by simp [byTarget, hL], by simp⟩
    · obtain ⟨m, e, hm⟩ := ih hn fun M hM => h M (List.mem_cons_of_mem L hM)
      refine ⟨m.set L true, by simp [byTarget, e, hL], fun M hM => ?_⟩
      obtain rfl | hM := List.mem_cons.1 hM
      · simp
      · simp [hm M hM]

/-- A ready split whose lanes have one MR does not divide. -/
theorem Group.holds_mrParts {g : Group} {s : Split} (hr : s.cond = .ready) (ha : s.lanes.any = true)
    (hm : ∀ L M, s.lanes.get L = true → s.lanes.get M = true → (g.lane L).mr = (g.lane M).mr) :
    Holds s.lanes (g.mrParts s) := by
  obtain ⟨K, hK⟩ := (Mask.any_iff _).1 ha
  have hne : s.lanes.lanes ≠ [] := List.ne_nil_of_mem ((Mask.mem_lanes _ K).2 hK)
  obtain ⟨m, e, hsub⟩ := byTarget_const (f := fun L => (g.lane L).mr.toNat) (c := (g.lane K).mr.toNat) hne
    fun L hL => congrArg BitVec.toNat (hm L K ((Mask.mem_lanes _ L).1 hL) hK)
  have hp : g.mrParts s = [{ s with lanes := m }] := by
    rw [Group.mrParts, Split.ready, hr, if_pos (beq_self_eq_true _), e]
    rfl
  rw [hp]
  exact ⟨_, List.mem_singleton_self _, hr, Mask.subset_iff.2 fun L hL => hsub L ((Mask.mem_lanes _ L).2 hL)⟩

/-- The ring, merged, has the lanes of a ready split of one MR in one ready split. -/
theorem Group.holds_mergeRing {g : Group} {s : Split} (hg : s ∈ g.splits) (hr : s.cond = .ready) (ha : s.lanes.any = true)
    (hm : ∀ L M, s.lanes.get L = true → s.lanes.get M = true → (g.lane L).mr = (g.lane M).mr) :
    Holds s.lanes g.mergeRing.splits := by
  obtain ⟨y, hy, hyr, hys⟩ := Group.holds_mrParts hr ha hm
  exact Holds.foldl_mergeInto g _ (.inr ⟨y, List.mem_flatMap.2 ⟨s, hg, hy⟩, hyr, hys⟩)

theorem Group.holds_makeCurrent {g : Group} {m : Mask} (i : Nat) (was : Mask) (h : Holds m g.splits) :
    Holds m (g.makeCurrent i was).splits := by
  obtain ⟨y, hy, hr, hs⟩ := h
  have hy : y ∈ g.splits.drop i ++ g.splits.take i := by
    rw [List.mem_append, or_comm, ← List.mem_append, List.take_append_drop]
    exact hy
  cases e : g.splits.drop i ++ g.splits.take i with
  | nil => rw [e] at hy; cases hy
  | cons z zs =>
    rw [Group.makeCurrent_eq was e]
    rw [e] at hy
    obtain rfl | hy := List.mem_cons.1 hy
    · exact ⟨_, List.mem_cons_self, hr, hs⟩
    · exact ⟨y, List.mem_cons_of_mem _ hy, hr, hs⟩

theorem Group.holds_switchPoint {g : Group} {m : Mask} (was : Mask) (h : Holds m g.splits) :
    Holds m (g.switchPoint was).splits := by
  unfold Group.switchPoint
  split
  · exact h
  · split
    · exact Group.holds_makeCurrent _ was h
    · split
      · exact Group.holds_makeCurrent 0 was h
      · exact h

/-! ### A split that becomes ready again -/

theorem Group.holds_resumeRing {g : Group} {m : Mask} (own : Bool) (h : Holds m g.splits) : Holds m (g.resumeRing own).splits := by
  unfold Group.resumeRing
  split
  · exact h
  · split
    · exact Group.holds_switchPoint _ h
    · split
      · exact Group.holds_makeCurrent 0 _ h
      · exact h

@[simp] theorem Group.stand_resumeRing (g : Group) (own : Bool) : (g.resumeRing own).stand = g.stand := by
  unfold Group.resumeRing
  split
  · rfl
  · split
    · exact Group.stand_switchPoint ..
    · split
      · exact Group.stand_makeCurrent ..
      · rfl

theorem Group.places_resumeRing (g : Group) (own : Bool) : (g.resumeRing own).places = g.places := by
  unfold Group.resumeRing
  split
  · rfl
  · split
    · exact Group.places_switchPoint ..
    · split
      · exact Group.places_makeCurrent ..
      · rfl

/-- The split of a wait that is over. -/
def Split.woken (s : Split) : Split :=
  { s with cond := .ready, finish := false, age := 0, only := if s.finish then none else s.only }

/-- The lanes of a split whose wait is over go to the next word where that completes the instruction. -/
def Group.stepOver (g : Group) (s : Split) : Group := if s.finish then (g.setPc s.lanes s.nxt).clearWd s.lanes else g

theorem Group.stand_stepOver (g : Group) (s : Split) : (g.stepOver s).stand = g.stand := by
  unfold Group.stepOver
  split <;> simp

theorem Group.pc_stepOver (g : Group) (s : Split) (L : Fin 8) :
    ((g.stepOver s).lane L).pc = if s.finish = true ∧ s.lanes.get L = true then s.nxt else (g.lane L).pc := by
  unfold Group.stepOver
  cases s.finish with
  | false => simp
  | true =>
    rw [if_pos rfl, Group.lane_clearWd, Group.lane_setPc]
    cases s.lanes.get L <;> simp

theorem Group.mr_stepOver (g : Group) (s : Split) (L : Fin 8) : ((g.stepOver s).lane L).mr = (g.lane L).mr := by
  unfold Group.stepOver
  cases s.finish with
  | false => rfl
  | true =>
    rw [if_pos rfl, Group.lane_clearWd, Group.lane_setPc]
    cases s.lanes.get L <;> rfl

section
variable {g : Group} {k : Nat} {x : Split} (hx : g.splits[k]? = some x)
include hx

theorem Group.finishSplit_eq :
    g.finishSplit k = ({ g.stepOver x with splits := g.splits.set k x.woken } : Group).mergeRing.resumeRing (k == 0) := by
  unfold Group.finishSplit Group.stepOver
  rw [hx]
  cases h : x.finish <;> simp [h, Split.woken]

theorem Group.stand_finishSplit : (g.finishSplit k).stand = g.stand := by
  rw [Group.finishSplit_eq hx, Group.stand_resumeRing, Group.stand_mergeRing, Group.stand_splits, Group.stand_stepOver]

theorem Group.pc_finishSplit (L : Fin 8) :
    ((g.finishSplit k).lane L).pc = if x.finish = true ∧ x.lanes.get L = true then x.nxt else (g.lane L).pc := by
  rw [Group.finishSplit_eq hx, (Group.places_eq ((Group.places_resumeRing _ _).trans (Group.places_mergeRing _))).1 L]
  exact g.pc_stepOver x L

theorem Group.holds_finishSplit (ha : x.lanes.any = true)
    (hm : ∀ L M, x.lanes.get L = true → x.lanes.get M = true → (g.lane L).mr = (g.lane M).mr) :
    Holds x.lanes (g.finishSplit k).splits := by
  obtain ⟨hk, -⟩ := List.getElem?_eq_some_iff.1 hx
  rw [Group.finishSplit_eq hx]
  refine Group.holds_resumeRing _ (Group.holds_mergeRing (s := x.woken) (List.mem_set hk x.woken) rfl ha fun L M hL hM => ?_)
  exact (g.mr_stepOver x L).trans ((hm L M hL hM).trans (g.mr_stepOver x M).symm)

/-- An event that finishes the split, and beyond that touches the group's chains only where the wait was at a barrier. -/
theorem waitEnded_of_finishSplit {i : Instr} {s : State} {gi : Nat} {c : FMap Chain} (ha : x.lanes.any = true)
    (hm : ∀ L M, x.lanes.get L = true → x.lanes.get M = true → (g.lane L).mr = (g.lane M).mr)
    (he : exec i s = .next (s.withGroup gi { g.finishSplit k with chains := c }))
    (hc : (∀ n v, x.cond ≠ .blocked (.bar n v) ∧ x.cond ≠ .blocked (.barw n v)) → c = (g.finishSplit k).chains) :
    WaitEnded i s gi g x := by
  obtain ⟨hrest, hregs, -, -⟩ := Group.stand_eq.1 (Group.stand_finishSplit hx)
  have hchains := congrArg Group.chains hrest
  refine ⟨_, he, ⟨fun r => ?_, congrArg (fun y : Group => { y with chains := [] }) hrest⟩, fun hn => ?_,
    Group.pc_finishSplit hx, Group.holds_finishSplit hx ha hm⟩
  · exact Group.reg_congr hregs r
  · exact (hc hn).trans hchains

end

/-! ### What the end of a wait at a barrier follows -/

theorem Group.foldl_setChain (f : Group → Nat → Chain) (l : List Nat) (g : Group) :
    ∃ c, l.foldl (fun g h => g.setChain h (f g h)) g = { g with chains := c } := by
  induction l generalizing g with
  | nil => exact ⟨g.chains, rfl⟩
  | cons h l ih => exact ih (g.setChain h (f g h))

theorem acquirePhase_setGroup (w : Work) (gi n v : Nat) (x : Group) :
    ∃ c, acquirePhase (w.setGroup gi x) gi n v = w.setGroup gi { x with chains := c } := by
  have hx : (w.setGroup gi x).pk.groups.find? gi = some x := FMap.find?_insert_self ..
  rw [acquirePhase, Work.onGroup_of_find _ hx]
  dsimp only
  split
  · exact ⟨x.chains, rfl⟩
  · obtain ⟨c, e⟩ := Group.foldl_setChain _ (List.range 16) x
    refine ⟨c, ?_⟩
    rw [Work.updGroup_of_find _ hx, e]
    simp [Work.setGroup, Work.mapPk]

/-- What follows a wait that ends no invalidation: of the group, its chains, and these at a barrier alone. -/
theorem afterWait_setGroup (w : Work) (gi : Nat) (x : Group) {k : Wait} (hk : k.invalidates = false) :
    ∃ c, afterWait (w.setGroup gi x) gi k = w.setGroup gi { x with chains := c } ∧
      ((∀ n v, k ≠ .bar n v ∧ k ≠ .barw n v) → c = x.chains) := by
  unfold afterWait
  split
  · next n v =>
    obtain ⟨c, e⟩ := acquirePhase_setGroup w gi n v x
    exact ⟨c, e, fun h => absurd rfl (h n v).1⟩
  · next n v =>
    obtain ⟨c, e⟩ := acquirePhase_setGroup w gi n v x
    exact ⟨c, e, fun h => absurd rfl (h n v).2⟩
  · cases hk
  · exact ⟨x.chains, rfl, fun _ => rfl⟩

/-! ### The events -/

section
variable {s : State} {gi : Nat} {g : Group} (hg : s.pk.groups.find? gi = some g)
include hg

theorem exec_quantumExpiry_expired {x : Split} {xs : List Split} (hs : g.splits = x :: xs) (hq : quantum ≤ x.quant)
    (hn : g.stat ≠ .saved) :
    exec (.quantumExpiry gi) s = .next (s.withGroup gi (g.switchPoint x.lanes)) := by
  change Host.Outcome.next (s.finish (quantumExpiry gi (Work.start s))) = _
  rw [quantumExpiry, Work.updGroup_of_find _ hg, State.finish_setGroup, hs]
  dsimp only
  rw [if_pos (And.intro hq hn)]

theorem exec_quantumExpiry_running {x : Split} {xs : List Split} (hs : g.splits = x :: xs) (hq : x.quant < quantum) :
    exec (.quantumExpiry gi) s = .next (s.withGroup gi g) := by
  change Host.Outcome.next (s.finish (quantumExpiry gi (Work.start s))) = _
  rw [quantumExpiry, Work.updGroup_of_find _ hg, State.finish_setGroup, hs]
  dsimp only
  rw [if_neg fun h => Nat.not_le_of_lt hq h.1]

variable {k : Nat} {x : Split} (hx : g.splits[k]? = some x)
include hx

theorem exec_splitWaitEnd {wt : Wait} (hc : x.cond = .blocked wt) (hst : g.waitsStay = false)
    (ho : waitOver (Work.start s) gi g wt = true) :
    exec (.splitWaitEnd gi k) s = .next (s.finish (afterWait ((Work.start s).setGroup gi (g.finishSplit k)) gi wt)) := by
  change Host.Outcome.next (s.finish (splitWaitEnd gi k (Work.start s))) = _
  rw [splitWaitEnd, Work.onGroup_of_find _ hg]
  simp only [hx, hc, hst, ho, Bool.false_eq_true, if_false, if_true]
  rw [Work.updGroup_of_find _ hg]

theorem exec_sleepWake {t : W64} (hc : x.cond = .blocked (.sleep t)) (hst : g.waitsStay = false) (ht : t.toNat ≤ s.pk.cycle.toNat) :
    exec (.sleepWake gi k) s = .next (s.withGroup gi (g.finishSplit k)) := by
  change Host.Outcome.next (s.finish (sleepWake gi k (Work.start s))) = _
  rw [sleepWake, Work.updGroup_of_find _ hg, State.finish_setGroup]
  simp only [hx, hc]
  rw [if_pos ⟨ht, by simp [hst]⟩]

theorem exec_lwaitReread {p t : W64} (hc : x.cond = .blocked (.lwait p t)) (ht : counterReached (Work.start s) g p t = true)
    (hr : g.stat = .resident) : exec (.lwaitReread gi k) s = .next (s.withGroup gi (g.finishSplit k)) := by
  change Host.Outcome.next (s.finish (lwaitReread gi k (Work.start s))) = _
  rw [lwaitReread, Work.onGroup_of_find _ hg]
  simp only [hx, hc]
  rw [if_pos ⟨ht, hr⟩, Work.updGroup_of_find _ hg, State.finish_setGroup]

end

/-! ### The obligation -/

/-- The switch to y, with what it leaves of the group. -/
theorem quantumExpiry_takes_next {s : State} {gi : Nat} {g : Group} {x y : Split} {bef aft : List Split}
    (hg : s.pk.groups.find? gi = some g) (hs : g.splits = x :: (bef ++ y :: aft)) (hq : 64 ≤ x.quant) (hn : g.stat ≠ .saved)
    (hb : ∀ z ∈ bef, g.mayIssue z = false) (hy : g.mayIssue y = true) :
    ∃ g', exec (.quantumExpiry gi) s = .next (s.withGroup gi g') ∧ SameRegs g g' ∧ g'.rest = g.rest ∧ g'.lanes = g.lanes ∧
      g'.splits = { y with quant := 0 } :: (aft ++ x :: bef) ∧ (y.lanes ≠ x.lanes → g'.bypass = []) := by
  obtain ⟨hrest, hregs, -, -⟩ := Group.stand_eq.1 (Group.stand_switchPoint g x.lanes)
  have hturn : g.splits.drop (1 + bef.length) ++ g.splits.take (1 + bef.length) = y :: (aft ++ x :: bef) := by
    rw [hs, rotate_ring]
  have hnext := (Group.switchPoint_of_next x.lanes hs hb hy).trans (Group.makeCurrent_eq x.lanes hturn)
  refine ⟨_, exec_quantumExpiry_expired hg hs hq hn, Group.reg_congr hregs, hrest,
    congrArg Prod.fst (Group.places_switchPoint g x.lanes), ?_, fun hne => ?_⟩
  · rw [hnext]
  · rw [hnext]
    exact if_neg hne

/-- Settles O47: a quantum's end turns the ring to the first split that may issue; each wait's end finishes its split, whose lanes
the ring then holds together, and only a barrier's touches the chains. -/
theorem splitsTakeTurnsAndWake : Obligations.SplitsTakeTurnsAndWake := by
  refine ⟨fun s gi g x bef y aft hg hs hq hn hb hy => quantumExpiry_takes_next hg hs hq hn hb hy,
    fun s gi g x xs hg hs hq => exec_quantumExpiry_running hg hs hq, fun s gi k g x wt hg hx hc hst ha hm => ⟨fun hi ho => ?_, ?_, ?_⟩⟩
  · obtain ⟨c, e, hch⟩ := afterWait_setGroup (Work.start s) gi (g.finishSplit k) hi
    refine waitEnded_of_finishSplit hx ha hm (c := c) ?_ fun hn => hch ?_
    · rw [exec_splitWaitEnd hg hx hc hst ho, e, State.finish_setGroup]
    · simpa [hc] using hn
  · rintro t rfl ht
    exact waitEnded_of_finishSplit hx ha hm (exec_sleepWake hg hx hc hst ht) fun _ => rfl
  · rintro p t rfl ht hr
    exact waitEnded_of_finishSplit hx ha hm (exec_lwaitReread hg hx hc ht hr) fun _ => rfl

end Sys2Proof.Machine
end

section
/-!
PROOFS. The float and narrow-format instructions (R155 to R171). Each is an issue whose body writes one value and ORs flags, so one
lemma on such an issue (`issue_writeV_flag`) settles them all; the readers of block images add the three answers of `withImage`.
-/
namespace Sys2Proof.Machine

/-! ### Issues that write a value and its flags -/

theorem writeFl_eq (w : Work) (v : View) (d : VDst) (r : Fin 8 → Nat × Flags) :
    writeFl w v d r = done ((w.writeV v d 1 fun L => (r L).1).flag v fun L => (r L).2) := rfl

section
variable {s : State} {h : Hdr} {need : View → Need} {body : View → Work → Done} {v : View} {d : VDst}

/-- An instruction that only writes a value to vector registers and ORs the flags of its active lanes. -/
theorem issue_writeV_flag {n : Nat} {x : Fin 8 → Nat} {e : Fin 8 → Flags} (hi : Issues s h h.words (need v) v)
    (hb : ∀ w, body v w = done ((w.writeV v d n x).flag v e)) :
    ∃ g', issue s h need body = .next (s.withGroup v.g g') ∧ WroteRegs v.grp g' d.r.toNat n d.t v.act x ∧
      g'.rest = (v.grp.orFlags (laneFlags v.act e)).rest ∧ WentOn v h g' :=
  issue_writeV_onRest (local_orFlags _) (onRest_orFlags _) hi rfl rfl rfl fun w _ => by rw [hb w, Work.writeV_flag]; rfl

/-- An instruction that only writes a predicate and ORs the flags of its active lanes. -/
theorem issue_writeP_flag {p : BitVec 3} {b : Fin 8 → Bool} {e : Fin 8 → Flags} (hi : Issues s h h.words (need v) v)
    (hb : ∀ w, body v w = done ((w.writeP v p b).flag v e)) :
    ∃ g', issue s h need body = .next (s.withGroup v.g g') ∧ SameRegs v.grp g' ∧
      g'.rest = ((v.grp.setPred p.toNat v.act (Lanes.ofFn b)).orFlags (laneFlags v.act e)).rest ∧ WentOn v h g' :=
  issue_onRest ((local_setPred ..).comp (local_orFlags _)) ((onRest_setPred ..).comp (onRest_orFlags _)) hi rfl rfl rfl
    fun w _ => by rw [hb w, Work.writeP_flag]; rfl

/-- An instruction whose body packs its results and their flags leaves a float result. -/
theorem floatResult_of_writeFl {i : Instr} {r : Fin 8 → Nat × Flags} (hi : Issues s h h.words (need v) v)
    (he : exec i s = issue s h need body) (hb : ∀ w, body v w = writeFl w v d r) : FloatResult i s v h d r := by
  unfold FloatResult
  rw [he]
  exact issue_writeV_flag hi fun w => (hb w).trans (writeFl_eq ..)

end

/-! ### Float arithmetic -/

theorem exec_floatBinary {op : (FBin → Instr) × (FBin → Nat → Nat → Nat × Flags)} (ho : op ∈ floatBinary) (f : FBin) (s : State) :
    exec (op.1 f) s = issue s f.h (fbinNeed f) (fbinBody f (op.2 f)) := by
  simp only [floatBinary, List.mem_cons, List.not_mem_nil, or_false] at ho
  rcases ho with rfl | rfl | rfl | rfl | rfl | rfl <;> rfl

theorem exec_floatUnary {op : (FUn → Instr) × (FUn → Nat → Nat × Flags)} (ho : op ∈ floatUnary) (f : FUn) (s : State) :
    exec (op.1 f) s = issue s f.h (funNeed f) (funBody f (op.2 f)) := by
  simp only [floatUnary, List.mem_cons, List.not_mem_nil, or_false] at ho
  rcases ho with rfl | rfl | rfl | rfl | rfl | rfl | rfl | rfl | rfl | rfl <;> rfl

/-- Settles O5: every arithmetic instruction is an issue that packs its elements' results and flags. -/
theorem floatArithmeticResults : Obligations.FloatArithmeticResults :=
  ⟨fun s _ f _ ho hi => floatResult_of_writeFl hi (exec_floatBinary ho f s) fun _ => rfl,
    fun s _ f _ ho hi => floatResult_of_writeFl hi (exec_floatUnary ho f s) fun _ => rfl,
    fun _ _ _ hi => floatResult_of_writeFl hi rfl fun _ => rfl,
    fun _ _ _ hi => floatResult_of_writeFl hi rfl fun _ => rfl⟩

/-! ### Conversions and compares -/

/-- Settles O6: the two conversions to floats write a float result, `cvtfi` a value of its integer type with flags, and `fcmp` a
predicate with flags. -/
theorem floatConversionsAndCompare : Obligations.FloatConversionsAndCompare := by
  refine ⟨fun s v f hi => floatResult_of_writeFl hi rfl fun _ => rfl, fun s v f hi => floatResult_of_writeFl hi rfl fun _ => rfl,
    fun s v f hi => issue_writeV_flag hi fun _ => rfl, fun s v f hi => ?_⟩
  obtain ⟨g', hx, hregs, hrest, hon⟩ := issue_writeP_flag (body := fcmpBody f) hi fun _ => rfl
  exact ⟨g', hx, hregs, hon, hrest⟩

/-! ### Narrow formats -/

/-- Scales, single elements and `blkmk`: with flags where a rounding can raise them, without where none can. -/
theorem narrowFormatResults : Sys2Proof.Part.NarrowFormatResults :=
  ⟨fun _ _ _ hi => floatResult_of_writeFl hi rfl fun _ => rfl,
    fun _ _ _ hi => issue_writeV hi fun _ _ => rfl,
    fun _ _ _ hi => floatResult_of_writeFl hi rfl fun _ => rfl,
    fun _ _ _ hi => floatResult_of_writeFl hi rfl fun _ => rfl,
    fun _ _ _ hi => issue_writeV hi fun _ _ => rfl⟩

/-! ### Readers of block images -/

section
variable {v : View} {a : VSrc}

theorem withImage_of_named {b : BFmt} (hl : v.act.any = true) (hb : blockFmt (imageBytes v.grp a.r.toNat) anyFmt = some b)
    (w : Work) (k : BFmt → List Byte → Done) : withImage v a w k = k b (imageBytes v.grp a.r.toNat) := by
  simp [withImage, hl, hb]

theorem withImage_of_unnamed (hl : v.act.any = true) (hb : blockFmt (imageBytes v.grp a.r.toNat) anyFmt = none)
    (w : Work) (k : BFmt → List Byte → Done) : withImage v a w k = .trap .blkFmt v.act 0 0 := by
  simp [withImage, hl, hb]

theorem withImage_of_noLane (hl : v.act.any = false) (w : Work) (k : BFmt → List Byte → Done) : withImage v a w k = done w := by
  simp [withImage, hl]

variable {s : State} {h : Hdr} {d : VDst} {body : View → Work → Done} {k : Work → BFmt → List Byte → Done}
  (hi : Issues s h h.words (imageNeed d a v) v) (hk : ∀ w, body v w = withImage v a w (k w))
include hi hk

/-- A reader of an image that names no format faults for the active lanes (R139). -/
theorem issue_imageReader_unnamed (hl : v.act.any = true) (hb : blockFmt (imageBytes v.grp a.r.toNat) anyFmt = none) :
    issue s h (imageNeed d a) body = .next (s.run fun w => raiseFault w v.g v.pc .blkFmt v.act 0 0) :=
  issue_trap hi ((hk _).trans (withImage_of_unnamed hl hb ..))

/-- A reader of an image with no lane active reads and writes nothing (log entry 23). -/
theorem issue_imageReader_noLane (hl : v.act.any = false) :
    ∃ g', issue s h (imageNeed d a) body = .next (s.withGroup v.g g') ∧ SameRegs v.grp g' ∧ g'.rest = v.grp.rest ∧ WentOn v h g' :=
  issue_nothing hi rfl rfl rfl fun w _ => (hk w).trans (withImage_of_noLane hl ..)

end

/-- An image with a named format is read as any operand is; the two other answers are `withImage`'s. -/
theorem blockImageReaders : Sys2Proof.Part.BlockImageReaders := by
  refine ⟨fun s v f hi => ⟨fun b hl hb => ?_, fun hl => ?_, fun hl hb => ?_⟩,
    fun s v f hi => ⟨fun b hl hb => ?_, fun hl => ?_, fun hl hb => ?_⟩⟩
  · exact issue_writeV (body := blkhdBody f) hi fun w _ => withImage_of_named hl hb w _
  · exact issue_imageReader_noLane (body := blkhdBody f) hi (fun _ => rfl) hl
  · exact issue_imageReader_unnamed (body := blkhdBody f) hi (fun _ => rfl) hl hb
  · exact floatResult_of_writeFl (body := amaxBody f) hi rfl fun w => withImage_of_named hl hb w _
  · exact issue_imageReader_noLane (body := amaxBody f) hi (fun _ => rfl) hl
  · exact issue_imageReader_unnamed (body := amaxBody f) hi (fun _ => rfl) hl hb

/-- Settles O7: the narrow formats are issues that write one value, with flags or without; `blkhd` and `amax` do what the check of
their image answers. -/
theorem floatNarrowAndBlockResults : Obligations.FloatNarrowAndBlockResults :=
  ⟨narrowFormatResults, blockImageReaders⟩

end Sys2Proof.Machine
end

section
/-!
PROOFS. Exchanges, reductions, scans and votes (R175 to R183). Each is an issue whose body writes one value, one predicate, or a
value with a predicate or flags; `gred` ORs its flags only with a lane active, which is to OR none without one.
-/
namespace Sys2Proof.Machine

/-! ### Issues that write a predicate -/

section
variable {s : State} {h : Hdr} {need : View → Need} {body : View → Work → Done} {v : View} {p : BitVec 3} {b : Fin 8 → Bool}

/-- An instruction that only writes a predicate. -/
theorem issue_writeP (hi : Issues s h h.words (need v) v) (hb : ∀ w, body v w = done (w.writeP v p b)) :
    ∃ g', issue s h need body = .next (s.withGroup v.g g') ∧ SameRegs v.grp g' ∧ WentOn v h g' ∧
      g'.rest = (v.grp.setPred p.toNat v.act (Lanes.ofFn b)).rest := by
  obtain ⟨g', hx, hregs, hrest, hon⟩ := issue_onRest (local_setPred ..) (onRest_setPred ..) hi rfl rfl rfl fun w _ => hb w
  exact ⟨g', hx, hregs, hon, hrest⟩

/-- An instruction that only writes a value to vector registers and a predicate. -/
theorem issue_writeV_writeP {d : VDst} {n : Nat} {x : Fin 8 → Nat} (hi : Issues s h h.words (need v) v)
    (hb : ∀ w, body v w = done ((w.writeV v d n x).writeP v p b)) :
    ∃ g', issue s h need body = .next (s.withGroup v.g g') ∧ WroteRegs v.grp g' d.r.toNat n d.t v.act x ∧
      g'.rest = (v.grp.setPred p.toNat v.act (Lanes.ofFn b)).rest ∧ WentOn v h g' :=
  issue_writeV_onRest (local_setPred ..) (onRest_setPred ..) hi rfl rfl rfl fun w _ => by rw [hb w, Work.writeV_writeP]; rfl

end

/-! ### Exchanges -/

theorem exec_exchanges {op : (ExchF → Instr) × Exch} (ho : op ∈ exchanges) (f : ExchF) (s : State) :
    exec (op.1 f) s = issue s f.h (exchNeed op.2 f) (exchBody op.2 f) := by
  simp only [exchanges, List.mem_cons, List.not_mem_nil, or_false] at ho
  rcases ho with rfl | rfl | rfl | rfl | rfl | rfl | rfl | rfl <;> rfl

/-- Settles O8: every exchange is an issue that writes what its source lanes hold and the predicate of the lanes without one. -/
theorem exchangeResults : Obligations.ExchangeResults := by
  intro s v f op ho hi
  rw [exec_exchanges ho f s]
  exact issue_writeV_writeP hi fun _ => rfl

/-! ### Reductions and scans -/

theorem Group.orFlags_zero (g : Group) : g.orFlags 0 = g := by
  simp [Group.orFlags]

/-- Flags ORed on a condition are those flags or none. -/
theorem Work.writeV_orFlags_if (w : Work) (v : View) (d : VDst) (n : Nat) (x : Fin 8 → Nat) (c : Bool) (e : Flags) :
    (if c then (w.writeV v d n x).updGroup v.g fun g => g.orFlags e else w.writeV v d n x) =
      w.updGroup v.g fun g => (g.writeVal d.r.toNat n d.t v.act (Lanes.ofFn x)).orFlags (if c then e else 0) := by
  cases c with
  | true => exact Work.updGroup_updGroup ..
  | false => simp only [Bool.false_eq_true, if_false, Group.orFlags_zero]; rfl

/-- The root of the tree and its flags go to every active lane's register and to `fpst` (R178, R179). -/
theorem issue_gred {s : State} {v : View} {f : RedF} (hi : Issues s f.h f.h.words (redNeed f v) v) :
    let root := (prefixes f.ty f.lop (redLeaves f v)).l7
    ∃ g', exec (.gred f) s = .next (s.withGroup v.g g') ∧
      WroteRegs v.grp g' f.d.r.toNat (redRegs f) f.d.t v.act (fun _ => redOut f.ty f.lop root.1) ∧
      g'.rest = (v.grp.orFlags (if v.act.any then root.2 else 0)).rest ∧ WentOn v f.h g' :=
  issue_writeV_onRest (body := gredBody f) (local_orFlags _) (onRest_orFlags _) hi rfl rfl rfl fun w _ =>
    congrArg done (w.writeV_orFlags_if ..)

/-- Settles O9: `gred` writes the root of the tree, `gscan` its prefixes, each with the flags of the nodes it uses. -/
theorem reductionAndScanResults : Obligations.ReductionAndScanResults :=
  ⟨fun _ _ _ hi => issue_gred hi, fun _ _ f hi => issue_writeV_flag (body := gscanBody f) hi fun _ => rfl⟩

/-! ### Votes and masks -/

theorem exec_votes {op : (VoteF → Instr) × (View → VoteF → Bool)} (ho : op ∈ votes) (f : VoteF) (s : State) :
    exec (op.1 f) s = issue s f.h (fun _ => {}) fun v w => done (w.writeP v f.d fun _ => op.2 v f) := by
  simp only [votes, List.mem_cons, List.not_mem_nil, or_false] at ho
  rcases ho with rfl | rfl <;> rfl

/-- Settles O10: `ballot`, `match` and `actm` are issues that write one register, the others issues that write one predicate. -/
theorem voteAndMaskResults : Obligations.VoteAndMaskResults := by
  refine ⟨fun s v f hi => ?_, fun s v f hi => ?_, fun s v f hi => ?_, fun s v f op ho hi => ?_, fun s v f hi => ?_,
    fun s v f hi => ?_, fun s v f hi => ?_⟩
  · exact issue_writeV (body := ballotBody f) hi fun _ _ => rfl
  · exact issue_writeV (body := matchBody f) hi fun _ _ => rfl
  · exact issue_writeV (body := actmBody f) hi fun _ _ => rfl
  · rw [exec_votes ho f s]
    exact issue_writeP (need := fun _ => {}) hi fun _ => rfl
  · exact issue_writeP (need := fun _ => {}) (body := electBody f) hi fun _ => rfl
  · exact issue_writeP (need := fun _ => {}) (body := helperBody f) hi fun _ => rfl
  · exact issue_writeP (body := unifBody f) hi fun _ => rfl

end Sys2Proof.Machine
end

section
/-!
PROOFS. The matrix unit's instructions (R185 to R200). All but `mxq` put a command into the unit's queue; those with memory read it
in their issue part. A read that meets nothing leaves only its chain (`ChainStep`), so what is issued changes, beside its group,
the unit, and for `mxsv` the access table and the block's slot (`Stages`); a read at another package is an access at which the
split waits through its own turn of the ring (`Stalls`).
-/
namespace Sys2Proof

theorem FMap.find?_adjust_self {α : Type} {m : FMap α} {k : Nat} {x : α} {f : α → α} (h : FMap.find? m k = some x) :
    FMap.find? (m.adjust k f) k = some (f x) := by
  rw [FMap.find?_adjust, if_pos rfl, h, Option.map_some]

end Sys2Proof

namespace Sys2Proof.Machine

/-! ### One chain of a group -/

theorem Group.chain_setChain (g : Group) (h k : Nat) (c : Chain) : (g.setChain h c).chain k = if k = h then c else g.chain k :=
  FMap.getD_put ..

/-- Of the group at most the chain of handle h differs. -/
structure OnlyChain (h : Nat) (g g' : Group) : Prop where
  eq : g' = { g with chains := g'.chains }
  others : ∀ k, k ≠ h → g'.chain k = g.chain k

theorem OnlyChain.refl (h : Nat) (g : Group) : OnlyChain h g g := ⟨rfl, fun _ _ => rfl⟩

theorem OnlyChain.trans {h : Nat} {g g' g'' : Group} (a : OnlyChain h g g') (b : OnlyChain h g' g'') : OnlyChain h g g'' :=
  ⟨b.eq.trans (congrArg (fun x : Group => { x with chains := g''.chains }) a.eq),
    fun k hk => (b.others k hk).trans (a.others k hk)⟩

theorem onlyChain_setChain (g : Group) (h : Nat) (c : Chain) : OnlyChain h g (g.setChain h c) :=
  ⟨rfl, fun k hk => by rw [Group.chain_setChain, if_neg hk]⟩

/-- An effect on the chain of handle h of group gi, and on the package's accesses, their numbers and the notes of performed
ones. -/
structure ChainStep (gi h : Nat) (w w' : Work) : Prop where
  base : w'.base = w.base
  wr : w'.wr = w.wr
  pk : w'.pk = { w.pk with
    groups := w'.pk.groups, txns := w'.pk.txns, fresh := w'.pk.fresh, lift := w'.pk.lift, notes := w'.pk.notes }
  others : ∀ j, j ≠ gi → w'.pk.groups.find? j = w.pk.groups.find? j
  group : ∀ g, w.pk.groups.find? gi = some g → ∃ g', w'.pk.groups.find? gi = some g' ∧ OnlyChain h g g'

theorem ChainStep.refl (gi h : Nat) (w : Work) : ChainStep gi h w w :=
  ⟨rfl, rfl, rfl, fun _ _ => rfl, fun g hg => ⟨g, hg, OnlyChain.refl h g⟩⟩

theorem ChainStep.trans {gi h : Nat} {w w' w'' : Work} (a : ChainStep gi h w w') (b : ChainStep gi h w' w'') :
    ChainStep gi h w w'' where
  base := b.base.trans a.base
  wr := b.wr.trans a.wr
  pk := b.pk.trans (congrArg (fun p : Package => { p with
    groups := w''.pk.groups, txns := w''.pk.txns, fresh := w''.pk.fresh, lift := w''.pk.lift, notes := w''.pk.notes }) a.pk)
  others j hj := (b.others j hj).trans (a.others j hj)
  group g hg := by
    obtain ⟨g', hg', h1⟩ := a.group g hg
    obtain ⟨g'', hg'', h2⟩ := b.group g' hg'
    exact ⟨g'', hg'', h1.trans h2⟩

theorem chainStep_updGroup (w : Work) (gi h : Nat) (c : Group → Chain) :
    ChainStep gi h w (w.updGroup gi fun g => g.setChain h (c g)) where
  base := rfl
  wr := rfl
  pk := rfl
  others j hj := by simp [FMap.find?_adjust, hj]
  group g hg := ⟨_, FMap.find?_adjust_self hg, onlyChain_setChain g h (c g)⟩

/-- A change of the tables of accesses alone. -/
theorem chainStep_mapPk (w : Work) (gi h : Nat) {f : Package → Package}
    (hf : f w.pk = { w.pk with
      txns := (f w.pk).txns, fresh := (f w.pk).fresh, lift := (f w.pk).lift, notes := (f w.pk).notes }) :
    ChainStep gi h w (w.mapPk f) where
  base := rfl
  wr := rfl
  pk := hf.trans (by rw [Work.mapPk_pk, hf])
  others j _ := by rw [Work.mapPk_pk, hf]
  group g hg := ⟨g, by rw [Work.mapPk_pk, hf]; exact hg, OnlyChain.refl h g⟩

theorem numberAccess_step (w : Work) (gi h t : Nat) : ChainStep gi h w (numberAccess w gi h t) := by
  unfold numberAccess Work.onGroup
  split
  · next g hg =>
    dsimp only
    split
    · exact (chainStep_updGroup w gi h fun _ => _).trans (chainStep_mapPk _ gi h rfl)
    · split
      · exact ChainStep.refl gi h w
      · exact (chainStep_updGroup w gi h fun _ => _).trans (chainStep_mapPk _ gi h rfl)
  · exact ChainStep.refl gi h w

/-- A number in the lift line leaves the accesses, the notes, and what stands on the chain. -/
theorem numberAccess_tables (w : Work) (gi h t : Nat) : (numberAccess w gi h t).pk.txns = w.pk.txns ∧
    (numberAccess w gi h t).pk.fresh = w.pk.fresh ∧ (numberAccess w gi h t).pk.notes = w.pk.notes := by
  unfold numberAccess Work.onGroup
  split
  · dsimp only
    split
    · exact ⟨rfl, rfl, rfl⟩
    · split <;> exact ⟨rfl, rfl, rfl⟩
  · exact ⟨rfl, rfl, rfl⟩

theorem numberAccess_hist {w : Work} {gi h : Nat} {g : Group} (t : Nat) (hg : w.pk.groups.find? gi = some g) :
    ∃ g', (numberAccess w gi h t).pk.groups.find? gi = some g' ∧ (g'.chain h).hist = (g.chain h).hist := by
  rw [numberAccess, Work.onGroup_of_find _ hg]
  dsimp only
  split
  · exact ⟨_, FMap.find?_adjust_self hg, by rw [Group.chain_setChain, if_pos rfl]⟩
  · split
    · exact ⟨g, hg, rfl⟩
    · exact ⟨_, FMap.find?_adjust_self hg, by rw [Group.chain_setChain, if_pos rfl]⟩

/-! ### A new access -/

/-- An access without what it follows. -/
def Txn.bare (t : Txn) : Txn := { t with preds := [], jpreds := [], same := [], imports := [], awaits := [] }

/-- The access t, with what it follows, stands in the table and last on its chain. -/
def Chains (w : Work) (t : Txn) (w1 : Work) : Prop :=
  ∃ (x : Txn) (c : Group → Chain), w1 = (w.newId.2.setTxn w.pk.fresh x).updGroup t.g (fun g => g.setChain t.h (c g)) ∧
    x.bare = t.bare ∧ ∀ g, w.pk.fresh ∈ (c g).hist

/-- A new access stands on its chain, and has its number in the lift line but for a `frec`. -/
theorem addTxn_cases (w : Work) (t : Txn) : ∃ w1,
    (addTxn w t = (w.pk.fresh, w1) ∨ addTxn w t = (w.pk.fresh, numberAccess w1 t.g t.h w.pk.fresh)) ∧ Chains w t w1 := by
  have hist (p : Package) (l : List Nat) : w.pk.fresh ∈ openTxns p l ++ [w.pk.fresh] := by simp
  unfold addTxn
  dsimp only
  split
  · exact ⟨_, .inl rfl, _, _, rfl, rfl, fun _ => hist _ _⟩
  · exact ⟨_, .inr rfl, _, _, rfl, rfl, fun _ => hist _ _⟩

/-- The machine once the access t has been made. -/
structure Added (w : Work) (t : Txn) (w' : Work) : Prop where
  step : ChainStep t.g t.h w w'
  notes : w'.pk.notes = w.pk.notes
  access : ∃ x : Txn, x.bare = t.bare ∧ w'.pk.txns = w.pk.txns.insert w.pk.fresh x
  last : ∀ g', w'.pk.groups.find? t.g = some g' → w.pk.fresh ∈ (g'.chain t.h).hist

theorem Chains.added {w w1 : Work} {t : Txn} (h : Chains w t w1) : Added w t w1 := by
  obtain ⟨x, c, rfl, hx, hc⟩ := h
  refine ⟨(chainStep_mapPk w t.g t.h rfl).trans ((chainStep_mapPk _ t.g t.h rfl).trans (chainStep_updGroup _ t.g t.h c)), rfl,
    ⟨x, hx, rfl⟩, fun g' hg' => ?_⟩
  rw [Work.updGroup_pk, FMap.find?_adjust, if_pos rfl, Option.map_eq_some_iff] at hg'
  obtain ⟨g, -, rfl⟩ := hg'
  rw [Group.chain_setChain, if_pos rfl]
  exact hc g

theorem Added.numbered {w w1 : Work} {t : Txn} {g : Group} (hg : w.pk.groups.find? t.g = some g) (h : Added w t w1) (n : Nat) :
    Added w t (numberAccess w1 t.g t.h n) := by
  obtain ⟨ht, -, hn⟩ := numberAccess_tables w1 t.g t.h n
  obtain ⟨x, hx, e⟩ := h.access
  refine ⟨h.step.trans (numberAccess_step ..), hn.trans h.notes, ⟨x, hx, ht.trans e⟩, fun g' hg' => ?_⟩
  obtain ⟨g1, hg1, -⟩ := h.step.group g hg
  obtain ⟨g2, hg2, eh⟩ := numberAccess_hist n hg1
  cases hg2.symm.trans hg'
  rw [eh]
  exact h.last g1 hg1

theorem addTxn_added {w : Work} {t : Txn} {g : Group} (hg : w.pk.groups.find? t.g = some g) :
    ∃ w', addTxn w t = (w.pk.fresh, w') ∧ Added w t w' := by
  obtain ⟨w1, e | e, hc⟩ := addTxn_cases w t
  · exact ⟨w1, e, hc.added⟩
  · exact ⟨_, e, hc.added.numbered hg _⟩

theorem Txn.bare_eq {x t : Txn} (h : x.bare = t.bare) : x.g = t.g ∧ x.h = t.h ∧ x.ctx = t.ctx ∧ x.pc = t.pc ∧ x.kind = t.kind ∧
    x.ops = t.ops ∧ x.staged = t.staged := by
  simp only [Txn.bare, Txn.mk.injEq] at h
  simp only [h, and_self]

/-! ### Reads of an issue part -/

/-- The performing of a part of an access touches its chain and the notes alone. -/
theorem notePerform_step (w : Work) (id : Nat) (t : Txn) (L : Fin 8) :
    ChainStep t.g t.h w (notePerform w id t L) ∧ (notePerform w id t L).pk.txns = w.pk.txns := by
  have met : ChainStep t.g t.h w (noteMet w t.g t.h t.core (t.laneKeys L)) ∧
      (noteMet w t.g t.h t.core (t.laneKeys L)).pk.txns = w.pk.txns := by
    unfold noteMet
    split
    · exact ⟨ChainStep.refl .., rfl⟩
    · exact ⟨chainStep_updGroup w t.g t.h fun g => _, rfl⟩
  unfold notePerform
  dsimp only
  split
  · exact ⟨ChainStep.refl .., rfl⟩
  · split
    · exact ⟨met.1.trans (chainStep_mapPk _ t.g t.h rfl), met.2⟩
    · exact ⟨chainStep_mapPk w t.g t.h rfl, rfl⟩

theorem foldl_notePerform_step (id : Nat) (t : Txn) (l : List (Fin 8)) (w : Work) :
    ChainStep t.g t.h w (l.foldl (fun w L => notePerform w id t L) w) ∧
      (l.foldl (fun w L => notePerform w id t L) w).pk.txns = w.pk.txns := by
  induction l generalizing w with
  | nil => exact ⟨ChainStep.refl .., rfl⟩
  | cons L l ih =>
    obtain ⟨h1, e1⟩ := notePerform_step w id t L
    obtain ⟨h2, e2⟩ := ih (notePerform w id t L)
    exact ⟨h1.trans h2, e2.trans e1⟩

/-- A read made at issue leaves its chain, the notes, and no access in the table. -/
theorem readAfter_step {w : Work} {t : Txn} {g : Group} (hg : w.pk.groups.find? t.g = some g) :
    ChainStep t.g t.h w (readAfter w t).2 ∧
      ∀ j, j ≠ w.pk.fresh → (readAfter w t).2.pk.txns.find? j = w.pk.txns.find? j := by
  obtain ⟨w1, e, ha⟩ := addTxn_added hg
  obtain ⟨x, hx, ht⟩ := ha.access
  obtain ⟨hxg, hxh, -⟩ := Txn.bare_eq hx
  have hfind : w1.txn? w.pk.fresh = some x := by rw [Work.txn?, ht, FMap.find?_insert_self]
  unfold readAfter
  simp only [e, hfind]
  split <;> dsimp only
  · obtain ⟨h1, e1⟩ := foldl_notePerform_step w.pk.fresh x (laneList.filter x.openIn) w1
    rw [hxg, hxh] at h1
    refine ⟨ha.step.trans (h1.trans (chainStep_mapPk _ t.g t.h rfl)), fun j hj => ?_⟩
    rw [Work.dropTxn, Work.mapPk_pk, FMap.find?_erase, if_neg hj, e1, ht, FMap.find?_insert_ne hj]
  · exact ⟨ChainStep.refl .., fun _ _ => rfl⟩

section
variable {gi h : Nat} {w w' : Work} (a : ChainStep gi h w w')
include a

theorem ChainStep.beside : w'.pk.beside = { w.pk.beside with notes := w'.pk.notes } := by
  rw [a.pk]; rfl

theorem ChainStep.mx : w'.pk.mx = w.pk.mx := by rw [a.pk]
theorem ChainStep.blocks : w'.pk.blocks = w.pk.blocks := by rw [a.pk]
theorem ChainStep.ctxs : w'.pk.ctxs = w.pk.ctxs := by rw [a.pk]

theorem ChainStep.raw : w'.raw = w.raw := by
  funext k; unfold Work.raw; rw [a.base, a.wr]

theorem ChainStep.home : w'.home = w.home := by
  have hp : w'.pk.pubs = w.pk.pubs := by rw [a.pk]
  funext k; unfold Work.home Work.backing; rw [hp, a.raw]

/-- Bytes are seen as before. -/
theorem ChainStep.seenBytes (v : View) (ks : List Nat) : seenBytes w' v ks = seenBytes w v ks := by
  have hb : w'.byte = w.byte := by funext k; unfold Work.byte; rw [a.raw, a.home]
  have hd : detOf w' v.grp = detOf w v.grp := by unfold detOf Work.block?; rw [a.blocks]
  have hbb : blockByte w' = blockByte w := by funext d k; unfold blockByte; rw [hb]
  unfold Machine.seenBytes blockBytes
  rw [hd, hbb]

theorem ChainStep.refreshing (ks : List Nat) : refreshing w'.pk ks = refreshing w.pk ks := by
  have hc : w'.pk.cycle = w.pk.cycle := by rw [a.pk]
  unfold Machine.refreshing; rw [hc]

theorem ChainStep.badAt (ks : List Nat) : w'.badAt ks = w.badAt ks := by
  have hu : w'.pk.badUnits = w.pk.badUnits := by rw [a.pk]
  have hp : portDown w'.pk = portDown w.pk := by
    have h1 : w'.pk.portsDown = w.pk.portsDown := by rw [a.pk]
    have h2 : w'.pk.no = w.pk.no := by rw [a.pk]
    funext k; unfold portDown; rw [h1, h2]
  unfold Work.badAt Work.badKey Machine.badKey
  rw [hu, hp, a.home]

end

/-- Reads that meet nothing go on with the bytes as the block sees them. -/
theorem readBlock_now {w : Work} {v : View} {ks used : List Nat} {g : Group} {k : List Byte → Work → Done}
    (hg : w.pk.groups.find? v.g = some g) (h : readsNow w v used) :
    ∃ w', readBlock w v ks used k = k (seenBytes w v ks) w' ∧ ChainStep v.g 0 w w' ∧
      ∀ j, j ≠ w.pk.fresh → w'.pk.txns.find? j = w.pk.txns.find? j := by
  obtain ⟨hroom, hafter, href, hbad⟩ := h
  obtain ⟨hs, ht⟩ := readAfter_step (t := readTxn v (.sload 0 .i64 v.act) 0 used) hg
  refine ⟨_, ?_, hs, ht⟩
  unfold readBlock
  simp only [hroom, hafter, bne_self_eq_false, Bool.false_eq_true, if_false, hs.refreshing, href, hs.badAt, hbad]
  exact congrArg (k · _) (hs.seenBytes v ks)

/-! ### An instruction that changes tables beside its group -/

/-- An effect of an instruction of group gi that writes no memory: besides accesses, their numbers and cached translations it
changes matrix units, regions, blocks and notes alone. -/
structure Keeps (gi : Nat) (w w' : Work) : Prop where
  wr : w'.wr = w.wr
  others : ∀ j, j ≠ gi → w'.pk.groups.find? j = w.pk.groups.find? j
  beside : w'.pk.beside =
    { w.pk.beside with mx := w'.pk.mx, seals := w'.pk.seals, blocks := w'.pk.blocks, notes := w'.pk.notes }

theorem Keeps.trans {gi : Nat} {w w' w'' : Work} (a : Keeps gi w w') (b : Keeps gi w' w'') : Keeps gi w w'' where
  wr := b.wr.trans a.wr
  others j hj := (b.others j hj).trans (a.others j hj)
  beside := b.beside.trans (congrArg (fun p : Package => { p with
    mx := w''.pk.mx, seals := w''.pk.seals, blocks := w''.pk.blocks, notes := w''.pk.notes }) a.beside)

theorem ChainStep.keeps {gi h : Nat} {w w' : Work} (a : ChainStep gi h w w') : Keeps gi w w' :=
  ⟨a.wr, a.others, by rw [a.pk]; rfl⟩

/-- The ring, the places of the lanes and the save of the group stand as they are seen. -/
structure Placed (v : View) (g : Group) : Prop where
  splits : g.splits = v.grp.splits
  jmasks : g.jmasks = v.grp.jmasks
  lanes : ∀ L, (g.lane L).pc = (v.grp.lane L).pc ∧ (g.lane L).mr = (v.grp.lane L).mr ∧ (g.lane L).st = (v.grp.lane L).st
  stat : g.stat = v.grp.stat
  saveReq : g.saveReq = v.grp.saveReq

theorem placed_counted (s : State) (v : View) (n : Need) : Placed v (v.counted s n) := by
  obtain ⟨-, -, hst, hq⟩ := Group.stand_eq.1 (View.counted_stand s v n)
  obtain ⟨hs, hj, hl⟩ := View.counted_places s v n
  exact ⟨hs, hj, hl, hst, hq⟩

theorem Placed.running {v : View} {g : Group} (h : Placed v g) : g.running = v.grp.running :=
  Group.running_congr fun L => (h.lanes L).2.2

theorem OnlyChain.placed {h : Nat} {v : View} {g g' : Group} (a : OnlyChain h g g') (hp : Placed v g) : Placed v g' where
  splits := (congrArg Group.splits a.eq).trans hp.splits
  jmasks := (congrArg Group.jmasks a.eq).trans hp.jmasks
  lanes L := by rw [a.eq]; exact hp.lanes L
  stat := (congrArg Group.stat a.eq).trans hp.stat
  saveReq := (congrArg Group.saveReq a.eq).trans hp.saveReq

theorem Group.retired_rest (g : Group) (fits : Bool) (h : Hdr) (v : View) {c : Ctl} (hr : c.ret = false) :
    (g.retired fits h v c).rest = g.rest ∧ (g.retired fits h v c).regs = g.regs := by
  rw [Group.retired, Group.rest_safePoint, Group.safePoint_regs]
  exact ⟨Group.rest_settleRing _ _ _ _ hr, Group.settleRing_regs _ _ _ _ hr⟩

section
variable {i : Instr} {s : State} {v : View} {h : Hdr} {need : View → Need} {body : View → Work → Done} {w : Work} {g : Group}
  (hi : Issues s h h.words (need v) v) (hk : Keeps v.g (Work.start s) w) (hg : w.pk.groups.find? v.g = some g)
  (hp : Placed v g)
include hi hk hg hp

/-- An instruction whose body answers a machine with an effect on tables beside its group, whichever way its split goes. -/
theorem issue_keeps {c : Ctl} (hb : body v ((Work.start s).issued v (need v)) = .ok w c) (hr : c.ret = false) :
    ∃ t fits, issue s h need body = .next t ∧ t.mem = s.mem ∧ t.neg = s.neg ∧
      t.pk = { w.pk with groups := w.pk.groups.insert v.g (g.retired fits h v c) } ∧
      ∀ j, j ≠ v.g → t.pk.groups.find? j = s.pk.groups.find? j := by
  obtain ⟨fits, e⟩ := issue_effect hi hb hg hr (by rw [hp.running]; exact hi.lanes)
  refine ⟨_, fits, e, ?_, rfl, rfl, fun j hj => (FMap.find?_insert_ne hj).trans (hk.others j hj)⟩
  rw [State.finish_mem, hk.wr]
  rfl

/-- An instruction that completes with an effect on tables beside its group. -/
theorem completed_of_keeps (he : exec i s = issue s h need body)
    (hb : body v ((Work.start s).issued v (need v)) = done w) :
    ∃ t g', Completed i s v h t g' ∧ t.mem = s.mem ∧ g'.rest = g.rest ∧ g'.regs = g.regs ∧
      t.pk = { w.pk with groups := t.pk.groups } := by
  obtain ⟨t, fits, ht, hm, hn, hpk, ho⟩ := issue_keeps hi hk hg hp hb rfl
  obtain ⟨hrest, hregs⟩ := g.retired_rest fits h v (c := {}) rfl
  refine ⟨t, g.retired fits h v {}, ⟨he.trans ht, ?_, ho, ?_, hn⟩, hm, hrest, hregs, ?_⟩
  · rw [hpk]; exact FMap.find?_insert_self ..
  · exact retired_wentOn (viewOf_seen hi.seen) rfl rfl rfl hp.splits hp.jmasks hp.lanes hp.stat hp.saveReq
  · rw [hpk]

end

/-! ### The queue of a unit (R185) -/

theorem mxUnit_congr {p q : Package} (h : p.mx = q.mx) (core part : Nat) : mxUnit p core part = mxUnit q core part := by
  unfold mxUnit; rw [h]

theorem mxUnit_putCmd (w : Work) (core part k p : Nat) (c : MxCmd) : mxUnit (putCmd w core part c).pk k p =
    if mxKey k p = mxKey core part then
      { mxUnit w.pk core part with queue := (mxUnit w.pk core part).queue ++ [c] }
    else mxUnit w.pk k p :=
  FMap.getD_put ..

theorem keeps_putCmd (gi : Nat) (w : Work) (core part : Nat) (c : MxCmd) : Keeps gi w (putCmd w core part c) :=
  ⟨rfl, fun _ _ => rfl, rfl⟩

theorem keeps_updGroup (gi : Nat) (w : Work) (F : Group → Group) : Keeps gi w (w.updGroup gi F) :=
  ⟨rfl, fun j hj => by rw [Work.updGroup_pk, FMap.find?_adjust, if_neg hj], rfl⟩

section
variable {s : State} {v : View} {w : Work} (hm : w.pk.mx = s.pk.mx) (c : MxCmd)
include hm

theorem enqueueMx_of_room (h : unitRoom s v) : enqueueMx v c w = done (putCmd w v.grp.core v.grp.part c) := by
  unfold enqueueMx mxDepth
  rw [mxUnit_congr hm, if_neg (Nat.not_le_of_lt h)]

theorem enqueueMx_of_full (h : ¬unitRoom s v) : enqueueMx v c w = .wait .mxRoom := by
  unfold enqueueMx mxDepth
  rw [mxUnit_congr hm, if_pos (Nat.le_of_not_lt h)]

theorem enters_putCmd {t : State} (ht : t.pk.mx = (putCmd w v.grp.core v.grp.part c).pk.mx) : Enters s v t c := by
  refine ⟨?_, fun k p hkp => ?_⟩
  · rw [mxUnit_congr ht, mxUnit_putCmd, if_pos rfl, mxUnit_congr hm]
  · rw [mxUnit_congr ht, mxUnit_putCmd, if_neg hkp, mxUnit_congr hm]

end

/-! ### Checks of addresses, and regions of the weight store -/

/-- Of the machine only what a translation caches differs, and the free values used. -/
def Translated (w w' : Work) : Prop := w' = { w with pk := { w.pk with tlb := w'.pk.tlb, free := w'.pk.free } }

theorem Translated.trans {w w' w'' : Work} (a : Translated w w') (b : Translated w' w'') : Translated w w'' :=
  Eq.trans b (congrArg (fun x : Work => { x with pk := { x.pk with tlb := w''.pk.tlb, free := w''.pk.free } }) a)

theorem xlate_translated (w : Work) (cn : Nat) (a : Acc) (va n : Nat) : Translated w (xlate w cn a va n).2 := by
  have fill (w : Work) (p : Prop) [Decidable p] (c : Ctx) (x : Nat) (l : Leaf) :
      Translated w (if p then w.mapPk fun q => tlbFill q cn c x l else w) := by
    unfold tlbFill
    split
    · unfold Translated Work.mapPk
      dsimp only
      split <;> rfl
    · rfl
  unfold xlate
  split
  · rfl
  · dsimp only
    split
    · split <;> rfl
    · split
      · refine Translated.trans ?_ (fill _ _ _ _ _)
        split <;> rfl
      · split <;> rfl

theorem chkGlobal_translated (w : Work) (cn : Nat) (a : Acc) (va n al : Nat) : Translated w (chkGlobal w cn a va n al).2 := by
  unfold chkGlobal
  split
  · rfl
  · exact xlate_translated ..

theorem checkBlocks_translated {f : Work → Nat → Chk × Work} (hf : ∀ w x, Translated w (f w x).2) (w : Work) (base n : Nat) :
    Translated w (checkBlocks w base n f).2 := by
  unfold checkBlocks
  suffices ∀ (l : List Nat) (r : Chk × Work), Translated r.2 (l.foldl (fun (r : Chk × Work) i =>
      let (c, w) := f r.2 ((base + 64 * i) % 2 ^ 64)
      (r.1.andThen c, w)) r).2 from this _ _
  intro l
  induction l with
  | nil => exact fun _ => rfl
  | cons i l ih => exact fun r => (hf r.2 _).trans (ih _)

theorem mxldCheck_translated (f : MxldF) (v : View) (w : Work) (a n : Nat) : Translated w (mxldCheck f v w a n).2 := by
  unfold mxldCheck
  split
  · rfl
  · refine checkBlocks_translated (fun w x => ?_) ..
    split
    · exact chkGlobal_translated ..
    · rfl

theorem imageCheck_translated (f : MxsvF) (v : View) (w : Work) (a : Nat) (acc : Acc) :
    Translated w (imageCheck f v w a acc).2 := by
  unfold imageCheck
  split
  · rfl
  · exact checkBlocks_translated (fun w x => chkGlobal_translated ..) ..

theorem Translated.roomWait {w w' : Work} (a : Translated w w') (v : View) (h : Nat) :
    roomWait w'.pk v h = roomWait w.pk v h := by
  rw [a]; rfl

/-- Of the machine only the sealed regions and the blocks differ. -/
def Sealed (w w' : Work) : Prop := w' = { w with pk := { w.pk with seals := w'.pk.seals, blocks := w'.pk.blocks } }

theorem Sealed.trans {w w' w'' : Work} (a : Sealed w w') (b : Sealed w' w'') : Sealed w w'' :=
  Eq.trans b (congrArg (fun x : Work => { x with pk := { x.pk with seals := w''.pk.seals, blocks := w''.pk.blocks } }) a)

theorem sealRegion_sealed (w : Work) (cn lnch : Nat) (r : Nat × Nat × Nat) : Sealed w (sealRegion w cn lnch r) := by
  unfold sealRegion
  split <;> rfl

theorem foldl_sealRegion (cn lnch : Nat) (l : List (Nat × Nat × Nat)) (w : Work) :
    Sealed w (l.foldl (fun w r => sealRegion w cn lnch r) w) := by
  induction l generalizing w with
  | nil => rfl
  | cons r l ih => exact (sealRegion_sealed w cn lnch r).trans (ih _)

theorem touchRegions_sealed {w w' : Work} {g : Group} {rs : List (Nat × Nat × Nat)} (h : touchRegions w g rs = .ok w') :
    Sealed w w' := by
  unfold touchRegions at h
  split at h
  · cases h
  · cases h
    exact (foldl_sealRegion g.ctx g.lnch rs w).trans rfl

/-- The instruction has been counted, its addresses have been checked, and the regions it reads are sealed. -/
structure Readied (s : State) (v : View) (n : Need) (w : Work) : Prop where
  wr : w.wr = []
  pk : w.pk = { s.pk with
    groups := s.pk.groups.insert v.g (v.counted s n), tlb := w.pk.tlb, free := w.pk.free
    seals := w.pk.seals, blocks := w.pk.blocks }

theorem readied_issued {s : State} {words : Nat} {v : View} (hs : Sees (Work.start s) words v) (n : Need) :
    Readied s v n ((Work.start s).issued v n) := ⟨rfl, by rw [issued_pk hs]⟩

section
variable {s : State} {v : View} {n : Need} {w w' : Work} (hw : Readied s v n w)
include hw

theorem Readied.translated (a : Translated w w') : Readied s v n w' := by
  refine ⟨(congrArg Work.wr a).trans hw.wr, (congrArg Work.pk a).trans ?_⟩
  dsimp only
  rw [congrArg Work.pk a, hw.pk]

theorem Readied.sealed (a : Sealed w w') : Readied s v n w' := by
  refine ⟨(congrArg Work.wr a).trans hw.wr, (congrArg Work.pk a).trans ?_⟩
  dsimp only
  rw [congrArg Work.pk a, hw.pk]

theorem Readied.group : w.pk.groups.find? v.g = some (v.counted s n) := by
  rw [hw.pk]; exact FMap.find?_insert_self ..

theorem Readied.keeps : Keeps v.g (Work.start s) w :=
  ⟨hw.wr, fun j hj => by rw [hw.pk]; exact FMap.find?_insert_ne hj, by rw [hw.pk]; rfl⟩

theorem Readied.mx : w.pk.mx = s.pk.mx := by rw [hw.pk]
theorem Readied.txns : w.pk.txns = s.pk.txns := by rw [hw.pk]
theorem Readied.fresh : w.pk.fresh = s.pk.fresh := by rw [hw.pk]
theorem Readied.notes : w.pk.notes = s.pk.notes := by rw [hw.pk]

end

/-! ### A command that enters the queue -/

theorem OnlyChain.rest {h : Nat} {g g' : Group} (a : OnlyChain h g g') :
    g'.rest = { g.rest with chains := g'.chains } ∧ g'.regs = g.regs := by
  rw [a.eq]; exact ⟨rfl, rfl⟩

section
variable {i : Instr} {s : State} {v : View} {h : Hdr} {need : View → Need} {body : View → Work → Done} {c : MxCmd} {w w' : Work}
  (hi : Issues s h h.words (need v) v) (he : exec i s = issue s h need body) (hw : Readied s v (need v) w)
include hi he

/-- An instruction that finds the queue full waits for an entry. -/
theorem waitsForUnit_of_full (hm : w.pk.mx = s.pk.mx) (hb : body v ((Work.start s).issued v (need v)) = enqueueMx v c w)
    (hr : ¬unitRoom s v) : WaitsForUnit i s v := by
  unfold WaitsForUnit
  rw [he]
  exact issue_wait hi (hb.trans (enqueueMx_of_full hm c hr))

include hw

/-- Reads that have performed leave of the group its chain h0, and the command is queued. -/
theorem queuesAfterReads_of_step (hs : ChainStep v.g 0 w w')
    (ht : ∀ j, j ≠ w.pk.fresh → w'.pk.txns.find? j = w.pk.txns.find? j)
    (hb : body v ((Work.start s).issued v (need v)) = enqueueMx v c w') : QueuesAfterReads i s v h c := by
  have hm : w'.pk.mx = s.pk.mx := hs.mx.trans hw.mx
  refine ⟨fun hr => ?_, waitsForUnit_of_full hi he hm hb⟩
  obtain ⟨g, hg, hc⟩ := hs.group _ hw.group
  have hk := (hw.keeps.trans hs.keeps).trans (keeps_putCmd v.g w' v.grp.core v.grp.part c)
  obtain ⟨t, g', hcomp, hmem, hrest, hregs, hpk⟩ := completed_of_keeps hi hk hg (hc.placed (placed_counted ..)) he
    (hb.trans (enqueueMx_of_room hm c hr))
  obtain ⟨e1, e2, -, -⟩ := Group.stand_eq.1 (View.counted_stand s v (need v))
  obtain ⟨crest, cregs⟩ := hc.rest
  refine ⟨t, g', hcomp, hmem, ⟨Group.reg_congr (hregs.trans (cregs.trans e2)), ?_⟩, fun j hj => ?_,
    enters_putCmd hm c (by rw [hpk]), ?_⟩
  · rw [hrest, crest, e1]
  · rw [hpk]
    exact (ht j (by rwa [hw.fresh])).trans (by rw [hw.txns])
  · rw [hpk]
    exact congrArg (fun p : Package => { p with mx := [], seals := [], blocks := [], notes := [] }) hk.beside

end

/-! ### Commands that read no memory -/

/-- Registers that await a producer. -/
theorem Group.reg_emptyRegs (g : Group) (r n j : Nat) (m : Mask) : (g.emptyRegs r n m).reg j =
    if r ≤ j ∧ j < r + n then { g.reg j with full := Mask.diff (g.reg j).full m, pend := Mask.union (g.reg j).pend m }
    else g.reg j := by
  unfold Group.emptyRegs
  induction n with
  | zero => rw [if_neg (by omega)]; rfl
  | succ n ih =>
    rw [List.range_succ, List.foldl_append, List.foldl_cons, List.foldl_nil, Group.reg_setReg]
    by_cases hj : j = r + n
    · subst hj
      rw [if_pos rfl, ih, if_neg (by omega), if_pos (by omega)]
    · rw [if_neg hj, ih]
      by_cases hr : r ≤ j ∧ j < r + n
      · rw [if_pos hr, if_pos (by omega)]
      · rw [if_neg hr, if_neg (by omega)]

theorem Group.emptyRegs_eq (g : Group) (r n : Nat) (m : Mask) :
    g.emptyRegs r n m = { g with regs := (g.emptyRegs r n m).regs } := by
  unfold Group.emptyRegs
  induction List.range n generalizing g with
  | nil => rfl
  | cons k l ih => exact ih _

theorem awaits_emptyRegs (g : Group) (d n : Nat) (m : Mask) : AwaitsRegs g (g.emptyRegs d n m) d n m := by
  intro r L
  simp only [Group.reg_emptyRegs]
  by_cases hr : d ≤ r ∧ r < d + n
  · rw [if_pos hr]
    cases hm : m.get L <;> simp [hr, hm]
  · rw [if_neg hr, if_neg fun h => hr ⟨h.1, h.2.1⟩]
    exact ⟨rfl, rfl, rfl, rfl⟩

theorem AwaitsRegs.congr {g g' x x' : Group} {d n : Nat} {m : Mask} (h : AwaitsRegs g g' d n m) (hg : x.regs = g.regs)
    (hg' : x'.regs = g'.regs) : AwaitsRegs x x' d n m := by
  intro r L
  rw [Group.reg_congr hg, Group.reg_congr hg']
  exact h r L

/-- Only groups and matrix units differ once a command stands in its queue. -/
theorem beside_putCmd (w : Work) (core part gi : Nat) (c : MxCmd) (F : Group → Group) (gs : FMap Group) :
    { ({ ((putCmd w core part c).updGroup gi F).pk with groups := gs } : Package).beside with mx := [] } =
      { w.pk.beside with mx := [] } := by
  simp only [Package.beside, putCmd, setMx, Work.mapPk, Work.updGroup]

section
variable {i : Instr} {s : State} {v : View} {h : Hdr} {need : View → Need} {body : View → Work → Done} {c : MxCmd}
  (hi : Issues s h h.words (need v) v) (he : exec i s = issue s h need body)
include hi he

/-- An instruction that reads no memory queues its command, and of its group changes its registers alone. -/
theorem queues_of_put {F : Group → Group} {regs : Group → Prop} (hF : ∀ g, F g = { g with regs := (F g).regs })
    (hregs : ∀ g', g'.regs = (F (v.counted s (need v))).regs → regs g')
    (hb : unitRoom s v → body v ((Work.start s).issued v (need v)) =
      done ((putCmd ((Work.start s).issued v (need v)) v.grp.core v.grp.part c).updGroup v.g F))
    (hf : ¬unitRoom s v → body v ((Work.start s).issued v (need v)) = .wait .mxRoom) : Queues i s v h c regs := by
  have hs := viewOf_seen hi.seen
  have hw := readied_issued hs (need v)
  have hput := hw.keeps.trans (keeps_putCmd v.g _ v.grp.core v.grp.part c)
  refine ⟨fun hr => ?_, fun hr => ?_⟩
  · have hk := hput.trans (keeps_updGroup v.g _ F)
    have hp : Placed v (F (v.counted s (need v))) := by
      have hc := placed_counted s v (need v)
      rw [hF]
      exact ⟨hc.splits, hc.jmasks, hc.lanes, hc.stat, hc.saveReq⟩
    obtain ⟨t, g', hcomp, hmem, hrest, hr', ht⟩ := completed_of_keeps hi hk (FMap.find?_adjust_self hw.group) hp he (hb hr)
    refine ⟨t, g', hcomp, hmem, ?_, hregs g' hr', ?_, enters_putCmd hw.mx c (by rw [ht]; rfl), ?_⟩
    · rw [hrest, hF]
      exact (Group.stand_eq.1 (View.counted_stand s v (need v))).1
    · rw [ht]; exact hw.txns
    · have hb : ((Work.start s).issued v (need v)).pk.beside = s.pk.beside := by rw [issued_pk hs]; rfl
      rw [ht, ← hb]
      exact beside_putCmd ..
  · unfold WaitsForUnit
    rw [he]
    exact issue_wait hi (hf hr)

/-- An instruction that reads no memory queues its command and changes nothing else. -/
theorem queues_of_enqueue
    (hb : body v ((Work.start s).issued v (need v)) = enqueueMx v c ((Work.start s).issued v (need v))) :
    Queues i s v h c (SameRegs v.grp) := by
  have hs := viewOf_seen hi.seen
  have hm := (readied_issued hs (need v)).mx
  refine queues_of_put hi he (F := fun g => g) (fun _ => rfl)
    (fun g' hg' => Group.reg_congr (hg'.trans (Group.stand_eq.1 (View.counted_stand s v (need v))).2.1))
    (fun hr => (hb.trans (enqueueMx_of_room hm c hr)).trans (congrArg done ?_)) (fun hr => hb.trans (enqueueMx_of_full hm c hr))
  have e : FMap.adjust ((Work.start s).issued v (need v)).pk.groups v.g (fun g => g) =
      ((Work.start s).issued v (need v)).pk.groups := by
    rw [issued_pk hs]; simp [FMap.adjust]
  simp [putCmd, setMx, Work.updGroup, Work.mapPk, e]

end

theorem queues_mxz {s : State} {v : View} {f : MxzF} (hi : Issues s f.h f.h.words (mxzNeed f v) v) :
    Queues (.mxz f) s v f.h (mxCmd v (.mxz f) 0 0 (.zero ((physRegions v.grp [f.d.toNat]).headD 0))) (SameRegs v.grp) :=
  queues_of_enqueue hi rfl rfl

theorem queues_mxrd {s : State} {v : View} {f : MxrdF} (hi : Issues s f.h f.h.words (mxrdNeed f v) v) :
    Queues (.mxrd f) s v f.h
      (mxCmd v (.mxrd f) 0 0
        (.read f.d.toNat ((physRegions v.grp [f.a.toNat]).headD 0) f.e0.toNat (f.n.toNat + 1) f.conv v.act))
      (fun g' => AwaitsRegs v.grp g' f.d.toNat (f.n.toNat + 1) v.act) := by
  have hm := (readied_issued (viewOf_seen hi.seen) (mxrdNeed f v)).mx
  refine queues_of_put (body := mxrdBody f) hi rfl (F := fun g => g.emptyRegs f.d.toNat (f.n.toNat + 1) v.act)
    (fun g => Group.emptyRegs_eq ..)
    (fun g' hg' => AwaitsRegs.congr (awaits_emptyRegs _ _ _ _)
      (Group.stand_eq.1 (View.counted_stand s v (mxrdNeed f v))).2.1.symm hg') (fun hr => ?_) (fun hr => ?_)
  · unfold mxrdBody
    dsimp only
    rw [enqueueMx_of_room hm _ hr]
    rfl
  · unfold mxrdBody
    dsimp only
    rw [enqueueMx_of_full hm _ hr]

/-- The words of registers in all lane positions, register by register. -/
theorem words_getElem (f : Nat → Fin 8 → W32) (n : Nat) :
    ((List.range n).flatMap fun i => laneList.map (f i)).length = 8 * n ∧
      ∀ i L, i < n → ((List.range n).flatMap fun i => laneList.map (f i))[8 * i + L.val]? = some (f i L) := by
  induction n with
  | zero => exact ⟨rfl, fun _ _ h => absurd h (Nat.not_lt_zero _)⟩
  | succ n ih =>
    obtain ⟨hlen, hget⟩ := ih
    have hlane (L : Fin 8) : (laneList.map (f n))[L.val]? = some (f n L) := by
      match L with
      | 0 | 1 | 2 | 3 | 4 | 5 | 6 | 7 => rfl
    rw [List.range_succ, List.flatMap_append, List.flatMap_singleton]
    refine ⟨by rw [List.length_append, hlen]; rfl, fun i L hi => ?_⟩
    obtain hi | rfl := Nat.lt_succ_iff_lt_or_eq.1 hi
    · rw [List.getElem?_append_left (by omega)]
      exact hget i L hi
    · rw [List.getElem?_append_right (by omega), hlen, Nat.add_sub_cancel_left]
      exact hlane L

theorem queues_mxwr {s : State} {v : View} {f : MxwrF} (hi : Issues s f.h f.h.words (mxwrNeed f v) v) :
    ∃ vals, Queues (.mxwr f) s v f.h
        (mxCmd v (.mxwr f) 0 0 (.write ((physRegions v.grp [f.d.toNat]).headD 0) f.e0.toNat vals)) (SameRegs v.grp) ∧
      vals.length = 8 * (f.n.toNat + 1) ∧
      ∀ i L, i ≤ f.n.toNat → vals[8 * i + L.val]? = some (v.grp.word (f.a.r.toNat + i) L) := by
  obtain ⟨hlen, hget⟩ := words_getElem (fun i L => v.grp.word (f.a.r.toNat + i) L) (f.n.toNat + 1)
  exact ⟨_, queues_of_enqueue (body := mxwrBody f) hi rfl rfl, hlen, fun i L h => hget i L (Nat.lt_succ_of_le h)⟩

section
variable {s : State} {v : View} {f : MxmulF} {r : BitVec 4} (hsrc : f.src = .region r)
  (hi : Issues s f.h f.h.words (mxmulNeed f v) v)
include hsrc hi

theorem queues_mxmul_region (hr : r ≠ f.d) : Queues (.mxmul f) s v f.h
    (mxCmd v (.mxmul f) f.gran.toNat 0
      (.mul ((physRegions v.grp [f.d.toNat]).headD 0) (some ((physRegions v.grp [r.toNat]).headD 0)) [] false (f.rows.toNat + 1)
        f.align (physBanks v.grp (maskNames 8 f.banks.toNat)))) (SameRegs v.grp) := by
  refine queues_of_enqueue (body := mxmulBody f) hi rfl ?_
  unfold mxmulBody
  simp only [hsrc, if_neg hr]
  rfl

theorem exec_mxmul_overlap (hr : r = f.d) :
    exec (.mxmul f) s = .next (s.run fun w => raiseFault w v.g v.pc .tileOverlap v.act 0 r.toNat) := by
  refine issue_trap (body := mxmulBody f) hi ?_
  unfold mxmulBody
  simp only [hsrc, if_pos hr]

end

/-- Every region command enters the queue with the registers of its group as they were, but for those that `mxrd` empties. -/
theorem matrixRegionCommands : Sys2Proof.Part.MatrixRegionCommands :=
  ⟨fun _ _ _ hi => queues_mxz hi, fun _ _ _ hi => queues_mxrd hi, fun _ _ _ hi => queues_mxwr hi,
    fun _ _ _ _ hsrc hi => ⟨queues_mxmul_region hsrc hi, exec_mxmul_overlap hsrc hi⟩⟩

/-! ### Commands with the bytes they have read -/

section
variable {i : Instr} {s : State} {v : View} {h : Hdr} {need : View → Need} {body : View → Work → Done} {c : MxCmd} {w : Work}
  {ks : List Nat} {k : List Byte → Work → Done}
  (hi : Issues s h h.words (need v) v) (he : exec i s = issue s h need body) (hw : Readied s v (need v) w)
include hi he hw

/-- A command for which reads that meet nothing are made is queued with what they have read. -/
theorem queuesAfterReads_of_readBlock {used : List Nat} (hn : readsNow w v used)
    (hb : body v ((Work.start s).issued v (need v)) = readBlock w v ks used k)
    (hc : ∀ w', k (seenBytes w v ks) w' = enqueueMx v c w') : QueuesAfterReads i s v h c := by
  obtain ⟨w', e, hs, ht⟩ := readBlock_now (k := k) hw.group hn
  exact queuesAfterReads_of_step hi he hw hs ht (hb.trans (e.trans (hc w')))

theorem queuesAfterReads_of_withBlocks {a n : Nat} {f : BFmt} (hn : blocksNow w v a n f ks)
    (hb : body v ((Work.start s).issued v (need v)) = withBlocks v a n f w k)
    (hc : ∀ w', k (seenBytes w v ks) w' = enqueueMx v c w') : QueuesAfterReads i s v h c := by
  obtain ⟨hl, hn, hf⟩ := hn
  unfold withBlocks at hb
  simp only [hl] at hb
  exact queuesAfterReads_of_readBlock hi he hw hn hb fun w' => by simp only [hf, hc w']

end

theorem mxmulBody_of_mem {f : MxmulF} {a : Uni} (hsrc : f.src = .mem a) (v : View) (w : Work) :
    mxmulBody f v w = withBlocks v (v.uni a 1) (rowCount f * (if decide (f.kind = .bf16) then 16 else 8))
      (if decide (f.kind = .bf16) then .bf16 else .e4m3) w fun blocks =>
        enqueueMx v (mxCmd v (.mxmul f) f.gran.toNat (v.uni a 1)
          (.mul ((physRegions v.grp [f.d.toNat]).headD 0) none blocks (f.kind = .bf16) (rowCount f) f.align
            (physBanks v.grp (maskNames 8 f.banks.toNat)))) := by
  unfold mxmulBody
  simp only [hsrc, decide_eq_true_eq]

theorem queues_mxmul_mem {s : State} {v : View} {f : MxmulF} {a : Uni} {ks : List Nat} (hsrc : f.src = .mem a)
    (hi : Issues s f.h f.h.words (mxmulNeed f v) v) :
    let w := (Work.start s).issued v (mxmulNeed f v)
    let bf := decide (f.kind = .bf16)
    blocksNow w v (v.uni a 1) ((f.rows.toNat + 1) * (if bf then 16 else 8)) (if bf then .bf16 else .e4m3) ks →
    QueuesAfterReads (.mxmul f) s v f.h (mxCmd v (.mxmul f) f.gran.toNat (v.uni a 1)
      (.mul ((physRegions v.grp [f.d.toNat]).headD 0) none (seenBytes w v ks) bf (f.rows.toNat + 1) f.align
        (physBanks v.grp (maskNames 8 f.banks.toNat)))) := by
  exact fun hn => queuesAfterReads_of_withBlocks (body := mxmulBody f) hi rfl (readied_issued (viewOf_seen hi.seen) _) hn
    (mxmulBody_of_mem hsrc v _) fun _ => rfl

theorem queues_mxkv {s : State} {v : View} {f : MxkvF} {ks : List Nat} (hi : Issues s f.h f.h.words (mxkvNeed f v) v)
    (hn : blocksNow ((Work.start s).issued v (mxkvNeed f v)) v (v.uni f.a 1) 1024 .bf16 ks) :
    QueuesAfterReads (.mxkv f) s v f.h (mxCmd v (.mxkv f) 0 (v.uni f.a 1)
      (.keys ((physBanks v.grp [f.bank.toNat]).headD 0) (seenBytes ((Work.start s).issued v (mxkvNeed f v)) v ks))) :=
  queuesAfterReads_of_withBlocks (body := mxkvBody f) hi rfl (readied_issued (viewOf_seen hi.seen) _) hn rfl fun _ => rfl

/-! ### A split that stays at its instruction -/

/-- Among the splits one of the lanes of m waits at the instruction for k, and then goes on at the word nxt. -/
def Stalls (k : Wait) (nxt : PC) (m : Mask) (l : List Split) : Prop :=
  ∃ x ∈ l, x.cond = .blocked k ∧ x.finish = true ∧ x.nxt = nxt ∧ x.lanes = m

section
variable {k : Wait} {nxt : PC} {m : Mask}

theorem Stalls.append {l l' : List Split} (h : Stalls k nxt m l ∨ Stalls k nxt m l') : Stalls k nxt m (l ++ l') := by
  obtain ⟨x, hx, hs⟩ | ⟨x, hx, hs⟩ := h
  · exact ⟨x, List.mem_append_left _ hx, hs⟩
  · exact ⟨x, List.mem_append_right _ hx, hs⟩

theorem Stalls.cons {x : Split} {l : List Split} (h : Stalls k nxt m (x :: l)) : Stalls k nxt m [x] ∨ Stalls k nxt m l := by
  obtain ⟨y, hy, hs⟩ := h
  obtain rfl | hy := List.mem_cons.1 hy
  · exact .inl ⟨y, List.mem_singleton_self y, hs⟩
  · exact .inr ⟨y, hy, hs⟩

theorem stalls_singleton {x : Split} : Stalls k nxt m [x] ↔ x.cond = .blocked k ∧ x.finish = true ∧ x.nxt = nxt ∧ x.lanes = m := by
  simp [Stalls]

/-- What a fold over splits keeps, it keeps from its start and from each split it takes in. -/
theorem Stalls.foldl {α : Type} {f : α → Split → α} {P : α → Prop} (h : ∀ a s, P a ∨ Stalls k nxt m [s] → P (f a s))
    (l : List Split) {a : α} (ha : P a ∨ Stalls k nxt m l) : P (l.foldl f a) := by
  induction l generalizing a with
  | nil => exact ha.resolve_right fun ⟨_, hx, _⟩ => by cases hx
  | cons s l ih =>
    rw [List.foldl_cons]
    obtain ha | hs := ha
    · exact ih (.inl (h a s (.inl ha)))
    · exact hs.cons.elim (fun hs => ih (.inl (h a s (.inr hs)))) fun hl => ih (.inr hl)

/-- A split that waits neither joins another nor is joined. -/
theorem Stalls.mergeInto {g : Group} {acc : List Split} {s : Split} (h : Stalls k nxt m acc ∨ Stalls k nxt m [s]) :
    Stalls k nxt m (mergeInto g acc s) := by
  unfold Machine.mergeInto
  dsimp only
  split
  · next ha =>
    obtain ⟨x, hx, hc, hs⟩ | h := h
    · refine ⟨x, List.mem_map.2 ⟨x, hx, ?_⟩, hc, hs⟩
      simp [Split.ready, hc]
    · obtain ⟨hc, -⟩ := stalls_singleton.1 h
      simp [Split.ready, hc] at ha
  · exact Stalls.append h

theorem Group.stalls_mergeRing {g : Group} (h : Stalls k nxt m g.splits) : Stalls k nxt m g.mergeRing.splits := by
  obtain ⟨x, hx, hc, hs⟩ := h
  refine Stalls.foldl (P := Stalls k nxt m) (fun _ _ => Stalls.mergeInto) _ (.inr ⟨x, List.mem_flatMap.2 ⟨x, hx, ?_⟩, hc, hs⟩)
  simp [Group.mrParts, Split.ready, hc]

theorem Group.stalls_releaseHeld {g : Group} (h : Stalls k nxt m g.splits) : Stalls k nxt m g.releaseHeld.splits := by
  unfold Group.releaseHeld
  refine Stalls.foldl (P := fun r : Group × List Split => Stalls k nxt m r.2) (fun r s h => Stalls.append (h.imp_right fun h => ?_)) _
    (.inr h)
  obtain ⟨hc, -⟩ := stalls_singleton.1 h
  simp only [releaseOne, hc]
  exact h

theorem Group.stalls_makeCurrent {g : Group} (i : Nat) (was : Mask) (h : Stalls k nxt m g.splits) :
    Stalls k nxt m (g.makeCurrent i was).splits := by
  obtain ⟨x, hx, hs⟩ := h
  have hx : x ∈ g.splits.drop i ++ g.splits.take i := by
    rw [List.mem_append, or_comm, ← List.mem_append, List.take_append_drop]
    exact hx
  cases e : g.splits.drop i ++ g.splits.take i with
  | nil => rw [e] at hx; cases hx
  | cons z zs =>
    rw [Group.makeCurrent_eq was e]
    rw [e] at hx
    obtain rfl | hx := List.mem_cons.1 hx
    · exact ⟨_, List.mem_cons_self, hs⟩
    · exact ⟨x, List.mem_cons_of_mem _ hx, hs⟩

theorem Group.stalls_switchPoint {g : Group} (was : Mask) (h : Stalls k nxt m g.splits) :
    Stalls k nxt m (g.switchPoint was).splits := by
  unfold Group.switchPoint
  split
  · exact h
  · split
    · exact Group.stalls_makeCurrent _ was h
    · split
      · exact Group.stalls_makeCurrent 0 was h
      · exact h

theorem Group.stalls_nextCurrent {g : Group} (v : View) (b c : Bool) (h : Stalls k nxt m g.splits) :
    Stalls k nxt m (g.nextCurrent v b c).splits := by
  unfold Group.nextCurrent
  split
  · split
    · exact Group.stalls_switchPoint _ h
    · split
      · exact Group.stalls_makeCurrent _ _ h
      · exact h
  · exact h

theorem Group.dropHandler_splits (g : Group) : g.dropHandler.splits = g.splits := by
  unfold Group.dropHandler
  split
  · split <;> rfl
  · rfl

theorem Group.clearBypass_splits (g : Group) (b : Bool) : (g.clearBypass b).splits = g.splits := by
  unfold Group.clearBypass
  split <;> rfl

theorem Group.safePoint_splits (g : Group) (fits : Bool) (h : Hdr) : (g.safePoint fits h).splits = g.splits := by
  unfold Group.safePoint
  repeat' split
  all_goals rfl

/-- Retiring leaves a split that waits as the ring has placed it. -/
theorem Group.stalls_retired {g : Group} (fits : Bool) (h : Hdr) {v : View} {c : Ctl} (hr : c.ret = false)
    (hs : Stalls k nxt m (g.placePieces v c).splits) : Stalls k nxt m (g.retired fits h v c).splits := by
  rw [Group.retired, Group.safePoint_splits, Group.settleRing]
  refine Group.stalls_nextCurrent _ _ _ (Group.stalls_mergeRing ?_)
  rw [Group.dropHandler_splits, hr, Group.leaveAt, if_neg Bool.false_ne_true, Group.clearBypass_splits]
  exact Group.stalls_mergeRing (Group.stalls_releaseHeld hs)

end

/-- The running lanes of a split that waits at its instruction stand together. -/
theorem Group.stalls_placePieces {g : Group} {v : View} {k : Wait} {y : Split} {ys : List Split} (hs : g.splits = y :: ys)
    (ha : (Mask.inter v.m g.running).any = true) :
    Stalls k v.next (Mask.inter v.m g.running) (g.placePieces v { block := some k }).splits := by
  have hm : Mask.inter (Mask.diff v.m Mask.none) g.running = Mask.inter v.m g.running := Lanes.ext_get (by simp)
  unfold Group.placePieces
  simp only [hs, List.foldl_nil, hm, ha, if_true]
  exact ⟨_, List.mem_append_left _ (List.mem_append_left _ (List.mem_singleton_self _)), rfl, rfl, rfl, rfl⟩

/-- A group with its effect done waits at the instruction. -/
theorem Placed.waits {s : State} {v : View} {h : Hdr} {words : Nat} {g : Group} (hp : Placed v g) (hs : Sees (Work.start s) words v)
    (fits : Bool) (k : Wait) : GoesOrWaits v h (g.retired fits h v { block := some k }) (some k) := by
  refine ⟨?_, fun ha => ?_⟩
  · have hz : ∀ L, ({ block := some k } : Ctl).sends L = none := fun _ => rfl
    have hmr : (fun L => (g.lane L).mr) = v.mrs := funext fun L => (hp.lanes L).2.1
    have := retired_stands (h := h) (c := { block := some k }) (fits := fits) hs (fun x hx => absurd hx List.not_mem_nil)
      (fun L hL => by rw [hz] at hL; cases hL) rfl hp.splits (fun L => ⟨(hp.lanes L).1, (hp.lanes L).2.2⟩) hp.stat hp.saveReq
    simpa [WentTo, hz, hmr, hp.jmasks] using this
  · obtain ⟨x, hx, -, -⟩ := hs.split
    obtain ⟨ys, hys⟩ := List.head?_eq_some_iff.1 hx
    rw [← hp.running] at ha ⊢
    exact Group.stalls_retired fits h rfl (Group.stalls_placePieces (hp.splits.trans hys) ha)

/-! ### Images (R189, R190, R199) -/

section
variable {i : Instr} {s : State} {v : View} {h : Hdr} {need : View → Need} {body : View → Work → Done} {w : Work}
  (hi : Issues s h h.words (need v) v) (he : exec i s = issue s h need body) (hw : Readied s v (need v) w)
include hi he hw

/-- An instruction that makes a read on h0 and stays until it has come. -/
theorem started_of_read {k : TKind} {a : Nat} {ks : List Nat}
    (hb : body v ((Work.start s).issued v (need v)) =
      .ok (addTxn w (readTxn v k a ks)).2 { block := some (.txn (addTxn w (readTxn v k a ks)).1) }) :
    ∃ t g' x, exec i s = .next t ∧
      Started { s with pk := { s.pk with blocks := w.pk.blocks, seals := w.pk.seals } } v h 0 t g' x ∧ x.kind = k ∧
      x.ops = oneOp v.lead (plainOp a ks []) ∧ SameRegs v.grp g' ∧ GoesOrWaits v h g' (some (.txn s.pk.fresh)) := by
  obtain ⟨w', e, ha⟩ := addTxn_added (t := readTxn v k a ks) hw.group
  obtain ⟨x, hx, ht⟩ := ha.access
  obtain ⟨hxg, hxh, hxc, hxp, hxk, hxo, -⟩ := Txn.bare_eq hx
  obtain ⟨g, hg, hc⟩ := ha.step.group _ hw.group
  have hp := hc.placed (placed_counted s v (need v))
  have hk := hw.keeps.trans ha.step.keeps
  rw [e, hw.fresh] at hb
  rw [hw.fresh] at ht
  obtain ⟨t, fits, hrun, hmem, hneg, hpk, ho⟩ := issue_keeps hi hk hg hp hb rfl
  obtain ⟨hrest, hregs⟩ := g.retired_rest fits h v (c := { block := some (.txn s.pk.fresh) }) rfl
  obtain ⟨crest, cregs⟩ := hc.rest
  obtain ⟨e1, e2, -, -⟩ := Group.stand_eq.1 (View.counted_stand s v (need v))
  have hchains := congrArg Group.chains hrest
  have hseen := congrArg Group.chains e1
  refine ⟨t, _, x, he.trans hrun, ⟨?_, ?_, ⟨hxg, hxh, hxc, hxp⟩, ?_, ho, fun j hj => ?_, fun j hj => ?_, hmem, hneg, ?_, ?_⟩, hxk, hxo,
    Group.reg_congr (hregs.trans (cregs.trans e2)), hp.waits (viewOf_seen hi.seen) fits _⟩
  · rw [hpk]; exact FMap.find?_insert_self ..
  · rw [hpk]; exact (congrArg (FMap.find? · s.pk.fresh) ht).trans (FMap.find?_insert_self ..)
  · exact (congrArg (fun c => s.pk.fresh ∈ (FMap.getD c Chain.idle 0).hist) hchains).mpr (hw.fresh ▸ ha.last g hg)
  · rw [hpk]; exact (congrArg (FMap.find? · j) ht).trans ((FMap.find?_insert_ne hj).trans (by rw [hw.txns]))
  · exact (congrArg (FMap.getD · Chain.idle j) hchains).trans ((hc.others j hj).trans
      (congrArg (FMap.getD · Chain.idle j) hseen))
  · have hb : w'.pk.beside = { s.pk.beside with blocks := w.pk.blocks, seals := w.pk.seals } := by
      rw [ha.step.beside, ha.notes, hw.notes, hw.keeps.beside, hw.mx]; rfl
    rw [hpk]; exact hb
  · rw [hrest, crest, e1]

/-- A body that reads an image does what `LoadsImage` says. -/
theorem loadsImage_of_readImage {c : MxCmd} {a : Nat} {ps rs ks : List Nat}
    (hb : body v ((Work.start s).issued v (need v)) = readImage v c a ps rs ks w) : LoadsImage i s v h (need v) c a ps rs w ks := by
  unfold readImage at hb
  refine ⟨fun hl hn => ?_, fun ha hr => ?_⟩
  · simp only [hl, Bool.false_eq_true, if_false] at hb
    refine ⟨fun hf => ?_, fun o hf => ?_⟩
    · exact queuesAfterReads_of_readBlock hi he hw hn hb fun w' => by simp only [hf]
    · obtain ⟨w', e, -, -⟩ := readBlock_now hw.group hn
      rw [he]
      refine issue_trap hi (hb.trans (e.trans ?_))
      simp only [hf]
  · simp only [ha, if_true, hr] at hb
    exact started_of_read hi he hw hb

end

theorem loadsImage_mxld {s : State} {v : View} {f : MxldF} {ks : List Nat} {w w' : Work}
    (hi : Issues s f.h f.h.words (mxldNeed f v) v)
    (hc : mxldCheck f v ((Work.start s).issued v (mxldNeed f v)) (v.uni f.a 2) (maskNames 8 f.banks.toNat).length = (.ok ks, w))
    (ht : touchRegions w v.grp (if f.glob then [] else wsRegions w v.grp.ctx (coreDie v.grp.core) (v.uni f.a 2)
      (16384 * (maskNames 8 f.banks.toNat).length)) = .ok w') :
    LoadsImage (.mxld f) s v f.h (mxldNeed f v) (mxCmd v (.mxld f) f.gran.toNat (v.uni f.a 2) (.load [])) (v.uni f.a 2)
      (physBanks v.grp (maskNames 8 f.banks.toNat)) [] w' ks := by
  have hw := (readied_issued (viewOf_seen hi.seen) (mxldNeed f v)).translated
    ((congrArg (fun r : Chk × Work => Translated _ r.2) hc).mp (mxldCheck_translated ..))
  refine loadsImage_of_readImage (need := mxldNeed f) (body := mxldBody f) hi rfl (hw.sealed (touchRegions_sealed ht)) ?_
  unfold mxldBody
  simp only [hc, ht]

theorem loadsImage_mxrs {s : State} {v : View} {f : MxsvF} {ks : List Nat} {w : Work}
    (hi : Issues s f.h f.h.words (mxsvNeed f v) v)
    (hc : imageCheck f v ((Work.start s).issued v (mxsvNeed f v)) (v.uni f.a 2) .load = (.ok ks, w)) :
    LoadsImage (.mxrs f) s v f.h (mxsvNeed f v) (mxCmd v (.mxrs f) f.gran.toNat (v.uni f.a 2) (.load [])) (v.uni f.a 2)
      (physBanks v.grp (maskNames 8 f.banks.toNat)) (physRegions v.grp (maskNames 16 f.regions.toNat)) w ks := by
  have hw := (readied_issued (viewOf_seen hi.seen) (mxsvNeed f v)).translated
    ((congrArg (fun r : Chk × Work => Translated _ r.2) hc).mp (imageCheck_translated ..))
  refine loadsImage_of_readImage (need := mxsvNeed f) (body := mxrsBody f) hi rfl hw ?_
  unfold mxrsBody
  simp only [hc]

/-- Settles O35: all four read in their issue part, and a read that meets nothing leaves only its chain before the command is
queued; the bytes of another package are one access more, at which the split stays. -/
theorem matrixMemoryCommands : Obligations.MatrixMemoryCommands :=
  ⟨fun _ _ _ _ _ hsrc hi => queues_mxmul_mem hsrc hi, fun _ _ _ _ hi hn => queues_mxkv hi hn,
    fun _ _ _ _ _ _ hi hc ht => loadsImage_mxld hi hc ht, fun _ _ _ _ _ hi hc => loadsImage_mxrs hi hc⟩

/-! ### Entries of a block's slot (R213, R218) -/

theorem Work.updBlock_of_find {w : Work} {k : Nat} {b : Block} (F : Block → Block) (h : w.pk.blocks.find? k = some b) :
    w.updBlock k F = w.setBlock k (F b) := by
  simp [Work.updBlock, Work.setBlock, Work.mapPk, FMap.adjust_of_find F h]

/-- The entry that a lane's staged store adds. -/
def newEntry (w : Work) (g : Group) (d : Det) (L : Fin 8) (kind n atype addr : Nat) (keys : List Nat) (data : List Byte)
    (after : Release) : DetEntry :=
  ⟨BitVec.ofNat 64 addr, (g.lane L).dseq, g.gidx, L.val, kind, n, atype, entryEpoch w g d, data, keys, after.tokens, after.txns⟩

theorem detOf_eq {w : Work} {g : Group} {d : Det} : detOf w g = some d ↔ ∃ b, w.pk.blocks.find? g.blk = some b ∧ b.det = some d := by
  unfold detOf Work.block?
  cases w.pk.blocks.find? g.blk with
  | none => simp
  | some b => simp

/-- An entry for which the slot has room. -/
theorem addEntry_of_room {w : Work} {gi : Nat} {g : Group} {b : Block} {d : Det} (L : Fin 8) (kind n atype addr : Nat)
    (keys : List Nat) (data : List Byte) (after : Release) (hg : w.pk.groups.find? gi = some g)
    (hb : w.pk.blocks.find? g.blk = some b) (hd : b.det = some d) (hc : d.entries.length < detCapacity w g) :
    addEntry w gi L kind n atype addr keys data after =
      (w.setGroup gi (g.updLanes fun K l => if K = L then { l with dseq := l.dseq + 1 } else l)).setBlock g.blk
        { b with det := some { d with entries := d.entries ++ [newEntry w g d L kind n atype addr keys data after] } } := by
  unfold addEntry
  rw [Work.onGroup_of_find _ hg]
  simp only [detOf_eq.2 ⟨b, hb, hd⟩]
  rw [if_neg (Nat.not_le_of_lt hc), Work.updGroup_of_find _ hg]
  exact Work.updBlock_of_find _ hb

/-- A lane without the number of its next buffered store. -/
def Lane.unnumbered (l : Lane) : Lane := { l with dseq := 0 }

/-- From w to w' the entries es have come into the slot of the block b of group g, whose lanes have counted them. -/
structure Stages (gi : Nat) (g : Group) (b : Block) (d : Det) (es : List DetEntry) (w w' : Work) : Prop where
  wr : w'.wr = w.wr
  pk : w'.pk = { w.pk with groups := w'.pk.groups, blocks := w'.pk.blocks }
  others : ∀ j, j ≠ gi → w'.pk.groups.find? j = w.pk.groups.find? j
  group : ∃ ls, w'.pk.groups.find? gi = some { g with lanes := ls } ∧
    ∀ L, (ls.get L).unnumbered = (g.lane L).unnumbered
  blocks : ∀ j, j ≠ g.blk → w'.pk.blocks.find? j = w.pk.blocks.find? j
  block : w'.pk.blocks.find? g.blk = some { b with det := some { d with entries := d.entries ++ es } }

/-- The entries are of one kind, width and type, and of the group's open epoch. -/
def EntriesOf (w : Work) (g : Group) (d : Det) (kind n atype : Nat) (es : List DetEntry) : Prop :=
  ∀ e ∈ es, e.kind = kind ∧ e.width = n ∧ e.atype = atype ∧ e.gidx = g.gidx ∧ e.epoch = entryEpoch w g d

section
variable {w w' : Work} {gi : Nat} {g : Group} {b : Block} {d : Det} {es : List DetEntry}

theorem Stages.refl (hg : w.pk.groups.find? gi = some g) (hb : w.pk.blocks.find? g.blk = some b) (hd : b.det = some d) :
    Stages gi g b d [] w w :=
  ⟨rfl, rfl, fun _ _ => rfl, ⟨g.lanes, hg, fun _ => rfl⟩, fun _ _ => rfl, by simp [hb, ← hd]⟩

/-- One entry more. -/
theorem Stages.add (h : Stages gi g b d es w w') (hb : w.pk.blocks.find? g.blk = some b)
    (hc : d.entries.length + es.length < detCapacity w g) (L : Fin 8) (kind n atype addr : Nat) (keys : List Nat)
    (data : List Byte) (after : Release) :
    ∃ e, Stages gi g b d (es ++ [e]) w (addEntry w' gi L kind n atype addr keys data after) ∧
      (e.lane, e.addr, e.keys, e.data) = (L.val, BitVec.ofNat 64 addr, keys, data) ∧ EntriesOf w g d kind n atype [e] := by
  obtain ⟨ls, hg, hl⟩ := h.group
  have hcap : detCapacity w' { g with lanes := ls } = detCapacity w g := by
    unfold detCapacity Work.ctx?; rw [h.pk]
  have hepoch : entryEpoch w' { g with lanes := ls } { d with entries := d.entries ++ es } = entryEpoch w g d := by
    unfold entryEpoch Work.block?; rw [h.block, hb]
  refine ⟨newEntry w' { g with lanes := ls } { d with entries := d.entries ++ es } L kind n atype addr keys data after, ?_, rfl,
    fun e he => ?_⟩
  · rw [addEntry_of_room L kind n atype addr keys data after hg h.block rfl (by rw [hcap, List.length_append]; exact hc)]
    refine ⟨h.wr, ?_, fun j hj => (FMap.find?_insert_ne hj).trans (h.others j hj), ⟨_, FMap.find?_insert_self .., fun M => ?_⟩,
      fun j hj => (FMap.find?_insert_ne hj).trans (h.blocks j hj), ?_⟩
    · rw [Work.setBlock_pk, Work.setGroup_pk, h.pk]
    · rw [Lanes.get_ofFn]
      dsimp only
      split <;> exact hl M
    · rw [Work.setBlock_pk, FMap.find?_insert_self, List.append_assoc]
  · rw [List.mem_singleton] at he
    rw [he]
    exact ⟨rfl, rfl, rfl, rfl, hepoch⟩

/-- Entries of one lane, one after another, for which the slot has room. -/
theorem stages_each (hg : w.pk.groups.find? gi = some g) (hb : w.pk.blocks.find? g.blk = some b) (hd : b.det = some d)
    (L : Fin 8) (kind n atype : Nat) (addr : Nat → Nat) (keys : Nat → List Nat) (data : Nat → List Byte) (after : Release)
    (k : Nat) (hc : d.entries.length + k ≤ detCapacity w g) :
    ∃ es, Stages gi g b d es w (w.each (List.range k) fun i w =>
        addEntry w gi L kind n atype (addr i) (keys i) (data i) after) ∧ es.length = k ∧
      es.map (fun e => (e.lane, e.addr, e.keys, e.data)) =
        (List.range k).map (fun i => (L.val, BitVec.ofNat 64 (addr i), keys i, data i)) ∧ EntriesOf w g d kind n atype es := by
  induction k with
  | zero => exact ⟨[], Stages.refl hg hb hd, rfl, rfl, nofun⟩
  | succ k ih =>
    obtain ⟨es, hs, hlen, hmap, hes⟩ := ih (by omega)
    obtain ⟨e, hs', he, hof⟩ := hs.add hb (by omega) L kind n atype (addr k) (keys k) (data k) after
    refine ⟨es ++ [e], ?_, by rw [List.length_append, hlen]; rfl, ?_, ?_⟩
    · rw [Work.each, List.range_succ, List.foldl_append]
      exact hs'
    · rw [List.map_append, hmap, List.range_succ, List.map_append, List.map_singleton, List.map_singleton, he]
    · exact fun x hx => (List.mem_append.1 hx).elim (hes x) (hof x)

theorem Stages.keeps (h : Stages gi g b d es w w') : Keeps gi w w' :=
  ⟨h.wr, h.others, by rw [h.pk]; rfl⟩

end


/-! ### `mxsv` (R199, R213) -/

theorem Lane.unnumbered_eq {l l' : Lane} (h : l.unnumbered = l'.unnumbered) : l.pc = l'.pc ∧ l.mr = l'.mr ∧ l.st = l'.st ∧
    l.rest.unnumbered = l'.rest.unnumbered := by
  simp only [Lane.unnumbered, Lane.mk.injEq] at h
  simp only [Lane.unnumbered, Lane.rest, h, and_self]

section
variable {v : View} {g : Group} {ls : Lanes Lane} (hl : ∀ L, (ls.get L).unnumbered = (g.lane L).unnumbered)
include hl

theorem Placed.numbered (hp : Placed v g) : Placed v { g with lanes := ls } where
  splits := hp.splits
  jmasks := hp.jmasks
  lanes L := by
    obtain ⟨e1, e2, e3, -⟩ := Lane.unnumbered_eq (hl L)
    obtain ⟨f1, f2, f3⟩ := hp.lanes L
    exact ⟨e1.trans f1, e2.trans f2, e3.trans f3⟩
  stat := hp.stat
  saveReq := hp.saveReq

/-- A group that has numbered stores and put accesses on a chain is as it was but for these. -/
theorem sameButSeqs_of_numbered {g0 g' : Group} {h : Nat} (hrest : g'.rest = ({ g with lanes := ls } : Group).rest)
    (hregs : g'.regs = g.regs) (hc : OnlyChain h g0 g) (h0 : g0.stand = v.grp.stand) : SameButSeqs v.grp g' := by
  obtain ⟨e1, e2, -, -⟩ := Group.stand_eq.1 h0
  obtain ⟨crest, cregs⟩ := hc.rest
  have hrest : g'.rest = { g.rest with lanes := ls.map Lane.rest } :=
    hrest.trans (Group.rest_eq_setLanes fun L => (Lane.unnumbered_eq (hl L)).2.2.1)
  refine ⟨Group.reg_congr (hregs.trans (cregs.trans e2)), ?_, fun L => ?_⟩
  · rw [hrest, crest, e1]
  · have h1 : (g'.lane L).rest = (ls.get L).rest := by
      rw [← Group.rest_lanes, hrest]; exact Lanes.get_map ..
    have h2 : (g.lane L).rest = (v.grp.lane L).rest := by
      rw [← Group.rest_lanes, ← Group.rest_lanes, crest, e1]; rfl
    have h3 := (Lane.unnumbered_eq (hl L)).2.2.2
    rw [← h1, h2] at h3
    exact h3

end

/-- What the issue of a save adds to its machine, whose access has been made in w1: in a DET launch its entries. -/
def savedIn (w w1 : Work) (v : View) (a : Nat) (ks : List Nat) : Work :=
  if (detOf w v.grp).isSome then stageSave w1 v a ks else w1

/-- Only groups, blocks and matrix units differ once a save's command stands in its queue. -/
theorem beside_putSaved (w : Work) (core part : Nat) (c : MxCmd) (gs : FMap Group) :
    { ({ (putCmd w core part c).pk with groups := gs } : Package).beside with mx := [], blocks := [] } =
      { w.pk.beside with mx := [], blocks := [] } := by
  simp only [Package.beside, putCmd, setMx, Work.mapPk]

/-- The access of a save. -/
def saveTxn (w : Work) (v : View) (a : Nat) (ks : List Nat) : Txn :=
  { mkTxn v 0 .sys .plain .mx (oneOp v.lead (plainOp a ks [])) with staged := stagedBlk w v.grp }

/-- The entries of a save, from its address and the bytes it reaches. -/
def saveParts32 (a : Nat) (ks : List Nat) : List (Nat × W64 × List Nat × List Byte) :=
  (List.range (ks.length / 32)).map fun i => (0, BitVec.ofNat 64 ((a + 32 * i) % 2 ^ 64), (ks.drop (32 * i)).take 32, [])

/-- A group that has only been counted, and has put accesses on a chain, is seen as it was in the fields that entries take. -/
theorem OnlyChain.seen {s : State} {v : View} {n : Need} {h : Nat} {g : Group} (hc : OnlyChain h (v.counted s n) g) :
    g.blk = v.grp.blk ∧ g.gidx = v.grp.gidx ∧ g.arr = v.grp.arr ∧ g.ctx = v.grp.ctx := by
  have hr : g.rest = { v.grp.rest with chains := g.chains } :=
    hc.rest.1.trans (congrArg (fun x : Group => { x with chains := g.chains }) (Group.stand_eq.1 (View.counted_stand s v n)).1)
  have h1 := congrArg Group.blk hr
  have h2 := congrArg Group.gidx hr
  have h3 := congrArg Group.arr hr
  have h4 := congrArg Group.ctx hr
  exact ⟨h1, h2, h3, h4⟩

section
variable {s : State} {v : View} {n : Need} {w w1 : Work} {g : Group} {a : Nat} {ks : List Nat}
  (hs : ChainStep v.g 0 w w1) (hb : w.pk.blocks = s.pk.blocks) (hg : w1.pk.groups.find? v.g = some g)
  (hc : OnlyChain 0 (v.counted s n) g)
  (hcap : ∀ d, detOf w v.grp = some d → d.entries.length + ks.length / 32 ≤ detCapacity w v.grp)
include hs hb hg hc hcap

/-- The entries of a save stand in its block's slot, and its group's lane has numbered them. -/
theorem savedIn_stages : ∃ ls, (∀ L, (ls.get L).unnumbered = (g.lane L).unnumbered) ∧
    (savedIn w w1 v a ks).pk.groups.find? v.g = some { g with lanes := ls } ∧ Keeps v.g w1 (savedIn w w1 v a ks) ∧
    (savedIn w w1 v a ks).pk = { w1.pk with
      groups := (savedIn w w1 v a ks).pk.groups, blocks := (savedIn w w1 v a ks).pk.blocks } ∧
    ∀ t : State, t.pk.blocks = (savedIn w w1 v a ks).pk.blocks → Buffered s t v 0 32 0 (saveParts32 a ks) := by
  obtain ⟨eblk, egidx, earr, ectx⟩ := hc.seen
  have hb1 : w1.pk.blocks = s.pk.blocks := hs.blocks.trans hb
  unfold savedIn
  cases hd : detOf w v.grp with
  | none =>
    refine ⟨g.lanes, fun _ => rfl, hg, (ChainStep.refl v.g 0 w1).keeps, rfl, fun t _ b d hfb hbd => ?_⟩
    cases hd.symm.trans (detOf_eq.2 ⟨b, hb.symm ▸ hfb, hbd⟩)
  | some d =>
    obtain ⟨b, hfb, hbd⟩ := detOf_eq.1 hd
    rw [hb] at hfb
    have hcap1 : detCapacity w1 g = detCapacity w v.grp := by
      unfold detCapacity Work.ctx?; rw [hs.ctxs, ectx]
    have hepoch : entryEpoch w1 g d = entryEpoch (Work.start s) v.grp d := by
      unfold entryEpoch Work.block?; rw [hb1, eblk, earr]; rfl
    obtain ⟨es, hst, -, hmap, hes⟩ := stages_each hg (by rw [hb1, eblk]; exact hfb) hbd 0 0 32 0 (fun i => (a + 32 * i) % 2 ^ 64)
      (fun i => (ks.drop (32 * i)).take 32) (fun _ => []) ⟨[], []⟩ (ks.length / 32) (by rw [hcap1]; exact hcap d hd)
    obtain ⟨ls, hg2, hl⟩ := hst.group
    refine ⟨ls, hl, hg2, hst.keeps, hst.pk, fun t ht b' d' hfb' hbd' => ?_⟩
    cases hfb.symm.trans hfb'
    cases hbd.symm.trans hbd'
    refine ⟨fun j hj => ?_, es, ?_, hmap, fun e he => ?_⟩
    · rw [ht]
      exact (hst.blocks j (by rwa [eblk])).trans (congrArg (FMap.find? · j) hb1)
    · rw [ht, ← eblk]
      exact hst.block
    · rw [← egidx, ← hepoch]
      exact hes e he

end

section
variable {s : State} {v : View} {f : MxsvF} {ks : List Nat} {w : Work}
  (hi : Issues s f.h f.h.words (mxsvNeed f v) v)
  (hc : imageCheck f v ((Work.start s).issued v (mxsvNeed f v)) (v.uni f.a 2) .store = (.ok ks, w))
  (hr : roomWait w.pk v 0 = none)
include hc hr

theorem mxsvBody_of_checked : mxsvBody f v ((Work.start s).issued v (mxsvNeed f v)) =
    enqueueMx v (mxCmd v (.mxsv f) f.gran.toNat (v.uni f.a 2)
      (.save (physBanks v.grp (maskNames 8 f.banks.toNat)) (physRegions v.grp (maskNames 16 f.regions.toNat))
        (addTxn w (saveTxn w v (v.uni f.a 2) ks)).1))
      (savedIn w (addTxn w (saveTxn w v (v.uni f.a 2) ks)).2 v (v.uni f.a 2) ks) := by
  have ht : Translated ((Work.start s).issued v (mxsvNeed f v)) w :=
    (congrArg (fun r : Chk × Work => Translated _ r.2) hc).mp (imageCheck_translated ..)
  rw [ht.roomWait] at hr
  unfold mxsvBody
  simp only [hc, hr]
  rfl

include hi

/-- A save's access stands in the table and on the chain, its entries in the slot, and its command in the queue. -/
theorem mxsv_saves (hcap : ∀ d, detOf w v.grp = some d → d.entries.length + ks.length / 32 ≤ detCapacity w v.grp) :
    let c := mxCmd v (.mxsv f) f.gran.toNat (v.uni f.a 2)
      (.save (physBanks v.grp (maskNames 8 f.banks.toNat)) (physRegions v.grp (maskNames 16 f.regions.toNat)) s.pk.fresh)
    (unitRoom s v → ∃ t g' x, Completed (.mxsv f) s v f.h t g' ∧ t.mem = s.mem ∧ SameButSeqs v.grp g' ∧
        t.pk.txns.find? s.pk.fresh = some x ∧ x.kind = .mx ∧ x.ops = oneOp v.lead (plainOp (v.uni f.a 2) ks []) ∧
        x.staged = stagedBlk w v.grp ∧ (∀ j, j ≠ s.pk.fresh → t.pk.txns.find? j = s.pk.txns.find? j) ∧ Enters s v t c ∧
        { t.pk.beside with mx := [], blocks := [] } = { s.pk.beside with mx := [], blocks := [] } ∧
        Buffered s t v 0 32 0 (saveParts32 (v.uni f.a 2) ks)) ∧
      (¬unitRoom s v → WaitsForUnit (.mxsv f) s v) := by
  intro c
  have ht : Translated ((Work.start s).issued v (mxsvNeed f v)) w :=
    (congrArg (fun r : Chk × Work => Translated _ r.2) hc).mp (imageCheck_translated ..)
  have hs := viewOf_seen hi.seen
  have hw := (readied_issued hs (mxsvNeed f v)).translated ht
  have hpk0 := issued_pk hs (mxsvNeed f v)
  have hblocks0 := congrArg Package.blocks hpk0
  have hseals0 := congrArg Package.seals hpk0
  have hblocks : w.pk.blocks = s.pk.blocks := (congrArg (fun x : Work => x.pk.blocks) ht).trans hblocks0
  have hseals : w.pk.seals = s.pk.seals := (congrArg (fun x : Work => x.pk.seals) ht).trans hseals0
  obtain ⟨w1, e, ha⟩ := addTxn_added (t := saveTxn w v (v.uni f.a 2) ks) hw.group
  obtain ⟨x, hx, htx⟩ := ha.access
  obtain ⟨-, -, -, -, hxk, hxo, hxs⟩ := Txn.bare_eq hx
  obtain ⟨g, hg, hoc⟩ := ha.step.group _ hw.group
  obtain ⟨ls, hl, hg2, hk2, hpk2, hbuf⟩ := savedIn_stages (a := v.uni f.a 2) ha.step hblocks hg hoc hcap
  have hb := mxsvBody_of_checked hc hr
  rw [e, hw.fresh] at hb
  have hm : (savedIn w w1 v (v.uni f.a 2) ks).pk.mx = s.pk.mx := by rw [hpk2]; exact ha.step.mx.trans hw.mx
  refine ⟨fun hroom => ?_, waitsForUnit_of_full (body := mxsvBody f) hi rfl hm hb⟩
  have hk := ((hw.keeps.trans ha.step.keeps).trans hk2).trans (keeps_putCmd v.g _ v.grp.core v.grp.part c)
  obtain ⟨t, g', hcomp, hmem, hrest, hregs, hpk⟩ := completed_of_keeps (i := .mxsv f) (body := mxsvBody f) hi hk hg2
    (Placed.numbered hl (hoc.placed (placed_counted ..))) rfl (hb.trans (enqueueMx_of_room hm c hroom))
  have htxns : t.pk.txns = s.pk.txns.insert s.pk.fresh x := by
    rw [hpk]
    refine (congrArg Package.txns hpk2).trans ?_
    rw [← hw.fresh, ← hw.txns]; exact htx
  refine ⟨t, g', x, hcomp, hmem, sameButSeqs_of_numbered hl hrest hregs hoc (View.counted_stand s v _), ?_, hxk, hxo, hxs,
    fun j hj => ?_, enters_putCmd hm c (by rw [hpk]), ?_, hbuf t (by rw [hpk]; rfl)⟩
  · rw [htxns, FMap.find?_insert_self]
  · rw [htxns, FMap.find?_insert_ne hj]
  · have hb1 : w1.pk.beside = { s.pk.beside with blocks := w.pk.blocks } := by
      rw [ha.step.beside, ha.notes, hw.notes, hw.keeps.beside, hw.mx, hseals]; rfl
    rw [hpk]
    refine (beside_putSaved ..).trans ?_
    rw [hpk2]
    exact congrArg (fun p : Package => { p with mx := [], blocks := [] }) hb1

end

/-- `mxq` writes its status once for the group. -/
theorem scalarResult_mxq {s : State} {v : View} {f : SdstF} (hi : Issues s f.h f.h.words {} v) :
    ScalarResult (.mxq f) s v f.h f.d (mxStatus (mxUnit s.pk v.grp.core v.grp.part) v.grp v.g) := by
  have hm (w : Work) (hw : w.pk = ((Work.start s).issued v {}).pk) :
      mxUnit w.pk v.grp.core v.grp.part = mxUnit s.pk v.grp.core v.grp.part :=
    mxUnit_congr ((congrArg Package.mx hw).trans (readied_issued (viewOf_seen hi.seen) {}).mx) ..
  unfold ScalarResult
  by_cases ha : v.act.any = true
  · rw [if_pos ha]
    refine issue_onRest (need := fun _ => {}) (body := mxqBody f) (c := {}) (local_setSreg f.d.toNat _) (onRest_setSreg ..) hi
      rfl rfl rfl fun w hw => ?_
    unfold mxqBody once
    rw [if_pos ha, ← hm w hw]
    rfl
  · rw [if_neg ha]
    refine issue_nothing (need := fun _ => {}) (body := mxqBody f) (c := {}) hi rfl rfl rfl fun w _ => ?_
    unfold mxqBody once
    rw [if_neg ha]
    rfl

theorem matrixSaveAndStatus : Sys2Proof.Part.MatrixSaveAndStatus :=
  ⟨fun _ _ _ _ _ hi hc hr => ⟨fun hroom hcap => (mxsv_saves hi hc hr hcap).1 hroom,
    fun hfull hcap => (mxsv_saves hi hc hr hcap).2 hfull⟩, fun _ _ _ hi => scalarResult_mxq hi⟩

/-- Settles O36: a region's command is queued as it stands, and a save's after its access and the entries of that access. -/
theorem matrixRegionsAndSaves : Obligations.MatrixRegionsAndSaves := ⟨matrixRegionCommands, matrixSaveAndStatus⟩

end Sys2Proof.Machine
end

section
/-!
PROOFS. Flush points and the core's record cache (R217 to R221, R260). `aflush`: the arrival of a block's only group changes its
arrivals, the numbers of its lanes' entries and its chains; it completes the phase, which seals the epoch and writes the header of
the block's slot. An arrival changes groups and blocks before that write, so the one idea is that a check of addresses looks at
neither (`Work.withTables`): the header's bytes stand where the machine before the arrival finds them. `frec` starts one access.
-/
namespace Sys2Proof

theorem FMap.find?_mapVals {α β : Type} (m : FMap α) (f : Nat → α → β) (k : Nat) :
    FMap.find? (FMap.mapVals m f) k = (FMap.find? m k).map (f k) := by
  induction m with
  | nil => rfl
  | cons e m ih =>
    obtain ⟨j, x⟩ := e
    change (if k = j then some (f j x) else FMap.find? (FMap.mapVals m f) k) = _
    rw [ih, FMap.find?]
    split
    · next h => rw [h]; rfl
    · rfl

end Sys2Proof

namespace Sys2Proof.Machine

/-! ### Checks in a machine with other groups and blocks -/

/-- The machine with other groups and blocks. -/
def Work.withTables (w : Work) (gs : FMap Group) (bs : FMap Block) : Work :=
  { w with pk := { w.pk with groups := gs, blocks := bs } }

section
variable (w : Work) (gs : FMap Group) (bs : FMap Block)

theorem walkFrom_withTables (va level ppn : Nat) : walkFrom (w.withTables gs bs) va level ppn = walkFrom w va level ppn := by
  have hnum : (w.withTables gs bs).num = w.num := rfl
  induction level generalizing ppn with
  | zero => rfl
  | succ level ih => simp only [walkFrom, hnum, ih]

/-- A translation looks at neither table. -/
theorem xlate_withTables (cn : Nat) (a : Acc) (va n : Nat) :
    xlate (w.withTables gs bs) cn a va n = ((xlate w cn a va n).1, (xlate w cn a va n).2.withTables gs bs) := by
  have hwalk (c : Ctx) (x : Nat) : walk (w.withTables gs bs) c x = walk w c x := walkFrom_withTables ..
  have hctx : (w.withTables gs bs).ctx? cn = w.ctx? cn := rfl
  have hfind (c : Ctx) (x : Nat) : tlbFind (w.withTables gs bs).pk cn c x = tlbFind w.pk cn c x := rfl
  have hfree : (w.withTables gs bs).pk.free = w.pk.free := rfl
  have hfill (w : Work) (p : Prop) [Decidable p] (c : Ctx) (x : Nat) (l : Leaf) :
      (if p then (w.withTables gs bs).mapPk (fun q => tlbFill q cn c x l) else w.withTables gs bs) =
        (if p then w.mapPk (fun q => tlbFill q cn c x l) else w).withTables gs bs := by
    unfold tlbFill Work.mapPk Work.withTables
    split
    · dsimp only; split <;> rfl
    · rfl
  have hused (p : Prop) [Decidable p] :
      (if p then w.withTables gs bs else (w.withTables gs bs).mapPk fun q => { q with free := q.free + 1 }) =
        (if p then w else w.mapPk fun q => { q with free := q.free + 1 }).withTables gs bs := by
    split <;> rfl
  have hleaf (w : Work) (c : Ctx) (l : Leaf) (x : Nat) :
      leafCheck (w.withTables gs bs).pk c a l x n = leafCheck w.pk c a l x n := rfl
  unfold xlate
  rw [hctx]
  split
  · rfl
  · simp only [hwalk, hfind, hfree, hused, hleaf, hfill]
    split
    · rfl
    · split <;> rfl

theorem chkGlobal_withTables (cn : Nat) (a : Acc) (va n al : Nat) :
    chkGlobal (w.withTables gs bs) cn a va n al =
      ((chkGlobal w cn a va n al).1, (chkGlobal w cn a va n al).2.withTables gs bs) := by
  unfold chkGlobal
  split
  · rfl
  · rw [xlate_withTables]

/-- One page of a range is checked after those before it. -/
def chkPiece (cn : Nat) (a : Acc) (r : Chk × Work) (c : Nat × Nat) : Chk × Work :=
  match r.1 with
  | .ok ks =>
    let (x, w) := chkGlobal r.2 cn a c.1 c.2 1
    ((Chk.ok ks).andThen x, w)
  | _ => r

theorem chkPiece_withTables (cn : Nat) (a : Acc) (r : Chk × Work) (c : Nat × Nat) :
    chkPiece cn a (r.1, r.2.withTables gs bs) c = ((chkPiece cn a r c).1, (chkPiece cn a r c).2.withTables gs bs) := by
  unfold chkPiece
  dsimp only
  split
  · rw [chkGlobal_withTables]
  · rfl

theorem chkRange_eq (cn : Nat) (a : Acc) (va n : Nat) :
    chkRange w cn a va n = (pagePieces va n).foldl (chkPiece cn a) (.ok [], w) := rfl

/-- The keys of a range are the same. -/
theorem chkRange_withTables (cn : Nat) (a : Acc) (va n : Nat) :
    chkRange (w.withTables gs bs) cn a va n = ((chkRange w cn a va n).1, (chkRange w cn a va n).2.withTables gs bs) := by
  rw [chkRange_eq, chkRange_eq]
  suffices ∀ (l : List (Nat × Nat)) (r : Chk × Work),
      l.foldl (chkPiece cn a) (r.1, r.2.withTables gs bs) =
        ((l.foldl (chkPiece cn a) r).1, (l.foldl (chkPiece cn a) r).2.withTables gs bs) from this _ (_, w)
  intro l
  induction l with
  | nil => exact fun _ => rfl
  | cons x l ih =>
    intro r
    rw [List.foldl_cons, List.foldl_cons, ← ih, chkPiece_withTables]

/-- The keys alone, which a rewrite can use without comparing the machines that the two checks leave. -/
theorem chkRange_withTables_fst (cn : Nat) (a : Acc) (va n : Nat) :
    (chkRange (w.withTables gs bs) cn a va n).1 = (chkRange w cn a va n).1 := by
  have key {x y : Chk × Work} {z : Work} (h : x = (y.1, z)) : x.1 = y.1 := by rw [h]
  exact key (chkRange_withTables ..)

theorem chkPiece_translated (cn : Nat) (a : Acc) (r : Chk × Work) (c : Nat × Nat) :
    Translated r.2 (chkPiece cn a r c).2 := by
  unfold chkPiece
  split
  · exact chkGlobal_translated ..
  · rfl

theorem chkRange_translated (cn : Nat) (a : Acc) (va n : Nat) : Translated w (chkRange w cn a va n).2 := by
  rw [chkRange_eq]
  suffices ∀ (l : List (Nat × Nat)) (r : Chk × Work), Translated r.2 (l.foldl (chkPiece cn a) r).2 from this _ (_, w)
  intro l
  induction l with
  | nil => exact fun _ => rfl
  | cons x l ih => exact fun r => (chkPiece_translated cn a r x).trans (ih _)

end

/-! ### Writes, and the header of a block's slot (R217) -/

theorem Translated.puts_wr {w w' : Work} (h : Translated w w') (ks : List Nat) (bs : List Byte) :
    (w'.puts ks bs).wr = (w.puts ks bs).wr := by
  unfold Translated at h
  rw [h]
  rfl

theorem Work.setGroup_setBlock (w : Work) (gi u : Nat) (g : Group) (b : Block) :
    (w.setGroup gi g).setBlock u b = w.withTables (w.pk.groups.insert gi g) (w.pk.blocks.insert u b) := rfl

theorem Work.puts_withTables_wr (w : Work) (gs : FMap Group) (bs : FMap Block) (ks : List Nat) (l : List Byte) :
    ((w.withTables gs bs).puts ks l).wr = (w.puts ks l).wr := rfl

/-- A step whose writes are these bytes at these keys. -/
theorem wroteBytes_of_wr {s t : State} {ks : List Nat} {bs : List Byte}
    (ht : t.mem = Mem.writes s.mem ((Work.start s).puts ks bs).wr.reverse) : WroteBytes s t ks bs := by
  refine ⟨ht, fun k hk => ?_⟩
  have hnone : ((Work.start s).puts ks bs).wr.find? (fun c => c.1 == k) = none := by
    rw [List.find?_eq_none]
    intro c hc hck
    simp only [Work.puts, Work.start_wr, List.append_nil, List.mem_reverse, List.mem_map] at hc
    obtain ⟨x, hx, rfl⟩ := hc
    exact hk (beq_iff_eq.1 hck ▸ List.mem_map_of_mem (List.of_mem_zip hx).1)
  rw [ht, Mem.byte_writes, List.reverse_reverse, hnone]
  rfl

/-- A block's DET state but for what the block sees of its own stores. -/
def Det.sansOwn (d : Det) : Det := { d with own := [] }

/-- A write takes its bytes out of what a DET block sees of its own stores, and leaves the rest of the block. -/
theorem Work.overwriteOwn_block {w : Work} {u : Nat} {b : Block} {d : Det} (ks : List Nat)
    (hb : w.pk.blocks.find? u = some b) (hd : b.det = some d) :
    ∃ d', (w.overwriteOwn ks).pk.blocks.find? u = some { b with det := some d' } ∧ d'.sansOwn = d.sansOwn := by
  unfold Work.overwriteOwn
  dsimp only
  split
  · refine ⟨d.overwrite ks, ?_, rfl⟩
    rw [Work.mapPk_pk, FMap.find?_mapVals, hb, Option.map_some, hd, Option.map_some]
  · exact ⟨d, by rw [hb, ← hd], rfl⟩

theorem Work.write_blocks (w : Work) (ks : List Nat) (bs : List Byte) :
    (w.write ks bs).pk.blocks = (w.overwriteOwn ks).pk.blocks := by
  have hends : (w.endSequences ks).pk.blocks = w.pk.blocks := by
    unfold Work.endSequences; split <;> rfl
  have hmend (w : Work) : (w.mendUnits ks).pk.blocks = w.pk.blocks := by
    unfold Work.mendUnits; split <;> rfl
  have hline (w : Work) : (w.noteLine ks).pk.blocks = w.pk.blocks := by
    unfold Work.noteLine; dsimp only; split <;> rfl
  have hown {w w' : Work} (h : w'.pk.blocks = w.pk.blocks) : (w'.overwriteOwn ks).pk.blocks = (w.overwriteOwn ks).pk.blocks := by
    unfold Work.overwriteOwn
    rw [h]
    dsimp only
    split
    · rw [Work.mapPk_pk, Work.mapPk_pk]; dsimp only; rw [h]
    · exact h
  rw [Work.write, Work.place, Work.puts_pk, hline]
  exact hown ((hmend _).trans hends)

/-- Bytes written through a context's tables, or the check that keeps them from being written. -/
theorem writeVirt_cases (w : Work) (cn va : Nat) (bs : List Byte) :
    (∃ ks w', chkRange w cn .store va bs.length = (.ok ks, w') ∧ writeVirt w cn va bs = some (w'.write ks bs)) ∨
    (writeVirt w cn va bs = none ∧ ∀ ks, (chkRange w cn .store va bs.length).1 ≠ .ok ks) := by
  unfold writeVirt
  split
  · next ks w' hr => exact .inl ⟨ks, w', hr, rfl⟩
  · next hno => exact .inr ⟨rfl, fun ks hk => hno ks _ (Prod.ext hk rfl)⟩

theorem length_valBytes (n v : Nat) : (valBytes n v).length = n := by
  induction n generalizing v with
  | zero => rfl
  | succ n ih => exact congrArg (· + 1) (ih _)

theorem length_slotState (p : Package) (b : Block) (d : Det) : (slotState p b d).length = 8 := by
  simp only [slotState, List.length_append, length_valBytes]

/-- The header's write leaves the groups, and of the block's DET state only what it sees of its own stores can differ; the
state's bytes stand at the header's keys, where the tables of the block's context give them. -/
structure SlotPut (u : Nat) (b : Block) (d : Det) (w w' : Work) : Prop where
  groups : w'.pk.groups = w.pk.groups
  block : ∃ d', w'.pk.blocks.find? u = some { b with det := some d' } ∧ d'.sansOwn = d.sansOwn
  wr : ∀ c ks, w.pk.ctxs.find? b.ctx = some c → (chkRange w b.ctx .store (slotVa c d.slot + 8) 8).1 = .ok ks →
    w'.wr = (w.puts ks (slotState w.pk b d)).wr

section
variable {w : Work} {u : Nat} {b : Block} {d : Det} (hb : w.pk.blocks.find? u = some b) (hd : b.det = some d)
include hb hd

theorem putSlot_of_none (hc : w.pk.ctxs.find? b.ctx = none) : putSlot w u = w := by
  simp only [putSlot, Work.onBlock, Work.block?, hb, hd, Work.ctx?, hc]

theorem putSlot_of_ctx {c : Ctx} (hc : w.pk.ctxs.find? b.ctx = some c) :
    putSlot w u = (writeVirt w b.ctx (slotVa c d.slot + 8) (slotState w.pk b d)).getD w := by
  simp only [putSlot, Work.onBlock, Work.block?, hb, hd, Work.ctx?, hc]

theorem SlotPut.refl (h : ∀ c ks, w.pk.ctxs.find? b.ctx = some c →
    (chkRange w b.ctx .store (slotVa c d.slot + 8) 8).1 ≠ .ok ks) : SlotPut u b d w w :=
  ⟨rfl, ⟨d, by rw [hb, ← hd], rfl⟩, fun c ks hc hk => absurd hk (h c ks hc)⟩

theorem putSlot_put : SlotPut u b d w (putSlot w u) := by
  cases hc : w.pk.ctxs.find? b.ctx with
  | none =>
    rw [putSlot_of_none hb hd hc]
    exact SlotPut.refl hb hd fun c ks h => by rw [hc] at h; cases h
  | some c =>
    have ht := chkRange_translated w b.ctx .store (slotVa c d.slot + 8) 8
    rw [putSlot_of_ctx hb hd hc]
    obtain ⟨ks, w', hr, e⟩ | ⟨e, hno⟩ := writeVirt_cases w b.ctx (slotVa c d.slot + 8) (slotState w.pk b d)
    · rw [length_slotState] at hr
      rw [hr] at ht
      have hpk : w'.pk = { w.pk with tlb := w'.pk.tlb, free := w'.pk.free } := congrArg Work.pk ht
      rw [e, Option.getD_some]
      refine ⟨by rw [Work.write_groups, hpk], ?_, fun c' ks' hc' hk => ?_⟩
      · rw [Work.write_blocks]
        exact Work.overwriteOwn_block ks (by rw [hpk]; exact hb) hd
      · cases hc.symm.trans hc'
        rw [hr] at hk
        cases hk
        rw [Work.write_wr, ht.puts_wr]
    · rw [length_slotState] at hno
      rw [e, Option.getD_none]
      refine SlotPut.refl hb hd fun c' ks h => ?_
      cases hc.symm.trans h
      exact hno ks

end

/-! ### The arrival that completes a flush point (R221) -/

theorem Work.setGroup_of_groups {w : Work} {m : FMap Group} {gi : Nat} {x : Group} (h : w.pk.groups = m.insert gi x) :
    w.setGroup gi x = w := by
  simp only [Work.setGroup, Work.mapPk, h, FMap.insert_insert]
  rw [← h]

theorem Work.setBlock_setBlock (w : Work) (u : Nat) (b b' : Block) : (w.setBlock u b).setBlock u b' = w.setBlock u b' := by
  simp [Work.setBlock, Work.mapPk]

theorem leastArrival_single {p : Package} {gi : Nat} {g : Group} (n : Nat) (h : p.groups.find? gi = some g) :
    leastArrival p [gi] n = some (g.arr.getD 0 n) := by
  simp [leastArrival, h]

/-- The DET state once the open epoch is sealed and the next is open. -/
def Det.sealOpen (d : Det) : Det := { d with opened := d.opened + 1, sealed := d.sealed + 1 }

theorem Det.sealOpen_slot (d : Det) : d.sealOpen.slot = d.slot := rfl

/-- The block with k phases of its flush point complete, its debts, and its open epoch sealed. -/
def Block.flushed (b : Block) (d : Det) (k : Nat) (ds : List Debt) : Block :=
  { b with phases := b.phases.put 0 16 k, det := some d.sealOpen, debts := ds }

theorem slotState_withTables (w : Work) (gs : FMap Group) (bs : FMap Block) (b : Block) (d : Det) :
    slotState (w.withTables gs bs).pk b d = slotState w.pk b d := rfl

theorem slotState_flushed (p : Package) (b : Block) (d x : Det) (k : Nat) (ds : List Debt) :
    slotState p (b.flushed d k ds) x = slotState p b x := rfl

theorem Block.flushed_ctx (b : Block) (d : Det) (k : Nat) (ds : List Debt) : (b.flushed d k ds).ctx = b.ctx := rfl

/-- A flush point of a block with one group is complete once that group has arrived. -/
theorem completePhases_flush {w : Work} {u gi : Nat} {g : Group} {b : Block} {d : Det} (hg : w.pk.groups.find? gi = some g)
    (hb : w.pk.blocks.find? u = some b) (hs : b.groups = [gi]) (hd : b.det = some d)
    (hk : b.phases.getD 0 16 < g.arr.getD 0 16) :
    completePhases w u 16 = putSlot (w.setBlock u (b.flushed d (g.arr.getD 0 16) b.debts)) u := by
  have hmost : (b.groups.filterMap fun i => (w.pk.groups.find? i).map fun g => g.arr.getD 0 16).max? =
      some (g.arr.getD 0 16) := by
    simp [hs, hg]
  have hphases : (w.updBlock u fun b => { b with phases := b.phases.put 0 16 (g.arr.getD 0 16) }).pk.blocks.find? u =
      some { b with phases := b.phases.put 0 16 (g.arr.getD 0 16) } := FMap.find?_adjust_self hb
  unfold completePhases Work.onBlock Work.block?
  simp only [hb, hmost]
  rw [hs, leastArrival_single 16 hg]
  simp only [Option.getD_some, hk, true_and, or_true, if_true]
  unfold sealEpoch
  rw [Work.updBlock_of_find _ hphases, Work.updBlock_of_find _ hb]
  simp [Work.setBlock, Work.mapPk, Block.flushed, hd, Det.sealOpen]

theorem Group.foldl_chains {α : Type} {f : Group → α → Group} (hf : ∀ g a, ∃ c, f g a = { g with chains := c })
    (l : List α) (g : Group) : ∃ c, l.foldl f g = { g with chains := c } := by
  induction l generalizing g with
  | nil => exact ⟨g.chains, rfl⟩
  | cons a l ih =>
    obtain ⟨c, e⟩ := hf g a
    obtain ⟨c', e'⟩ := ih (f g a)
    exact ⟨c', by rw [List.foldl_cons, e', e]⟩

/-- A barrier's arrival joins the accesses into the chains alone. -/
theorem fenceChains_none (w : Work) (gi : Nat) (x : Group) :
    ∃ cs, fenceChains (w.setGroup gi x) gi none = w.setGroup gi { x with chains := cs } := by
  have hx : (w.setGroup gi x).pk.groups.find? gi = some x := FMap.find?_insert_self ..
  have hset {f : Group → Nat → Group} (hf : ∀ g a, ∃ c, f g a = { g with chains := c }) (l : List Nat) :
      ∃ cs, (w.setGroup gi x).setGroup gi (l.foldl f x) = w.setGroup gi { x with chains := cs } := by
    obtain ⟨c, e⟩ := Group.foldl_chains hf l x
    exact ⟨c, by rw [e]; simp [Work.setGroup, Work.mapPk]⟩
  unfold fenceChains
  dsimp only
  rw [Work.updGroup_of_find _ hx]
  refine hset (fun g h => ?_) _
  split
  · exact ⟨g.chains, rfl⟩
  · exact ⟨_, rfl⟩

/-- The group after an arrival at a flush point that restarts the numbers of its lanes' entries. -/
def Group.atFlush (g : Group) (cs : FMap Chain) : Group :=
  { g.updLanes (fun _ l => { l with dseq := 0 }) with arr := g.arr.put 0 16 (g.arr.getD 0 16 + 1), chains := cs }

/-- An arrival that no group of the block has made before it. -/
theorem arriveAt_flush {w : Work} {gi : Nat} {g : Group} {b : Block} (hg : w.pk.groups.find? gi = some g)
    (hb : w.pk.blocks.find? g.blk = some b) (hk : b.phases.getD 0 16 = g.arr.getD 0 16) :
    ∃ cs ds, arriveAt w gi 16 = (g.arr.getD 0 16 % 2 ^ 16,
      completePhases ((w.setGroup gi (g.atFlush cs)).setBlock g.blk { b with debts := ds }) g.blk 16) := by
  have hdone : (barrierOf w.pk g 16).done = g.arr.getD 0 16 := by
    simp only [barrierOf, hb, ← hk]
    rfl
  unfold arriveAt Work.group?
  simp only [hg, hdone, and_self, if_true, Nat.reduceEqDiff, if_false]
  rw [Work.updGroup_updGroup, Work.updGroup_of_find _ hg]
  obtain ⟨cs, e⟩ := fenceChains_none w gi (g.atFlush g.chains)
  have hb' (x : Group) : (w.setGroup gi x).pk.blocks.find? g.blk = some b := hb
  change ∃ cs ds, (_, completePhases ((fenceChains (w.setGroup gi (g.atFlush g.chains)) gi none).updBlock g.blk _) g.blk 16) = _
  rw [e, Work.updBlock_of_find _ (hb' _)]
  exact ⟨cs, _, rfl⟩

/-- The arrival of a block's only group completes the flush point. -/
theorem arriveAt_last {w : Work} {gi : Nat} {g : Group} {b : Block} {d : Det} (hg : w.pk.groups.find? gi = some g)
    (hb : w.pk.blocks.find? g.blk = some b) (hs : b.groups = [gi]) (hd : b.det = some d)
    (hk : b.phases.getD 0 16 = g.arr.getD 0 16) :
    ∃ cs ds, arriveAt w gi 16 = (g.arr.getD 0 16 % 2 ^ 16, putSlot ((w.setGroup gi (g.atFlush cs)).setBlock g.blk
      (b.flushed d (g.arr.getD 0 16 + 1) ds)) g.blk) := by
  obtain ⟨cs, ds, e⟩ := arriveAt_flush hg hb hk
  have harr : (g.atFlush cs).arr.getD 0 16 = g.arr.getD 0 16 + 1 := by rw [Group.atFlush, FMap.getD_put, if_pos rfl]
  have hdone := completePhases_flush (w := (w.setGroup gi (g.atFlush cs)).setBlock g.blk { b with debts := ds }) (u := g.blk)
    (FMap.find?_insert_self ..) (FMap.find?_insert_self ..) hs hd (by rw [harr]; exact hk ▸ Nat.lt_succ_self _)
  refine ⟨cs, ds, e.trans (congrArg _ (hdone.trans ?_))⟩
  rw [harr, Work.setBlock_setBlock]
  rfl

theorem phasePassed_succ (k : Nat) : phasePassed (k + 1) (k % 2 ^ 16) = true := by
  simp only [phasePassed, decide_eq_true_eq]
  omega

theorem barrierPassed_of_block {p : Package} {g : Group} {b : Block} {n : Nat} (hb : p.blocks.find? g.blk = some b)
    (hn : n ≠ 17) (k : Nat) : barrierPassed p g n k = phasePassed (b.phases.getD 0 n) k := by
  unfold barrierPassed barrierOf
  simp only [hb, hn, if_false]

theorem checkEpochs_of_few {w : Work} {u : Nat} {b : Block} {d : Det} (hb : w.pk.blocks.find? u = some b) (hd : b.det = some d)
    (h : d.opened < 65536) : checkEpochs w u = w := by
  unfold checkEpochs Work.onBlock Work.block?
  simp only [hb, hd]
  rw [if_neg fun hx => Nat.not_le_of_lt h hx.1]

/-- An arrival that ends its own wait follows what the arrivals of the phase have released. -/
theorem arriveAndWait_of_passed {w w1 : Work} {v : View} {n k : Nat} {g : Group} (hroom : arriveBlocked w.pk v.grp n = false)
    (harr : arriveAt w v.g n = (k, w1)) (hg : w1.pk.groups.find? v.g = some g) (hp : barrierPassed w1.pk g n k = true) :
    arriveAndWait v n w = done (acquirePhase w1 v.g n k) := by
  unfold arriveAndWait Work.group?
  simp only [hroom, harr, hg, hp, if_true, Bool.false_eq_true, if_false]

theorem aflushBody_of_arrives {w w1 : Work} {v : View} (hact : v.act.any = true) (h : arriveAndWait v 16 w = done w1) :
    aflushBody v w = done (checkEpochs w1 v.grp.blk) := by
  unfold aflushBody once
  rw [if_pos hact]
  dsimp only
  rw [h]
  rfl

/-- The machine once the group gi, alone in its block b, has arrived at the flush point. -/
structure Flushed (gi : Nat) (g : Group) (b : Block) (d : Det) (w w' : Work) : Prop where
  group : ∃ cs, w'.pk.groups.find? gi = some (g.atFlush cs)
  block : ∃ b' d', w'.pk.blocks.find? g.blk = some b' ∧ b'.det = some d' ∧ d'.sansOwn = d.sealOpen.sansOwn
  wr : ∀ c ks, w.pk.ctxs.find? b.ctx = some c → (chkRange w b.ctx .store (slotVa c d.slot + 8) 8).1 = .ok ks →
    w'.wr = (w.puts ks (slotState w.pk b d.sealOpen)).wr

/-- The arrival of a block's only group seals the epoch, ends the group's wait at once, and leaves epochs to open. -/
theorem aflushBody_flushed {w : Work} {v : View} {g : Group} {b : Block} {d : Det} (hg : w.pk.groups.find? v.g = some g)
    (hblk : v.grp.blk = g.blk) (hb : w.pk.blocks.find? g.blk = some b) (hs : b.groups = [v.g]) (hd : b.det = some d)
    (hk : b.phases.getD 0 16 = g.arr.getD 0 16) (hopen : d.opened + 1 < 65536) (hact : v.act.any = true)
    (hroom : arriveBlocked w.pk v.grp 16 = false) : ∃ w', aflushBody v w = done w' ∧ Flushed v.g g b d w w' := by
  obtain ⟨cs, ds, harr⟩ := arriveAt_last hg hb hs hd hk
  have hput := putSlot_put (w := (w.setGroup v.g (g.atFlush cs)).setBlock g.blk
    (b.flushed d (g.arr.getD 0 16 + 1) ds)) (u := g.blk) (FMap.find?_insert_self ..) rfl
  generalize putSlot _ _ = w1 at harr hput
  obtain ⟨d', hb1, hd'⟩ := hput.block
  have hgroup : w1.pk.groups.find? v.g = some (g.atFlush cs) := by
    rw [hput.groups]; exact FMap.find?_insert_self ..
  have hpassed : barrierPassed w1.pk (g.atFlush cs) 16 (g.arr.getD 0 16 % 2 ^ 16) = true := by
    rw [barrierPassed_of_block (g := g.atFlush cs) hb1 (by decide), Block.flushed, FMap.getD_put, if_pos rfl]
    exact phasePassed_succ _
  obtain ⟨cs', hacq⟩ := acquirePhase_setGroup w1 v.g 16 (g.arr.getD 0 16 % 2 ^ 16) (g.atFlush cs)
  rw [Work.setGroup_of_groups hput.groups] at hacq
  change _ = w1.setGroup v.g (g.atFlush cs') at hacq
  have hb2 : (w1.setGroup v.g (g.atFlush cs')).pk.blocks.find? g.blk = _ := hb1
  have hopened : d'.opened < 65536 := by
    rw [show d'.opened = d.opened + 1 from congrArg Det.opened hd']
    exact hopen
  refine ⟨w1.setGroup v.g (g.atFlush cs'), ?_, ⟨cs', FMap.find?_insert_self ..⟩, ⟨_, d', hb1, rfl, hd'⟩,
    fun c ks hc hks => ?_⟩
  · have hwait := (arriveAndWait_of_passed hroom harr hgroup hpassed).trans (congrArg done hacq)
    rw [aflushBody_of_arrives hact hwait, hblk, checkEpochs_of_few hb2 rfl hopened]
  · have hwr := hput.wr c ks hc
    rw [Work.setGroup_setBlock, Det.sealOpen_slot, Block.flushed_ctx, chkRange_withTables_fst, Work.puts_withTables_wr,
      slotState_withTables, slotState_flushed] at hwr
    exact hwr hks

/-! ### The group after its arrival -/

section
variable (g : Group) (cs : FMap Chain)

theorem Group.lane_atFlush (L : Fin 8) : (g.atFlush cs).lane L = { g.lane L with dseq := 0 } :=
  g.lane_updLanes (fun _ l => { l with dseq := 0 }) L

theorem Group.running_atFlush : (g.atFlush cs).running = g.running :=
  Group.running_congr fun L => by rw [Group.lane_atFlush]

end

theorem Group.retired_atFlush {g g0 : Group} {v : View} (h0 : g.stand = g0.stand) (cs : FMap Chain) (fits : Bool) (h : Hdr) :
    SameRegs g0 ((g.atFlush cs).retired fits h v {}) ∧
      (∀ k, ((g.atFlush cs).retired fits h v {}).arr.getD 0 k = g0.arr.getD 0 k + if k = 16 then 1 else 0) ∧
      ∀ L, (((g.atFlush cs).retired fits h v {}).lane L).dseq = 0 := by
  obtain ⟨e1, e2, -, -⟩ := Group.stand_eq.1 h0
  obtain ⟨hrest, hregs⟩ := (g.atFlush cs).retired_rest fits h v (c := {}) rfl
  refine ⟨Group.reg_congr (hregs.trans e2), fun k => ?_, fun L => ?_⟩
  · have hseen : g.rest.arr = g0.rest.arr := congrArg Group.arr e1
    have harr : ((g.atFlush cs).retired fits h v {}).rest.arr = g.rest.arr.put 0 16 (g.rest.arr.getD 0 16 + 1) :=
      congrArg Group.arr hrest
    rw [hseen] at harr
    change FMap.getD ((g.atFlush cs).retired fits h v {}).rest.arr 0 k = FMap.getD g0.rest.arr 0 k + _
    rw [harr, FMap.getD_put]
    split
    · next hk => rw [hk]
    · rfl
  · have hlane := congrArg (fun x : Group => (x.lane L).dseq) hrest
    simp only [Group.rest_lanes, Group.lane_atFlush] at hlane
    exact hlane

/-! ### `aflush` (R220, R221) -/

/-- The last arrival at a block's flush point. -/
theorem aflush_flushes {s : State} {v : View} {f : Bare} {b : Block} {d : Det}
    (hi : Issues s f.h f.h.words { feature := some 0 } v) (ha : v.act.any = true)
    (hroom : arriveBlocked s.pk v.grp 16 = false) (hb : s.pk.blocks.find? v.grp.blk = some b) (hs : b.groups = [v.g])
    (hd : b.det = some d) (hopen : d.opened + 1 < 65536) (hk : b.phases.getD 0 16 = v.grp.arr.getD 0 16) :
    ∃ t g' b' d', exec (.aflush f) s = .next t ∧ t.pk.groups.find? v.g = some g' ∧ SameRegs v.grp g' ∧
      (∀ k, g'.arr.getD 0 k = v.grp.arr.getD 0 k + if k = 16 then 1 else 0) ∧ (∀ L, (g'.lane L).dseq = 0) ∧
      t.pk.blocks.find? v.grp.blk = some b' ∧ b'.det = some d' ∧ d'.sansOwn = d.sealOpen.sansOwn ∧
      ∀ c ks w, s.pk.ctxs.find? b.ctx = some c →
        chkRange (Work.start s) b.ctx .store (slotVa c d.slot + 8) 8 = (.ok ks, w) →
          WroteBytes s t ks (slotState s.pk b d.sealOpen) := by
  have hpk := issued_pk (viewOf_seen hi.seen) { feature := some 0 }
  have hstand := View.counted_stand s v { feature := some 0 }
  generalize v.counted s { feature := some 0 } = g at hpk hstand
  obtain ⟨e1, -, -, -⟩ := Group.stand_eq.1 hstand
  have hblk : g.blk = v.grp.blk := by have := congrArg Group.blk e1; exact this
  have harr : g.arr = v.grp.arr := by have := congrArg Group.arr e1; exact this
  have hw : (Work.start s).issued v { feature := some 0 } = (Work.start s).withTables (s.pk.groups.insert v.g g) s.pk.blocks :=
    congrArg (Work.mk s.mem []) hpk
  have hbar : barrierOf ((Work.start s).withTables (s.pk.groups.insert v.g g) s.pk.blocks).pk v.grp 16 =
      barrierOf s.pk v.grp 16 := rfl
  obtain ⟨w', hdone, hgroup, ⟨b', d', hb', hd', hsans⟩, hwr⟩ :=
    aflushBody_flushed (w := (Work.start s).withTables (s.pk.groups.insert v.g g) s.pk.blocks) (FMap.find?_insert_self ..)
      hblk.symm (hblk ▸ hb) hs hd (harr ▸ hk) hopen ha (by rw [arriveBlocked, hbar]; exact hroom)
  obtain ⟨cs, hg'⟩ := hgroup
  obtain ⟨fits, e⟩ := issue_effect (need := fun _ => { feature := some 0 }) (c := {}) hi
    ((congrArg (aflushBody v) hw).trans hdone) hg' rfl
    (by rw [Group.running_atFlush, Group.running_of_rest e1]; exact hi.lanes)
  obtain ⟨hregs, harrivals, hdseq⟩ := Group.retired_atFlush (v := v) hstand cs fits f.h
  refine ⟨_, _, b', d', e, FMap.find?_insert_self .., hregs, harrivals, hdseq, hblk ▸ hb', hd', hsans,
    fun c ks w hc hr => ?_⟩
  have hbytes := hwr c ks hc ((chkRange_withTables_fst ..).trans (congrArg Prod.fst hr))
  rw [Work.puts_withTables_wr, slotState_withTables, Work.start_pk] at hbytes
  exact wroteBytes_of_wr (congrArg (fun l : List Host.Cell => Mem.writes s.mem l.reverse) hbytes)

/-! ### `frec` (R260) -/

/-- An instruction that starts the access a and goes on. -/
theorem started_of_addTxn {i : Instr} {s : State} {v : View} {h : Hdr} {need : View → Need} {body : View → Work → Done}
    {a : Txn} (hi : Issues s h h.words (need v) v) (he : exec i s = issue s h need body)
    (ha : a.g = v.g ∧ a.ctx = v.grp.ctx ∧ a.pc = v.pc)
    (hb : body v ((Work.start s).issued v (need v)) = done (addTxn ((Work.start s).issued v (need v)) a).2) :
    ∃ t g' x, exec i s = .next t ∧ Started s v h a.h t g' x ∧ x.kind = a.kind ∧ x.ops = a.ops ∧ SameRegs v.grp g' ∧
      WentOn v h g' := by
  obtain ⟨hag, hac, hap⟩ := ha
  have hs := viewOf_seen hi.seen
  have hw := readied_issued hs (need v)
  obtain ⟨w', e, hadd⟩ := addTxn_added (t := a) (hag ▸ hw.group)
  obtain ⟨x, hx, ht⟩ := hadd.access
  obtain ⟨hxg, hxh, hxc, hxp, hxk, hxo, -⟩ := Txn.bare_eq hx
  have hstep : ChainStep v.g a.h ((Work.start s).issued v (need v)) w' := hag ▸ hadd.step
  obtain ⟨g, hg, hc⟩ := hstep.group _ hw.group
  have hk := hw.keeps.trans hstep.keeps
  obtain ⟨t, g', hcomp, hmem, hrest, hregs, hpk⟩ := completed_of_keeps hi hk hg (hc.placed (placed_counted ..)) he
    (by rw [hb, e])
  obtain ⟨e1, e2, -, -⟩ := Group.stand_eq.1 (View.counted_stand s v (need v))
  obtain ⟨crest, cregs⟩ := hc.rest
  have hchains : g'.chains = g.chains := by have := congrArg Group.chains hrest; exact this
  have hseen : (v.counted s (need v)).chains = v.grp.chains := by have := congrArg Group.chains e1; exact this
  rw [hw.fresh] at ht
  refine ⟨t, g', x, hcomp.runs, ⟨hcomp.group, ?_, ⟨hxg.trans hag, hxh, hxc.trans hac, hxp.trans hap⟩, ?_, hcomp.others,
    fun j hj => ?_, fun j hj => ?_, hmem, hcomp.neg, ?_, ?_⟩, hxk, hxo, Group.reg_congr (hregs.trans (cregs.trans e2)),
    hcomp.went⟩
  · rw [hpk]; exact (congrArg (FMap.find? · s.pk.fresh) ht).trans (FMap.find?_insert_self ..)
  · rw [Group.chain, hchains]
    exact hw.fresh ▸ hadd.last g (hag ▸ hg)
  · rw [hpk]; exact (congrArg (FMap.find? · j) ht).trans ((FMap.find?_insert_ne hj).trans (by rw [hw.txns]))
  · rw [Group.chain, hchains, Group.chain, ← hseen]
    exact hc.others j hj
  · have hbeside : w'.pk.beside = s.pk.beside := by
      rw [hstep.beside, hadd.notes, hw.pk, issued_pk hs]; rfl
    rw [hpk]; exact hbeside
  · rw [hrest, crest, e1]

/-- An access of one lane has not performed when it starts. -/
theorem openIn_oneOp {x : Txn} {L : Fin 8} {va : Nat} {ks : List Nat} {data : List Byte}
    (h : x.ops = oneOp L (plainOp va ks data)) : (laneList.any fun K => x.openIn K) = true := by
  refine List.any_eq_true.2 ⟨L, Mask.mem_laneList L, ?_⟩
  unfold Txn.openIn
  rw [h, oneOp, Lanes.get_set, if_pos rfl]
  rfl

section
variable {s : State} {v : View} {f : HuniF}

/-- The active lanes whose address names no shape record: not a multiple of 64, or not canonical. -/
def frecRefused (f : HuniF) (v : View) : Mask :=
  Lanes.ofFn fun L => v.act.get L && (v.uniIn f.a 2 L % 64 != 0 || !canonical (v.uniIn f.a 2 L))

variable (hi : Issues s f.h f.h.words (frecNeed f v) v) (ha : v.act.any = true)
include hi ha

theorem frec_starts (hgood : (frecRefused f v).any = false) :
    ∃ t g' x, exec (.frec f) s = .next t ∧ Started s v f.h f.hd.toNat t g' x ∧
      x.kind = .frec (v.act.lanes.map fun L => recKey v.grp.ctx (v.uniIn f.a 2 L)) ∧
      (laneList.any fun L => x.openIn L) = true ∧ SameRegs v.grp g' ∧ WentOn v f.h g' := by
  obtain ⟨t, g', x, hrun, hst, hkind, hops, hregs, hwent⟩ := started_of_addTxn
    (a := mkTxn v f.hd.toNat .sys .plain (.frec (v.act.lanes.map fun L => recKey v.grp.ctx (v.uniIn f.a 2 L)))
      (oneOp v.lead (plainOp 0 [] []))) (i := .frec f) (body := frecBody f) hi rfl ⟨rfl, rfl, rfl⟩
    ((if_pos ha).trans (if_neg (Bool.eq_false_iff.1 hgood)))
  exact ⟨t, g', x, hrun, hst, hkind, openIn_oneOp hops, hregs, hwent⟩

theorem frec_faults (hbad : (frecRefused f v).any = true) : exec (.frec f) s = .next (s.run fun w =>
    raiseFault w v.g v.pc .prot (frecRefused f v) (v.uniIn f.a 2 ((frecRefused f v).lanes.headD 0)) 0) :=
  issue_trap (body := frecBody f) hi ((if_pos ha).trans (if_pos hbad))

end

/-- Settles O29: the last arrival at a flush point seals the epoch before it ends its own wait; an invalidation is one access on
its handle's chain, and the check of its addresses comes before. -/
theorem flushPointsAndRecordCache : Obligations.FlushPointsAndRecordCache :=
  ⟨fun _ _ _ _ _ hi ha hroom hb hs hd hopen hk => aflush_flushes hi ha hroom hb hs hd hopen hk,
    fun _ _ _ hi ha => ⟨frec_starts hi ha, frec_faults hi ha⟩⟩

end Sys2Proof.Machine
end

section
/-!
PROOFS. Order handles and tokens (R245 to R255), and the group-wide instructions with no active lane. All that such an instruction
leaves of its group is its chains, so one lemma on an issue that sets them (`issue_chains`) serves `fence`, `hfork`, `hjoin`,
`hwait`, `himp` and `barw`; beside the group, `fence` and `hjoin` make reads in flight acquire (`acquireReads_eq`), and `hexp`
changes an entry of the lift line (`issue_lift`).
-/
namespace Sys2Proof.Machine

/-! ### No active lane (R151) -/

theorem once_of_idle {v : View} (ha : v.act.any = false) (w : Work) (f : Work → Done) : once v w f = done w := by
  rw [once, ha, if_neg Bool.false_ne_true]

theorem once_of_active {v : View} (ha : v.act.any = true) (w : Work) (f : Work → Done) : once v w f = f w := by
  rw [once, ha, if_pos rfl]

/-- A group-wide effect without an active lane only moves its split. -/
theorem onlyMoved_of_once {i : Instr} {s : State} {v : View} {h : Hdr} {need : View → Need} {F : View → Work → Done}
    (ha : v.act.any = false) (hi : Issues s h h.words (need v) v)
    (he : exec i s = issue s h need fun v w => once v w (F v)) : OnlyMoved i s v h fun _ => none := by
  rw [OnlyMoved, he]
  exact issue_nothing hi rfl rfl rfl fun w _ => once_of_idle ha w _

theorem sldBody_eq_once (f : SMemF) : sldBody f = fun v w => once v w (sldBody f v) := by
  funext v w
  cases ha : v.act.any with
  | true => rw [once_of_active ha]
  | false => rw [once_of_idle ha, sldBody, ha, if_pos (by rfl)]

/-- Settles O32: the effect of each of these instructions is made once where a lane is active, and not at all without one. -/
theorem noLaneNoGroupEffect : Obligations.NoLaneNoGroupEffect := by
  intro s v ha
  refine ⟨fun _ hi => onlyMoved_of_once ha hi rfl, fun _ hi => onlyMoved_of_once ha hi rfl,
    fun _ hi => onlyMoved_of_once ha hi rfl, fun _ hi => onlyMoved_of_once ha hi rfl,
    fun _ hi => onlyMoved_of_once ha hi rfl, fun _ hi => onlyMoved_of_once ha hi rfl,
    fun _ hi => onlyMoved_of_once ha hi rfl, fun _ hi => onlyMoved_of_once ha hi rfl,
    fun _ hi => onlyMoved_of_once ha hi rfl, fun _ hi => onlyMoved_of_once ha hi rfl,
    fun _ hi => onlyMoved_of_once ha hi rfl, fun _ hi => onlyMoved_of_once ha hi rfl,
    fun _ hi => onlyMoved_of_once ha hi rfl, fun f hi => onlyMoved_of_once ha hi (congrArg (issue s f.h _) (sldBody_eq_once f))⟩

/-! ### The chains of a group -/

theorem Group.chain_congr {g g' : Group} (h : g.chains = g'.chains) (k : Nat) : g.chain k = g'.chain k := by
  unfold Group.chain
  rw [h]

theorem View.counted_chains (s : State) (v : View) (n : Need) : (v.counted s n).chains = v.grp.chains := by
  obtain ⟨h, -⟩ := Group.stand_eq.1 (View.counted_stand s v n)
  exact (congrArg Group.chains h :)

theorem View.counted_chain (s : State) (v : View) (n : Need) (k : Nat) : (v.counted s n).chain k = v.grp.chain k :=
  Group.chain_congr (View.counted_chains s v n) k

/-- Each chain of a list is set once. -/
theorem Group.chain_foldl_setChain (f : Chain → Chain) {l : List Nat} (hl : l.Nodup) (g : Group) (k : Nat) :
    (l.foldl (fun g h => g.setChain h (f (g.chain h))) g).chain k = if k ∈ l then f (g.chain k) else g.chain k := by
  induction l generalizing g with
  | nil => rfl
  | cons a l ih =>
    obtain ⟨ha, hl⟩ := List.nodup_cons.1 hl
    rw [List.foldl_cons, ih hl, Group.chain_setChain]
    by_cases hk : k = a
    · subst hk
      simp [ha]
    · simp [hk]

/-! ### What an instruction leaves that sets chains -/

/-- The registers and the rest of a group stand but for its chains, which are now cs; its split has gone on, or waits for k. -/
structure SetsChains (v : View) (h : Hdr) (g' : Group) (cs : FMap Chain) (k : Option Wait) : Prop where
  regs : SameRegs v.grp g'
  rest : g'.rest = { v.grp.rest with chains := cs }
  goes : GoesOrWaits v h g' k

section
variable {v : View} {h : Hdr} {g' : Group} {cs : FMap Chain} {k : Option Wait} (hg : SetsChains v h g' cs k)
include hg

theorem SetsChains.same : SameButChains v.grp g' := ⟨hg.regs, by rw [hg.rest]⟩

theorem SetsChains.chains : g'.chains = cs := congrArg (fun x : Group => x.chains) hg.rest

/-- The chains, from the group whose chains they are. -/
theorem SetsChains.chain {g : Group} (hc : cs = g.chains) (j : Nat) : g'.chain j = g.chain j :=
  Group.chain_congr (hg.chains.trans hc) j

end

/-- A group with its effect done goes on, or waits at the instruction. -/
theorem Placed.goesOrWaits {s : State} {v : View} {h : Hdr} {words : Nat} {g : Group} (hp : Placed v g)
    (hs : Sees (Work.start s) words v) (fits : Bool) (k : Option Wait) :
    GoesOrWaits v h (g.retired fits h v { block := k }) k := by
  cases k with
  | none => exact retired_wentOn hs rfl rfl rfl hp.splits hp.jmasks hp.lanes hp.stat hp.saveReq
  | some k => exact hp.waits hs fits k

section
variable {s : State} {v : View} {h : Hdr} {need : View → Need} {body : View → Work → Done} {k : Option Wait}
  (hi : Issues s h h.words (need v) v)
include hi

/-- An instruction whose body writes no memory: the package it has made, with its own group retired. -/
theorem issue_leaves {w : Work} {g : Group} (hb : body v ((Work.start s).issued v (need v)) = .ok w { block := k })
    (hwr : w.wr = []) (hg : w.pk.groups.find? v.g = some g) (hp : Placed v g) :
    ∃ g', issue s h need body = .next (({ s with pk := w.pk } : State).withGroup v.g g') ∧ g'.rest = g.rest ∧
      g'.regs = g.regs ∧ GoesOrWaits v h g' k := by
  obtain ⟨fits, e⟩ := issue_effect hi hb hg rfl (by rw [hp.running]; exact hi.lanes)
  obtain ⟨hrest, hregs⟩ := g.retired_rest fits h v (c := { block := k }) rfl
  refine ⟨_, e.trans ?_, hrest, hregs, hp.goesOrWaits (viewOf_seen hi.seen) fits k⟩
  rw [State.finish, hwr]
  rfl

/-- An instruction that sets its group's chains, and beside them changes the table of accesses alone. -/
theorem issue_chains {m : FMap Txn} {cs : FMap Chain}
    (hb : body v ((Work.start s).issued v (need v)) =
      .ok ((((Work.start s).issued v (need v)).mapPk fun p => { p with txns := m }).setGroup v.g
        { v.counted s (need v) with chains := cs }) { block := k }) :
    ∃ g', issue s h need body = .next (({ s with pk := { s.pk with txns := m } } : State).withGroup v.g g') ∧
      SetsChains v h g' cs k := by
  have hp := placed_counted s v (need v)
  obtain ⟨erest, eregs, -, -⟩ := Group.stand_eq.1 (View.counted_stand s v (need v))
  obtain ⟨g', e, hrest, hregs, hgoes⟩ := issue_leaves hi hb rfl (FMap.find?_insert_self ..)
    ⟨hp.splits, hp.jmasks, hp.lanes, hp.stat, hp.saveReq⟩
  refine ⟨g', e.trans ?_, Group.reg_congr (hregs.trans eregs), hrest.trans ?_, hgoes⟩
  · simp [State.withGroup, issued_pk (viewOf_seen hi.seen)]
  · exact congrArg (fun x : Group => { x with chains := cs }) erest

/-- An instruction that sets its group's chains alone. -/
theorem issue_setsChains {cs : FMap Chain}
    (hb : body v ((Work.start s).issued v (need v)) =
      .ok (((Work.start s).issued v (need v)).setGroup v.g { v.counted s (need v) with chains := cs }) { block := k }) :
    ∃ g', issue s h need body = .next (s.withGroup v.g g') ∧ SetsChains v h g' cs k :=
  issue_chains (m := s.pk.txns) hi hb

/-- An instruction that goes on, or waits, with nothing done. -/
theorem issue_goesOrWaits (hb : body v ((Work.start s).issued v (need v)) = .ok ((Work.start s).issued v (need v)) { block := k }) :
    ∃ g', issue s h need body = .next (s.withGroup v.g g') ∧ SameRegs v.grp g' ∧ g'.rest = v.grp.rest ∧ GoesOrWaits v h g' k := by
  have hself : ((Work.start s).issued v (need v)).setGroup v.g (v.counted s (need v)) = (Work.start s).issued v (need v) :=
    Work.setGroup_of_groups (congrArg Package.groups (issued_pk (viewOf_seen hi.seen) (need v)))
  obtain ⟨g', hx, hset⟩ := issue_setsChains hi (cs := (v.counted s (need v)).chains)
    (hb.trans (congrArg (Done.ok · { block := k }) hself.symm))
  refine ⟨g', hx, hset.regs, ?_, hset.goes⟩
  rw [hset.rest, View.counted_chains]
  rfl

end

/-! ### Reads that acquire (R247) -/

/-- A read in flight acquires at the scope too. -/
def Txn.acquireAt (t : Txn) (sc : Scope) : Txn :=
  { t with facq := some (match t.facq with
    | some x => widerScope x sc
    | none => sc) }

/-- What a fence or join does to each access in flight. -/
def Txn.acquireIfRead (t : Txn) (sc : Scope) : Txn := if t.kind.isRead = true then t.acquireAt sc else t

theorem widerScope_widerScope (a b : Scope) : widerScope (widerScope a b) b = widerScope a b := by
  unfold widerScope
  by_cases h : scopeNum a < scopeNum b <;> simp [h]

theorem Txn.acquireAt_acquireAt (t : Txn) (sc : Scope) : (t.acquireAt sc).acquireAt sc = t.acquireAt sc := by
  unfold Txn.acquireAt
  cases t.facq with
  | none => simp [widerScope]
  | some x => simp [widerScope_widerScope]

/-- The reads of a list acquire, each as often as it stands there. -/
theorem acquireReads_eq (w : Work) (sc : Scope) (ts : List Nat) :
    ∃ m, acquireReads w sc ts = w.mapPk (fun p => { p with txns := m }) ∧
      ∀ i, FMap.find? m i = (w.pk.txns.find? i).map fun x => if i ∈ ts ∧ x.kind.isRead = true then x.acquireAt sc else x := by
  induction ts generalizing w with
  | nil => exact ⟨w.pk.txns, rfl, fun i => by simp⟩
  | cons j ts ih =>
    obtain ⟨m, e, hm⟩ := ih (w.updTxn j fun x => x.acquireIfRead sc)
    refine ⟨m, e, fun i => ?_⟩
    rw [hm, Work.updTxn_pk]
    dsimp only
    rw [FMap.find?_adjust]
    by_cases hij : i = j
    · subst hij
      rw [if_pos rfl, Option.map_map]
      congr 1
      funext x
      by_cases hr : x.kind.isRead = true
      · have hk : (x.acquireAt sc).kind.isRead = true := hr
        by_cases hi : i ∈ ts <;> simp [Txn.acquireIfRead, hr, hk, hi, Txn.acquireAt_acquireAt]
      · simp [Txn.acquireIfRead, hr]
    · simp [hij]

/-- What `Acquired` says of the table of accesses. -/
theorem acquired_of_find {s t : State} {sc : Scope} {ts : List Nat} {m : FMap Txn} (ht : t.pk.txns = m)
    (hm : ∀ i, FMap.find? m i = (s.pk.txns.find? i).map fun x => if i ∈ ts ∧ x.kind.isRead = true then x.acquireAt sc else x) :
    Acquired s t sc ts := fun i => (congrArg (FMap.find? · i) ht).trans (hm i)

section
variable {i : Instr} {s : State} {v : View} {h : Hdr} {need : View → Need} {body : View → Work → Done} {k : Option Wait}
  (hi : Issues s h h.words (need v) v) (he : exec i s = issue s h need body)
include hi he

/-- An instruction that makes the reads of a list acquire and sets its group's chains. -/
theorem issue_acquires {ts : List Nat} {sc : Scope} {cs : FMap Chain}
    (hb : body v ((Work.start s).issued v (need v)) =
      .ok ((acquireReads ((Work.start s).issued v (need v)) sc ts).setGroup v.g
        { v.counted s (need v) with chains := cs }) { block := k }) :
    ∃ t g', exec i s = .next t ∧ OnlyGroup s v t g' ∧ Acquired s t sc ts ∧ SetsChains v h g' cs k := by
  obtain ⟨m, e, hm⟩ := acquireReads_eq ((Work.start s).issued v (need v)) sc ts
  rw [e] at hb
  obtain ⟨g', hx, hg'⟩ := issue_chains hi hb
  refine ⟨_, g', he.trans hx, ⟨FMap.find?_insert_self .., fun j hj => FMap.find?_insert_ne hj, rfl, rfl, rfl⟩,
    acquired_of_find (m := m) rfl fun i => ?_, hg'⟩
  rw [hm, issued_pk (viewOf_seen hi.seen)]

end

/-! ### `fence` (R250, R251) -/

/-- A fold that sets each of the 16 chains, or none. -/
theorem Group.foldl_setChains (b : Bool) (f : Chain → Chain) (g : Group) :
    ∃ cs, (List.range 16).foldl (fun g h => if b then g else g.setChain h (f (g.chain h))) g = { g with chains := cs } ∧
      ∀ k, k < 16 → ({ g with chains := cs } : Group).chain k = if b then g.chain k else f (g.chain k) := by
  cases b with
  | true => exact ⟨g.chains, rfl, fun _ _ => rfl⟩
  | false =>
    obtain ⟨cs, e⟩ := Group.foldl_setChain (fun g h => f (g.chain h)) (List.range 16) g
    refine ⟨cs, e, fun k hk => ?_⟩
    rw [← e, Group.chain_foldl_setChain f List.nodup_range, if_pos (List.mem_range.2 hk)]
    rfl

/-- A chain once a fence has put the accesses of `all` before what comes later on it, and the pairs of jord in its local order. -/
def Chain.fenced (c : Chain) (all : List Nat) (jord : List (Nat × Scope)) (awaits : List Nat) : Chain :=
  { c with hist := all, jord := (c.jord ++ jord).eraseDups, awaits := (c.awaits ++ awaits).eraseDups }

/-- A fence makes the group's reads acquire, and sets every chain where accesses have not performed. -/
theorem fenceChains_some {w : Work} {gi : Nat} {g : Group} (sc : Scope) (hg : w.pk.groups.find? gi = some g) :
    ∃ cs, fenceChains w gi (some sc) = (acquireReads w sc (groupOpen w.pk gi)).setGroup gi { g with chains := cs } ∧
      ∀ k, k < 16 → groupOpen w.pk gi ≠ [] →
        (({ g with chains := cs } : Group).chain k).hist = groupOpen w.pk gi ∧
          ∀ i ∈ groupOpen w.pk gi, (i, sc) ∈ (({ g with chains := cs } : Group).chain k).jord := by
  obtain ⟨m, em, -⟩ := acquireReads_eq w sc (groupOpen w.pk gi)
  have hg' : (acquireReads w sc (groupOpen w.pk gi)).pk.groups.find? gi = some g := by rw [em]; exact hg
  have fenced (x : Group) (awaits : List Nat) := Group.foldl_setChains ((groupOpen w.pk gi).isEmpty && awaits.isEmpty)
    (Chain.fenced · (groupOpen w.pk gi) (((groupOpen w.pk gi) ++ awaits).eraseDups.map fun i => (i, sc)) awaits) x
  obtain ⟨cs, ec, hc⟩ := fenced g (openTxns (acquireReads w sc (groupOpen w.pk gi)).pk
    (g.allChains Chain.awaits ++ g.allChains (seenTxns (acquireReads w sc (groupOpen w.pk gi)).pk gi sc)))
  refine ⟨cs, (Work.updGroup_of_find _ hg').trans (congrArg (Work.setGroup _ gi) ec), fun k hk hne => ?_⟩
  rw [hc k hk, List.isEmpty_eq_false_iff.2 hne, Bool.false_and, if_neg Bool.false_ne_true]
  refine ⟨rfl, fun i hi => ?_⟩
  simp [Chain.fenced, hi]

section
variable {s : State} {v : View} {f : FenceF} (hi : Issues s f.h f.h.words {} v) (ha : v.act.any = true)
include hi ha

theorem fence_waits (hp : overtaken s.pk (groupTxns s.pk v.g) ≠ []) :
    exec (.fence f) s = .next (s.withGroup v.g (v.grp.blockCurrent (.returned (overtaken s.pk (groupTxns s.pk v.g))))) := by
  have hne : (!(overtaken s.pk (groupTxns s.pk v.g)).isEmpty) = true := by simpa using hp
  exact issue_wait (need := fun _ => {}) (body := fenceBody f.scope) hi ((once_of_active ha _ _).trans (if_pos hne))

theorem fence_orders (hp : overtaken s.pk (groupTxns s.pk v.g) = []) :
    ∃ t g', exec (.fence f) s = .next t ∧ OnlyGroup s v t g' ∧ Acquired s t f.scope (groupOpen s.pk v.g) ∧
      SameButChains v.grp g' ∧
      (∀ k, k < 16 → groupOpen s.pk v.g ≠ [] →
        (g'.chain k).hist = groupOpen s.pk v.g ∧ ∀ i ∈ groupOpen s.pk v.g, (i, f.scope) ∈ (g'.chain k).jord) ∧
      GoesOrWaits v f.h g' (if (openReads s.pk v.g).isEmpty then none else some (.returned (openReads s.pk v.g))) := by
  obtain ⟨cs, ef, hc⟩ := fenceChains_some f.scope (readied_issued (viewOf_seen hi.seen) {}).group
  have hnil : ¬(!(overtaken s.pk (groupTxns s.pk v.g)).isEmpty) = true := by simp [hp]
  have hb : fenceBody f.scope v ((Work.start s).issued v {}) = .ok (fenceChains ((Work.start s).issued v {}) v.g (some f.scope))
      { block := if (openReads s.pk v.g).isEmpty then none else some (.returned (openReads s.pk v.g)) } :=
    (once_of_active ha _ _).trans (if_neg hnil)
  rw [ef] at hb
  obtain ⟨t, g', hx, hog, hacq, hset⟩ := issue_acquires (i := .fence f) (need := fun _ => {}) hi rfl hb
  refine ⟨t, g', hx, hog, hacq, hset.same, fun k hk hne => ?_, hset.goes⟩
  rw [hset.chain (g := { v.counted s {} with chains := cs }) rfl]
  exact hc k hk hne

end

/-- Settles O25: a fence sets all sixteen chains in one fold, and blocks its split by the reads in flight. -/
theorem fenceOrdersEveryHandle : Obligations.FenceOrdersEveryHandle :=
  fun _ _ _ hi ha => ⟨fence_waits hi ha, fence_orders hi ha⟩

/-! ### `hfork`, `hjoin` and `hwait` (R249, R251, R255) -/

theorem Group.chain_setChain_self (g : Group) (h : Nat) (c : Chain) : (g.setChain h c).chain h = c := by
  rw [Group.chain_setChain, if_pos rfl]

/-- The chain d forked from the chain s: what s has to wait for, behind what has been ordered before d. -/
def Chain.forked (p : Package) (d s : Chain) : Chain :=
  { d with hist := openTxns p s.hist, seen := s.seen, awaits := openTxns p ((d.awaits ++ s.awaits).eraseDups),
           imports := (d.imports ++ s.imports).eraseDups }

/-- A fork changes chain hd alone, unless it forks a chain from itself. -/
theorem forkChain_eq {w : Work} {gi hd hs : Nat} {g : Group} {m : FMap Group} (hg : w.pk.groups = m.insert gi g) :
    ∃ cs, forkChain w gi hd hs = w.setGroup gi { g with chains := cs } ∧
      (∀ k, k ≠ hd → ({ g with chains := cs } : Group).chain k = g.chain k) ∧
      (({ g with chains := cs } : Group).chain hd).jord = (g.chain hd).jord ∧
      (hd ≠ hs → (({ g with chains := cs } : Group).chain hd).hist = openTxns w.pk (g.chain hs).hist ∧
        (({ g with chains := cs } : Group).chain hd).imports = ((g.chain hd).imports ++ (g.chain hs).imports).eraseDups) := by
  have hfind : w.pk.groups.find? gi = some g := by rw [hg]; exact FMap.find?_insert_self ..
  unfold forkChain
  by_cases h : hd = hs
  · exact ⟨g.chains, by rw [if_pos h]; exact (Work.setGroup_of_groups hg).symm, fun _ _ => rfl, rfl, fun hne => absurd h hne⟩
  · have hself := Group.chain_setChain_self g hd ((g.chain hd).forked w.pk (g.chain hs))
    rw [if_neg h, Work.updGroup_of_find _ hfind]
    refine ⟨_, rfl, fun k hk => ?_, ?_, fun _ => ⟨?_, ?_⟩⟩
    · exact (Group.chain_setChain ..).trans (if_neg hk)
    · exact (congrArg Chain.jord hself :)
    · exact (congrArg Chain.hist hself :)
    · exact (congrArg Chain.imports hself :)

theorem subset_closeBefore (p : Package) (n : Nat) {l : List Nat} {i : Nat} (h : i ∈ l) : i ∈ closeBefore p n l := by
  induction n generalizing l with
  | zero => exact h
  | succ n ih =>
    rw [closeBefore]
    split
    · exact h
    · exact ih (by simp [h])

/-- A join makes the reads of both chains acquire, and sets chain hd. -/
theorem joinChains_eq {w : Work} {gi : Nat} {g : Group} (hd ha : Nat) (sc : Scope) (hg : w.pk.groups.find? gi = some g) :
    ∃ c, joinChains w gi hd ha sc =
        (acquireReads w sc (openTxns w.pk (((g.chain hd).hist ++ (g.chain ha).hist).eraseDups))).setGroup gi (g.setChain hd c) ∧
      c.hist = openTxns w.pk (((g.chain hd).hist ++ (g.chain ha).hist).eraseDups) ∧
      ∀ i ∈ openTxns w.pk (((g.chain hd).hist ++ (g.chain ha).hist).eraseDups), ∀ x, w.pk.txns.find? i = some x →
        x.h = hd ∨ x.h = ha → (i, sc) ∈ c.jord := by
  obtain ⟨m, em, -⟩ := acquireReads_eq w sc (openTxns w.pk (((g.chain hd).hist ++ (g.chain ha).hist).eraseDups))
  rw [joinChains, Work.onGroup_of_find _ hg]
  dsimp only
  rw [Work.updGroup_of_find (g := g) _ (by rw [em]; exact hg)]
  refine ⟨_, rfl, rfl, fun i hi x hx hh => ?_⟩
  dsimp only
  rw [List.mem_eraseDups, List.mem_append, List.map_append, List.mem_append]
  refine .inr (.inl (List.mem_map_of_mem (subset_closeBefore _ _ (List.mem_filter.2 ⟨hi, ?_⟩))))
  simp [hx, hh]

section
variable {s : State} {v : View} {f : HpairF} (hi : Issues s f.h f.h.words {} v) (ha : v.act.any = true)
include hi ha

theorem hfork_waits (hne : chainOpen s.pk v.g f.hd.toNat ≠ []) :
    exec (.hfork f) s = .next (s.withGroup v.g (v.grp.blockCurrent (.chainIdle f.hd.toNat))) := by
  have hopen : (!(chainOpen s.pk v.g f.hd.toNat).isEmpty) = true := by simpa using hne
  exact issue_wait (need := fun _ => {}) (body := hforkBody f) hi ((once_of_active ha _ _).trans (if_pos hopen))

theorem hfork_forks (hnil : chainOpen s.pk v.g f.hd.toNat = []) :
    ∃ g', exec (.hfork f) s = .next (s.withGroup v.g g') ∧ SameButChains v.grp g' ∧
      WentOn v f.h g' ∧ (∀ k, k ≠ f.hd.toNat → g'.chain k = v.grp.chain k) ∧
      (g'.chain f.hd.toNat).jord = (v.grp.chain f.hd.toNat).jord ∧
      (f.hd ≠ f.hs → (g'.chain f.hd.toNat).hist = openTxns s.pk (v.grp.chain f.hs.toNat).hist ∧
        (g'.chain f.hd.toNat).imports =
          ((v.grp.chain f.hd.toNat).imports ++ (v.grp.chain f.hs.toNat).imports).eraseDups) := by
  have hopen : ¬(!(chainOpen s.pk v.g f.hd.toNat).isEmpty) = true := by simp [hnil]
  obtain ⟨cs, ef, hothers, hjord, hfork⟩ := forkChain_eq (hd := f.hd.toNat) (hs := f.hs.toNat)
    (congrArg Package.groups (issued_pk (viewOf_seen hi.seen) {}))
  have hb : hforkBody f v ((Work.start s).issued v {}) =
      done (forkChain ((Work.start s).issued v {}) v.g f.hd.toNat f.hs.toNat) :=
    (once_of_active ha _ _).trans (if_neg hopen)
  rw [ef] at hb
  obtain ⟨g', hx, hset⟩ := issue_setsChains (need := fun _ => {}) (k := none) hi hb
  have hchain (j : Nat) := hset.chain (g := { v.counted s {} with chains := cs }) rfl j
  simp only [View.counted_chain] at hothers hjord hfork
  refine ⟨g', hx, hset.same, hset.goes, fun k hk => (hchain k).trans (hothers k hk), ?_, fun hne => ?_⟩
  · rw [hchain]; exact hjord
  · rw [hchain]; exact hfork fun h => hne (BitVec.eq_of_toNat_eq h)

end

section
variable {s : State} {v : View} {f : HjoinF} (hi : Issues s f.h f.h.words {} v) (ha : v.act.any = true)
include hi ha

theorem hjoin_waits (hne : overtaken s.pk ((v.grp.chain f.hd.toNat).hist ++ (v.grp.chain f.ha.toNat).hist) ≠ []) :
    exec (.hjoin f) s = .next (s.withGroup v.g (v.grp.blockCurrent (.returned
      (overtaken s.pk ((v.grp.chain f.hd.toNat).hist ++ (v.grp.chain f.ha.toNat).hist))))) := by
  have hpassed : (!(overtaken s.pk ((v.grp.chain f.hd.toNat).hist ++ (v.grp.chain f.ha.toNat).hist)).isEmpty) = true := by
    simpa using hne
  exact issue_wait (need := fun _ => {}) (body := hjoinBody f) hi ((once_of_active ha _ _).trans (if_pos hpassed))

theorem hjoin_joins (hnil : overtaken s.pk ((v.grp.chain f.hd.toNat).hist ++ (v.grp.chain f.ha.toNat).hist) = []) :
    let both := openTxns s.pk (((v.grp.chain f.hd.toNat).hist ++ (v.grp.chain f.ha.toNat).hist).eraseDups)
    ∃ t g', exec (.hjoin f) s = .next t ∧ OnlyGroup s v t g' ∧ Acquired s t f.scope both ∧ SameButChains v.grp g' ∧
      WentOn v f.h g' ∧ (∀ k, k ≠ f.hd.toNat → g'.chain k = v.grp.chain k) ∧ (g'.chain f.hd.toNat).hist = both ∧
      ∀ i ∈ both, ∀ x, s.pk.txns.find? i = some x → x.h = f.hd.toNat ∨ x.h = f.ha.toNat →
        (i, f.scope) ∈ (g'.chain f.hd.toNat).jord := by
  intro both
  have hpassed : ¬(!(overtaken s.pk ((v.grp.chain f.hd.toNat).hist ++ (v.grp.chain f.ha.toNat).hist)).isEmpty) = true := by
    simp [hnil]
  obtain ⟨c, ej, hhist, hjord⟩ := joinChains_eq f.hd.toNat f.ha.toNat f.scope (readied_issued (viewOf_seen hi.seen) {}).group
  simp only [View.counted_chain] at ej hhist hjord
  have hb : hjoinBody f v ((Work.start s).issued v {}) =
      done (joinChains ((Work.start s).issued v {}) v.g f.hd.toNat f.ha.toNat f.scope) :=
    (once_of_active ha _ _).trans (if_neg hpassed)
  rw [ej] at hb
  obtain ⟨t, g', hx, hog, hacq, hset⟩ := issue_acquires (i := .hjoin f) (need := fun _ => {}) (k := none) hi rfl hb
  have hchain (j : Nat) : g'.chain j = if j = f.hd.toNat then c else v.grp.chain j := by
    rw [hset.chain (g := (v.counted s {}).setChain f.hd.toNat c) rfl, Group.chain_setChain, View.counted_chain]
  refine ⟨t, g', hx, hog, hacq, hset.same, hset.goes, fun k hk => (hchain k).trans (if_neg hk), ?_⟩
  rw [hchain, if_pos rfl]
  exact ⟨hhist, hjord⟩

end

/-- Settles O26: a fork and a join each set one chain; a wait leaves the chains and blocks its split. -/
theorem handleForkJoinWait : Obligations.HandleForkJoinWait :=
  ⟨fun _ _ _ hi ha => ⟨hfork_forks hi ha, hfork_waits hi ha⟩, fun _ _ _ hi ha => ⟨hjoin_waits hi ha, hjoin_joins hi ha⟩,
    fun _ _ f hi ha => issue_goesOrWaits (need := fun _ => {}) (body := hwaitBody f) hi (once_of_active ha _ _)⟩

/-! ### `hexp` and `himp` (R252 to R254) -/

theorem Local.placed {F : Group → Group} {v : View} {g : Group} (hF : Local F) (hp : Placed v g) : Placed v (F g) where
  splits := (hF.splits g).trans hp.splits
  jmasks := (hF.jmasks g).trans hp.jmasks
  lanes L := by
    obtain ⟨hpc, hmr, hst⟩ := hF.lanes g L
    rw [hpc, hmr, hst]
    exact hp.lanes L
  stat := (hF.save g).1.trans hp.stat
  saveReq := (hF.save g).2.trans hp.saveReq

/-- `hexp` writes the token, and beside its group only the slot's entry of the lift line. -/
theorem hexpBody_eq {v : View} (ha : v.act.any = true) (f : HexpF) (w : Work) :
    ∃ m, hexpBody f v w = done
      ((w.writeU v f.d 2 fun _ => (chainToken w.pk v.grp f.ha.toNat f.scope).word).mapPk fun p => { p with lift := m }) := by
  rw [hexpBody, once_of_active ha]
  dsimp only
  cases (v.grp.chain f.ha.toNat).slot with
  | some k => exact ⟨_, rfl⟩
  | none => exact ⟨(w.writeU v f.d 2 fun _ => (chainToken w.pk v.grp f.ha.toNat f.scope).word).pk.lift, rfl⟩

theorem Package.beside_tables (p : Package) (gs : FMap Group) (m : FMap LiftSlot) :
    ({ p with groups := gs, lift := m } : Package).beside = p.beside := rfl

section
variable {s : State} {v : View} {h : Hdr} {need : View → Need} {body : View → Work → Done} {F : Group → Group}
  (hF : Local F)
include hF

/-- An instruction with an effect on its group and on the lift line. -/
theorem issue_lift {m : FMap LiftSlot} {w : Work} (hi : Issues s h h.words (need v) v) (hw : Readied s v (need v) w)
    (hp : w.pk.beside = s.pk.beside)
    (hb : body v ((Work.start s).issued v (need v)) = done ((w.updGroup v.g F).mapPk fun p => { p with lift := m })) :
    ∃ t g', issue s h need body = .next t ∧ t.mem = s.mem ∧ t.pk.groups.find? v.g = some g' ∧
      g'.rest = (F (v.counted s (need v))).rest ∧ g'.regs = (F (v.counted s (need v))).regs ∧ WentOn v h g' ∧
      t.pk.beside = s.pk.beside := by
  have hg : ((w.updGroup v.g F).mapPk fun p => { p with lift := m }).pk.groups.find? v.g = some (F (v.counted s (need v))) :=
    FMap.find?_adjust_self hw.group
  obtain ⟨g', e, hrest, hregs, hgoes⟩ := issue_leaves hi (k := none) hb hw.wr hg (hF.placed (placed_counted s v (need v)))
  exact ⟨_, g', e, rfl, FMap.find?_insert_self .., hrest, hregs, hgoes, (Package.beside_tables w.pk _ m).trans hp⟩

/-- `hexp`, whose write of the token is the effect F. -/
theorem hexp_writes {f : HexpF} (hi : Issues s f.h f.h.words (hexpNeed f v) v) (ha : v.act.any = true)
    (hu : ∀ w : Work, w.writeU v f.d 2 (fun _ => (chainToken s.pk v.grp f.ha.toNat f.scope).word) = w.updGroup v.g F) :
    ∃ t g', exec (.hexp f) s = .next t ∧ t.mem = s.mem ∧ t.pk.groups.find? v.g = some g' ∧
      g'.rest = (F (v.counted s (hexpNeed f v))).rest ∧ g'.regs = (F (v.counted s (hexpNeed f v))).regs ∧ WentOn v f.h g' ∧
      t.pk.beside = s.pk.beside := by
  have hs := viewOf_seen hi.seen
  obtain ⟨m, hb⟩ := hexpBody_eq ha f ((Work.start s).issued v (hexpNeed f v))
  exact issue_lift hF (need := hexpNeed f) hi (readied_issued hs _) (by rw [issued_pk hs]; rfl)
    (hb.trans (congrArg (fun w : Work => done (w.mapPk fun p => { p with lift := m })) (hu _)))

end

section
variable {s : State} {v : View} {h : Hdr} {sc : Scope} {hd : BitVec 4}

theorem hexp_writes_scalar {d : BitVec 5} (hi : Issues s h h.words (hexpNeed ⟨h, sc, .s d, hd⟩ v) v) (ha : v.act.any = true) :
    ∃ t g', exec (.hexp ⟨h, sc, .s d, hd⟩) s = .next t ∧ t.mem = s.mem ∧ t.pk.groups.find? v.g = some g' ∧
      g'.rest = (v.grp.setSreg d.toNat (BitVec.ofNat 64 ((chainToken s.pk v.grp hd.toNat sc).word % 2 ^ 64))).rest ∧
      SameRegs v.grp g' ∧ WentOn v h g' ∧ t.pk.beside = s.pk.beside := by
  obtain ⟨erest, eregs, -, -⟩ := Group.stand_eq.1 (View.counted_stand s v (hexpNeed ⟨h, sc, .s d, hd⟩ v))
  obtain ⟨t, g', e, hmem, hg, hrest, hregs, hgoes, hbeside⟩ :=
    hexp_writes (local_setSreg ..) (f := ⟨h, sc, .s d, hd⟩) hi ha fun _ => rfl
  exact ⟨t, g', e, hmem, hg, hrest.trans ((onRest_setSreg ..).rest _ _ erest), Group.reg_congr (hregs.trans eregs), hgoes,
    hbeside⟩

theorem hexp_writes_vector {r : BitVec 9} {x : Bool} (hi : Issues s h h.words (hexpNeed ⟨h, sc, .v r x, hd⟩ v) v)
    (ha : v.act.any = true) :
    ∃ t g', exec (.hexp ⟨h, sc, .v r x, hd⟩) s = .next t ∧ t.mem = s.mem ∧ t.pk.groups.find? v.g = some g' ∧
      WroteRegs v.grp g' (uniReg r 2) 2 x v.act (fun _ => (chainToken s.pk v.grp hd.toNat sc).word) ∧
      g'.rest = v.grp.rest ∧ WentOn v h g' ∧ t.pk.beside = s.pk.beside := by
  obtain ⟨erest, eregs, -, -⟩ := Group.stand_eq.1 (View.counted_stand s v (hexpNeed ⟨h, sc, .v r x, hd⟩ v))
  obtain ⟨t, g', e, hmem, hg, hrest, hregs, hgoes, hbeside⟩ :=
    hexp_writes (local_writeVal ..) (f := ⟨h, sc, .v r x, hd⟩) hi ha fun _ => rfl
  refine ⟨t, g', e, hmem, hg, fun j L => ?_, hrest.trans ((Group.stay_writeVal ..).1.trans erest), hgoes, hbeside⟩
  have hw := (v.counted s (hexpNeed ⟨h, sc, .v r x, hd⟩ v)).wrote_writeVal (uniReg r 2) 2 x v.act
    (fun _ => (chainToken s.pk v.grp hd.toNat sc).word) j L
  rw [Group.reg_congr eregs j, ← Group.reg_congr hregs j] at hw
  exact hw

end

/-- The token names no scope, core or reachable package. -/
def TokenBad (s : State) (v : View) (k : Token) : Prop :=
  k.scope > 5 ∨ k.core > 191 ∨ !inDomain s.pk (domainOf (Work.start s) v.grp.ctx) k.pkg

/-- A chain that follows the accesses `awaits`, and the token x unless it is met. -/
def Chain.importing (c : Chain) (awaits : List Nat) (met : Bool) (x : W64) : Chain :=
  if met then { c with awaits := (c.awaits ++ awaits).eraseDups }
  else { c with awaits := (c.awaits ++ awaits).eraseDups, imports := c.imports ++ [x] }

/-- The group gi once its handle hd has imported the token x. -/
def Group.importToken (g : Group) (p : Package) (gi hd x : Nat) : Group :=
  g.setChain hd ((g.chain hd).importing (exportedOpen p gi (tokenOf x)) (tokenMet p (BitVec.ofNat 64 x)) (BitVec.ofNat 64 x))

theorem Chain.imports_importing (c : Chain) (awaits : List Nat) (met : Bool) (x : W64) :
    (c.importing awaits met x).imports = c.imports ++ if met then [] else [x] := by
  cases met with
  | true => exact (List.append_nil _).symm
  | false => rfl

section
variable {s : State} {v : View} {f : HuniF} (hi : Issues s f.h f.h.words (huniNeed f 3 v) v) (ha : v.act.any = true)
include hi ha

theorem himp_faults (hbad : TokenBad s v (tokenOf (v.uni f.a 2))) :
    exec (.himp f) s = .next (s.run fun w => raiseFault w v.g v.pc .prot v.act (v.uni f.a 2) 0) :=
  issue_trap (body := himpBody f) hi ((once_of_active ha _ _).trans (if_pos hbad))

theorem himp_imports (hgood : ¬TokenBad s v (tokenOf (v.uni f.a 2))) (hlost : tokenLost s.pk (tokenOf (v.uni f.a 2)) = false) :
    ∃ g', exec (.himp f) s = .next (s.withGroup v.g g') ∧ SameButChains v.grp g' ∧ WentOn v f.h g' ∧
      (∀ j, j ≠ f.hd.toNat → g'.chain j = v.grp.chain j) ∧
      (g'.chain f.hd.toNat).imports = (v.grp.chain f.hd.toNat).imports ++
        (if tokenMet s.pk (BitVec.ofNat 64 (v.uni f.a 2)) then [] else [BitVec.ofNat 64 (v.uni f.a 2)]) := by
  have hlost' : ¬tokenLost s.pk (tokenOf (v.uni f.a 2)) = true := by rw [hlost]; exact Bool.false_ne_true
  have hb : himpBody f v ((Work.start s).issued v (huniNeed f 3 v)) =
      done (((Work.start s).issued v (huniNeed f 3 v)).updGroup v.g
        fun g => g.importToken s.pk v.g f.hd.toNat (v.uni f.a 2)) :=
    (once_of_active ha _ _).trans ((if_neg hgood).trans (if_neg hlost'))
  rw [Work.updGroup_of_find _ (readied_issued (viewOf_seen hi.seen) _).group] at hb
  obtain ⟨g', hx, hset⟩ := issue_setsChains (need := huniNeed f 3) (k := none) hi hb
  have hchain (j : Nat) :=
    hset.chain (g := (v.counted s (huniNeed f 3 v)).importToken s.pk v.g f.hd.toNat (v.uni f.a 2)) rfl j
  refine ⟨g', hx, hset.same, hset.goes, fun j hj => ?_, ?_⟩
  · rw [hchain, Group.importToken, Group.chain_setChain, if_neg hj, View.counted_chain]
  · rw [hchain, Group.importToken, Group.chain_setChain_self, Chain.imports_importing, View.counted_chain]

end

/-- Settles O27: `hexp` writes its group's register and one entry of the lift line; `himp` sets one chain, after its check. -/
theorem tokensExportAndImport : Obligations.TokensExportAndImport :=
  ⟨fun _ _ _ _ _ _ hi ha => hexp_writes_scalar hi ha, fun _ _ _ _ _ _ _ hi ha => hexp_writes_vector hi ha,
    fun _ _ _ hi ha => ⟨himp_imports hi ha, himp_faults hi ha⟩⟩

end Sys2Proof.Machine
end

section
/-!
PROOFS. Barriers (R257 to R259). An arrival sets its group's chains and counts once (`Group.arrived`), and may complete the phase in
the block or the launch (`arriveAt_arrives`). Whether `bar` then waits is one question of numbers: the phase is complete exactly when
the least arrival of the block's groups has passed it (`phasePassed_succ`, `phasePassed_of_le`).
-/
namespace Sys2Proof.Machine

/-! ### Phases -/

/-- The working copies have the same groups and the same writes. -/
def SameGroups (w w' : Work) : Prop := w'.wr = w.wr ∧ w'.pk.groups = w.pk.groups

theorem SameGroups.onBlock {w : Work} {u : Nat} {f : Block → Work → Work} (h : ∀ b, SameGroups w (f b w)) :
    SameGroups w (w.onBlock u f) := by
  unfold Work.onBlock
  split
  · exact h _
  · exact ⟨rfl, rfl⟩

theorem SameGroups.onLaunch {w : Work} {u : Nat} {f : Launch → Work → Work} (h : ∀ b, SameGroups w (f b w)) :
    SameGroups w (w.onLaunch u f) := by
  unfold Work.onLaunch
  split
  · exact h _
  · exact ⟨rfl, rfl⟩

theorem completePhases_groups (w : Work) (u : Nat) {n : Nat} (hn : n ≠ 16) : SameGroups w (completePhases w u n) := by
  unfold completePhases
  refine SameGroups.onBlock fun b => ?_
  split
  · exact ⟨rfl, rfl⟩
  · dsimp only
    rw [if_neg hn]
    split <;> exact ⟨rfl, rfl⟩

theorem completeGang_groups (w : Work) (lnch gang : Nat) : SameGroups w (completeGang w lnch gang) := by
  unfold completeGang
  refine SameGroups.onLaunch fun l => ?_
  dsimp only
  split
  · exact ⟨rfl, rfl⟩
  · split
    · exact ⟨rfl, rfl⟩
    · split <;> exact ⟨rfl, rfl⟩

/-- As many phases are complete as the block's groups have all arrived at, and never fewer than before. -/
theorem completePhases_phases {w : Work} {u n k : Nat} {b : Block} (hn : n ≠ 16) (hb : w.pk.blocks.find? u = some b)
    (hk : leastArrival w.pk b.groups n = some k) :
    ∃ b', (completePhases w u n).pk.blocks.find? u = some b' ∧ b'.phases.getD 0 n = max (b.phases.getD 0 n) k := by
  unfold completePhases Work.onBlock Work.block?
  simp only [hb, hk, hn, if_false]
  split
  · next h =>
    refine ⟨_, FMap.find?_adjust_self hb, ?_⟩
    rw [FMap.getD_put, if_pos rfl]
    exact (Nat.max_eq_right (Nat.le_of_lt h.1)).symm
  · next h => exact ⟨b, hb, (Nat.max_eq_left (Nat.le_of_not_lt fun hlt => h ⟨hlt, .inl hn⟩)).symm⟩

theorem leastArrival_congr {p q : Package} (h : p.groups = q.groups) (gs : List Nat) (n : Nat) :
    leastArrival p gs n = leastArrival q gs n := by
  rw [leastArrival, h]; rfl

theorem leastArrival_le {p : Package} {gs : List Nat} {j : Nat} {y : Group} (n : Nat) (hj : j ∈ gs)
    (hy : p.groups.find? j = some y) : ∃ k, leastArrival p gs n = some k ∧ k ≤ y.arr.getD 0 n := by
  have hmem : y.arr.getD 0 n ∈ gs.filterMap fun i => (p.groups.find? i).map fun g => g.arr.getD 0 n :=
    List.mem_filterMap.2 ⟨j, hj, by rw [hy]; rfl⟩
  unfold leastArrival
  cases hm : (gs.filterMap fun i => (p.groups.find? i).map fun g => g.arr.getD 0 n).min? with
  | none => rw [List.min?_eq_none_iff.1 hm] at hmem; cases hmem
  | some k => exact ⟨k, rfl, (List.min?_eq_some_iff.1 hm).2 _ hmem⟩

/-- A phase that not all have arrived at has not passed, within the limit of R257. -/
theorem phasePassed_of_le {c a : Nat} (h : c ≤ a) (hl : a < c + 32768) : phasePassed c (a % 2 ^ 16) = false := by
  simp only [phasePassed, decide_eq_false_iff_not]
  omega

/-! ### An arrival -/

/-- The group once it has arrived at barrier n. -/
def Group.arrived (g : Group) (n : Nat) (cs : FMap Chain) : Group :=
  { g with arr := g.arr.put 0 n (g.arr.getD 0 n + 1), chains := cs }

theorem Group.arr_arrived (g : Group) (n : Nat) (cs : FMap Chain) (k : Nat) :
    (g.arrived n cs).arr.getD 0 k = g.arr.getD 0 k + if k = n then 1 else 0 := by
  rw [Group.arrived, FMap.getD_put]
  split
  · next h => rw [h]
  · rfl

/-- The machine once the group gi has arrived at barrier n. -/
structure Arrives (gi n : Nat) (g : Group) (w w' : Work) : Prop where
  wr : w'.wr = w.wr
  groups : ∃ cs, w'.pk.groups = w.pk.groups.insert gi (g.arrived n cs)
  phases : n ≠ 17 → ∀ b k, w.pk.blocks.find? g.blk = some b → leastArrival w'.pk b.groups n = some k →
    ∃ b', w'.pk.blocks.find? g.blk = some b' ∧ b'.phases.getD 0 n = max (b.phases.getD 0 n) k

/-- The debts of a barrier with a new one, unless it names no access. -/
def addDebt (p : Package) (d : Debt) (l : List Debt) : List Debt :=
  if d.txns.isEmpty then l else (l.filter fun x => !(openTxns p x.txns).isEmpty) ++ [d]

/-- The machine of an arrival, before phases complete: the group has arrived, and what it releases is noted. -/
theorem arriveAt_eq {w : Work} {gi n : Nat} {g : Group} (hg : w.pk.groups.find? gi = some g) (hn : n ≠ 16) :
    ∃ cs, ∃ D : List Debt → List Debt, arriveAt w gi n = (g.arr.getD 0 n % 2 ^ 16,
      if n = 17 then
        ((w.setGroup gi (g.arrived n cs)).updLaunch g.lnch fun l => { l with gdebts := D l.gdebts }).onBlock g.blk
          fun b w => w.onLaunch g.lnch fun l w => completeGang w g.lnch (b.lin / l.gangSize)
      else completePhases ((w.setGroup gi (g.arrived n cs)).updBlock g.blk fun b => { b with debts := D b.debts }) g.blk n) := by
  obtain ⟨cs, e⟩ := fenceChains_none w gi { g with arr := g.arr.put 0 n (g.arr.getD 0 n + 1) }
  refine ⟨cs, addDebt w.pk ⟨(barrierOf w.pk g n).bar, g.arr.getD 0 n, openTxns w.pk (groupTxns w.pk gi ++ g.allChains Chain.awaits)⟩,
    ?_⟩
  unfold arriveAt Work.group?
  simp only [hg, hn, false_and, if_false]
  rw [Work.updGroup_of_find _ hg, e]
  by_cases h : n = 17
  · simp only [h, if_true]
    rfl
  · simp only [h, if_false]
    rfl

theorem arriveAt_arrives {w : Work} {gi n : Nat} {g : Group} (hg : w.pk.groups.find? gi = some g) (hn : n ≠ 16) :
    ∃ w', arriveAt w gi n = (g.arr.getD 0 n % 2 ^ 16, w') ∧ Arrives gi n g w w' := by
  obtain ⟨cs, D, e⟩ := arriveAt_eq hg hn
  refine ⟨_, e, ?_⟩
  by_cases h : n = 17
  · rw [if_pos h]
    obtain ⟨hwr, hgs⟩ : SameGroups ((w.setGroup gi (g.arrived n cs)).updLaunch g.lnch fun l => { l with gdebts := D l.gdebts })
        (((w.setGroup gi (g.arrived n cs)).updLaunch g.lnch fun l => { l with gdebts := D l.gdebts }).onBlock g.blk
          fun b w => w.onLaunch g.lnch fun l w => completeGang w g.lnch (b.lin / l.gangSize)) :=
      SameGroups.onBlock fun b => SameGroups.onLaunch fun l => completeGang_groups ..
    exact ⟨hwr, ⟨cs, hgs⟩, fun hne => absurd h hne⟩
  · rw [if_neg h]
    obtain ⟨hwr, hgs⟩ := completePhases_groups
      ((w.setGroup gi (g.arrived n cs)).updBlock g.blk fun b => { b with debts := D b.debts }) g.blk hn
    refine ⟨hwr, ⟨cs, hgs⟩, fun _ b k hb hk => ?_⟩
    have hb' := FMap.find?_adjust_self (f := fun b : Block => { b with debts := D b.debts }) hb
    rw [leastArrival_congr hgs] at hk
    exact completePhases_phases (b := { b with debts := D b.debts }) hn hb' hk

section
variable {gi n : Nat} {g : Group} {w w' : Work} {b : Block} (a : Arrives gi n g w w') (hn : n ≠ 17)
  (hb : w.pk.blocks.find? g.blk = some b) (hp : b.phases.getD 0 n ≤ g.arr.getD 0 n)
include a hn hb hp

/-- The arrival of a block's only group completes its phase. -/
theorem Arrives.passes (hs : b.groups = [gi]) : barrierPassed w'.pk g n (g.arr.getD 0 n % 2 ^ 16) = true := by
  obtain ⟨cs, hgs⟩ := a.groups
  have hself : w'.pk.groups.find? gi = some (g.arrived n cs) := by rw [hgs, FMap.find?_insert_self]
  have hleast : leastArrival w'.pk b.groups n = some (g.arr.getD 0 n + 1) := by
    rw [hs, leastArrival_single n hself, Group.arr_arrived, if_pos rfl]
  obtain ⟨b', hb', hdone⟩ := a.phases hn b _ hb hleast
  rw [barrierPassed_of_block hb' hn, hdone, Nat.max_eq_right (Nat.le_succ_of_le hp)]
  exact phasePassed_succ _

/-- While another group has arrived less often, the phase is not complete. -/
theorem Arrives.stays {j : Nat} {y : Group} (hj : j ∈ b.groups) (hne : j ≠ gi) (hy : w.pk.groups.find? j = some y)
    (hle : y.arr.getD 0 n ≤ g.arr.getD 0 n) (hl : g.arr.getD 0 n < b.phases.getD 0 n + 32768) :
    barrierPassed w'.pk g n (g.arr.getD 0 n % 2 ^ 16) = false := by
  obtain ⟨cs, hgs⟩ := a.groups
  have hy' : w'.pk.groups.find? j = some y := by rw [hgs, FMap.find?_insert_ne hne, hy]
  obtain ⟨k, hk, hky⟩ := leastArrival_le n hj hy'
  obtain ⟨b', hb', hdone⟩ := a.phases hn b k hb hk
  rw [barrierPassed_of_block hb' hn, hdone]
  exact phasePassed_of_le (by omega) (by omega)

end

/-- An arrival that waits for its own phase, if that has not passed at once. -/
theorem arriveAndWait_arrives {w : Work} {v : View} {n : Nat} {g : Group} (hg : w.pk.groups.find? v.g = some g)
    (hroom : arriveBlocked w.pk v.grp n = false) (hn : n ≠ 16) :
    ∃ w1 w2 cs, Arrives v.g n g w w1 ∧ w2.wr = w.wr ∧ w2.pk.groups.find? v.g = some (g.arrived n cs) ∧
      arriveAndWait v n w = .ok w2
        { block := if barrierPassed w1.pk g n (g.arr.getD 0 n % 2 ^ 16) then none else some (.bar n (g.arr.getD 0 n % 2 ^ 16)) } := by
  obtain ⟨w1, harr, a⟩ := arriveAt_arrives hg hn
  obtain ⟨cs, hgs⟩ := a.groups
  have hself : w1.pk.groups.find? v.g = some (g.arrived n cs) := by rw [hgs, FMap.find?_insert_self]
  cases hp : barrierPassed w1.pk g n (g.arr.getD 0 n % 2 ^ 16) with
  | true =>
    obtain ⟨cs', hacq⟩ := acquirePhase_setGroup w1 v.g n (g.arr.getD 0 n % 2 ^ 16) (g.arrived n cs)
    rw [Work.setGroup_of_groups hgs] at hacq
    refine ⟨w1, w1.setGroup v.g (g.arrived n cs'), cs', a, a.wr, FMap.find?_insert_self .., ?_⟩
    rw [hp, if_pos rfl]
    exact (arriveAndWait_of_passed hroom harr hself hp).trans (congrArg done hacq)
  | false =>
    refine ⟨w1, w1, cs, a, a.wr, hself, ?_⟩
    have hp' : barrierPassed w1.pk (g.arrived n cs) n (g.arr.getD 0 n % 2 ^ 16) = false := hp
    unfold arriveAndWait Work.group?
    simp only [hroom, harr, hself, hp', hp, Bool.false_eq_true, if_false]

/-! ### `bar`, `gbar`, `bara` and `barw` -/

/-- A group whose rest is that of one which has arrived. -/
theorem arrived_of_rest {g g0 g' : Group} {n : Nat} {cs : FMap Chain} (h0 : g.rest = g0.rest)
    (h : g'.rest = (g.arrived n cs).rest) : Arrived g0 g' n := by
  have hr : g'.rest = { g.rest with arr := (g.arrived n cs).arr, chains := cs } := h
  refine ⟨fun k => ?_, by rw [hr, h0]⟩
  have harr : g'.arr = (g.arrived n cs).arr := (congrArg Group.arr hr :)
  have h0arr : g.arr = g0.arr := (congrArg Group.arr h0 :)
  rw [harr, Group.arr_arrived, h0arr]

theorem Placed.arrived {v : View} {g : Group} (hp : Placed v g) (n : Nat) (cs : FMap Chain) : Placed v (g.arrived n cs) :=
  ⟨hp.splits, hp.jmasks, hp.lanes, hp.stat, hp.saveReq⟩

section
variable {i : Instr} {s : State} {v : View} {h : Hdr} (hi : Issues s h h.words {} v) (ha : v.act.any = true)
include hi ha

/-- An instruction that arrives at barrier n and waits for its phase. -/
theorem issue_arrives {n : Nat} (he : exec i s = issue s h (fun _ => {}) fun v w => once v w (arriveAndWait v n))
    (hroom : arriveBlocked s.pk v.grp n = false) (hn : n ≠ 16) :
    ∃ t g' w1, exec i s = .next t ∧ t.mem = s.mem ∧ t.pk.groups.find? v.g = some g' ∧ SameRegs v.grp g' ∧
      Arrived v.grp g' n ∧ Arrives v.g n (v.counted s {}) ((Work.start s).issued v {}) w1 ∧
      GoesOrWaits v h g' (if barrierPassed w1.pk (v.counted s {}) n ((v.counted s {}).arr.getD 0 n % 2 ^ 16) then none
        else some (.bar n ((v.counted s {}).arr.getD 0 n % 2 ^ 16))) := by
  obtain ⟨erest, eregs, -, -⟩ := Group.stand_eq.1 (View.counted_stand s v {})
  obtain ⟨w1, w2, cs, a, hwr, hg, hb⟩ := arriveAndWait_arrives (readied_issued (viewOf_seen hi.seen) {}).group hroom hn
  obtain ⟨g', e, hrest, hregs, hgoes⟩ := issue_leaves (need := fun _ => {}) (body := fun v w => once v w (arriveAndWait v n)) hi
    ((once_of_active ha _ _).trans hb) hwr hg ((placed_counted s v {}).arrived n cs)
  exact ⟨_, g', w1, he.trans e, rfl, FMap.find?_insert_self .., Group.reg_congr (hregs.trans eregs),
    arrived_of_rest erest hrest, a, hgoes⟩

end

section
variable {s : State} {v : View}

theorem bar_arrives {f : BarF} (hi : Issues s f.h f.h.words {} v) (ha : v.act.any = true)
    (hroom : arriveBlocked s.pk v.grp f.n.toNat = false) :
    ∃ t g', exec (.bar f) s = .next t ∧ t.mem = s.mem ∧ t.pk.groups.find? v.g = some g' ∧ SameRegs v.grp g' ∧
      Arrived v.grp g' f.n.toNat ∧
      ∀ b, s.pk.blocks.find? v.grp.blk = some b →
        (b.groups = [v.g] → b.phases.getD 0 f.n.toNat ≤ v.grp.arr.getD 0 f.n.toNat → WentOn v f.h g') ∧
        (∀ j y, j ∈ b.groups → j ≠ v.g → s.pk.groups.find? j = some y →
          y.arr.getD 0 f.n.toNat ≤ v.grp.arr.getD 0 f.n.toNat →
          b.phases.getD 0 f.n.toNat ≤ v.grp.arr.getD 0 f.n.toNat → v.grp.arr.getD 0 f.n.toNat < b.phases.getD 0 f.n.toNat + 32768 →
          WaitsFor v g' (.bar f.n.toNat (v.grp.arr.getD 0 f.n.toNat % 2 ^ 16))) := by
  have hn : f.n.toNat < 16 := f.n.isLt
  obtain ⟨t, g', w1, e, hmem, hg, hregs, harr, a, hgoes⟩ := issue_arrives hi ha (i := .bar f) rfl hroom (by omega)
  obtain ⟨erest, -, -, -⟩ := Group.stand_eq.1 (View.counted_stand s v {})
  have hblk : (v.counted s {}).blk = v.grp.blk := (congrArg Group.blk erest :)
  have hcount : (v.counted s {}).arr = v.grp.arr := (congrArg Group.arr erest :)
  refine ⟨t, g', e, hmem, hg, hregs, harr, fun b hb => ⟨fun hs hp => ?_, fun j y hj hne hy hle hp hl => ?_⟩⟩
  · rw [a.passes (by omega) (hblk ▸ hb) (hcount ▸ hp) hs, if_pos rfl] at hgoes
    exact hgoes
  · rw [a.stays (by omega) (hblk ▸ hb) (hcount ▸ hp) hj hne ((FMap.find?_adjust ..).trans ((if_neg hne).trans hy)) (hcount ▸ hle)
      (hcount ▸ hl), if_neg Bool.false_ne_true, hcount] at hgoes
    exact hgoes.2

theorem gbar_arrives {f : Bare} (hi : Issues s f.h f.h.words {} v) (ha : v.act.any = true)
    (hroom : arriveBlocked s.pk v.grp 17 = false) :
    ∃ t g', exec (.gbar f) s = .next t ∧ t.mem = s.mem ∧ t.pk.groups.find? v.g = some g' ∧ SameRegs v.grp g' ∧
      Arrived v.grp g' 17 := by
  obtain ⟨t, g', -, e, hmem, hg, hregs, harr, -⟩ := issue_arrives hi ha (i := .gbar f) rfl hroom (by decide)
  exact ⟨t, g', e, hmem, hg, hregs, harr⟩

end

section
variable {s : State} {v : View} {f : BarSF} (hi : Issues s f.h f.h.words {} v) (ha : v.act.any = true)
include hi ha

theorem bara_arrives (hroom : arriveBlocked s.pk v.grp f.n.toNat = false) :
    ∃ t g', exec (.bara f) s = .next t ∧ t.mem = s.mem ∧ t.pk.groups.find? v.g = some g' ∧ SameRegs v.grp g' ∧
      Arrived (v.grp.setSreg f.s.toNat (BitVec.ofNat 64 (v.grp.arr.getD 0 f.n.toNat % 2 ^ 16))) g' f.n.toNat ∧
      WentOn v f.h g' := by
  have hn : f.n.toNat < 16 := f.n.isLt
  obtain ⟨erest, eregs, -, -⟩ := Group.stand_eq.1 (View.counted_stand s v {})
  have hcount : (v.counted s {}).arr = v.grp.arr := (congrArg Group.arr erest :)
  have hroom' : ¬arriveBlocked s.pk v.grp f.n.toNat = true := by rw [hroom]; exact Bool.false_ne_true
  obtain ⟨w1, harr, a⟩ := arriveAt_arrives (n := f.n.toNat) (readied_issued (viewOf_seen hi.seen) {}).group (by omega)
  obtain ⟨cs, hgs⟩ := a.groups
  rw [hcount] at harr
  have hb : baraBody f v ((Work.start s).issued v {}) = done (w1.writeS v f.s (v.grp.arr.getD 0 f.n.toNat % 2 ^ 16)) := by
    refine (once_of_active ha _ _).trans ((if_neg hroom').trans ?_)
    rw [harr]
  have hg := FMap.find?_adjust_self (f := fun g => g.setSreg f.s.toNat (BitVec.ofNat 64 (v.grp.arr.getD 0 f.n.toNat % 2 ^ 16)))
    ((congrArg (FMap.find? · v.g) hgs).trans (FMap.find?_insert_self ..))
  obtain ⟨g', e, hrest, hregs, hgoes⟩ := issue_leaves (need := fun _ => {}) (k := none) hi hb a.wr hg
    ((local_setSreg ..).placed ((placed_counted s v {}).arrived _ cs))
  exact ⟨_, g', e, rfl, FMap.find?_insert_self .., Group.reg_congr (hregs.trans eregs),
    arrived_of_rest (g := (v.counted s {}).setSreg _ _) ((onRest_setSreg ..).rest _ _ erest) hrest, hgoes⟩

theorem barw_waits :
    ∃ g', exec (.barw f) s = .next (s.withGroup v.g g') ∧ SameButChains v.grp g' ∧
      GoesOrWaits v f.h g' (if barrierPassed s.pk v.grp f.n.toNat (v.s f.s % 2 ^ 16) then none
        else some (.barw f.n.toNat (v.s f.s % 2 ^ 16))) := by
  have hself := Work.setGroup_of_groups (congrArg Package.groups (issued_pk (viewOf_seen hi.seen) {}))
  obtain ⟨cs, ef⟩ := fenceChains_none ((Work.start s).issued v {}) v.g (v.counted s {})
  obtain ⟨cs', ea⟩ := acquirePhase_setGroup ((Work.start s).issued v {}) v.g f.n.toNat (v.s f.s % 2 ^ 16)
    { v.counted s {} with chains := cs }
  rw [hself] at ef
  have hb : barwBody f v ((Work.start s).issued v {}) = if barrierPassed s.pk v.grp f.n.toNat (v.s f.s % 2 ^ 16) then
      done (acquirePhase (fenceChains ((Work.start s).issued v {}) v.g none) v.g f.n.toNat (v.s f.s % 2 ^ 16))
    else .ok (fenceChains ((Work.start s).issued v {}) v.g none) { block := some (.barw f.n.toNat (v.s f.s % 2 ^ 16)) } := by
    refine (once_of_active ha _ _).trans ?_
    dsimp only
    rw [ef]
    rfl
  rw [ef, ea] at hb
  cases hp : barrierPassed s.pk v.grp f.n.toNat (v.s f.s % 2 ^ 16) with
  | true =>
    rw [hp, if_pos rfl] at hb
    obtain ⟨g', hx, hset⟩ := issue_setsChains (need := fun _ => {}) (k := none) hi hb
    exact ⟨g', hx, hset.same, hset.goes⟩
  | false =>
    rw [hp, if_neg Bool.false_ne_true] at hb
    obtain ⟨g', hx, hset⟩ := issue_setsChains (need := fun _ => {}) hi hb
    exact ⟨g', hx, hset.same, hset.goes⟩

end

/-- Settles O28: an arrival counts once, and the least arrival of the block's groups decides at once whether it waits. -/
theorem barrierArrivals : Obligations.BarrierArrivals :=
  ⟨fun _ _ _ hi ha hroom => bar_arrives hi ha hroom, fun _ _ _ hi ha hroom => bara_arrives hi ha hroom,
    fun _ _ _ hi ha hroom => gbar_arrives hi ha hroom, fun _ _ _ hi ha => barw_waits hi ha⟩

end Sys2Proof.Machine
end
